-- ==== Sys2Proof/Word.lean ====
section
/-! DEFINITION. The word types of the block: bytes, 32-bit host words, byte strings, slot indexes. -/

namespace Sys2Proof

/-- A byte of a frame, a buffer or an 8-bit operand. -/
abbrev Byte := BitVec 8

/-- A 32-bit host register, device address or CAN identifier (R9, R18). -/
abbrev Word := BitVec 32

/-- A byte string, byte 0 first on the wire (R11). -/
abbrev Bytes := List Byte

/-- A connection slot index (R28). -/
abbrev Slot := BitVec 8

/-- The slot index that names no slot (R28). -/
abbrev noSlot : Slot := 0xFF#8

end Sys2Proof
end

