-- ==== Sys2Proof/Config.lean ====
section
/-! DEFINITION. What an implementation fixes: the OPEN parameters of 00_scope.md section 4 (R8), the descriptor
records (R33), the shape of a port answer (R39), and the free values. -/

namespace Sys2Proof

/-- The three transport kinds (R29). -/
inductive Kind where
  | spi | modbus | can
deriving DecidableEq, Repr, Inhabited

/-- Addressing generation of the device-type register (R33). -/
inductive Gen where
  | old | new
deriving DecidableEq, Repr, Inhabited

/-- Parity of a Modbus line (R33). -/
inductive Parity where
  | none | even | odd
deriving DecidableEq, Repr, Inhabited

/-- The protocol of a CAN descriptor (R33). -/
inductive Proto where
  | universal | direct
deriving DecidableEq, Repr, Inhabited

/-- The Direct-CAN sensor family: A acknowledges streaming requests, B does not (R33, R150). -/
inductive Family where
  | a | b
deriving DecidableEq, Repr, Inhabited

/-- What a SetBaseAddress frame carries (parameter CAN_BASE_VALUE, R129). -/
inductive BaseValue where
  | full | masked
deriving DecidableEq, Repr, Inhabited

/-- SPI addressing (R33). -/
structure SpiDesc where
  chipAddress : Byte
  clockHz : Word
deriving DecidableEq, Repr, Inhabited

/-- Modbus addressing (R33); `page` is MODBUS_PAGE, at least 1. -/
structure MbDesc where
  baud : Word
  parity : Parity
  devAddr : Byte
  page : BitVec 16
deriving DecidableEq, Repr, Inhabited

/-- CAN addressing (R33). -/
structure CanDesc where
  channel : Byte
  speed : Word
  extended : Bool
  baseIdTx : Word
  baseIdRx : Word
  proto : Proto
  family : Family
  answerOffset : Byte
  answerOnTx1 : Bool
deriving DecidableEq, Repr, Inhabited

/-- A connection descriptor (R32, R33). The record of a kind other than `kind` has no meaning
(DESIGN CHOICE, log 31). -/
structure Desc where
  valid : Bool
  kind : Kind
  gen : Gen
  port : Byte
  spi : SpiDesc
  mb : MbDesc
  can : CanDesc
deriving DecidableEq, Repr, Inhabited

/-- A Universal-protocol opcode: its byte on SPI and Modbus, and its CANU_CMD byte on CAN (00_scope.md section 4;
DESIGN CHOICE to hold the two together, log 26). -/
structure Opc where
  wire : Byte
  canu : Byte
deriving DecidableEq, Repr, Inhabited

/-- One legal reset type t with OPC_RESET[t] and OPC_RESET_BOOT[t] (R116). -/
structure ResetType where
  code : Word
  opc : Opc
  boot : Opc
deriving DecidableEq, Repr, Inhabited

/-- One Init configuration write: its address per generation and its data bytes (R117). -/
structure InitWrite where
  addrOld : Word
  addrNew : Word
  data : Bytes
deriving DecidableEq, Repr, Inhabited

/-- The six transaction-info error codes (R120). -/
structure TxCodes where
  accessViolation : Byte
  invalidAddress : Byte
  commandNotFound : Byte
  writeDisabled : Byte
  crcFailed : Byte
  execError : Byte
deriving DecidableEq, Repr, Inhabited

/-- A size per transport kind (BUF0_IN, BUF0_OUT). -/
structure KindSizes where
  spi : Nat
  modbus : Nat
  can : Nat
deriving DecidableEq, Repr, Inhabited

/-- Every OPEN parameter of 00_scope.md section 4. N_DESC is the length of `descs`. -/
structure Config where
  canMaxDetections : Nat
  statusWelBit : Nat
  opcRegmapRead : Opc
  opcRegmapWrite : Opc
  opcReadStatus : Opc
  opcWren : Opc
  opcWrdis : Opc
  resetTypes : List ResetType
  devtypeAddrOld : Word
  devtypeAddrNew : Word
  devtypeSize : Nat
  initSecure : InitWrite
  initReadypin : InitWrite
  initPartial : InitWrite
  txinfoAddr : Word
  txCodes : TxCodes
  spiReadReqCrc : Bool
  canuCmdSetbase : Byte
  canBaseValue : BaseValue
  dcanStreamCmd : Byte
  dcanStreamSubOn : Byte
  dcanStreamSubOff : Byte
  fifoDepth : Nat
  nConn : Nat
  nSpi : Nat
  nMb : Nat
  nCan : Nat
  hbufSize : Nat
  buf0In : KindSizes
  buf0Out : KindSizes
  bufMax : Nat
  defaultCrcRetries : Nat
  descs : List Desc
deriving DecidableEq, Repr, Inhabited

/-- The 8 data bytes of a CAN frame: command, sub-command and six argument bytes (R80). -/
structure Frame where
  cmd : Byte
  sub : Byte
  arg0 : Byte
  arg1 : Byte
  arg2 : Byte
  arg3 : Byte
  arg4 : Byte
  arg5 : Byte
deriving DecidableEq, Repr, Inhabited

/-- One frame of the CAN bus with its identifier and event field (R39). -/
structure CanRx where
  id : Word
  data : Frame
  ev : Word
deriving DecidableEq, Repr, Inhabited

/-- How a port primitive ends when it returns (R39). -/
inductive Fate where
  | returns
  | notConnected
  | timeout (flag : Bool)
deriving DecidableEq, Repr, Inhabited

/-- One answer of the outside world to one port call (R39): how the call ends, the bytes an SPI or Modbus read
delivers, what a CAN read delivers. A primitive reads only the parts it has. -/
structure Draw where
  fate : Fate
  bytes : Bytes
  frame : Option CanRx
deriving DecidableEq, Repr, Inhabited

/-- The configuration the machine has at `State.reset`: any (R8; log 1). -/
opaque Config.params : Config

/-- The answer of a port call that no scripted answer covers: any (R39; log 3). -/
opaque Config.freeDraw : Nat → Draw

/-- Byte `i` of an SPI answer whose scripted bytes end earlier: any (R39; log 4). -/
opaque Config.freeByte : Nat → Nat → Byte

/-- The "likely disconnected" flag of ANSWER_WAIT and RESPONSE_SLOT: any (R157, D40; log 5). -/
opaque Config.freeFlag : Nat → Bool

end Sys2Proof
end

