-- ==== Sys2Proof/Machine/Params.lean ====
section
/-! DEFINITION. The parameter values the source gives (00_scope.md section 4) and the constraints the spec puts on the
OPEN ones. -/

namespace Sys2Proof

/-- CRC16_INIT (R84). -/
def crc16Init : BitVec 16 := 0xFFFF#16

/-- CRC16_POLY (R84). -/
def crc16Poly : BitVec 16 := 0xA001#16

/-- SPI_WRITE_PAGE (R53). -/
def spiWritePage : Nat := 512

/-- CAN_CHUNK (R53). -/
def canChunk : Nat := 4

/-- CAN_SLOT_POLLS (R128). -/
def canSlotPolls : Nat := 100

/-- WAW_POLLS (R143). -/
def wawPolls : Nat := 1000

/-- WAW_EVENT_ATTEMPTS (R143). -/
def wawEventAttempts : Nat := 3

/-- STREAM_ACK_ATTEMPTS (R150). -/
def streamAckAttempts : Nat := 5

/-- STREAM_SETTLE_MS (R150). -/
def streamSettleMs : Nat := 10

/-- CRC_RETRY_SLEEP_MS (R101). -/
def crcRetrySleepMs : Nat := 1

/-- READY_POLL_MS (R107). -/
def readyPollMs : Nat := 10

/-- The delay between write-and-wait reads and between response-slot polls (R128, R143, R167). -/
def pollSleepMs : Nat := 1

/-- STATUS_BUSY_BIT of the device status byte (R27). -/
def statusBusyBit : Nat := 0

/-- STATUS_SIZE (R106). -/
def statusSize : Nat := 1

/-- TXINFO_SIZE (D16). -/
def txinfoSize : Nat := 1

/-- MODBUS_FC_READ (R78). -/
def fcRead : Byte := 0x42#8

/-- MODBUS_FC_WRITE (R78). -/
def fcWrite : Byte := 0x43#8

/-- MODBUS_FC_OPCODE (R78). -/
def fcOpcode : Byte := 0x44#8

/-- MIN_BUF of a kind (R31). -/
def minBuf : Kind → Nat
  | .can => 8
  | .spi => 1
  | .modbus => 1

/-- The size of a kind. -/
def KindSizes.of (k : KindSizes) : Kind → Nat
  | .spi => k.spi
  | .modbus => k.modbus
  | .can => k.can

/-- The number of ports of a kind: N_SPI, N_MB, N_CAN. -/
def Config.nPorts (g : Config) : Kind → Nat
  | .spi => g.nSpi
  | .modbus => g.nMb
  | .can => g.nCan

/-- The five named opcodes (R83). -/
def Config.namedOpcodes (g : Config) : List Opc :=
  [g.opcRegmapRead, g.opcRegmapWrite, g.opcReadStatus, g.opcWren, g.opcWrdis]

/-- Every opcode: the named ones and the reset opcodes. -/
def Config.opcodes (g : Config) : List Opc :=
  g.namedOpcodes ++ g.resetTypes.map ResetType.opc ++ g.resetTypes.map ResetType.boot

/-- The six transaction-info codes in one list. -/
def TxCodes.all (t : TxCodes) : Bytes :=
  [t.accessViolation, t.invalidAddress, t.commandNotFound, t.writeDisabled, t.crcFailed, t.execError]

/-- The opcode constraints (R83): the five wire bytes distinct; CANU_CMD a function of the opcode that keeps
distinct opcodes distinct; CANU_CMD_SETBASE no CANU_CMD value. The reset opcodes may equal each other or one of the
five: R83 asks distinctness of the five only, D4 lists the reset opcodes with them (DESIGN CHOICE, log 34). -/
def Config.opcodesWf (g : Config) : Bool :=
  decide (g.namedOpcodes.map Opc.wire).Nodup
    && g.opcodes.all (fun x => g.opcodes.all (fun y => (x.wire == y.wire) == (x.canu == y.canu)))
    && g.opcodes.all (fun x => x.canu != g.canuCmdSetbase)

/-- The buffer size constraints (R31). -/
def Config.buffersWf (g : Config) : Bool :=
  [Kind.spi, Kind.modbus, Kind.can].all (fun k =>
    decide (minBuf k ≤ g.buf0In.of k) && decide (g.buf0In.of k ≤ g.bufMax)
      && decide (minBuf k ≤ g.buf0Out.of k) && decide (g.buf0Out.of k ≤ g.bufMax))

/-- The address of an Init write for a generation (R117). -/
def InitWrite.addr (w : InitWrite) : Gen → Word
  | .old => w.addrOld
  | .new => w.addrNew

/-- The address of the device-type register for a generation (R117). -/
def Config.devtypeAddr (g : Config) : Gen → Word
  | .old => g.devtypeAddrOld
  | .new => g.devtypeAddrNew

/-- The constraints the spec puts on the OPEN parameters, and no other (R8): those of 00_scope.md section 4 and of R28,
R31, R32, R33 (log 18), R83 (log 34), that STATUS_WEL_BIT is a bit of a register of one byte (R27) and that DEVTYPE_SIZE
is at most 4 (R117). -/
def Config.wf (g : Config) : Bool :=
  decide (g.statusWelBit < 8)
    && decide (g.devtypeSize ≤ 4)
    && decide (g.nConn ≤ 255) && decide (g.descs.length ≤ 255)
    && decide (g.nSpi ≤ 255) && decide (g.nMb ≤ 255) && decide (g.nCan ≤ 255)
    && decide (8 ≤ g.hbufSize)
    && g.buffersWf && g.opcodesWf
    && decide (0#8 :: g.txCodes.all).Nodup
    && g.descs.all (fun d => d.kind != .modbus || decide (1 ≤ d.mb.page.toNat))

end Sys2Proof
end

