-- ==== Sys2Proof/Machine/Bytes.lean ====
section
/-! DEFINITION. Byte strings (R11), the CRC16 function (R84) and the wire layouts of SPI (R74 to R76), Modbus (R78)
and CAN frames (R80 to R82). -/

namespace Sys2Proof

/-- Byte `i` of a word, byte 0 the least significant (R10). -/
def byteOf {w : Nat} (v : BitVec w) (i : Nat) : Byte := v.extractLsb' (8 * i) 8

/-- `be16` of R11. -/
def be16 (v : BitVec 16) : Bytes := [byteOf v 1, byteOf v 0]

/-- `be24` of R11: the low three bytes of a device address, high byte first. -/
def be24 (v : Word) : Bytes := [byteOf v 2, byteOf v 1, byteOf v 0]

/-- `be32` of R11. -/
def be32 (v : Word) : Bytes := [byteOf v 3, byteOf v 2, byteOf v 1, byteOf v 0]

/-- `le16` of R11. -/
def le16 (v : BitVec 16) : Bytes := [byteOf v 0, byteOf v 1]

/-- `le32` of R11. -/
def le32 (v : Word) : Bytes := [byteOf v 0, byteOf v 1, byteOf v 2, byteOf v 3]

/-- `zeros(n)` of R11. -/
def zeros (n : Nat) : Bytes := List.replicate n 0#8

/-- The 16-bit value of a high and a low byte. -/
def word16 (hi lo : Byte) : BitVec 16 := hi ++ lo

/-- The 32-bit value of four bytes, high byte first. -/
def word32 (b3 b2 b1 b0 : Byte) : Word := b3 ++ b2 ++ b1 ++ b0

/-- Byte `i` of a byte string; 0 past its end (no rule reads there). -/
def byteAt (b : Bytes) (i : Nat) : Byte := b.getD i 0#8

/-- A byte string read as an unsigned integer, byte 0 least significant (R117 step 1). -/
def leValue : Bytes → Nat
  | [] => 0
  | b :: bs => b.toNat + 256 * leValue bs

/-! ### CRC16 -/

/-- One shift of the CRC register (R84). -/
def crcShift (crc : BitVec 16) : BitVec 16 :=
  if crc.getLsbD 0 then (crc >>> 1) ^^^ crc16Poly else crc >>> 1

/-- `n` shifts. -/
def crcShifts : Nat → BitVec 16 → BitVec 16
  | 0, crc => crc
  | n + 1, crc => crcShifts n (crcShift crc)

/-- The CRC register after one more byte (R84). -/
def crcByte (crc : BitVec 16) (v : Byte) : BitVec 16 := crcShifts 8 (crc ^^^ v.setWidth 16)

/-- `CRC16(b)` (R84). -/
def crc16 (b : Bytes) : BitVec 16 := b.foldl crcByte crc16Init

/-- `CRCCheck(H, P, c)` (R86). -/
def crcCheck (h p : Bytes) (c : BitVec 16) : Bool := crc16 (h ++ p) == c

/-! ### SPI frames -/

/-- The SPI header `H` (R74); the size field is 16 bits. -/
def spiHeader (op : Byte) (a : Word) (n : Nat) : Bytes := op :: be24 a ++ be16 (BitVec.ofNat 16 n)

/-- An SPI write frame (R75); with `a = 0` and no payload, the opcode-only frame. -/
def spiWriteFrame (op : Byte) (a : Word) (payload : Bytes) : Bytes :=
  let body := spiHeader op a payload.length ++ payload
  body ++ be16 (crc16 body)

/-- An SPI read request (R76). -/
def spiReadRequest (withCrc : Bool) (op : Byte) (a : Word) (n : Nat) : Bytes :=
  let h := spiHeader op a n
  if withCrc then h ++ be16 (crc16 h) else h

/-- The received CRC of an SPI read response of `n` payload bytes (R77). -/
def spiReceivedCrc (r : Bytes) (n : Nat) : BitVec 16 := word16 (byteAt r n) (byteAt r (n + 1))

/-! ### Modbus frames -/

/-- A Modbus frame: its body and the CRC, low byte first (R48, R78). -/
def mbFrame (body : Bytes) : Bytes := body ++ le16 (crc16 body)

/-- The body of a read-data request (R78). -/
def mbReadBody (dev op : Byte) (a : Word) (n : BitVec 16) : Bytes :=
  [dev, fcRead, op] ++ be32 a ++ be16 n

/-- The body of a write-data request (R78). -/
def mbWriteBody (dev op : Byte) (a : Word) (payload : Bytes) : Bytes :=
  [dev, fcWrite, op] ++ be32 a ++ be16 (BitVec.ofNat 16 payload.length) ++ payload

/-- The body of a send-opcode request (R78). -/
def mbOpcodeBody (dev op : Byte) : Bytes := [dev, fcOpcode, op]

/-- The CRC field of a Modbus answer of length `n` (R79): its last two bytes, low byte first. -/
def mbReceivedCrc (a : Bytes) (n : Nat) : BitVec 16 := word16 (byteAt a (n - 1)) (byteAt a (n - 2))

/-! ### CAN frames -/

/-- The 8 data bytes of a frame in bus order (R80). -/
def Frame.bytes (f : Frame) : Bytes := [f.cmd, f.sub, f.arg0, f.arg1, f.arg2, f.arg3, f.arg4, f.arg5]

/-- The frame of 8 data bytes (R80). -/
def Frame.ofBytes (b : Bytes) : Frame :=
  { cmd := byteAt b 0, sub := byteAt b 1, arg0 := byteAt b 2, arg1 := byteAt b 3
    arg2 := byteAt b 4, arg3 := byteAt b 5, arg4 := byteAt b 6, arg5 := byteAt b 7 }

/-- A Universal-over-CAN register read frame (R81). -/
def canuReadFrame (op : Opc) (a : Word) (k : Nat) : Frame :=
  Frame.ofBytes ([op.canu, BitVec.ofNat 8 k] ++ le16 (a.setWidth 16) ++ zeros 4)

/-- A Universal-over-CAN register write frame with `data` of 1 to 4 bytes (R81). -/
def canuWriteFrame (op : Opc) (a : Word) (data : Bytes) : Frame :=
  Frame.ofBytes ([op.canu, BitVec.ofNat 8 data.length] ++ le16 (a.setWidth 16) ++ data ++ zeros (4 - data.length))

/-- A Universal-over-CAN opcode-only frame (R81). -/
def canuOpcodeFrame (op : Opc) : Frame := Frame.ofBytes ([op.canu, 0#8] ++ zeros 6)

/-- A SetBaseAddress frame (R81). -/
def canuSetBaseFrame (cmd : Byte) (v : Word) : Frame := Frame.ofBytes ([cmd, 0#8, 0#8, 0#8] ++ le32 v)

/-- A GETVAL request (R82). -/
def dcanGetFrame (cmd arg : Byte) : Frame := Frame.ofBytes ([cmd, arg] ++ zeros 6)

/-- A streaming start/stop request (R82). -/
def dcanStreamFrame (g : Config) (enable : Bool) (flag : Word) : Frame :=
  Frame.ofBytes ([g.dcanStreamCmd, if enable then g.dcanStreamSubOn else g.dcanStreamSubOff] ++ le32 flag ++ [0#8, 0#8])

/-! ### Chunks -/

/-- The chunks (offset, length) of a transfer from offset `off` to `n` in pieces of at most `p`; `fuel` bounds their
number (R53). -/
def chunksFrom (p : Nat) : Nat → Nat → Nat → List (Nat × Nat)
  | 0, _, _ => []
  | fuel + 1, off, n =>
    if n ≤ off then [] else (off, min p (n - off)) :: chunksFrom p fuel (off + p) n

/-- The chunks of a transfer of `n` bytes with chunk size `p` (R53). -/
def chunks (p n : Nat) : List (Nat × Nat) := chunksFrom p n 0 n

end Sys2Proof
end

