-- ==== Sys2Proof/Syntax.lean ====
section
/-! DEFINITION. The instructions of the block: one constructor per row of the opcode table. A command carries what
its CMD word carries (CONN and the flags it uses, R19, R69); the ARG operands are state (R20). The last three are the
Modbus request frames (R78) with the fields they carry on the wire. -/

namespace Sys2Proof

inductive Instr where
  /-- OPEN (R90): `e` is the owner flag. -/
  | openConn (c : Slot) (e : Bool)
  /-- CLOSE (R91). -/
  | closeConn (c : Slot)
  /-- CONNECT (R92). -/
  | connect (c : Slot)
  /-- DISCONNECT (R93). -/
  | disconnect (c : Slot)
  /-- ISCONN (R94). -/
  | isconn (c : Slot)
  /-- RESIZE (R95): `e` selects outbuf. -/
  | resize (c : Slot) (e : Bool)
  /-- SETADDR (R97). -/
  | setaddr (c : Slot)
  /-- GETDT (R98). -/
  | getdt (c : Slot)
  /-- SETDT (R99). -/
  | setdt (c : Slot)
  /-- BUFPEEK (R96): `e` selects outbuf. -/
  | bufpeek (c : Slot) (e : Bool)
  /-- INIT (R117). -/
  | init (c : Slot)
  /-- RDREG (R111). -/
  | rdreg (c : Slot)
  /-- WRREG (R112). -/
  | wrreg (c : Slot)
  /-- ISREADY (R113). -/
  | isready (c : Slot)
  /-- SETWE (R114): `e` is the enable. -/
  | setwe (c : Slot) (e : Bool)
  /-- GETSR (R115). -/
  | getsr (c : Slot)
  /-- RESET (R116): `b` is enterBootloader. -/
  | reset (c : Slot) (b : Bool)
  /-- CRC16 (R88). -/
  | crc16
  /-- CRCCHK (R89). -/
  | crcchk
  /-- CANRD (R144). -/
  | canrd (c : Slot)
  /-- CANSEND (R145). -/
  | cansend (c : Slot)
  /-- CANSENDW (R146). -/
  | cansendw (c : Slot)
  /-- GETVAL (R148). -/
  | getval (c : Slot)
  /-- SETVAL (R149). -/
  | setval (c : Slot)
  /-- STREAM (R150): `e` is the enable. -/
  | stream (c : Slot) (e : Bool)
  /-- RDCFG (R152). -/
  | rdcfg (c : Slot)
  /-- RDDET (R153). -/
  | rddet (c : Slot)
  /-- POPCFG (R154). -/
  | popcfg (c : Slot)
  /-- POPDET (R155). -/
  | popdet (c : Slot)
  /-- MB_READ_DATA (R78): device address, opcode, register address, size. -/
  | mbReadData (dev op : Byte) (addr : Word) (size : BitVec 16)
  /-- MB_WRITE_DATA (R78): device address, opcode, register address, payload (its length is the size field). -/
  | mbWriteData (dev op : Byte) (addr : Word) (payload : Bytes)
  /-- MB_SEND_OPCODE (R78): device address, opcode. -/
  | mbSendOpcode (dev op : Byte)
deriving DecidableEq, Repr

end Sys2Proof
end

