-- ==== Sys2Proof/WellFormed.lean ====
section
/-! DEFINITION. The check on instructions that their types do not make: a Modbus write frame has a 16-bit size field
(R78). A slot index of a command may be any byte: one that names no used slot is an error of the running command
(R70), not an ill-formed word. -/

namespace Sys2Proof

/-- A well-formed instruction: what an encoding can carry. -/
def Instr.wf : Instr → Bool
  | .mbWriteData _ _ _ payload => decide (payload.length < 65536)
  | .openConn _ _ | .closeConn _ | .connect _ | .disconnect _ | .isconn _ | .resize _ _ | .setaddr _ | .getdt _
  | .setdt _ | .bufpeek _ _ | .init _ | .rdreg _ | .wrreg _ | .isready _ | .setwe _ _ | .getsr _ | .reset _ _
  | .crc16 | .crcchk | .canrd _ | .cansend _ | .cansendw _ | .getval _ | .setval _ | .stream _ _ | .rdcfg _
  | .rddet _ | .popcfg _ | .popdet _ | .mbReadData _ _ _ _ | .mbSendOpcode _ _ => true

end Sys2Proof
end

