-- ==== Sys2Proof/Decode.lean ====
section
/-! DEFINITION. Decoding and encoding. The block has two encodings (30_encoding.md): the host command word (R65 to R69)
and the Modbus request frames (R78), kept apart as `Code`. Decoding is total and rejects by name; a rejected command
word ends as an error completion (R66, R67). -/

namespace Sys2Proof

/-- The bits of one instruction: a CMD word, or a Modbus request frame. -/
inductive Code where
  | cmd (w : Word)
  | wire (b : Bytes)
deriving DecidableEq, Repr

/-- Why bits are no instruction. -/
inductive Reject where
  /-- A reserved bit, or a field the command does not use, is set (R66). -/
  | reservedBits
  /-- OP is not in the command map (R67). -/
  | unsupportedOpcode
  /-- A Modbus frame of another function code, length or CRC than R78 gives. -/
  | badFrame
deriving DecidableEq, Repr

/-- OP, bits [7:0] of CMD (R19). -/
def cmdOp (w : Word) : Byte := w.extractLsb' 0 8

/-- CONN, bits [15:8] of CMD (R19). -/
def cmdConn (w : Word) : Slot := w.extractLsb' 8 8

/-- E, bit [16] of CMD (R19). -/
def cmdE (w : Word) : Bool := w.getLsbD 16

/-- B, bit [17] of CMD (R19). -/
def cmdB (w : Word) : Bool := w.getLsbD 17

/-- The reserved bits [31:18] of CMD (R19). -/
def cmdReserved (w : Word) : BitVec 14 := w.extractLsb' 18 14

/-- A row of the command map (R69): the instruction, and which of CONN, E and B it uses. -/
structure CmdRow where
  instr : Instr
  usesConn : Bool
  usesE : Bool
  usesB : Bool

/-- A row that uses CONN only. -/
def rowC (i : Instr) : CmdRow := ⟨i, true, false, false⟩

/-- A row that uses CONN and E. -/
def rowCE (i : Instr) : CmdRow := ⟨i, true, true, false⟩

/-- The command map of 30_encoding.md section 3 (R69). -/
def cmdRow (op : Byte) (c : Slot) (e b : Bool) : Option CmdRow :=
  if op = 0x01#8 then some (rowCE (.openConn c e))
  else if op = 0x02#8 then some (rowC (.closeConn c))
  else if op = 0x03#8 then some (rowC (.connect c))
  else if op = 0x04#8 then some (rowC (.disconnect c))
  else if op = 0x05#8 then some (rowC (.isconn c))
  else if op = 0x06#8 then some (rowCE (.resize c e))
  else if op = 0x07#8 then some (rowC (.setaddr c))
  else if op = 0x08#8 then some (rowC (.getdt c))
  else if op = 0x09#8 then some (rowC (.setdt c))
  else if op = 0x0A#8 then some (rowCE (.bufpeek c e))
  else if op = 0x10#8 then some (rowC (.init c))
  else if op = 0x11#8 then some (rowC (.rdreg c))
  else if op = 0x12#8 then some (rowC (.wrreg c))
  else if op = 0x13#8 then some (rowC (.isready c))
  else if op = 0x14#8 then some (rowCE (.setwe c e))
  else if op = 0x15#8 then some (rowC (.getsr c))
  else if op = 0x16#8 then some ⟨.reset c b, true, false, true⟩
  else if op = 0x20#8 then some ⟨.crc16, false, false, false⟩
  else if op = 0x21#8 then some ⟨.crcchk, false, false, false⟩
  else if op = 0x30#8 then some (rowC (.canrd c))
  else if op = 0x31#8 then some (rowC (.cansend c))
  else if op = 0x32#8 then some (rowC (.cansendw c))
  else if op = 0x40#8 then some (rowC (.getval c))
  else if op = 0x41#8 then some (rowC (.setval c))
  else if op = 0x42#8 then some (rowCE (.stream c e))
  else if op = 0x43#8 then some (rowC (.rdcfg c))
  else if op = 0x44#8 then some (rowC (.rddet c))
  else if op = 0x45#8 then some (rowC (.popcfg c))
  else if op = 0x46#8 then some (rowC (.popdet c))
  else none

/-- Whether a CMD word leaves the fields its row does not use at zero (R66, R158 step 3). -/
def CmdRow.unusedZero (r : CmdRow) (w : Word) : Bool :=
  (r.usesConn || cmdConn w == 0#8) && (r.usesE || !cmdE w) && (r.usesB || !cmdB w)

/-- Decode a CMD word, in the order of R158: reserved bits, command map, unused fields. -/
def decodeCmd (w : Word) : Except Reject Instr :=
  if cmdReserved w ≠ 0#14 then .error .reservedBits
  else
    match cmdRow (cmdOp w) (cmdConn w) (cmdE w) (cmdB w) with
    | none => .error .unsupportedOpcode
    | some r => if r.unusedZero w then .ok r.instr else .error .reservedBits

/-- Decode the body of a Modbus request, without its CRC (R78). -/
def decodeMbBody : Bytes → Except Reject Instr
  | [dev, fc, op] => if fc = fcOpcode then .ok (.mbSendOpcode dev op) else .error .badFrame
  | dev :: fc :: op :: a3 :: a2 :: a1 :: a0 :: n1 :: n0 :: payload =>
    if fc = fcRead then
      if payload = [] then .ok (.mbReadData dev op (word32 a3 a2 a1 a0) (word16 n1 n0)) else .error .badFrame
    else if fc = fcWrite then
      if payload.length = (word16 n1 n0).toNat then .ok (.mbWriteData dev op (word32 a3 a2 a1 a0) payload)
      else .error .badFrame
    else .error .badFrame
  | _ => .error .badFrame

/-- Decode a Modbus request frame: its CRC, low byte first, must be that of the bytes before it (R78). -/
def decodeMbFrame (b : Bytes) : Except Reject Instr :=
  let body := b.take (b.length - 2)
  if b = mbFrame body then decodeMbBody body else .error .badFrame

/-- The decoder, total on all codes. -/
def decode : Code → Except Reject Instr
  | .cmd w => decodeCmd w
  | .wire b => decodeMbFrame b

/-! ### The encoder -/

/-- A CMD word of its fields (R19, R65). -/
def cmdWord (op : Byte) (c : Slot) (e b : Bool) : Word :=
  0#14 ++ BitVec.ofBool b ++ BitVec.ofBool e ++ c ++ op

/-- The code of an instruction, from the tables of R69 and R78. -/
def encode : Instr → Code
  | .openConn c e => .cmd (cmdWord 0x01#8 c e false)
  | .closeConn c => .cmd (cmdWord 0x02#8 c false false)
  | .connect c => .cmd (cmdWord 0x03#8 c false false)
  | .disconnect c => .cmd (cmdWord 0x04#8 c false false)
  | .isconn c => .cmd (cmdWord 0x05#8 c false false)
  | .resize c e => .cmd (cmdWord 0x06#8 c e false)
  | .setaddr c => .cmd (cmdWord 0x07#8 c false false)
  | .getdt c => .cmd (cmdWord 0x08#8 c false false)
  | .setdt c => .cmd (cmdWord 0x09#8 c false false)
  | .bufpeek c e => .cmd (cmdWord 0x0A#8 c e false)
  | .init c => .cmd (cmdWord 0x10#8 c false false)
  | .rdreg c => .cmd (cmdWord 0x11#8 c false false)
  | .wrreg c => .cmd (cmdWord 0x12#8 c false false)
  | .isready c => .cmd (cmdWord 0x13#8 c false false)
  | .setwe c e => .cmd (cmdWord 0x14#8 c e false)
  | .getsr c => .cmd (cmdWord 0x15#8 c false false)
  | .reset c b => .cmd (cmdWord 0x16#8 c false b)
  | .crc16 => .cmd (cmdWord 0x20#8 0#8 false false)
  | .crcchk => .cmd (cmdWord 0x21#8 0#8 false false)
  | .canrd c => .cmd (cmdWord 0x30#8 c false false)
  | .cansend c => .cmd (cmdWord 0x31#8 c false false)
  | .cansendw c => .cmd (cmdWord 0x32#8 c false false)
  | .getval c => .cmd (cmdWord 0x40#8 c false false)
  | .setval c => .cmd (cmdWord 0x41#8 c false false)
  | .stream c e => .cmd (cmdWord 0x42#8 c e false)
  | .rdcfg c => .cmd (cmdWord 0x43#8 c false false)
  | .rddet c => .cmd (cmdWord 0x44#8 c false false)
  | .popcfg c => .cmd (cmdWord 0x45#8 c false false)
  | .popdet c => .cmd (cmdWord 0x46#8 c false false)
  | .mbReadData dev op a n => .wire (mbFrame (mbReadBody dev op a n))
  | .mbWriteData dev op a p => .wire (mbFrame (mbWriteBody dev op a p))
  | .mbSendOpcode dev op => .wire (mbFrame (mbOpcodeBody dev op))

/-! ### The opcode table's numbering -/

/-- The code the opcode table's row of `nbits` bits with bits `w` stands for. A row of 32 bits is a CMD word. A row of
8 bits is a Modbus function code: the request frame with that code in byte 1, every other field zero, and its CRC
(log 11). -/
def tableCode (nbits w : Nat) : Code :=
  if nbits ≤ 8 then
    let fc := BitVec.ofNat 8 w
    .wire (mbFrame (if fc = fcOpcode then mbOpcodeBody 0#8 0#8 else [0#8, fc] ++ zeros 7))
  else .cmd (BitVec.ofNat 32 w)

/-- The instruction the decoder reads from the bits of a row of the opcode table. -/
def decodeTableWord (nbits w : Nat) : Option Instr :=
  match decode (tableCode nbits w) with
  | .ok i => some i
  | .error _ => none

end Sys2Proof
end

