-- ==== Sys2Proof/Machine/Memory.lean ====
section
/-! DEFINITION. Tables: lists of keyed entries with strictly rising keys. The memories of the block (HBUF and the
transfer buffers) are tables of bytes; an index that is not listed reads `undef` (R11, R24; log 17). The connection
table and the routing domains are tables too (log 19). -/

namespace Sys2Proof.Machine

/-- A table: entries with strictly rising keys. -/
abbrev Table (α : Type) := List (Nat × α)

/-- A memory: a list of (address, byte) pairs. An address that is not listed holds `undef`. -/
abbrev Memory := List Host.Cell

/-- The entry at a key. -/
def tget {α : Type} : Table α → Nat → Option α
  | [], _ => none
  | (k, v) :: r, x => if k = x then some v else tget r x

/-- Set the entry at a key. -/
def tset {α : Type} : Table α → Nat → α → Table α
  | [], x, v => [(x, v)]
  | (k, w) :: r, x, v =>
    if x < k then (x, v) :: (k, w) :: r
    else if x = k then (x, v) :: r
    else (k, w) :: tset r x v

/-- Remove the entry at a key. -/
def terase {α : Type} (t : Table α) (x : Nat) : Table α := t.filter (fun e => e.1 != x)

/-- Set or remove the entry at a key. -/
def tput {α : Type} (t : Table α) (x : Nat) : Option α → Table α
  | some v => tset t x v
  | none => terase t x

/-- Apply a function to the entry at a key, if there is one. -/
def tmodify {α : Type} (t : Table α) (x : Nat) (f : α → α) : Table α :=
  match tget t x with
  | some v => tset t x (f v)
  | none => t

/-- The canonical form: keys strictly rising. -/
def twf {α : Type} : Table α → Bool
  | [] => true
  | [_] => true
  | (k, _) :: (k', w) :: r => decide (k < k') && twf ((k', w) :: r)

/-- The canonical form of a memory: addresses strictly rising, so no address twice; every listed address holds a
byte, and an unlisted one reads `undef`, so no entry repeats what an unlisted address reads as. -/
def Memory.wf (m : Memory) : Bool := twf m

/-- The byte at an address, `none` for `undef`. -/
def mread (m : Memory) (a : Nat) : Option Byte := tget m a

/-- Write one byte, or make it `undef`. -/
def mwrite (m : Memory) (a : Nat) (b : Option Byte) : Memory := tput m a b

/-- Write a byte string from an address on. -/
def mwriteBytes (m : Memory) (a : Nat) : Bytes → Memory
  | [] => m
  | b :: bs => mwriteBytes (mwrite m a (some b)) (a + 1) bs

/-- Copy `n` bytes, `undef` ones too, from `src` at `o` to `dst` at `a` (R96). -/
def mcopy (dst src : Memory) (a o : Nat) : Nat → Memory
  | 0 => dst
  | n + 1 => mcopy (mwrite dst a (mread src o)) src (a + 1) (o + 1) n

/-- The `n` bytes from an address on, or none if one is `undef`. -/
def mreadBytes (m : Memory) (a : Nat) : Nat → Option Bytes
  | 0 => some []
  | n + 1 =>
    match mread m a, mreadBytes m (a + 1) n with
    | some b, some bs => some (b :: bs)
    | _, _ => none

/-- The part of a memory below an address. -/
def mbelow (m : Memory) (n : Nat) : Memory := m.filter (fun e => decide (e.1 < n))

end Sys2Proof.Machine
end

