-- ==== Sys2Proof/Machine/State.lean ====
section
/-! DEFINITION. The state of the block: everything the spec gives it (10_state.md), the host's pending items and the
answers of the outside world, as plain data; the reasons a step can stop; the state after reset. -/

namespace Sys2Proof.Machine

/-- The errors of R157, one constructor per row of its tables, each with the context that row writes: ERRADDR and
ERRSIZE where the row has them, the "likely disconnected" flag for a Timeout. An error is no stop of the model: it
ends the running command by the completion of R160. -/
inductive Err where
  | notConnectedBlock
  | notConnectedDriver
  | timeoutReady
  | timeoutAnswerWait (flag : Bool)
  | timeoutResponseSlot (flag : Bool)
  | timeoutStreamAck
  | timeoutTransport (flag : Bool)
  | crcSpi (addr size : Word)
  | crcModbus (addr size : Word)
  | txAccessViolation (addr size : Word)
  | txInvalidAddress (addr size : Word)
  | txCommandNotFound (addr size : Word)
  | txWriteDisabled (addr size : Word)
  | txCrcFailed (addr size : Word)
  | txExecError (addr size : Word)
  | txUnknown (addr size : Word)
  | weVerify
  | echoMismatch (id : Word)
  | sensorFailureFf (id : Word)
  | unknownCanId (id : Word)
  | noConfigAnswer
  | unexpectedAnswer (addr size : Word)
  | fifoOverflow (id : Word)
  | unsupportedOpcode
  | idOverlapSelf (rx : Word)
  | idOverlapOther (rx : Word) (slot : Slot)
  | invalidResetType (code : Word)
  | badConn
  | badDescriptor
  | sizeZero (addr : Word)
  | sizeTooLarge (addr size : Word)
  | addressRange (addr size : Word)
  | notMaster
  | notRegistered
  | wrongKind
  | devtypeUnset
  | fifoEmpty
  | reservedBits
  | portBusy
  | bufTooSmall (size : Word)
  | busEvent
deriving DecidableEq, Repr, Inhabited

/-- Why the machine stops with no next state. -/
inductive Fault where
  /-- UNDEF_READ (R163): raised by a host read of an HBUF byte nothing has written, and by CRC16, CRCCHK, WRREG,
  CANSEND, CANSENDW and SETVAL over an `undef` byte of their range, where no block reset aborts the command first
  (R172; log 8). Safe: the spec gives the block no value there. -/
  | undefRead
  /-- A host access that has no move (R18, R19, R164, R177): a write while BUSY, another width or offset, a write to
  a read-only register, a read of results while BUSY. Raised by `step` on the host's item. Safe (log 9, log 10). -/
  | hostNoMove
deriving DecidableEq, Repr, Inhabited

/-- Why an instruction has no meaning in the model. -/
inductive Refusal where
  /-- The instruction of this mnemonic has no meaning yet. Raised by `exec`'s arm. Safe: the machine stops. -/
  | notModelled (mnemonic : String)
deriving DecidableEq, Repr

/-- The role of a CAN connection (R29). -/
inductive Role where
  | none | master | slave
deriving DecidableEq, Repr, Inhabited

/-- The Direct-CAN state of a connection (R29, R151). -/
inductive DState where
  | idle | streaming
deriving DecidableEq, Repr, Inhabited

/-- A transfer buffer (R29, R31): its length and its bytes, an unlisted byte `undef`. -/
structure Buf where
  len : Nat
  mem : Memory
deriving DecidableEq, Repr, Inhabited

/-- A used connection slot (R29). -/
structure Conn where
  desc : Byte
  kind : Kind
  owner : Bool
  connected : Bool
  inbuf : Buf
  outbuf : Buf
  devType : Option Word
  baseCache : Option Word
  role : Role
  master : Slot
  dstate : DState
  cfgFifo : List (Word × Frame)
  detFifo : List (Word × Frame)
deriving DecidableEq, Repr, Inhabited

/-- A routing entry (R35). -/
structure RouteEntry where
  slot : Slot
  rxId : Word
  txId : Word
deriving DecidableEq, Repr, Inhabited

/-- A routing domain (R35). -/
structure Domain where
  dmaster : Slot
  table : List RouteEntry
deriving DecidableEq, Repr, Inhabited

/-- A call of a transport primitive, with its arguments (R13). -/
inductive PortCall where
  | connect (k : Kind) (p : Byte) (d : Desc)
  | disconnect (k : Kind) (p : Byte)
  | spiWrite (p : Byte) (bytes : Bytes) (endTransfer : Bool)
  | spiRead (p : Byte) (n : Nat) (endTransfer : Bool)
  | mbSend (p : Byte) (bytes : Bytes)
  | mbRecv (p : Byte) (n : Nat)
  | canRead (p : Byte)
  | canWrite (p : Byte) (id : Word) (f : Frame)
deriving DecidableEq, Repr

/-- The answer of a transport primitive (R39); `pending` of a call that never returns (R187; log 6). -/
inductive PortAnswer where
  | done
  | bytes (b : Bytes)
  | frame (f : Option CanRx)
  | notConnected
  | timeout (flag : Bool)
  | pending
deriving DecidableEq, Repr

/-- An event of the trace (R40, R41). -/
inductive Event where
  | port (call : PortCall) (answer : PortAnswer)
  | sleep (ms : Nat)
deriving DecidableEq, Repr

/-- An access of the host window (R18); offsets are byte offsets. -/
inductive HostAccess where
  /-- An aligned 32-bit write. -/
  | write32 (off : Nat) (v : Word)
  /-- A byte write. -/
  | write8 (off : Nat) (v : Byte)
  /-- An aligned 32-bit read. -/
  | read32 (off : Nat)
  /-- A byte read. -/
  | read8 (off : Nat)
  /-- An access of any other width. -/
  | otherWidth (off : Nat)
deriving DecidableEq, Repr

/-- A pending item of the host (log 7). -/
inductive HostItem where
  /-- An access the host makes once STATUS.BUSY is 0. -/
  | waiting (a : HostAccess)
  /-- An access the host makes at once, also while STATUS.BUSY is 1. -/
  | eager (a : HostAccess)
  /-- The block reset (R172); while a command runs, it arrives after that many of the command's events (log 8). -/
  | reset (afterEvents : Nat)
deriving DecidableEq, Repr

/-- The state of the block and of its surroundings. -/
structure State where
  /-- The OPEN parameters, constant (R8; log 1). -/
  cfg : Config
  /-- The host registers (R18). -/
  cmd : Word
  arg0 : Word
  arg1 : Word
  arg2 : Word
  arg3 : Word
  status : Word
  result0 : Word
  result1 : Word
  errAddr : Word
  errSize : Word
  errInfo : Word
  /-- Whether the command in progress is stuck in a port call that never returns (R187); of the sequencer's position in
  the command (R25) this is all a step needs (log 6). -/
  stuck : Bool
  /-- The host data buffer, by HBUF index (R24). -/
  hbuf : Memory
  /-- The used connection slots (R28, R29, R30). -/
  conns : Table Conn
  /-- The descriptor slots (R32). -/
  descs : List Desc
  /-- The routing domains that are not empty, by CAN port (R35). -/
  domains : Table Domain
  /-- A Modbus request handed to the Modbus encoder alone; the model's own (log 11). -/
  wire : Option Bytes
  /-- The host's pending items; the model's own (log 7). -/
  hostq : List HostItem
  /-- What the host's last read answered; the model's own (log 7). -/
  readData : Word
  /-- The scripted answers of the ports, `none` for a call that never returns; the model's own (log 3, log 6). -/
  oracle : List (Option Draw)
  /-- The number of port calls made; the model's own, the argument of the free values (log 3). -/
  draws : Nat
  /-- The trace of R40, newest event first (log 23). -/
  trace : List Event
deriving DecidableEq, Repr

/-- The block right after reset under a configuration (R42, R172, R173): registers 0, HBUF `undef`, no slot used, no
domain in use, descriptors as configured. -/
def State.resetWith (g : Config) : State where
  cfg := g
  cmd := 0#32
  arg0 := 0#32
  arg1 := 0#32
  arg2 := 0#32
  arg3 := 0#32
  status := 0#32
  result0 := 0#32
  result1 := 0#32
  errAddr := 0#32
  errSize := 0#32
  errInfo := 0#32
  stuck := false
  hbuf := []
  conns := []
  descs := g.descs
  domains := []
  wire := none
  hostq := []
  readData := 0#32
  oracle := []
  draws := 0
  trace := []

/-- The machine right after reset, under any configuration (log 1). -/
def State.reset : State := State.resetWith Config.params

end Sys2Proof.Machine
end

