-- ==== Sys2Proof/Machine/Flags.lean ====
section
/-! DEFINITION. The STATUS register (R21), the codes and context of the errors (R156, R157), and the two ways a
command ends (R160, R161). -/

namespace Sys2Proof.Machine

/-- BUSY, bit 0 of STATUS (R21). -/
def stBusy (st : Word) : Bool := st.getLsbD 0

/-- DONE, bit 1 of STATUS (R21). -/
def stDone (st : Word) : Bool := st.getLsbD 1

/-- ERR, bit 2 of STATUS (R21). -/
def stErr (st : Word) : Bool := st.getLsbD 2

/-- RES, bit 3 of STATUS (R21). -/
def stRes (st : Word) : Bool := st.getLsbD 3

/-- ERRCODE, bits [15:8] of STATUS (R21). -/
def stErrCode (st : Word) : Byte := st.extractLsb' 8 8

/-- ERRSUB, bits [23:16] of STATUS (R21). -/
def stErrSub (st : Word) : Byte := st.extractLsb' 16 8

/-- A STATUS word of its fields; bits [31:24] and [7:4] are zero (R21). -/
def statusWord (sub code : Byte) (res err done busy : Bool) : Word :=
  0#8 ++ sub ++ code ++ 0#4 ++ BitVec.ofBool res ++ BitVec.ofBool err ++ BitVec.ofBool done ++ BitVec.ofBool busy

/-- STATUS while a command runs (R23). -/
def statusBusy : Word := statusWord 0#8 0#8 false false false true

/-- STATUS after a command without error (R161). -/
def statusOk (res : Bool) : Word := statusWord 0#8 0#8 res false true false

/-- ERRCODE of an error (R156). -/
def Err.code : Err → Byte
  | .notConnectedBlock | .notConnectedDriver => 1#8
  | .timeoutReady | .timeoutAnswerWait _ | .timeoutResponseSlot _ | .timeoutStreamAck | .timeoutTransport _ => 2#8
  | .crcSpi _ _ | .crcModbus _ _ => 3#8
  | .txAccessViolation _ _ | .txInvalidAddress _ _ | .txCommandNotFound _ _ | .txWriteDisabled _ _
  | .txCrcFailed _ _ | .txExecError _ _ | .txUnknown _ _ | .weVerify | .echoMismatch _ | .sensorFailureFf _
  | .unknownCanId _ | .noConfigAnswer | .unexpectedAnswer _ _ | .fifoOverflow _ => 4#8
  | .unsupportedOpcode | .idOverlapSelf _ | .idOverlapOther _ _ | .invalidResetType _ | .badConn | .badDescriptor
  | .sizeZero _ | .sizeTooLarge _ _ | .addressRange _ _ | .notMaster | .notRegistered | .wrongKind | .devtypeUnset
  | .fifoEmpty | .reservedBits | .portBusy | .bufTooSmall _ => 5#8
  | .busEvent => 6#8

/-- ERRSUB of an error (R157). -/
def Err.sub : Err → Byte
  | .notConnectedBlock => 1#8
  | .notConnectedDriver => 2#8
  | .timeoutReady => 1#8
  | .timeoutAnswerWait _ => 2#8
  | .timeoutResponseSlot _ => 3#8
  | .timeoutStreamAck => 4#8
  | .timeoutTransport _ => 5#8
  | .crcSpi _ _ => 1#8
  | .crcModbus _ _ => 2#8
  | .txAccessViolation _ _ => 1#8
  | .txInvalidAddress _ _ => 2#8
  | .txCommandNotFound _ _ => 3#8
  | .txWriteDisabled _ _ => 4#8
  | .txCrcFailed _ _ => 5#8
  | .txExecError _ _ => 6#8
  | .txUnknown _ _ => 7#8
  | .weVerify => 8#8
  | .echoMismatch _ => 9#8
  | .sensorFailureFf _ => 10#8
  | .unknownCanId _ => 11#8
  | .noConfigAnswer => 12#8
  | .unexpectedAnswer _ _ => 13#8
  | .fifoOverflow _ => 14#8
  | .unsupportedOpcode => 1#8
  | .idOverlapSelf _ => 2#8
  | .idOverlapOther _ _ => 3#8
  | .invalidResetType _ => 4#8
  | .badConn => 5#8
  | .badDescriptor => 6#8
  | .sizeZero _ => 7#8
  | .sizeTooLarge _ _ => 8#8
  | .addressRange _ _ => 9#8
  | .notMaster => 10#8
  | .notRegistered => 11#8
  | .wrongKind => 12#8
  | .devtypeUnset => 13#8
  | .fifoEmpty => 14#8
  | .reservedBits => 15#8
  | .portBusy => 16#8
  | .bufTooSmall _ => 17#8
  | .busEvent => 1#8

/-- ERRADDR of an error (R157); 0 where the table gives none (log 21). -/
def Err.addr : Err → Word
  | .crcSpi a _ | .crcModbus a _ | .txAccessViolation a _ | .txInvalidAddress a _ | .txCommandNotFound a _
  | .txWriteDisabled a _ | .txCrcFailed a _ | .txExecError a _ | .txUnknown a _ | .unexpectedAnswer a _
  | .sizeTooLarge a _ | .addressRange a _ => a
  | .echoMismatch id | .sensorFailureFf id | .unknownCanId id | .fifoOverflow id => id
  | .idOverlapSelf rx | .idOverlapOther rx _ => rx
  | .invalidResetType t => t
  | .sizeZero a => a
  | .notConnectedBlock | .notConnectedDriver | .timeoutReady | .timeoutAnswerWait _ | .timeoutResponseSlot _
  | .timeoutStreamAck | .timeoutTransport _ | .weVerify | .noConfigAnswer | .unsupportedOpcode | .badConn
  | .badDescriptor | .notMaster | .notRegistered | .wrongKind | .devtypeUnset | .fifoEmpty | .reservedBits
  | .portBusy | .bufTooSmall _ | .busEvent => 0#32

/-- ERRSIZE of an error (R157); 0 where the table gives none (log 21). -/
def Err.size : Err → Word
  | .crcSpi _ n | .crcModbus _ n | .txAccessViolation _ n | .txInvalidAddress _ n | .txCommandNotFound _ n
  | .txWriteDisabled _ n | .txCrcFailed _ n | .txExecError _ n | .txUnknown _ n | .unexpectedAnswer _ n
  | .sizeTooLarge _ n | .addressRange _ n | .bufTooSmall n => n
  | .echoMismatch _ | .sensorFailureFf _ | .unknownCanId _ | .fifoOverflow _ => 8#32
  | .idOverlapOther _ slot => slot.setWidth 32
  | .idOverlapSelf _ | .invalidResetType _ | .sizeZero _
  | .notConnectedBlock | .notConnectedDriver | .timeoutReady | .timeoutAnswerWait _ | .timeoutResponseSlot _
  | .timeoutStreamAck | .timeoutTransport _ | .weVerify | .noConfigAnswer | .unsupportedOpcode | .badConn
  | .badDescriptor | .notMaster | .notRegistered | .wrongKind | .devtypeUnset | .fifoEmpty | .reservedBits
  | .portBusy | .busEvent => 0#32

/-- ERRINFO[0] of an error: the "likely disconnected" flag of a Timeout (R157). -/
def Err.flag : Err → Bool
  | .timeoutAnswerWait f | .timeoutResponseSlot f | .timeoutTransport f => f
  | .timeoutReady | .timeoutStreamAck
  | .notConnectedBlock | .notConnectedDriver | .crcSpi _ _ | .crcModbus _ _ | .txAccessViolation _ _
  | .txInvalidAddress _ _ | .txCommandNotFound _ _ | .txWriteDisabled _ _ | .txCrcFailed _ _ | .txExecError _ _
  | .txUnknown _ _ | .weVerify | .echoMismatch _ | .sensorFailureFf _ | .unknownCanId _ | .noConfigAnswer
  | .unexpectedAnswer _ _ | .fifoOverflow _ | .unsupportedOpcode | .idOverlapSelf _ | .idOverlapOther _ _
  | .invalidResetType _ | .badConn | .badDescriptor | .sizeZero _ | .sizeTooLarge _ _ | .addressRange _ _
  | .notMaster | .notRegistered | .wrongKind | .devtypeUnset | .fifoEmpty | .reservedBits | .portBusy
  | .bufTooSmall _ | .busEvent => false

/-- STATUS after a command with an error (R160). -/
def statusError (e : Err) : Word := statusWord e.sub e.code false true true false

/-- ERRINFO of an error (R22, R160). -/
def errInfoWord (e : Err) : Word := (BitVec.ofBool e.flag).setWidth 32

/-- BUSY of the state. -/
def State.busy (s : State) : Bool := stBusy s.status

/-- The start of a command (R23), at its beginning and so in no port call. -/
def State.start (s : State) (w : Word) : State :=
  { s with cmd := w, status := statusBusy, result0 := 0#32, result1 := 0#32, errAddr := 0#32, errSize := 0#32
           errInfo := 0#32, stuck := false }

/-- The end of a command without error (R161). -/
def State.endOk (s : State) (res : Bool) : State := { s with status := statusOk res }

/-- The error completion of R160, the block's only exception entry: there is no handler and no return from it
(R162); the report stays until the next command starts. -/
def State.endErr (s : State) (e : Err) : State :=
  { s with status := statusError e, errAddr := e.addr, errSize := e.size, errInfo := errInfoWord e }

/-- A command stuck in a port call that never returns (R187): it does not end, and BUSY stays as it is. -/
def State.hang (s : State) : State := { s with stuck := true }

end Sys2Proof.Machine
end

