-- ==== Sys2Proof/Machine/Ops.lean ====
section
/-! DEFINITION. The shared operations: the running of a command and its end, access to connections, descriptors,
domains, buffers and HBUF, the transport primitives (R13, R38, R39), Sleep (R41). -/

namespace Sys2Proof.Machine

/-- What a step answers. -/
abbrev Outcome := Host.Outcome State Fault Refusal

/-- How a command stops short: an error of the block, a model fault, or a port call that never returns (R187). -/
inductive Stop where
  | err (e : Err)
  | fault (f : Fault)
  | stuck
deriving DecidableEq, Repr

/-- A computation that touches no port and no `undef` byte: it ends with a value or with an error. -/
abbrev Local (α : Type) := EStateM Err State α

/-- A computation of a command. State changes made before an error stay (R15, R160). -/
abbrev Cmd (α : Type) := EStateM Stop State α

/-- `raise E` of R12 in a local computation. -/
def raiseLocal {α : Type} (e : Err) : Local α := fun s => .error e s

/-- `raise E` of R12. -/
def raise {α : Type} (e : Err) : Cmd α := fun s => .error (.err e) s

/-- A model fault (R163). -/
def stopFault {α : Type} (f : Fault) : Cmd α := fun s => .error (.fault f) s

/-- Raise the error a check found, if any. -/
def checkLocal : Option Err → Local Unit
  | none => fun s => .ok () s
  | some e => raiseLocal e

/-- Raise the error a check found, if any. -/
def check : Option Err → Cmd Unit
  | none => fun s => .ok () s
  | some e => raise e

/-- Run `m`; if it raises an error, go on with `h`. Any other stop passes through. -/
def catchErr {α : Type} (m : Cmd α) (h : Err → Cmd α) : Cmd α := fun s =>
  match m s with
  | .ok a t => .ok a t
  | .error (.err e) t => h e t
  | .error (.fault f) t => .error (.fault f) t
  | .error .stuck t => .error .stuck t

/-- Run `m` and answer its value or its error. -/
def attempt {α : Type} (m : Cmd α) : Cmd (Except Err α) := fun s =>
  match m s with
  | .ok a t => .ok (.ok a) t
  | .error (.err e) t => .ok (.error e) t
  | .error (.fault f) t => .error (.fault f) t
  | .error .stuck t => .error .stuck t

/-- The end of a local command: its Boolean result becomes RES (R160, R161). -/
def finishLocal (m : Local Bool) (s : State) : State :=
  match m s with
  | .ok res t => t.endOk res
  | .error e t => t.endErr e

/-- Run a local command to its end. -/
def endLocal (m : Local Bool) (s : State) : Outcome := .next (finishLocal m s)

/-- Run a command to its end: the completion of R161, the error completion of R160, a model fault; or to the port call
it is stuck in for ever (R187). -/
def endCmd (m : Cmd Bool) (s : State) : Outcome :=
  match m s with
  | .ok res t => .next (t.endOk res)
  | .error (.err e) t => .next (t.endErr e)
  | .error (.fault f) _ => .fault f
  | .error .stuck t => .next t.hang

/-! ### Connections, descriptors, domains -/

/-- The record read for a descriptor index outside the table; no rule reads one (log 16). -/
def blankDesc : Desc where
  valid := false
  kind := .spi
  gen := .old
  port := 0#8
  spi := { chipAddress := 0#8, clockHz := 0#32 }
  mb := { baud := 0#32, parity := .none, devAddr := 0#8, page := 0#16 }
  can := { channel := 0#8, speed := 0#32, extended := false, baseIdTx := 0#32, baseIdRx := 0#32, proto := .universal
           family := .a, answerOffset := 0#8, answerOnTx1 := false }

/-- The record read for an unused slot; no rule reads one (R30; log 16). -/
def blankConn : Conn where
  desc := 0xFF#8
  kind := .spi
  owner := false
  connected := false
  inbuf := { len := 0, mem := [] }
  outbuf := { len := 0, mem := [] }
  devType := none
  baseCache := none
  role := .none
  master := noSlot
  dstate := .idle
  cfgFifo := []
  detFifo := []

/-- A domain no connection uses (R35, R42). -/
def emptyDomain : Domain := { dmaster := noSlot, table := [] }

/-- The connection in a slot, if the slot is used (R29, R30). -/
def State.conn? (s : State) (c : Slot) : Option Conn := tget s.conns c.toNat

/-- The connection in a used slot. -/
def State.conn (s : State) (c : Slot) : Conn := (s.conn? c).getD blankConn

/-- The descriptor of an index (R32). -/
def State.descAt (s : State) (d : Byte) : Desc := s.descs.getD d.toNat blankDesc

/-- `DESC[conn[c].desc]`. -/
def State.descOf (s : State) (c : Slot) : Desc := s.descAt (s.conn c).desc

/-- The routing domain of a CAN port (R35). -/
def State.domain (s : State) (q : Byte) : Domain := (tget s.domains q.toNat).getD emptyDomain

/-- Put a connection into a slot. -/
def State.setConn (s : State) (c : Slot) (k : Conn) : State := { s with conns := tset s.conns c.toNat k }

/-- Change the connection in a used slot. -/
def State.modConn (s : State) (c : Slot) (f : Conn → Conn) : State :=
  { s with conns := tmodify s.conns c.toNat f }

/-- Make a slot unused (R91). -/
def State.dropConn (s : State) (c : Slot) : State := { s with conns := terase s.conns c.toNat }

/-- Change a descriptor in place. -/
def State.modDesc (s : State) (d : Byte) (f : Desc → Desc) : State := { s with descs := s.descs.modify d.toNat f }

/-- Set the base cache of a connection (R63). -/
def State.setBase (s : State) (c : Slot) (b : Option Word) : State := s.modConn c (fun k => { k with baseCache := b })

/-- Run `m`; if it raises an error, the base cache of the connection becomes INVALID (R63). -/
def orInvalidate {α : Type} (c : Slot) (m : Cmd α) : Cmd α :=
  catchErr m (fun e => do
    modify (fun s => s.setBase c none)
    raise e)

/-- Set a routing domain; an empty one is not listed. -/
def State.setDomain (s : State) (q : Byte) (d : Domain) : State :=
  { s with domains := if d = emptyDomain then terase s.domains q.toNat else tset s.domains q.toNat d }

/-! ### Buffers and HBUF -/

/-- A buffer of a length, every byte `undef` (R31). -/
def newBuf (n : Nat) : Buf := { len := n, mem := [] }

/-- Write bytes into a buffer from an offset on; a buffer holds no byte at or past its length. -/
def bufWrite (b : Buf) (o : Nat) (bs : Bytes) : Buf := { b with mem := mbelow (mwriteBytes b.mem o bs) b.len }

/-- RESIZE of a buffer (R95): the first min(old, new) bytes stay, growth is `undef`. -/
def bufResize (b : Buf) (n : Nat) : Buf := { len := n, mem := mbelow b.mem n }

/-- Write bytes into `inbuf` of a connection. -/
def inbufWrite (o : Nat) (bs : Bytes) (k : Conn) : Conn := { k with inbuf := bufWrite k.inbuf o bs }

/-- Write bytes into `outbuf` of a connection. -/
def outbufWrite (o : Nat) (bs : Bytes) (k : Conn) : Conn := { k with outbuf := bufWrite k.outbuf o bs }

/-- `HBUF[0..n)` as data: UNDEF_READ if one byte is `undef` (R163). -/
def hbufData (n : Nat) : Cmd Bytes := fun s =>
  match mreadBytes s.hbuf 0 n with
  | some bs => .ok bs s
  | none => .error (.fault .undefRead) s

/-- `inbuf[off..off+m)` as data of a frame (log 29). -/
def inbufData (c : Slot) (off m : Nat) : Cmd Bytes := fun s =>
  match mreadBytes (s.conn c).inbuf.mem off m with
  | some bs => .ok bs s
  | none => .error (.fault .undefRead) s

/-- `HBUF[0..len) <- bytes`. -/
def State.setHbuf (s : State) (bs : Bytes) : State := { s with hbuf := mwriteBytes s.hbuf 0 bs }

/-! ### The outside world -/

/-- The answer the next port call gets: the next scripted one, or any (R39; log 3). `none`: it never returns. -/
def State.nextDraw (s : State) : Option Draw :=
  match s.oracle with
  | d :: _ => d
  | [] => some (Config.freeDraw s.draws)

/-- The state after a port call: one answer used, one event on the trace (R40). -/
def State.note (s : State) (call : PortCall) (ans : PortAnswer) : State :=
  { s with oracle := s.oracle.tail, draws := s.draws + 1, trace := .port call ans :: s.trace }

/-- A call of a transport primitive (R39): it returns, or fails with a driver error, or never returns (R187), which
leaves the call on the trace without an answer (log 6). -/
def portCall {α : Type} (call : PortCall) (answer : Draw → PortAnswer) (val : Draw → α) : Cmd α := fun s =>
  match s.nextDraw with
  | none => .error .stuck (s.note call .pending)
  | some d =>
    match d.fate with
    | .returns => .ok (val d) (s.note call (answer d))
    | .notConnected => .error (.err .notConnectedDriver) (s.note call .notConnected)
    | .timeout f => .error (.err (.timeoutTransport f)) (s.note call (.timeout f))

/-- The `n` bytes an SPI read delivers; where the scripted bytes end earlier, any bytes (log 4). -/
def spiAnswer (k n : Nat) (d : Draw) : Bytes := (List.range n).map fun i => d.bytes.getD i (Config.freeByte k i)

/-- The at most `n` bytes a Modbus receive delivers (R39). -/
def mbAnswer (n : Nat) (d : Draw) : Bytes := d.bytes.take n

/-- `Port.Connect`. -/
def portConnect (k : Kind) (p : Byte) (d : Desc) : Cmd Unit :=
  portCall (.connect k p d) (fun _ => .done) (fun _ => ())

/-- `Port.Disconnect`. -/
def portDisconnect (k : Kind) (p : Byte) : Cmd Unit :=
  portCall (.disconnect k p) (fun _ => .done) (fun _ => ())

/-- `Spi.Write`. -/
def spiWrite (p : Byte) (bs : Bytes) (endT : Bool) : Cmd Unit :=
  portCall (.spiWrite p bs endT) (fun _ => .done) (fun _ => ())

/-- `Spi.Read`. -/
def spiRead (p : Byte) (n : Nat) (endT : Bool) : Cmd Bytes := fun s =>
  portCall (.spiRead p n endT) (fun d => .bytes (spiAnswer s.draws n d)) (spiAnswer s.draws n) s

/-- `Mb.Send`. -/
def mbSend (p : Byte) (bs : Bytes) : Cmd Unit := portCall (.mbSend p bs) (fun _ => .done) (fun _ => ())

/-- `Mb.Recv`. -/
def mbRecv (p : Byte) (n : Nat) : Cmd Bytes :=
  portCall (.mbRecv p n) (fun d => .bytes (mbAnswer n d)) (mbAnswer n)

/-- `Can.Read`. -/
def canRead (p : Byte) : Cmd (Option CanRx) := portCall (.canRead p) (fun d => .frame d.frame) Draw.frame

/-- `Can.Write`. -/
def canWrite (p : Byte) (id : Word) (f : Frame) : Cmd Unit :=
  portCall (.canWrite p id f) (fun _ => .done) (fun _ => ())

/-- `Sleep(ms)` (R41). -/
def sleep (ms : Nat) : Cmd Unit := fun s => .ok () { s with trace := .sleep ms :: s.trace }

/-- The free "likely disconnected" flag (R157; log 5). -/
def likelyDisconnected : Cmd Bool := fun s => .ok (Config.freeFlag s.draws) s

end Sys2Proof.Machine
end

