-- ==== Sys2Proof/Machine/Operands.lean ====
section
/-! DEFINITION. The operand forms (R66, R68) and the checks a command passes before it acts (R158): widths, slot, kind
and protocol, connected; and the checks of a register access (R45, R52, R53). -/

namespace Sys2Proof.Machine

/-- An 8-bit operand of an ARG register (R68). -/
def op8 (w : Word) : Byte := w.extractLsb' 0 8

/-- A 16-bit operand of an ARG register (R68). -/
def op16 (w : Word) : BitVec 16 := w.extractLsb' 0 16

/-- Whether an ARG register fits an 8-bit operand (R66). -/
def fits8 (w : Word) : Bool := w.extractLsb' 8 24 == 0#24

/-- Whether an ARG register fits a 16-bit operand (R66). -/
def fits16 (w : Word) : Bool := w.extractLsb' 16 16 == 0#16

/-- A byte count as a 32-bit context value. -/
def sizeWord (n : Nat) : Word := BitVec.ofNat 32 n

/-- SPI, Modbus or Universal-CAN (R71). -/
def suitsRegister (k : Conn) (d : Desc) : Bool := k.kind != .can || d.can.proto == .universal

/-- CAN of either protocol (R71). -/
def suitsCan (k : Conn) (_ : Desc) : Bool := k.kind == .can

/-- Direct CAN (R71). -/
def suitsDirect (k : Conn) (d : Desc) : Bool := k.kind == .can && d.can.proto == .direct

/-- SPI or Modbus (R71). -/
def suitsAddressed (k : Conn) (_ : Desc) : Bool := k.kind != .can

/-- Any connection. -/
def suitsAny (_ : Conn) (_ : Desc) : Bool := true

/-- Whether a connection can reach its device: connected, and for a Slave its Master too (R94, R158 step 6). -/
def State.reaches (s : State) (k : Conn) : Bool :=
  k.connected && (k.role != .slave || (s.conn k.master).connected)

/-- Steps 3 to 6 of R158 for a command with a CONN operand other than OPEN: the first error found. `widths` says
whether the ARG operands fit, `suits` is the command's row of R71, `transport` whether step 6 applies. -/
def State.commandError (s : State) (widths : Bool) (c : Slot) (suits : Conn → Desc → Bool) (transport : Bool) :
    Option Err :=
  if !widths then some .reservedBits
  else
    match s.conn? c with
    | none => some .badConn
    | some k =>
      if s.cfg.nConn ≤ c.toNat then some .badConn
      else if !suits k (s.descAt k.desc) then some .wrongKind
      else if transport && !s.reaches k then some .notConnectedBlock
      else none

/-- Steps 3 to 6 of R158 in a local command. -/
def enterLocal (widths : Bool) (c : Slot) (suits : Conn → Desc → Bool) : Local Unit := fun s =>
  checkLocal (s.commandError widths c suits false) s

/-- Steps 3 to 6 of R158 in a command. -/
def enter (widths : Bool) (c : Slot) (suits : Conn → Desc → Bool) (transport : Bool) : Cmd Unit := fun s =>
  check (s.commandError widths c suits transport) s

/-- The last device address a transport reaches (R45). -/
def reachTop : Kind → Nat
  | .spi => 0xFFFFFF
  | .modbus => 0xFFFFFFFF
  | .can => 0xFFFFFFFF

/-- The size limits of a register access (R52, R53). -/
def State.tooLarge (s : State) (k : Conn) (d : Desc) (write : Bool) (n : Nat) : Bool :=
  decide (s.cfg.hbufSize < n)
    || (write && decide (k.inbuf.len < n))
    || (!write && k.kind != .can && decide (k.outbuf.len < n))
    || (!write && k.kind == .spi && decide (0xFFFF < n))
    || (write && k.kind == .modbus && decide (d.mb.page.toNat < n))

/-- The checks of a register access before any frame (R52, R53, R45), in that order (log 13). -/
def State.accessError (s : State) (c : Slot) (write : Bool) (a : Word) (n : Nat) : Option Err :=
  if n = 0 then some (.sizeZero a)
  else if s.tooLarge (s.conn c) (s.descOf c) write n then some (.sizeTooLarge a (sizeWord n))
  else if reachTop (s.conn c).kind < a.toNat + n - 1 then some (.addressRange a (sizeWord n))
  else none

/-- The checks of a register access (R52, R53, R45). -/
def checkAccess (c : Slot) (write : Bool) (a : Word) (n : Nat) : Cmd Unit := fun s =>
  check (s.accessError c write a n) s

end Sys2Proof.Machine
end

