-- ==== Sys2Proof/Machine/Router.lean ====
section
/-! DEFINITION. The CAN router (44_can_routing.md): ID ranges and the non-overlap check, registration, destruction and
re-election, inbound frames with the Direct-CAN classification (R147), write-and-wait. -/

namespace Sys2Proof.Machine

/-! ### ID ranges -/

/-- Whether an ID lies in the Tx range of base `tx`, both ends included (R133). -/
def inTxRange (g : Config) (tx id : Word) : Bool :=
  decide (tx.toNat ≤ id.toNat) && decide (id.toNat ≤ tx.toNat + g.canMaxDetections + 1)

/-- Conditions (a) to (d) of R134 between a new entry (rx, tx) and a registered one. -/
def overlaps (g : Config) (rx tx : Word) (e : RouteEntry) : Bool :=
  inTxRange g e.txId rx || inTxRange g tx e.rxId || rx == e.rxId
    || (decide (tx.toNat ≤ e.txId.toNat + g.canMaxDetections + 1)
        && decide (e.txId.toNat ≤ tx.toNat + g.canMaxDetections + 1))

/-- The non-overlap check of R134: its error, if any. -/
def overlapError (g : Config) (table : List RouteEntry) (rx tx : Word) : Option Err :=
  if inTxRange g tx rx then some (.idOverlapSelf rx)
  else
    match table.find? (overlaps g rx tx) with
    | some e => some (.idOverlapOther rx e.slot)
    | none => none

/-- The ID widths of R34. -/
def canIdsFit (g : Config) (d : CanDesc) : Bool :=
  let top := if d.extended then 2 ^ 29 else 2 ^ 11
  decide (d.baseIdTx.toNat + g.canMaxDetections + 1 < top) && decide (d.baseIdRx.toNat < top)

/-! ### Registration and destruction -/

/-- The table change of `RegisterConnection` (R135): append the entry; a connection that registers itself becomes the
domain's Master. -/
def State.register (s : State) (m c : Slot) (d : Desc) : State :=
  let dom := s.domain d.port
  s.setDomain d.port
    { dmaster := if m = c then c else dom.dmaster
      table := dom.table ++ [{ slot := c, rxId := d.can.baseIdRx, txId := d.can.baseIdTx }] }

/-- `RegisterConnection(m, c, D)` (R135). -/
def registerConnection (m c : Slot) (d : Desc) : Local Unit := fun s =>
  match overlapError s.cfg (s.domain d.port).table d.can.baseIdRx d.can.baseIdTx with
  | some e => .error e s
  | none => .ok () (s.register m c d)

/-- `UnregisterConnection(m, c)` in domain `q` (R136). -/
def unregisterConnection (q : Byte) (m c : Slot) : Cmd Unit := fun s =>
  let dom := s.domain q
  if (s.conn m).role ≠ .master then .error (.err .notMaster) s
  else if dom.table.all (fun e => e.slot != c) then .error (.err .notRegistered) s
  else .ok () (s.setDomain q { dom with table := dom.table.filter (fun e => e.slot != c) })

/-- Point every listed slot to a Master (R138). -/
def State.pointTo (s : State) (n : Slot) : List RouteEntry → State
  | [] => s
  | e :: es => (s.modConn e.slot (fun k => { k with master := n })).pointTo n es

/-- `Reelect(q, old)` (R138): the first entry of the table becomes the Master, the others point to it. -/
def State.reelect (s : State) (q : Byte) (old : Slot) : State :=
  match (s.domain q).table with
  | [] => s
  | e :: es =>
    let n := e.slot
    let oldUp := (s.conn old).connected
    let s := s.modConn n (fun k => { k with role := .master, master := noSlot, connected := k.connected && oldUp })
    (s.setDomain q { dmaster := n, table := e :: es }).pointTo n es

/-- `DestroyCan(c)` on port `q` (R137). -/
def destroyCan (q : Byte) (c : Slot) : Cmd Unit := do
  let s ← get
  if (s.conn c).role = .slave then
    unregisterConnection q (s.conn c).master c
  else
    unregisterConnection q c c
    let s ← get
    if (s.domain q).table = [] then
      if (s.conn c).connected then
        catchErr (portDisconnect .can q) (fun _ => pure ())
      modify (fun s => s.setDomain q { s.domain q with dmaster := noSlot })
    else
      modify (fun s => s.reelect q c)

/-! ### Inbound frames -/

/-- Whether the six argument bytes of a frame are all 0xFF (R147). -/
def allFf (f : Frame) : Bool := f.bytes.drop 2 == List.replicate 6 0xFF#8

/-- Whether a Direct-CAN frame is a configuration answer (R147). -/
def isConfigFrame (d : CanDesc) (id : Word) (f : Frame) : Bool :=
  id == d.baseIdTx
    || (d.answerOnTx1 && decide (id.toNat = d.baseIdTx.toNat + 1) && decide (d.answerOffset.toNat ≤ f.cmd.toNat))

/-- `Classify(t, id, F)` (R147). -/
def classify (t : Slot) (id : Word) (f : Frame) : Cmd Unit := fun s =>
  let d := (s.descOf t).can
  if allFf f then .error (.err (.sensorFailureFf id)) s
  else if isConfigFrame d id f then
    if s.cfg.fifoDepth ≤ (s.conn t).cfgFifo.length then .error (.err (.fifoOverflow id)) s
    else .ok () (s.modConn t (fun k => { k with cfgFifo := k.cfgFifo ++ [(id, f)] }))
  else
    if s.cfg.fifoDepth ≤ (s.conn t).detFifo.length then .error (.err (.fifoOverflow id)) s
    else .ok () (s.modConn t (fun k => { k with detFifo := k.detFifo ++ [(id, f)] }))

/-- `Deliver(t, id, F)` (R140). -/
def deliver (t : Slot) (id : Word) (f : Frame) : Cmd Unit := fun s =>
  match (s.descOf t).can.proto with
  | .universal => .ok () (s.modConn t (outbufWrite 0 f.bytes))
  | .direct => classify t id f s

/-- The entry a CAN ID routes to (R139): the first whose Tx range contains it. -/
def routeOf (g : Config) (table : List RouteEntry) (id : Word) : Option RouteEntry :=
  table.find? (fun e => inTxRange g e.txId id)

/-- `Forward` (R139) in domain `q`: the slot the frame was delivered to. -/
def forward (q : Byte) (id : Word) (f : Frame) : Cmd Slot := do
  let s ← get
  match routeOf s.cfg (s.domain q).table id with
  | none => raise (.unknownCanId id)
  | some e =>
    deliver e.slot id f
    pure e.slot

/-- `RouteRead(c)` (R141): whether a frame for `c` arrived, and its ID. -/
def routeRead (c : Slot) : Cmd (Bool × Word) := do
  let s ← get
  let q := (s.descOf c).port
  match ← canRead q with
  | none => pure (false, 0#32)
  | some r =>
    if r.ev ≠ 0#32 then raise .busEvent
    else if r.id = 0#32 then pure (false, 0#32)
    else
      let t ← forward q r.id r.data
      pure (decide (t = c), r.id)

/-! ### Outbound frames -/

/-- Send a request frame of connection `c` (R142). -/
def sendFrame (c : Slot) (f : Frame) : Cmd Unit := do
  let s ← get
  canWrite (s.descOf c).port (s.descOf c).can.baseIdRx f

/-- The read loop of R143: at most so many reads until a frame for `c`. -/
def awaitFrame (c : Slot) : Nat → Cmd Unit
  | 0 => do
    let flag ← likelyDisconnected
    raise (.timeoutAnswerWait flag)
  | n + 1 => do
    let r ← routeRead c
    if r.1 then pure ()
    else
      sleep pollSleepMs
      awaitFrame c n

/-- The attempts of R143: only EventError sends the whole write again. -/
def writeAttempts (c : Slot) (f : Frame) : Nat → Cmd Unit
  | 0 => raise .busEvent
  | n + 1 => do
    sendFrame c f
    catchErr (awaitFrame c wawPolls) (fun e =>
      if e = .busEvent ∧ n ≠ 0 then writeAttempts c f n else raise e)

/-- `WriteAndWait(c, F)` (R143). -/
def writeAndWait (c : Slot) (f : Frame) : Cmd Unit := writeAttempts c f wawEventAttempts

end Sys2Proof.Machine
end

