-- ==== Sys2Proof/Machine/CanCommands.lean ====
section
/-! DEFINITION. The CAN routing commands (44_can_routing.md section 6): CANRD, CANSEND, CANSENDW. -/

namespace Sys2Proof.Machine

/-- CANRD (R144). -/
def execCanrd (c : Slot) (s : State) : Outcome :=
  endCmd (do
    enter true c suitsCan true
    let r ← routeRead c
    modify (fun s => { s with result0 := r.2 })
    pure r.1) s

/-- CANSEND (R145). -/
def execCansend (c : Slot) (s : State) : Outcome :=
  endCmd (do
    enter true c suitsCan true
    let bs ← hbufData 8
    sendFrame c (Frame.ofBytes bs)
    pure false) s

/-- CANSENDW (R146). -/
def execCansendw (c : Slot) (s : State) : Outcome :=
  endCmd (do
    enter true c suitsCan true
    let bs ← hbufData 8
    writeAndWait c (Frame.ofBytes bs)
    pure false) s

end Sys2Proof.Machine
end

