-- ==== Sys2Proof/Machine/Connection.lean ====
section
/-! DEFINITION. The connection commands (41_connection.md): OPEN, CLOSE, CONNECT, DISCONNECT, ISCONN, RESIZE, BUFPEEK,
SETADDR, GETDT, SETDT. -/

namespace Sys2Proof.Machine

/-- The connection OPEN constructs (R43). -/
def openedConn (g : Config) (d : Byte) (k : Kind) (owner : Bool) (role : Role) (master : Slot) : Conn where
  desc := d
  kind := k
  owner := owner
  connected := false
  inbuf := newBuf (g.buf0In.of k)
  outbuf := newBuf (g.buf0Out.of k)
  devType := none
  baseCache := none
  role := role
  master := master
  dstate := .idle
  cfgFifo := []
  detFifo := []

/-- The checks of OPEN on the slot and the descriptor (R90, R34). -/
def State.openError (s : State) (c : Slot) (d : Byte) (p : Slot) : Option Err :=
  if s.cfg.nConn ≤ c.toNat ∨ (s.conn? c).isSome then some .badConn
  else if s.descs.length ≤ d.toNat ∨ !(s.descAt d).valid then some .badDescriptor
  else if s.cfg.nPorts (s.descAt d).kind ≤ (s.descAt d).port.toNat then some .badDescriptor
  else if (s.descAt d).kind ≠ .can ∧ p ≠ noSlot then some .badConn
  else if (s.descAt d).kind = .can ∧ !canIdsFit s.cfg (s.descAt d).can then some .badDescriptor
  else none

/-- The Master a peer stands for (R90). -/
def State.masterOf (s : State) (p : Slot) : Slot := if (s.conn p).role = .master then p else (s.conn p).master

/-- The checks of OPEN on a CAN peer (R90). -/
def State.peerError (s : State) (c p : Slot) (q : Byte) : Option Err :=
  match s.conn? p with
  | none => some .badConn
  | some k =>
    if s.cfg.nConn ≤ p.toNat ∨ p = c ∨ k.kind ≠ .can then some .badConn
    else if (s.descOf (s.masterOf p)).port ≠ q then some .badDescriptor
    else none

/-- The routing part of OPEN: the role and Master of the new connection (R90). -/
def openRole (c : Slot) (d : Desc) (p : Slot) : Local (Role × Slot) := do
  let s ← get
  if d.kind ≠ .can then pure (.none, noSlot)
  else if p ≠ noSlot then
    checkLocal (s.peerError c p d.port)
    registerConnection (s.masterOf p) c d
    pure (.slave, s.masterOf p)
  else
    checkLocal (if (s.domain d.port).dmaster ≠ noSlot then some .portBusy else none)
    registerConnection c c d
    pure (.master, noSlot)

/-- OPEN (R90). -/
def execOpen (c : Slot) (e : Bool) (s : State) : Outcome :=
  endLocal (do
    checkLocal (if fits8 s.arg0 && fits8 s.arg1 then none else some .reservedBits)
    checkLocal (s.openError c (op8 s.arg0) (op8 s.arg1))
    let d := s.descAt (op8 s.arg0)
    let r ← openRole c d (op8 s.arg1)
    modify (fun t => t.setConn c (openedConn s.cfg (op8 s.arg0) d.kind e r.1 r.2))
    pure false) s

/-- CLOSE (R91). -/
def execClose (c : Slot) (s : State) : Outcome :=
  endCmd (do
    enter true c suitsAny false
    let k := s.conn c
    let d := s.descOf c
    if k.kind = .can then destroyCan d.port c
    else if k.owner && k.connected then catchErr (portDisconnect k.kind d.port) (fun _ => pure ())
    if k.owner then modify (fun s => s.modDesc k.desc (fun d => { d with valid := false }))
    modify (fun s => s.dropConn c)
    pure false) s

/-- CONNECT (R92). R63 makes the base cache INVALID at every CONNECT, so one that ends with an error does it too
(DEDUCED, log 15). -/
def execConnect (c : Slot) (s : State) : Outcome :=
  endCmd (do
    enter true c suitsAny false
    let k := s.conn c
    orInvalidate c
      (if k.role = .slave then check (if (s.conn k.master).connected then none else some .notConnectedBlock)
      else portConnect k.kind (s.descOf c).port (s.descOf c))
    modify (fun s => s.modConn c (fun k => { k with connected := true, baseCache := none }))
    pure false) s

/-- DISCONNECT (R93). -/
def execDisconnect (c : Slot) (s : State) : Outcome :=
  endCmd (do
    enter true c suitsAny false
    let k := s.conn c
    modify (fun s => s.modConn c (fun k => { k with connected := false }))
    if k.role ≠ .slave ∧ k.connected then portDisconnect k.kind (s.descOf c).port
    pure false) s

/-- ISCONN (R94). -/
def execIsconn (c : Slot) (s : State) : Outcome :=
  endLocal (do
    enterLocal true c suitsAny
    pure (s.reaches (s.conn c))) s

/-- The buffer a RESIZE or BUFPEEK selects: inbuf for E = 0, outbuf for E = 1 (R95, R96). -/
def Conn.selected (k : Conn) (e : Bool) : Buf := if e then k.outbuf else k.inbuf

/-- Replace the selected buffer. -/
def setSelected (e : Bool) (b : Buf) (k : Conn) : Conn := if e then { k with outbuf := b } else { k with inbuf := b }

/-- The size check of RESIZE (R95). SIZE_TOO_LARGE has an address in R157 and RESIZE has none: it is 0 (DESIGN CHOICE,
log 32). -/
def State.resizeError (s : State) (c : Slot) (n : Word) : Option Err :=
  if n.toNat < minBuf (s.conn c).kind then some (.bufTooSmall n)
  else if s.cfg.bufMax < n.toNat then some (.sizeTooLarge 0#32 n)
  else none

/-- RESIZE (R95). -/
def execResize (c : Slot) (e : Bool) (s : State) : Outcome :=
  endLocal (do
    enterLocal true c suitsAny
    checkLocal (s.resizeError c s.arg0)
    modify (fun s => s.modConn c (fun k => setSelected e (bufResize (k.selected e) s.arg0.toNat) k))
    pure false) s

/-- The checks of BUFPEEK (R96). The address R157 gives SIZE_ZERO is the offset o, which R96 does not say (DESIGN CHOICE,
log 33). -/
def State.peekError (s : State) (b : Buf) (o l : Word) : Option Err :=
  if l = 0#32 then some (.sizeZero o)
  else if s.cfg.hbufSize < l.toNat ∨ b.len < o.toNat + l.toNat then some (.sizeTooLarge o l)
  else none

/-- BUFPEEK (R96). -/
def execBufpeek (c : Slot) (e : Bool) (s : State) : Outcome :=
  endLocal (do
    enterLocal true c suitsAny
    let b := (s.conn c).selected e
    checkLocal (s.peekError b s.arg0 s.arg1)
    modify (fun s => { s with hbuf := mcopy s.hbuf b.mem 0 s.arg0.toNat s.arg1.toNat })
    pure false) s

/-- The descriptor field SETADDR writes (R97). -/
def setAddress (v : Byte) (k : Kind) (d : Desc) : Desc :=
  match k with
  | .spi => { d with spi := { d.spi with chipAddress := v } }
  | .modbus => { d with mb := { d.mb with devAddr := v } }
  | .can => d

/-- SETADDR (R97). -/
def execSetaddr (c : Slot) (s : State) : Outcome :=
  endLocal (do
    enterLocal (fits8 s.arg0) c suitsAddressed
    let k := s.conn c
    modify (fun s => s.modDesc k.desc (setAddress (op8 s.arg0) k.kind))
    pure false) s

/-- GETDT (R98). -/
def execGetdt (c : Slot) (s : State) : Outcome :=
  endLocal (do
    enterLocal true c suitsAny
    match (s.conn c).devType with
    | none => raiseLocal .devtypeUnset
    | some v =>
      modify (fun s => { s with result0 := v })
      pure false) s

/-- SETDT (R99). -/
def execSetdt (c : Slot) (s : State) : Outcome :=
  endLocal (do
    enterLocal true c suitsAny
    modify (fun s => s.modConn c (fun k => { k with devType := some s.arg0 }))
    pure false) s

end Sys2Proof.Machine
end

