-- ==== Sys2Proof/Machine/Crc.lean ====
section
/-! DEFINITION. The CRC-16 checker commands (40_crc.md). -/

namespace Sys2Proof.Machine

/-- `HBUF[0..L)` of a CRC command, after its size check (R88, R89). -/
def crcData (l : Word) : Cmd Bytes := do
  let s ← get
  check (if s.cfg.hbufSize < l.toNat then some (.sizeTooLarge 0#32 l) else none)
  hbufData l.toNat

/-- CRC16 (R88). -/
def execCrc16 (s : State) : Outcome :=
  endCmd (do
    let bs ← crcData s.arg0
    modify (fun s => { s with result0 := (crc16 bs).setWidth 32 })
    pure false) s

/-- CRCCHK (R89). -/
def execCrcchk (s : State) : Outcome :=
  endCmd (do
    check (if fits16 s.arg1 then none else some .reservedBits)
    let bs ← crcData s.arg0
    pure (crc16 bs == op16 s.arg1)) s

end Sys2Proof.Machine
end

