-- ==== Sys2Proof/Machine/DirectCan.lean ====
section
/-! DEFINITION. The Direct-CAN commands (45_direct_can.md): GETVAL, SETVAL, STREAM, RDCFG, RDDET, POPCFG, POPDET. -/

namespace Sys2Proof.Machine

/-- Remove the front of the configuration FIFO. -/
def popCfg (k : Conn) : Conn := { k with cfgFifo := k.cfgFifo.tail }

/-- Remove the front of the detection FIFO. -/
def popDet (k : Conn) : Conn := { k with detFifo := k.detFifo.tail }

/-- The delivery of a popped frame to the host: HBUF[0..8) and RESULT0. -/
def State.showFrame (s : State) (e : Word × Frame) : State := { s.setHbuf e.2.bytes with result0 := e.1 }

/-- Send a request, wait, pop one configuration frame and check its echo (R148, R149). -/
def requestAnswer (c : Slot) (f : Frame) : Cmd Unit := do
  writeAndWait c f
  let s ← get
  match (s.conn c).cfgFifo with
  | [] => raise .noConfigAnswer
  | e :: _ =>
    modify (fun s => s.modConn c popCfg)
    if e.2.cmd ≠ f.cmd + (s.descOf c).can.answerOffset ∨ e.2.sub ≠ f.sub then raise (.echoMismatch e.1)
    else modify (fun s => s.showFrame e)

/-- GETVAL (R148). -/
def execGetval (c : Slot) (s : State) : Outcome :=
  endCmd (do
    enter (fits8 s.arg0 && fits8 s.arg1) c suitsDirect true
    requestAnswer c (dcanGetFrame (op8 s.arg0) (op8 s.arg1))
    pure false) s

/-- SETVAL (R149). -/
def execSetval (c : Slot) (s : State) : Outcome :=
  endCmd (do
    enter true c suitsDirect true
    let bs ← hbufData 8
    requestAnswer c (Frame.ofBytes bs)
    pure false) s

/-- Whether an error is the block's own answer-wait Timeout, the one a streaming request retries (R150; log 14). -/
def isAnswerWait : Err → Bool
  | .timeoutAnswerWait _ => true
  | .notConnectedBlock | .notConnectedDriver | .timeoutReady | .timeoutResponseSlot _ | .timeoutStreamAck
  | .timeoutTransport _ | .crcSpi _ _ | .crcModbus _ _ | .txAccessViolation _ _ | .txInvalidAddress _ _
  | .txCommandNotFound _ _ | .txWriteDisabled _ _ | .txCrcFailed _ _ | .txExecError _ _ | .txUnknown _ _
  | .weVerify | .echoMismatch _ | .sensorFailureFf _ | .unknownCanId _ | .noConfigAnswer | .unexpectedAnswer _ _
  | .fifoOverflow _ | .unsupportedOpcode | .idOverlapSelf _ | .idOverlapOther _ _ | .invalidResetType _ | .badConn
  | .badDescriptor | .sizeZero _ | .sizeTooLarge _ _ | .addressRange _ _ | .notMaster | .notRegistered | .wrongKind
  | .devtypeUnset | .fifoEmpty | .reservedBits | .portBusy | .bufTooSmall _ | .busEvent => false

/-- The attempts of a family-A streaming request (R150). -/
def streamAttempts (c : Slot) (f : Frame) : Nat → Cmd Unit
  | 0 => raise .timeoutStreamAck
  | n + 1 =>
    catchErr (writeAndWait c f) (fun e =>
      if isAnswerWait e then (if n = 0 then raise .timeoutStreamAck else streamAttempts c f n) else raise e)

/-- STREAM (R150). -/
def execStream (c : Slot) (e : Bool) (s : State) : Outcome :=
  endCmd (do
    enter true c suitsDirect true
    let f := dcanStreamFrame s.cfg e s.arg0
    match (s.descOf c).can.family with
    | .a =>
      streamAttempts c f streamAckAttempts
      modify (fun s => s.modConn c popCfg)
    | .b => sendFrame c f
    sleep streamSettleMs
    modify (fun s => s.modConn c (fun k => { k with dstate := if e then .streaming else .idle }))
    pure false) s

/-- RDCFG (R152). -/
def execRdcfg (c : Slot) (s : State) : Outcome :=
  endCmd (do
    enter true c suitsDirect true
    if (s.conn c).cfgFifo = [] then
      let _ ← routeRead c
    let s ← get
    pure ((s.conn c).cfgFifo != [])) s

/-- RDDET (R153). -/
def execRddet (c : Slot) (s : State) : Outcome :=
  endCmd (do
    enter true c suitsDirect true
    if (s.conn c).detFifo = [] then
      let _ ← routeRead c
    let s ← get
    pure ((s.conn c).detFifo != [])) s

/-- POPCFG (R154). -/
def execPopcfg (c : Slot) (s : State) : Outcome :=
  endLocal (do
    enterLocal true c suitsDirect
    match (s.conn c).cfgFifo with
    | [] => raiseLocal .fifoEmpty
    | e :: _ =>
      modify (fun s => (s.modConn c popCfg).showFrame e)
      pure false) s

/-- POPDET (R155). -/
def execPopdet (c : Slot) (s : State) : Outcome :=
  endLocal (do
    enterLocal true c suitsDirect
    match (s.conn c).detFifo with
    | [] => raiseLocal .fifoEmpty
    | e :: _ =>
      modify (fun s => (s.modConn c popDet).showFrame e)
      pure false) s

end Sys2Proof.Machine
end

