-- ==== Sys2Proof/Machine/Encoders.lean ====
section
/-! DEFINITION. The transport encoders (43_transport_encoders.md): `TRead`, `TWrite`, `TOpcode` on SPI, Modbus and
Universal-over-CAN, with the CRC budget (R101). The ready guard of R105 is an argument of each operation, since it is
itself built on a status read. -/

namespace Sys2Proof.Machine

/-! ### The CRC budget -/

/-- The loop of R101 with `n` attempts left. An attempt answers a value, or the error the command ends with if no
attempt is left. -/
def crcLoop {α : Type} (att : Cmd (Except Err α)) (spent : Err) : Nat → Cmd α
  | 0 => raise spent
  | n + 1 => do
    match ← att with
    | .ok v => pure v
    | .error e =>
      if n = 0 then raise e
      else
        sleep crcRetrySleepMs
        crcLoop att spent n

/-- `WithCrcRetry(N, Attempt, a, n)` (R101): N = 0 makes one attempt with no check. -/
def withCrcRetry {α : Type} (n : Nat) (att : Bool → Cmd (Except Err α)) (spent : Err) : Cmd α :=
  if n = 0 then do
    match ← att false with
    | .ok v => pure v
    | .error e => raise e
  else crcLoop (att true) spent n

/-- Run a chunk operation over the chunks of a transfer and join what they answer (R53). -/
def overChunks (f : Nat → Nat → Cmd Bytes) : List (Nat × Nat) → Cmd Bytes
  | [] => pure []
  | (off, m) :: r => do
    let d ← f off m
    let rest ← overChunks f r
    pure (d ++ rest)

/-- The device address of a chunk. -/
def chunkAddr (a : Word) (off : Nat) : Word := a + BitVec.ofNat 32 off

/-! ### SPI -/

/-- One SPI read exchange: request and response of `n` payload bytes (R76, R77). -/
def spiReadAttempt (p op : Byte) (a : Word) (n : Nat) (chk : Bool) : Cmd (Except Err Bytes) := do
  let s ← get
  spiWrite p (spiReadRequest s.cfg.spiReadReqCrc op a n) false
  let r ← spiRead p (n + 2) true
  if chk && !crcCheck (spiHeader op a n) (r.take n) (spiReceivedCrc r n) then
    pure (.error (.crcSpi a (sizeWord n)))
  else pure (.ok (r.take n))

/-- SPI `TRead` (R118). -/
def spiTRead (guard : Cmd Unit) (p : Byte) (op : Opc) (a : Word) (n budget : Nat) : Cmd Bytes := do
  guard
  withCrcRetry budget (spiReadAttempt p op.wire a n) (.crcSpi a (sizeWord n))

/-- The decoding of a transaction-info code (R120): success, a CRC failure of the attempt, or a ProtocolError. -/
def txInfoResult (t : TxCodes) (chk : Bool) (code : Byte) (ca : Word) (m : Nat) : Cmd (Except Err Bytes) :=
  if code = 0#8 then pure (.ok [])
  else if chk && code == t.crcFailed then pure (.error (.crcSpi ca (sizeWord m)))
  else if code = t.accessViolation then raise (.txAccessViolation ca (sizeWord m))
  else if code = t.invalidAddress then raise (.txInvalidAddress ca (sizeWord m))
  else if code = t.commandNotFound then raise (.txCommandNotFound ca (sizeWord m))
  else if code = t.writeDisabled then raise (.txWriteDisabled ca (sizeWord m))
  else if code = t.crcFailed then raise (.txCrcFailed ca (sizeWord m))
  else if code = t.execError then raise (.txExecError ca (sizeWord m))
  else raise (.txUnknown ca (sizeWord m))

/-- `TxInfo(c, check, ca, m)` (R120). R45 refuses a register access on SPI above 0xFFFFFF, R120 names no check and nothing
bounds TXINFO_ADDR: the frame takes its low 24 bits, unchecked (DESIGN CHOICE, log 35). -/
def txInfo (p : Byte) (chk : Bool) (ca : Word) (m : Nat) : Cmd (Except Err Bytes) := do
  let s ← get
  let op := s.cfg.opcRegmapRead.wire
  spiWrite p (spiReadRequest s.cfg.spiReadReqCrc op s.cfg.txinfoAddr txinfoSize) false
  let r ← spiRead p (txinfoSize + 2) true
  if chk && !crcCheck (spiHeader op s.cfg.txinfoAddr txinfoSize) (r.take txinfoSize) (spiReceivedCrc r txinfoSize) then
    pure (.error (.crcSpi ca (sizeWord m)))
  else txInfoResult s.cfg.txCodes chk (byteAt r 0) ca m

/-- One attempt of an SPI write page: frame, post-ready, transaction info (R119). -/
def spiWriteAttempt (guard : Cmd Unit) (p op : Byte) (ca : Word) (data : Bytes) (chk : Bool) :
    Cmd (Except Err Bytes) := do
  spiWrite p (spiWriteFrame op ca data) true
  guard
  txInfo p chk ca data.length

/-- SPI `TWrite` (R119). -/
def spiTWrite (guard : Cmd Unit) (c : Slot) (p : Byte) (op : Opc) (a : Word) (n budget : Nat) : Cmd Unit := do
  let _ ← overChunks (fun off m => do
    guard
    let data ← inbufData c off m
    let ca := chunkAddr a off
    withCrcRetry budget (spiWriteAttempt guard p op.wire ca data) (.crcSpi ca (sizeWord m))) (chunks spiWritePage n)
  pure ()

/-- SPI `TOpcode` (R121). -/
def spiTOpcode (p : Byte) (op : Opc) : Cmd Unit := spiWrite p (spiWriteFrame op.wire 0#32 []) true

/-! ### Modbus -/

/-- Send a Modbus request and receive its answer of expected length `l`. -/
def mbRound (p : Byte) (q : Bytes) (l : Nat) : Cmd Bytes := do
  mbSend p q
  mbRecv p l

/-- The check of a Modbus answer (R79, R122). -/
def mbCheckAnswer (dev fc : Byte) (mlen : Nat) (ca : Word) (m : Nat) (chk : Bool) (a : Bytes) :
    Cmd (Except Err Bytes) :=
  if a.length ≠ mlen + 4 then
    if chk then pure (.error (.crcModbus ca (sizeWord m))) else raise (.unexpectedAnswer ca (sizeWord m))
  else if chk && mbReceivedCrc a (mlen + 4) != crc16 (a.take (mlen + 2)) then
    pure (.error (.crcModbus ca (sizeWord m)))
  else if byteAt a 0 ≠ dev ∨ byteAt a 1 ≠ fc then raise (.unexpectedAnswer ca (sizeWord m))
  else pure (.ok ((a.drop 2).take mlen))

/-- One attempt of R122. A driver error is a failed attempt while CRC checking is on. -/
def mbAttempt (p dev fc : Byte) (q : Bytes) (mlen : Nat) (ca : Word) (m : Nat) (chk : Bool) :
    Cmd (Except Err Bytes) := do
  match ← attempt (mbRound p q (mlen + 4)) with
  | .error e => if chk then pure (.error e) else raise e
  | .ok a => mbCheckAnswer dev fc mlen ca m chk a

/-- `MbExchange` (R122): send request `q` of function code `fc` and return the `mlen` data bytes of its answer. -/
def mbExchange (p dev fc : Byte) (q : Bytes) (mlen budget : Nat) (ca : Word) (m : Nat) : Cmd Bytes :=
  withCrcRetry budget (mbAttempt p dev fc q mlen ca m) (.crcModbus ca (sizeWord m))

/-- Modbus `TRead` (R123). -/
def mbTRead (guard : Cmd Unit) (d : Desc) (op : Opc) (a : Word) (n budget : Nat) : Cmd Bytes :=
  overChunks (fun off m => do
    guard
    let ca := chunkAddr a off
    mbExchange d.port d.mb.devAddr fcRead (mbFrame (mbReadBody d.mb.devAddr op.wire ca (BitVec.ofNat 16 m))) m budget
      ca m) (chunks d.mb.page.toNat n)

/-- Modbus `TWrite` (R124). -/
def mbTWrite (guard : Cmd Unit) (c : Slot) (d : Desc) (op : Opc) (a : Word) (n budget : Nat) : Cmd Unit := do
  guard
  let data ← inbufData c 0 n
  let _ ← mbExchange d.port d.mb.devAddr fcWrite (mbFrame (mbWriteBody d.mb.devAddr op.wire a data)) 0 budget a n
  guard

/-- Modbus `TOpcode` (R125). -/
def mbTOpcode (d : Desc) (op : Opc) (budget : Nat) : Cmd Unit := do
  let _ ← mbExchange d.port d.mb.devAddr fcOpcode (mbFrame (mbOpcodeBody d.mb.devAddr op.wire)) 0 budget 0#32 0
  pure ()

/-! ### Universal-over-CAN -/

/-- The slot polls of R128: at most so many until the response slot is not all zero. -/
def slotPolls (c : Slot) : Nat → Cmd Bytes
  | 0 => do
    let flag ← likelyDisconnected
    raise (.timeoutResponseSlot flag)
  | n + 1 => do
    let s ← get
    match mreadBytes (s.conn c).outbuf.mem 0 8 with
    | some r =>
      if r ≠ zeros 8 then pure r
      else
        let _ ← routeRead c
        sleep pollSleepMs
        slotPolls c n
    | none => stopFault .undefRead

/-- `CanuExchange(c, F)` (R128): the 8 bytes of the answer. -/
def canuExchange (c : Slot) (f : Frame) : Cmd Bytes := do
  modify (fun s => s.modConn c (outbufWrite 0 (zeros 8)))
  writeAndWait c f
  slotPolls c canSlotPolls

/-- The high 16 bits of a device address, the low ones 0 (R129). -/
def pageOf (a : Word) : Word := a &&& 0xFFFF0000#32

/-- `BaseCheck(c, ca)` (R129). -/
def baseCheck (c : Slot) (ca : Word) : Cmd Unit := do
  let s ← get
  if (s.conn c).baseCache = some (pageOf ca) then pure ()
  else
    let v := match s.cfg.canBaseValue with
      | .full => ca
      | .masked => pageOf ca
    let _ ← orInvalidate c (canuExchange c (canuSetBaseFrame s.cfg.canuCmdSetbase v))
    modify (fun s => s.setBase c (some (pageOf ca)))

/-- `BaseCheck` where the opcode is the register one of the transfer (R130, R131). -/
def baseCheckIf (b : Bool) (c : Slot) (ca : Word) : Cmd Unit := if b then baseCheck c ca else pure ()

/-- Universal-CAN `TRead` (R130). -/
def canuTRead (guard : Cmd Unit) (c : Slot) (op : Opc) (a : Word) (n : Nat) : Cmd Bytes :=
  overChunks (fun off m => do
    guard
    let s ← get
    let ca := chunkAddr a off
    baseCheckIf (op == s.cfg.opcRegmapRead) c ca
    let r ← canuExchange c (canuReadFrame op ca m)
    pure ((r.drop 4).take m)) (chunks canChunk n)

/-- Universal-CAN `TWrite` (R131). -/
def canuTWrite (guard : Cmd Unit) (c : Slot) (op : Opc) (a : Word) (n : Nat) : Cmd Unit := do
  let _ ← overChunks (fun off m => do
    guard
    let s ← get
    let ca := chunkAddr a off
    baseCheckIf (op == s.cfg.opcRegmapWrite) c ca
    let data ← inbufData c off m
    let _ ← canuExchange c (canuWriteFrame op ca data)
    guard
    pure []) (chunks canChunk n)
  pure ()

/-- Universal-CAN `TOpcode` (R132). -/
def canuTOpcode (c : Slot) (op : Opc) : Cmd Unit := do
  let _ ← canuExchange c (canuOpcodeFrame op)
  pure ()

end Sys2Proof.Machine
end

