-- ==== Sys2Proof/Machine/RegisterOps.lean ====
section
/-! DEFINITION. The internal operations of the register transaction engine (42_register_engine.md section 1): `TRead`,
`TWrite`, `TOpcode`, the ready polls, the status read, the write-enable handshake and the write sequence. They run the
same sequence of transactions on every transport (R110). -/

namespace Sys2Proof.Machine

/-- `TRead` (R102) with the ready guard as an argument. -/
def tReadWith (guard : Cmd Unit) (c : Slot) (op : Opc) (a : Word) (n budget : Nat) : Cmd Bytes := do
  let s ← get
  let d := s.descOf c
  match (s.conn c).kind with
  | .spi => spiTRead guard d.port op a n budget
  | .modbus => mbTRead guard d op a n budget
  | .can => canuTRead guard c op a n

/-- `GetStatusRegister(c, N)` (R106): one `TRead` with no ready timeout. -/
def getStatus (c : Slot) (budget : Nat) : Cmd Byte := do
  let s ← get
  let r ← tReadWith (pure ()) c s.cfg.opcReadStatus 0#32 statusSize budget
  pure (byteAt r 0)

/-- The loop of R107 with `n` sleeps left: the remaining budget is above 0 exactly while a sleep is left. -/
def readyLoop (c : Slot) (budget : Nat) : Nat → Cmd Bool
  | 0 => do
    let st ← getStatus c budget
    pure (!st.getLsbD statusBusyBit)
  | n + 1 => do
    let st ← getStatus c budget
    if !st.getLsbD statusBusyBit then pure true
    else
      sleep readyPollMs
      readyLoop c budget n

/-- The sleeps that bring a budget of `t` ms to 0 or below: t / 10, rounded up (R107). -/
def readySleeps (t : Nat) : Nat := (t + (readyPollMs - 1)) / readyPollMs

/-- `ReadyPoll(c, T, N)` (R107). -/
def readyPoll (c : Slot) (t budget : Nat) : Cmd Bool := readyLoop c budget (readySleeps t)

/-- `ReadyGuard(c, T, N)` (R105). -/
def readyGuard (c : Slot) (t budget : Nat) : Cmd Unit :=
  if t = 0 then pure ()
  else do
    let ready ← readyPoll c t budget
    if ready then pure () else raise .timeoutReady

/-- `TRead(c, op, a, n, N, T)` (R102). -/
def tRead (c : Slot) (op : Opc) (a : Word) (n budget t : Nat) : Cmd Bytes :=
  tReadWith (readyGuard c t budget) c op a n budget

/-- `TWrite(c, op, a, n, N, T)` (R103): writes `inbuf[0..n)`. -/
def tWrite (c : Slot) (op : Opc) (a : Word) (n budget t : Nat) : Cmd Unit := do
  let s ← get
  let d := s.descOf c
  match (s.conn c).kind with
  | .spi => spiTWrite (readyGuard c t budget) c d.port op a n budget
  | .modbus => mbTWrite (readyGuard c t budget) c d op a n budget
  | .can => canuTWrite (readyGuard c t budget) c op a n

/-- `TOpcode(c, op, N)` (R104). -/
def tOpcode (c : Slot) (op : Opc) (budget : Nat) : Cmd Unit := do
  let s ← get
  let d := s.descOf c
  match (s.conn c).kind with
  | .spi => spiTOpcode d.port op
  | .modbus => mbTOpcode d op budget
  | .can => canuTOpcode c op

/-- `SetWriteEnable(c, e, N)` (R108). -/
def setWriteEnable (c : Slot) (e : Bool) (budget : Nat) : Cmd Unit := do
  let s ← get
  tOpcode c (if e then s.cfg.opcWren else s.cfg.opcWrdis) budget
  let st ← getStatus c budget
  if st.getLsbD s.cfg.statusWelBit = e then pure () else raise .weVerify

/-- The write sequence `WriteSeq(c, a, data, N, T)` (R109). -/
def writeSeq (c : Slot) (a : Word) (data : Bytes) (budget t : Nat) : Cmd Unit := do
  setWriteEnable c true budget
  modify (fun s => s.modConn c (inbufWrite 0 data))
  let s ← get
  catchErr (tWrite c s.cfg.opcRegmapWrite a data.length budget t) (fun e => do
    setWriteEnable c false budget
    raise e)
  setWriteEnable c false budget

end Sys2Proof.Machine
end

