-- ==== Sys2Proof/Machine/Engine.lean ====
section
/-! DEFINITION. The register engine commands (42_register_engine.md section 2): RDREG, WRREG, ISREADY, SETWE, GETSR,
RESET, INIT. -/

namespace Sys2Proof.Machine

/-- RDREG (R111). -/
def execRdreg (c : Slot) (s : State) : Outcome :=
  endCmd (do
    enter true c suitsRegister true
    checkAccess c false s.arg0 s.arg1.toNat
    let data ← tRead c s.cfg.opcRegmapRead s.arg0 s.arg1.toNat s.arg2.toNat s.arg3.toNat
    modify (fun s => if (s.conn c).kind ≠ .can then s.modConn c (outbufWrite 0 data) else s)
    modify (fun s => s.setHbuf data)
    pure false) s

/-- WRREG (R112). -/
def execWrreg (c : Slot) (s : State) : Outcome :=
  endCmd (do
    enter true c suitsRegister true
    checkAccess c true s.arg0 s.arg1.toNat
    let data ← hbufData s.arg1.toNat
    writeSeq c s.arg0 data s.arg2.toNat s.arg3.toNat
    pure false) s

/-- ISREADY (R113). -/
def execIsready (c : Slot) (s : State) : Outcome :=
  endCmd (do
    enter true c suitsRegister true
    readyPoll c s.arg0.toNat s.arg2.toNat) s

/-- SETWE (R114). -/
def execSetwe (c : Slot) (e : Bool) (s : State) : Outcome :=
  endCmd (do
    enter true c suitsRegister true
    setWriteEnable c e s.arg2.toNat
    pure false) s

/-- GETSR (R115). -/
def execGetsr (c : Slot) (s : State) : Outcome :=
  endCmd (do
    enter true c suitsRegister true
    let st ← getStatus c s.arg2.toNat
    modify (fun s => { s with result0 := st.setWidth 32 })
    pure false) s

/-- The reset type of a code, if it is legal (R116). -/
def resetTypeOf (g : Config) (t : Word) : Option ResetType := g.resetTypes.find? (fun r => r.code == t)

/-- What RESET sends, or the error of an illegal type (R116). -/
def resetOpcode (c : Slot) (b : Bool) (t : Word) (budget : Nat) : Cmd Unit := do
  let s ← get
  match resetTypeOf s.cfg t with
  | none => raise (.invalidResetType t)
  | some r => tOpcode c (if b then r.boot else r.opc) budget

/-- RESET (R116). R63 makes the base cache INVALID at every RESET, so one that ends with an error does it too (DEDUCED,
log 15). -/
def execReset (c : Slot) (b : Bool) (s : State) : Outcome :=
  endCmd (do
    enter true c suitsRegister true
    orInvalidate c (resetOpcode c b s.arg0 s.arg2.toNat)
    modify (fun s => s.setBase c none)
    pure false) s

/-- One of the Init steps 2 to 4 (R117); it is a register access, so R52 and R45 apply (log 12). -/
def initWrite (c : Slot) (g : Gen) (w : InitWrite) (budget : Nat) : Cmd Unit := do
  checkAccess c true (w.addr g) w.data.length
  writeSeq c (w.addr g) w.data budget 0

/-- INIT (R117). -/
def execInit (c : Slot) (s : State) : Outcome :=
  endCmd (do
    enter true c suitsRegister true
    let g := (s.descOf c).gen
    checkAccess c false (s.cfg.devtypeAddr g) s.cfg.devtypeSize
    let v ← tRead c s.cfg.opcRegmapRead (s.cfg.devtypeAddr g) s.cfg.devtypeSize 0 0
    let t : Word := BitVec.ofNat 32 (leValue v)
    modify (fun s => { s.modConn c (fun k => { k with devType := some t }) with result0 := t })
    initWrite c g s.cfg.initSecure s.cfg.defaultCrcRetries
    initWrite c g s.cfg.initReadypin s.cfg.defaultCrcRetries
    initWrite c g s.cfg.initPartial s.cfg.defaultCrcRetries
    pure false) s

end Sys2Proof.Machine
end

