-- ==== Sys2Proof/Machine/ModbusWire.lean ====
section
/-! DEFINITION. The three Modbus request frames (R78) run alone by the Modbus encoder: the exchange of R122 for the
connection CMD names, with the CRC budget in ARG2 (log 11). -/

namespace Sys2Proof.Machine

/-- Only a Modbus connection has a Modbus encoder. -/
def suitsModbus (k : Conn) (_ : Desc) : Bool := k.kind == .modbus

/-- The exchange of one request body on the connection's port, after the checks `pre` of a register access; the data
bytes of a read answer go to `outbuf`, the bytes received (R29). The frame is sent as it is and its answer is checked
against its own device byte, also where that is not the connection's devAddr, which R78 never builds (DESIGN CHOICE,
log 11). -/
def wireExchange (pre : Slot → Cmd Unit) (dev fc : Byte) (body : Bytes) (mlen : Nat) (a : Word) (n : Nat) (s : State) :
    Outcome :=
  endCmd (do
    let c := cmdConn s.cmd
    enter true c suitsModbus true
    pre c
    let data ← mbExchange (s.descOf c).port dev fc (mbFrame body) mlen s.arg2.toNat a n
    modify (fun s => s.modConn c (outbufWrite 0 data))
    pure false) s

/-- MB_READ_DATA (R78, R122), a register access (R52, R45). It is one exchange whatever its size: the page of R53 and R123
cuts the read of a register command into frames, and a frame run alone is not cut or refused by it (DESIGN CHOICE,
log 11). -/
def execMbReadData (dev op : Byte) (addr : Word) (size : BitVec 16) (s : State) : Outcome :=
  wireExchange (fun c => checkAccess c false addr size.toNat) dev fcRead (mbReadBody dev op addr size) size.toNat addr
    size.toNat s

/-- MB_WRITE_DATA (R78, R122), a register access (R52, R53, R45). -/
def execMbWriteData (dev op : Byte) (addr : Word) (payload : Bytes) (s : State) : Outcome :=
  wireExchange (fun c => checkAccess c true addr payload.length) dev fcWrite (mbWriteBody dev op addr payload) 0 addr
    payload.length s

/-- MB_SEND_OPCODE (R78, R122). -/
def execMbSendOpcode (dev op : Byte) (s : State) : Outcome :=
  wireExchange (fun _ => pure ()) dev fcOpcode (mbOpcodeBody dev op) 0 0#32 0 s

end Sys2Proof.Machine
end

