-- ==== Sys2Proof/Machine/Dispatch.lean ====
section
/-! DEFINITION. The dispatch of the instructions to their meanings: one arm per constructor. -/

namespace Sys2Proof.Machine

def exec (i : Instr) (s : State) : Host.Outcome State Fault Refusal :=
  match i with
  | .openConn c e => Sys2Proof.Machine.execOpen c e s
  | .closeConn c => Sys2Proof.Machine.execClose c s
  | .connect c => Sys2Proof.Machine.execConnect c s
  | .disconnect c => Sys2Proof.Machine.execDisconnect c s
  | .isconn c => Sys2Proof.Machine.execIsconn c s
  | .resize c e => Sys2Proof.Machine.execResize c e s
  | .setaddr c => Sys2Proof.Machine.execSetaddr c s
  | .getdt c => Sys2Proof.Machine.execGetdt c s
  | .setdt c => Sys2Proof.Machine.execSetdt c s
  | .bufpeek c e => Sys2Proof.Machine.execBufpeek c e s
  | .init c => Sys2Proof.Machine.execInit c s
  | .rdreg c => Sys2Proof.Machine.execRdreg c s
  | .wrreg c => Sys2Proof.Machine.execWrreg c s
  | .isready c => Sys2Proof.Machine.execIsready c s
  | .setwe c e => Sys2Proof.Machine.execSetwe c e s
  | .getsr c => Sys2Proof.Machine.execGetsr c s
  | .reset c b => Sys2Proof.Machine.execReset c b s
  | .crc16 => Sys2Proof.Machine.execCrc16 s
  | .crcchk => Sys2Proof.Machine.execCrcchk s
  | .canrd c => Sys2Proof.Machine.execCanrd c s
  | .cansend c => Sys2Proof.Machine.execCansend c s
  | .cansendw c => Sys2Proof.Machine.execCansendw c s
  | .getval c => Sys2Proof.Machine.execGetval c s
  | .setval c => Sys2Proof.Machine.execSetval c s
  | .stream c e => Sys2Proof.Machine.execStream c e s
  | .rdcfg c => Sys2Proof.Machine.execRdcfg c s
  | .rddet c => Sys2Proof.Machine.execRddet c s
  | .popcfg c => Sys2Proof.Machine.execPopcfg c s
  | .popdet c => Sys2Proof.Machine.execPopdet c s
  | .mbReadData dev op addr size => Sys2Proof.Machine.execMbReadData dev op addr size s
  | .mbWriteData dev op addr payload => Sys2Proof.Machine.execMbWriteData dev op addr payload s
  | .mbSendOpcode dev op => Sys2Proof.Machine.execMbSendOpcode dev op s

end Sys2Proof.Machine
end

