-- ==== Sys2Proof/Machine/Host.lean ====
section
/-! DEFINITION. The host's accesses to the host window (R18 to R24, R163, R164) and the block reset (R172). -/

namespace Sys2Proof.Machine

/-- The first byte offset of HBUF (R18). -/
def hbufBase : Nat := 0x100

/-- Write a host register (R18, R19, R20): CMD starts a command, ARG0 to ARG3 take the value; every other offset, a
read-only register and every write while BUSY have no move (R164; log 10). -/
def hostWrite32 (off : Nat) (v : Word) (s : State) : Outcome :=
  if s.busy then .fault .hostNoMove
  else if off = 0x000 then .next (s.start v)
  else if off = 0x004 then .next { s with arg0 := v }
  else if off = 0x008 then .next { s with arg1 := v }
  else if off = 0x00C then .next { s with arg2 := v }
  else if off = 0x010 then .next { s with arg3 := v }
  else .fault .hostNoMove

/-- Write an HBUF byte (R18, R20, R24). -/
def hostWrite8 (off : Nat) (v : Byte) (s : State) : Outcome :=
  if s.busy then .fault .hostNoMove
  else if hbufBase ≤ off ∧ off < hbufBase + s.cfg.hbufSize then
    .next { s with hbuf := mwrite s.hbuf (off - hbufBase) (some v) }
  else .fault .hostNoMove

/-- The value of a host register that may be read at any time (R18; log 9). -/
def State.openReg (s : State) (off : Nat) : Option Word :=
  if off = 0x000 then some s.cmd
  else if off = 0x004 then some s.arg0
  else if off = 0x008 then some s.arg1
  else if off = 0x00C then some s.arg2
  else if off = 0x010 then some s.arg3
  else if off = 0x014 then some s.status
  else none

/-- The value of a result register, which the host reads only while BUSY is 0 (R18, R60, R177). -/
def State.resultReg (s : State) (off : Nat) : Option Word :=
  if off = 0x018 then some s.result0
  else if off = 0x01C then some s.result1
  else if off = 0x020 then some s.errAddr
  else if off = 0x024 then some s.errSize
  else if off = 0x028 then some s.errInfo
  else none

/-- Read a host register (R18, R177). -/
def hostRead32 (off : Nat) (s : State) : Outcome :=
  match s.openReg off with
  | some v => .next { s with readData := v }
  | none =>
    if s.busy then .fault .hostNoMove
    else
      match s.resultReg off with
      | some v => .next { s with readData := v }
      | none => .fault .hostNoMove

/-- Read an HBUF byte: an `undef` byte is the model fault UNDEF_READ (R163). -/
def hostRead8 (off : Nat) (s : State) : Outcome :=
  if s.busy then .fault .hostNoMove
  else if hbufBase ≤ off ∧ off < hbufBase + s.cfg.hbufSize then
    match mread s.hbuf (off - hbufBase) with
    | some b => .next { s with readData := b.setWidth 32 }
    | none => .fault .undefRead
  else .fault .hostNoMove

/-- A host access (R18). -/
def hostAccess (a : HostAccess) (s : State) : Outcome :=
  match a with
  | .write32 off v => hostWrite32 off v s
  | .write8 off v => hostWrite8 off v s
  | .read32 off => hostRead32 off s
  | .read8 off => hostRead8 off s
  | .otherWidth _ => .fault .hostNoMove

/-- The host's queue after its next item. -/
def State.nextHostItem (s : State) : State := { s with hostq := s.hostq.tail }

/-- The block reset (R172): every piece of block state at its reset value; the host's pending items and the outside
world, the trace included, are not the block's (log 8, log 23). -/
def State.blockReset (s : State) : State :=
  { State.resetWith s.cfg with
    hostq := s.hostq, readData := s.readData, oracle := s.oracle, draws := s.draws, trace := s.trace }

/-- How many of some events are port calls. -/
def portEvents : List Event → Nat
  | [] => 0
  | .port _ _ :: r => portEvents r + 1
  | .sleep _ :: r => portEvents r

/-- The block reset that arrives after the first `k` events of a command that runs from `s` to `t` (R172): those events
are on the trace and their answers are used, no further one happens. A command with fewer events has made them all
(log 8). -/
def abortedAfter (k : Nat) (s t : State) : State :=
  let total := t.trace.length - s.trace.length
  let kept := min k total
  let events := (t.trace.take total).drop (total - kept)
  { s.blockReset with
    oracle := s.oracle.drop (portEvents events), draws := s.draws + portEvents events, trace := events ++ s.trace }

/-- The error a rejected code ends the command with (R66, R67, C8; log 11 for a Modbus frame). -/
def rejectErr : Reject → Err
  | .reservedBits => .reservedBits
  | .unsupportedOpcode => .unsupportedOpcode
  | .badFrame => .unsupportedOpcode

/-- Whether a pending item acts before a running command ends. -/
def HostItem.preempts : HostItem → Bool
  | .waiting _ => false
  | .eager _ => true
  | .reset _ => true

end Sys2Proof.Machine
end

