-- ==== Sys2Proof/Machine/Step.lean ====
section
/-! DEFINITION. One step of the machine. While STATUS.BUSY is 1 the sequencer runs the command in CMD to its end
(R16, R17), unless the host acts at once; while it is 0 the host's next pending item is performed. -/

namespace Sys2Proof.Machine

/-- The code of the command in progress: the CMD word, or the request handed to the Modbus encoder (log 11). -/
def State.code (s : State) : Code :=
  match s.wire with
  | some b => .wire b
  | none => .cmd s.cmd

/-- The machine once the sequencer has taken the code: the Modbus latch is empty. -/
def State.fetched (s : State) : State := { s with wire := none }

/-- Run the command in progress: the decoded instruction, or the error completion of a code that is none (R66, R67). One
that is stuck in a port call stays there (R187). -/
def runCommand (s : State) : Host.Outcome State Fault Refusal :=
  if s.stuck then .next s
  else
    match decode s.code with
    | .ok i => exec i s.fetched
    | .error r => .next (s.fetched.endErr (rejectErr r))

/-- A reset that arrives while a command runs (R172): the command's first `k` events have happened. It ends a command
that is stuck in a port call, too. Where the command would use an `undef` byte (R163), the reset comes first whatever
`k` is, and no event has happened (DESIGN CHOICE, log 8). -/
def runAborted (k : Nat) (s : State) : Host.Outcome State Fault Refusal :=
  match runCommand s with
  | .next t => .next (abortedAfter k s t)
  | .fault _ => .next s.blockReset
  | .refused r => .refused r

/-- One step. -/
def step (s : State) : Host.Outcome State Fault Refusal :=
  if s.busy then
    match s.hostq with
    | .eager a :: _ => hostAccess a s.nextHostItem
    | .reset k :: _ => runAborted k s.nextHostItem
    | .waiting _ :: _ => runCommand s
    | [] => runCommand s
  else
    match s.hostq with
    | .eager a :: _ => hostAccess a s.nextHostItem
    | .waiting a :: _ => hostAccess a s.nextHostItem
    | .reset _ :: _ => .next s.nextHostItem.blockReset
    | [] => .next s

/-- The state with the instruction of a row of the opcode table as the command in progress, so that the next step runs
it: a CMD word as the host's write of CMD leaves it (R19, R23), a Modbus request in the encoder's latch (log 11). Leading
items of the host that would act before the command ends are taken off the queue. -/
def State.withFetchWord (s : State) (nbits w : Nat) : State :=
  match tableCode nbits w with
  | .cmd x => { s.start x with wire := none, hostq := s.hostq.dropWhile HostItem.preempts }
  | .wire b => { s.start s.cmd with wire := some b, hostq := s.hostq.dropWhile HostItem.preempts }

end Sys2Proof.Machine
end

