-- ==== Sys2Proof/Safety.lean ====
section
/-! DEFINITION. What counts as a legal state of the block: the reserved bits of STATUS (R21, R22), the canonical form
and the sizes of the memories, buffers and FIFOs (R24, R29, R31), the links between slots and descriptors (R28, R29)
and the invariants of the routing domains (R36). -/

namespace Sys2Proof.Machine

/-- STATUS and the error registers as R21, R22, R23 and R161 leave them, and the sequencer's position (R187). -/
structure State.StatusLegal (s : State) : Prop where
  /-- bits [31:24] of STATUS are zero (R21) -/
  high : s.status.extractLsb' 24 8 = 0#8
  /-- bits [7:4] of STATUS are zero (R21) -/
  low : s.status.extractLsb' 4 4 = 0#4
  /-- while a command runs STATUS is 0x00000001 (R23) -/
  busy : s.busy = true → s.status = 0x00000001#32
  /-- without an error the codes and the error context are 0 (R21, R161) -/
  noErr : stErr s.status = false →
    stErrCode s.status = 0#8 ∧ stErrSub s.status = 0#8 ∧ s.errAddr = 0#32 ∧ s.errSize = 0#32 ∧ s.errInfo = 0#32
  /-- with an error DONE is 1, RES is 0 and the codes are not 0 (R157, R160) -/
  err : stErr s.status = true →
    stDone s.status = true ∧ stRes s.status = false ∧ stErrCode s.status ≠ 0#8 ∧ stErrSub s.status ≠ 0#8
  /-- bits [31:1] of ERRINFO are zero (R22) -/
  info : s.errInfo.extractLsb' 1 31 = 0#31
  /-- a command that is stuck is in progress (R187) -/
  stuck : s.stuck = true → s.busy = true

/-- A transfer buffer in canonical form, with no byte at or past its length, of a legal length for its kind (R31). -/
structure Buf.Legal (g : Config) (k : Kind) (b : Buf) : Prop where
  wf : b.mem.wf = true
  inside : ∀ x, b.len ≤ x → mread b.mem x = none
  atLeast : minBuf k ≤ b.len
  atMost : b.len ≤ g.bufMax

/-- A connection whose buffers, cache and FIFOs are as R29 and R31 say. -/
structure Conn.Legal (g : Config) (k : Conn) : Prop where
  inbuf : k.inbuf.Legal g k.kind
  outbuf : k.outbuf.Legal g k.kind
  /-- a cached base has its low 16 bits 0 (R29) -/
  base : ∀ b, k.baseCache = some b → b.extractLsb' 0 16 = 0#16
  cfgDepth : k.cfgFifo.length ≤ g.fifoDepth
  detDepth : k.detFifo.length ≤ g.fifoDepth

/-- The tables and memories of the block in canonical form and of legal sizes (R24, R28, R29, R31, R35). -/
structure State.MemoryLegal (s : State) : Prop where
  hbufWf : s.hbuf.wf = true
  hbufInside : ∀ x, s.cfg.hbufSize ≤ x → mread s.hbuf x = none
  connsWf : twf s.conns = true
  conns : ∀ x k, tget s.conns x = some k → k.Legal s.cfg
  domainsWf : twf s.domains = true
  domains : ∀ x d, tget s.domains x = some d → d ≠ emptyDomain

/-- How connections name their slots, descriptors and roles (R28, R29, R32). -/
structure State.LinksLegal (s : State) : Prop where
  /-- only slots below N_CONN are used -/
  slot : ∀ x k, tget s.conns x = some k → x < s.cfg.nConn
  /-- a connection names a descriptor of its kind -/
  desc : ∀ x k, tget s.conns x = some k → k.desc.toNat < s.descs.length ∧ (s.descAt k.desc).kind = k.kind
  /-- role NONE is the role of SPI and Modbus connections -/
  role : ∀ x k, tget s.conns x = some k → (k.role = .none ↔ k.kind ≠ .can)
  /-- only a Slave names a Master -/
  master : ∀ x k, tget s.conns x = some k → k.role ≠ .slave → k.master = noSlot

/-- The invariants (a) to (d) of the routing domains (R36). -/
structure State.RoutingLegal (s : State) : Prop where
  /-- (a) a domain has a Master exactly when its table is not empty -/
  a : ∀ q : Byte, (s.domain q).dmaster = noSlot ↔ (s.domain q).table = []
  /-- (b) the first entry is the Master's, and every other one is a Slave's that names it -/
  b : ∀ (q : Byte) (e : RouteEntry) (es : List RouteEntry), (s.domain q).table = e :: es →
    e.slot = (s.domain q).dmaster ∧ (s.conn e.slot).role = .master
      ∧ ∀ f ∈ es, (s.conn f.slot).role = .slave ∧ (s.conn f.slot).master = (s.domain q).dmaster
  /-- (c) no two entries break the non-overlap condition of R134 -/
  c : ∀ q : Byte, (s.domain q).table.Pairwise (fun e f => overlaps s.cfg f.rxId f.txId e = false)
  /-- (d) each used CAN slot is in exactly one entry of the domain of its port -/
  d : ∀ (x : Slot) (k : Conn), s.conn? x = some k → k.kind = .can →
    ((s.domain (s.descAt k.desc).port).table.filter (fun e => e.slot == x)).length = 1
  /-- (d) and every entry of a domain is of a used CAN slot of that port -/
  used : ∀ (q : Byte) (e : RouteEntry), e ∈ (s.domain q).table →
    ∃ k, s.conn? e.slot = some k ∧ k.kind = .can ∧ (s.descAt k.desc).port = q

/-- Whether every port call the block can still make returns (R187): no scripted answer is one that never comes. -/
def State.portsReturn (s : State) : Prop := none ∉ s.oracle

/-- A used slot whose connection passes the common checks of R158, steps 4 to 6, for a command of row `suits` of R71. -/
def State.admits (s : State) (c : Slot) (suits : Conn → Desc → Bool) (transport : Bool) : Prop :=
  c.toNat < s.cfg.nConn ∧ (s.conn? c).isSome = true ∧ suits (s.conn c) (s.descOf c) = true
    ∧ (transport = true → (s.conn c).connected = true
        ∧ ((s.conn c).role = .slave → (s.conn (s.conn c).master).connected = true))

/-- The answer the port call number `i` from now on gets, `none` for a call that never returns (R39; log 3, log 6). -/
def State.draw (s : State) (i : Nat) : Option Draw := s.oracle.getD i (some (Config.freeDraw (s.draws + i)))

/-- Whether port call number `i` from now on returns with the answer `d`. -/
def State.returns (s : State) (i : Nat) (d : Draw) : Prop := s.draw i = some d ∧ d.fate = .returns

/-- The state after some events, the first event first: each is on the trace, each port call has used one answer. -/
def State.afterEvents (s : State) : List Event → State
  | [] => s
  | .port call ans :: es => (s.note call ans).afterEvents es
  | .sleep ms :: es => { s with trace := .sleep ms :: s.trace }.afterEvents es

/-- Whether a command writes RESULT0 (the results column of R69, and CANRD by R144). -/
def writesResult : Instr → Bool
  | .getdt _ | .getsr _ | .init _ | .crc16 | .canrd _ | .getval _ | .setval _ | .popcfg _ | .popdet _ => true
  | .openConn _ _ | .closeConn _ | .connect _ | .disconnect _ | .isconn _ | .resize _ _ | .setaddr _ | .setdt _
  | .bufpeek _ _ | .rdreg _ | .wrreg _ | .isready _ | .setwe _ _ | .reset _ _ | .crcchk | .cansend _ | .cansendw _
  | .stream _ _ | .rdcfg _ | .rddet _ | .mbReadData _ _ _ _ | .mbWriteData _ _ _ _ | .mbSendOpcode _ _ => false

/-- How many bytes of HBUF a command may store, from index 0 on (R24, the results column of R69). -/
def hbufStored (i : Instr) (s : State) : Nat :=
  match i with
  | .rdreg _ | .bufpeek _ _ => s.arg1.toNat
  | .getval _ | .setval _ | .popcfg _ | .popdet _ => 8
  | .openConn _ _ | .closeConn _ | .connect _ | .disconnect _ | .isconn _ | .resize _ _ | .setaddr _ | .getdt _
  | .setdt _ | .init _ | .wrreg _ | .isready _ | .setwe _ _ | .getsr _ | .reset _ _ | .crc16 | .crcchk | .canrd _
  | .cansend _ | .cansendw _ | .stream _ _ | .rdcfg _ | .rddet _ | .mbReadData _ _ _ _ | .mbWriteData _ _ _ _
  | .mbSendOpcode _ _ => 0

end Sys2Proof.Machine
end

