-- ==== Sys2Proof/Certificates/Slice0/Obligations.lean ====
section
/-! DEFINITION. The statements for the provers. -/

section
open Sys2Proof Sys2Proof.Machine

/-! ### Encodings -/

/-- Words written out from the tables of R69 and R78 (the first three are the examples of R73) decode to the commands
they stand for, and a reserved one is rejected. -/
def Obligations.CommandWordsDecodeAsTheMapSays : Prop :=
  decode (.cmd 0x00010001#32) = .ok (.openConn 0#8 true)
    ∧ decode (.cmd 0x00000111#32) = .ok (.rdreg 1#8)
    ∧ decode (.cmd 0x00000020#32) = .ok .crc16
    ∧ decode (.cmd 0x00020516#32) = .ok (.reset 5#8 true)
    ∧ decode (.cmd 0x00000330#32) = .ok (.canrd 3#8)
    ∧ decode (.cmd 0x00010042#32) = .ok (.stream 0#8 true)
    ∧ decode (.wire [0x05#8, 0x44#8, 0x06#8, 0xD2#8, 0xC3#8]) = .ok (.mbSendOpcode 0x05#8 0x06#8)
    ∧ decode (.cmd 0x00000022#32) = .error .unsupportedOpcode
    ∧ decode (.cmd 0x00040020#32) = .error .reservedBits

/-- Decoding the encoding of any well-formed instruction gives it back, every field at every value (R65, R69, R78). -/
def Obligations.DecodingAnEncodingGivesItBack : Prop :=
  ∀ i : Instr, i.wf = true → decode (encode i) = .ok i

/-- Every code that decodes is the encoding of the well-formed instruction it decodes to: no two codes mean one
instruction, and no code means two (R65, R66, R69, R78). -/
def Obligations.EncodingADecodedCodeGivesItBack : Prop :=
  ∀ (b : Code) (i : Instr), decode b = .ok i → i.wf = true ∧ encode i = b

/-- The OP values of the command map (R69). -/
def Sys2Proof.Machine.listedOpcodes : List Byte :=
  [0x01#8, 0x02#8, 0x03#8, 0x04#8, 0x05#8, 0x06#8, 0x07#8, 0x08#8, 0x09#8, 0x0A#8]
    ++ [0x10#8, 0x11#8, 0x12#8, 0x13#8, 0x14#8, 0x15#8, 0x16#8, 0x20#8, 0x21#8]
    ++ [0x30#8, 0x31#8, 0x32#8, 0x40#8, 0x41#8, 0x42#8, 0x43#8, 0x44#8, 0x45#8, 0x46#8]

/-- The host has no pending item that acts before the running command ends. -/
def Sys2Proof.Machine.hostWaits (s : State) : Prop := ∀ x ∈ s.hostq.head?, x.preempts = false

/-- R67: a started command whose OP is not in the command map ends in the next step with UNSUPPORTED_OPCODE, sub-code
1 of class 5, and no state other than STATUS changes. -/
def Obligations.UnlistedOpcodeEndsUnsupported : Prop :=
  ∀ (s : State) (v : Word), s.wire = none → hostWaits s → cmdReserved v = 0#14 → cmdOp v ∉ listedOpcodes →
    step (s.start v) = .next { s.start v with status := 0x00010506#32 }

/-- R66 for the CMD word: a reserved bit, an unused flag or an unused CONN that is set ends the started command with
RESERVED_BITS, sub-code 15 of class 5, and no state other than STATUS changes. -/
def Obligations.ReservedFieldsEndReservedBits : Prop :=
  ∀ (s : State) (v : Word), s.wire = none → hostWaits s →
    (cmdReserved v ≠ 0#14
      ∨ (cmdOp v ∈ listedOpcodes ∧ cmdE v = true ∧ cmdOp v ∉ [0x01#8, 0x06#8, 0x0A#8, 0x14#8, 0x42#8])
      ∨ (cmdOp v ∈ listedOpcodes ∧ cmdB v = true ∧ cmdOp v ≠ 0x16#8)
      ∨ (cmdConn v ≠ 0#8 ∧ cmdOp v ∈ [0x20#8, 0x21#8])) →
    step (s.start v) = .next { s.start v with status := 0x000F0506#32 }

/-- A step of a running command is the meaning of the decoded instruction, in the state with the Modbus latch taken
(which is the state itself for a host command), unless it is stuck in a port call (R187; log 6); DEDUCED from R16 and
R17, with one command as one step (log 8). -/
def Obligations.StepRunsTheDecodedCommand : Prop :=
  ∀ (s : State) (i : Instr), s.busy = true → s.stuck = false → hostWaits s → decode s.code = .ok i →
    step s = exec i s.fetched ∧ (s.wire = none → s.code = .cmd s.cmd ∧ s.fetched = s)

/-! ### The host window -/

/-- R23: the host's write of CMD starts the command, and the step that ends a command clears BUSY and sets DONE. The flag
`stuck` is the model's (log 6); a command that is stuck has not ended. -/
def Obligations.WritingCmdStartsTheCommand : Prop :=
  (∀ (s : State) (v : Word) (r : List HostItem), s.busy = false → s.hostq = .waiting (.write32 0x000 v) :: r →
    step s = .next { s with
      hostq := r, cmd := v, status := 0x00000001#32, result0 := 0#32, result1 := 0#32, errAddr := 0#32
      errSize := 0#32, errInfo := 0#32, stuck := false })
  ∧ ∀ (s t : State), s.busy = true → s.stuck = false → hostWaits s → step s = .next t → t.stuck = false →
      t.busy = false ∧ stDone t.status = true

/-- R18, R20, R24: what the host's accesses read and write while no command runs. -/
def Obligations.HostAccessesReachTheirRegisters : Prop :=
  ∀ (s : State) (r : List HostItem), s.busy = false →
    (∀ v, s.hostq = .waiting (.write32 0x004 v) :: r → step s = .next { s with hostq := r, arg0 := v })
    ∧ (∀ v, s.hostq = .waiting (.write32 0x008 v) :: r → step s = .next { s with hostq := r, arg1 := v })
    ∧ (∀ v, s.hostq = .waiting (.write32 0x00C v) :: r → step s = .next { s with hostq := r, arg2 := v })
    ∧ (∀ v, s.hostq = .waiting (.write32 0x010 v) :: r → step s = .next { s with hostq := r, arg3 := v })
    ∧ (∀ i v, i < s.cfg.hbufSize → s.hostq = .waiting (.write8 (0x100 + i) v) :: r →
        ∃ m, step s = .next { s with hostq := r, hbuf := m }
          ∧ ∀ x, mread m x = if x = i then some v else mread s.hbuf x)
    ∧ (∀ off v, (off, v) ∈ [(0x000, s.cmd), (0x004, s.arg0), (0x008, s.arg1), (0x00C, s.arg2), (0x010, s.arg3),
          (0x014, s.status), (0x018, s.result0), (0x01C, s.result1), (0x020, s.errAddr), (0x024, s.errSize),
          (0x028, s.errInfo)] →
        s.hostq = .waiting (.read32 off) :: r → step s = .next { s with hostq := r, readData := v })
    ∧ (∀ i b, i < s.cfg.hbufSize → mread s.hbuf i = some b → s.hostq = .waiting (.read8 (0x100 + i)) :: r →
        step s = .next { s with hostq := r, readData := b.setWidth 32 })

/-- R163: a host read of an `undef` HBUF byte, and a command that uses one as data, is the model fault UNDEF_READ.
A command that passes its checks and would use `HBUF[0..n)` is listed with its `n`; copying `undef` bytes by BUFPEEK
and RESIZE ends in a next state. -/
def Obligations.UndefinedBytesFaultWhereTheyAreUsed : Prop :=
  (∀ (s : State) (r : List HostItem) (i : Nat), s.busy = false → i < s.cfg.hbufSize → mread s.hbuf i = none →
    s.hostq = .waiting (.read8 (0x100 + i)) :: r → step s = .fault .undefRead)
  ∧ (∀ (s : State) (i : Nat), mread s.hbuf i = none →
      (i < s.arg0.toNat → s.arg0.toNat ≤ s.cfg.hbufSize → exec .crc16 s = .fault .undefRead)
      ∧ (i < s.arg0.toNat → s.arg0.toNat ≤ s.cfg.hbufSize → fits16 s.arg1 = true → exec .crcchk s = .fault .undefRead)
      ∧ ∀ c : Slot,
        (i < s.arg1.toNat → s.admits c suitsRegister true → s.accessError c true s.arg0 s.arg1.toNat = none →
          exec (.wrreg c) s = .fault .undefRead)
        ∧ (i < 8 → s.admits c suitsCan true → exec (.cansend c) s = .fault .undefRead)
        ∧ (i < 8 → s.admits c suitsCan true → exec (.cansendw c) s = .fault .undefRead)
        ∧ (i < 8 → s.admits c suitsDirect true → exec (.setval c) s = .fault .undefRead))
  ∧ ∀ (s : State) (c : Slot) (e : Bool),
    (∃ t, exec (.bufpeek c e) s = .next t) ∧ ∃ t, exec (.resize c e) s = .next t

/-- The offsets of the eleven host registers (R18). -/
def Sys2Proof.Machine.registerOffsets : List Nat :=
  [0x000, 0x004, 0x008, 0x00C, 0x010, 0x014, 0x018, 0x01C, 0x020, 0x024, 0x028]

/-- R164: a host write of CMD, an ARG register or HBUF while BUSY is 1, an access of another width, and an access at an
offset R18 does not list have no move. That a write of a read-only register (offsets 0x014 to 0x028) has none either, which
the clause on writes while BUSY takes in, is the model's choice (log 10). -/
def Obligations.ForbiddenHostAccessHasNoMove : Prop :=
  ∀ (s : State) (r : List HostItem) (a : HostAccess),
    (s.hostq = .eager a :: r ∨ (s.busy = false ∧ s.hostq = .waiting a :: r)) →
    ((s.busy = true ∧ ((∃ off v, a = .write32 off v) ∨ ∃ off v, a = .write8 off v))
      ∨ (∃ off, a = .otherWidth off)
      ∨ (∃ off v, a = .write32 off v ∧ off ∉ registerOffsets)
      ∨ (∃ off, a = .read32 off ∧ off ∉ registerOffsets)
      ∨ (∃ off, (off < 0x100 ∨ 0x100 + s.cfg.hbufSize ≤ off)
          ∧ ((∃ v, a = .write8 off v) ∨ a = .read8 off))) →
    step s = .fault .hostNoMove

/-! ### Rules over all instructions -/

/-- R20 and the frame of every instruction: CMD, ARG0 to ARG3 and RESULT1 are never written, nor is anything that is
not the block's (the configuration, the host's items). -/
def Obligations.OperandRegistersAreNeverWritten : Prop :=
  ∀ (i : Instr) (s t : State), exec i s = .next t →
    t.cmd = s.cmd ∧ t.arg0 = s.arg0 ∧ t.arg1 = s.arg1 ∧ t.arg2 = s.arg2 ∧ t.arg3 = s.arg3 ∧ t.result1 = s.result1
      ∧ t.cfg = s.cfg ∧ t.wire = s.wire ∧ t.hostq = s.hostq ∧ t.readData = s.readData

/-- R160, R161: every command that ends does so with BUSY 0, DONE 1 and either no error, the error registers as they
were, or the report of one error of R157 with RES 0. One that does not end (R187) is stuck, STATUS and the error
registers as they were. -/
def Obligations.EveryCommandEndsInOneOfTwoWays : Prop :=
  ∀ (i : Instr) (s t : State), exec i s = .next t →
    (∃ res : Bool, t.status = statusWord 0#8 0#8 res false true false
        ∧ t.errAddr = s.errAddr ∧ t.errSize = s.errSize ∧ t.errInfo = s.errInfo)
    ∨ (∃ e : Err, t.status = statusWord e.sub e.code false true true false
        ∧ t.errAddr = e.addr ∧ t.errSize = e.size ∧ t.errInfo = (BitVec.ofBool e.flag).setWidth 32)
    ∨ (t.stuck = true ∧ t.status = s.status ∧ t.errAddr = s.errAddr ∧ t.errSize = s.errSize ∧ t.errInfo = s.errInfo)

/-- R187: every command ends after finitely many port answers if every port primitive returns, in every legal state
whose HBUF bytes are written; a command whose port call never returns (CANRD for one) is left in that call, BUSY for ever
while the host reads STATUS. The call stands on the trace without an answer, which is the model's choice (log 6). -/
def Obligations.EveryCommandEndsWhenPortsReturn : Prop :=
  (∀ (i : Instr) (s : State), s.cfg.wf = true → s.MemoryLegal → s.portsReturn →
    (∀ x, x < s.cfg.hbufSize → mread s.hbuf x ≠ none) →
    ∃ t, exec i s = .next t ∧ t.busy = false ∧ stDone t.status = true)
  ∧ (∀ (s : State) (c : Slot), s.admits c suitsCan true → s.draw 0 = none →
      exec (.canrd c) s = .next { s.note (.canRead (s.descOf c).port) .pending with stuck := true })
  ∧ ∀ s : State, s.busy = true →
      (s.stuck = true → hostWaits s → step s = .next s)
      ∧ ∀ r, s.hostq = .eager (.read32 0x014) :: r → step s = .next { s with hostq := r, readData := s.status }

/-- R40, R59, R61: the events of a command are appended to the trace, in order, and each port call among them used the
next answer of the outside world. -/
def Obligations.EventsAreAppendedInOrder : Prop :=
  ∀ (i : Instr) (s t : State), exec i s = .next t →
    ∃ es : List Event, t.trace = es ++ s.trace ∧ t.draws = s.draws + portEvents es
      ∧ t.oracle = s.oracle.drop (portEvents es)

/-- Which commands change what outside the host registers and HBUF: only OPEN and CLOSE the used slots and the routing
domains; only SETADDR and CLOSE a descriptor (R32), and never its fields but `valid`, `chipAddress` and `devAddr`;
only INIT and SETDT a device type (R63); only STREAM a Direct-CAN state (R151); only CONNECT, DISCONNECT and CLOSE a
`connected` flag. -/
def Obligations.OnlyNamedCommandsChangeTheTables : Prop :=
  ∀ (i : Instr) (s t : State), exec i s = .next t →
    ((∀ c e, i ≠ .openConn c e) → (∀ c, i ≠ .closeConn c) →
      t.domains = s.domains ∧ ∀ x : Slot, (t.conn? x).isSome = (s.conn? x).isSome)
    ∧ ((∀ c, i ≠ .closeConn c) → (∀ c, i ≠ .setaddr c) → t.descs = s.descs)
    ∧ (t.descs.length = s.descs.length ∧ ∀ d : Byte, ∃ b x y,
        t.descAt d = { s.descAt d with
          valid := b, spi := { (s.descAt d).spi with chipAddress := x }, mb := { (s.descAt d).mb with devAddr := y } })
    ∧ ∀ (x : Slot) (k k' : Conn), s.conn? x = some k → t.conn? x = some k' →
      k'.desc = k.desc ∧ k'.kind = k.kind ∧ k'.owner = k.owner
        ∧ ((∀ c, i ≠ .init c) → (∀ c, i ≠ .setdt c) → k'.devType = k.devType)
        ∧ ((∀ c e, i ≠ .stream c e) → k'.dstate = k.dstate)
        ∧ ((∀ c, i ≠ .connect c) → (∀ c, i ≠ .disconnect c) → (∀ c, i ≠ .closeConn c) →
            k'.connected = k.connected ∧ k'.role = k.role ∧ k'.master = k.master)

/-- The frame of every instruction on HBUF and RESULT0: a command that ends with an error leaves every byte of HBUF (R111,
R148), any other leaves every byte outside the bytes it stores (none, for most), and only the commands of the RESULT0
column of R69, with CANRD (R144), write RESULT0. -/
def Obligations.OnlyDeliveredBytesOfHbufChange : Prop :=
  ∀ (i : Instr) (s t : State), exec i s = .next t →
    (stErr t.status = true → t.hbuf = s.hbuf)
    ∧ (∀ x, hbufStored i s ≤ x → mread t.hbuf x = mread s.hbuf x)
    ∧ (writesResult i = false → t.result0 = s.result0)

/-! ### Invariants and reset -/

/-- Every step keeps the reserved bits of STATUS and ERRINFO, and the codes, as R21 to R23, R160 and R161 say. -/
def Obligations.StatusStaysLegal : Prop :=
  ∀ (s t : State), s.StatusLegal → step s = .next t → t.StatusLegal

/-- Every step keeps the memories and tables in canonical form and of legal sizes (R24, R29, R31), under a legal
configuration. -/
def Obligations.MemoriesStayLegal : Prop :=
  ∀ (s t : State), s.cfg.wf = true → s.MemoryLegal → step s = .next t → t.MemoryLegal ∧ t.cfg = s.cfg

/-- R36: every step keeps the invariants of the routing domains, with the links of slots, descriptors and roles they
rest on, under a legal configuration and a legal STATUS (which every step keeps, too). They hold between commands: one
that is stuck in the middle of its rule (R187) can have left the domain without its entry and with its Master. -/
def Obligations.RoutingStaysLegal : Prop :=
  ∀ (s t : State), s.cfg.wf = true → s.StatusLegal → s.LinksLegal → (s.stuck = false → s.RoutingLegal) →
    step s = .next t → t.LinksLegal ∧ (t.stuck = false → t.RoutingLegal)

/-- The state after reset meets every invariant, under any configuration. -/
def Obligations.ResetStateIsLegal : Prop :=
  ∀ g : Config, (State.resetWith g).StatusLegal ∧ (State.resetWith g).MemoryLegal ∧ (State.resetWith g).LinksLegal
    ∧ (State.resetWith g).RoutingLegal

/-- R42, R172: the block reset, with no command in progress, gives every piece of block state its reset value, makes no
event, and the machine's reset state is the same state of the block under the model's configuration. -/
def Obligations.ResetGivesTheResetValues : Prop :=
  (∀ (s t : State) (k : Nat) (r : List HostItem), s.busy = false → s.hostq = .reset k :: r → step s = .next t →
    (t.cmd = 0#32 ∧ t.arg0 = 0#32 ∧ t.arg1 = 0#32 ∧ t.arg2 = 0#32 ∧ t.arg3 = 0#32 ∧ t.status = 0#32 ∧ t.result0 = 0#32
      ∧ t.result1 = 0#32 ∧ t.errAddr = 0#32 ∧ t.errSize = 0#32 ∧ t.errInfo = 0#32 ∧ t.stuck = false)
    ∧ (∀ x, mread t.hbuf x = none) ∧ (∀ c, t.conn? c = none)
    ∧ (∀ q, (t.domain q).dmaster = 0xFF#8 ∧ (t.domain q).table = [])
    ∧ t.descs = s.cfg.descs ∧ t.trace = s.trace ∧ t.oracle = s.oracle ∧ t.cfg = s.cfg)
  ∧ (∀ (s : State) (k : Nat) (r : List HostItem), s.busy = false → s.hostq = .reset k :: r → ∃ t, step s = .next t)
  ∧ State.reset = State.resetWith Config.params

/-- R172: a reset that arrives while a command runs, after `n` of its events, leaves the block as a reset does, with no
error report, and those `n` events on the trace as the command made them, no further one. That holds of any command: one
that would end or is stuck at `u`, one that would use an `undef` byte (R163), one whose code is rejected, one that is stuck
already. The count `n` is the model's way to say when the reset arrives, and that it comes before the use of an `undef`
byte is the model's choice (log 8). -/
def Obligations.ResetAbortsTheRunningCommand : Prop :=
  ∀ (s : State) (n : Nat) (r : List HostItem), s.busy = true → s.hostq = .reset n :: r →
    let running := { s with hostq := r, wire := none }
    let aborted := fun es : List Event => { State.resetWith s.cfg with
      hostq := r, readData := s.readData, oracle := s.oracle.drop (portEvents es), draws := s.draws + portEvents es
      trace := es ++ s.trace }
    (s.stuck = false → ∀ i u, decode s.code = .ok i → exec i running = .next u →
      ∃ es rest : List Event, step s = .next (aborted es) ∧ u.trace = rest ++ es ++ s.trace
        ∧ (n ≤ (rest ++ es).length → es.length = n) ∧ ((rest ++ es).length < n → rest = []))
    ∧ (s.stuck = false → ∀ i, decode s.code = .ok i → exec i running = .fault .undefRead →
        step s = .next (aborted []))
    ∧ (s.stuck = false → ∀ x, decode s.code = .error x → step s = .next (aborted []))
    ∧ (s.stuck = true → step s = .next (aborted []))

/-! ### Connections -/

/-- The first error of a list of checks in the order they run (R158). -/
def Sys2Proof.Machine.firstError : List (Bool × Err) → Option Err
  | [] => none
  | (b, e) :: r => if b then some e else firstError r

/-- A CMD word of its fields, by their places (R19, R65). -/
def Sys2Proof.Machine.commandWord (op : Nat) (c : Slot) (e b : Bool) : Word :=
  BitVec.ofNat 32 (op + 2 ^ 8 * c.toNat + 2 ^ 16 * e.toNat + 2 ^ 17 * b.toNat)

/-- Whether an ID is in the Tx range of base `tx` (R133). -/
def Sys2Proof.Machine.inRange (g : Config) (tx : Word) (id : Nat) : Prop := tx.toNat ≤ id ∧ id ≤ tx.toNat + g.canMaxDetections + 1

/-- One of the conditions (a) to (d) of R134 holds between the IDs of a new entry and a registered one. -/
def Sys2Proof.Machine.clash (g : Config) (rx tx : Word) (e : RouteEntry) : Prop :=
  inRange g e.txId rx.toNat ∨ inRange g tx e.rxId.toNat ∨ rx = e.rxId ∨ ∃ id, inRange g tx id ∧ inRange g e.txId id

/-- The Master a peer slot stands for (R90). -/
def Sys2Proof.Machine.peerMaster (s : State) (p : Slot) : Slot := if (s.conn p).role = .master then p else (s.conn p).master

/-- The checks of OPEN in the order of R90, up to the check against registered entries. -/
def Sys2Proof.Machine.openChecks (s : State) (c : Slot) : List (Bool × Err) :=
  let p := op8 s.arg1
  let d := s.descAt (op8 s.arg0)
  let top := 2 ^ (if d.can.extended then 29 else 11)
  [(decide (s.arg0.extractLsb' 8 24 ≠ 0#24 ∨ s.arg1.extractLsb' 8 24 ≠ 0#24), .reservedBits),
    (decide (s.cfg.nConn ≤ c.toNat ∨ (s.conn? c).isSome), .badConn),
    (decide (s.descs.length ≤ (op8 s.arg0).toNat ∨ d.valid = false), .badDescriptor),
    (decide (s.cfg.nPorts d.kind ≤ d.port.toNat), .badDescriptor),
    (decide (d.kind ≠ .can ∧ p ≠ 0xFF#8), .badConn),
    (decide (d.kind = .can
      ∧ (top ≤ d.can.baseIdTx.toNat + s.cfg.canMaxDetections + 1 ∨ top ≤ d.can.baseIdRx.toNat)), .badDescriptor),
    (decide (d.kind = .can ∧ p ≠ 0xFF#8
      ∧ (s.cfg.nConn ≤ p.toNat ∨ p = c ∨ s.conn? p = none ∨ (s.conn p).kind ≠ .can)), .badConn),
    (decide (d.kind = .can ∧ p ≠ 0xFF#8 ∧ (s.descOf (peerMaster s p)).port ≠ d.port), .badDescriptor),
    (decide (d.kind = .can ∧ p = 0xFF#8 ∧ (s.domain d.port).dmaster ≠ 0xFF#8), .portBusy),
    (decide (d.kind = .can ∧ d.can.baseIdTx.toNat ≤ d.can.baseIdRx.toNat
      ∧ d.can.baseIdRx.toNat ≤ d.can.baseIdTx.toNat + s.cfg.canMaxDetections + 1), .idOverlapSelf d.can.baseIdRx)]

/-- The connection OPEN constructs (R43). -/
def Sys2Proof.Machine.freshConn (s : State) (e : Bool) (role : Role) (master : Slot) : Conn where
  desc := op8 s.arg0
  kind := (s.descAt (op8 s.arg0)).kind
  owner := e
  connected := false
  inbuf := ⟨s.cfg.buf0In.of (s.descAt (op8 s.arg0)).kind, []⟩
  outbuf := ⟨s.cfg.buf0Out.of (s.descAt (op8 s.arg0)).kind, []⟩
  devType := none
  baseCache := none
  role := role
  master := master
  dstate := .idle
  cfgFifo := []
  detFifo := []

/-- R90, with R34, R43, R134 and R135: OPEN ends with the first error of its checks, every other piece of state as it
was, or constructs the connection, registers a CAN one as Master or as Slave, and touches no transport. -/
def Obligations.OpenChecksThenConstructs : Prop :=
  ∀ (s : State) (c : Slot) (e : Bool),
    let p := op8 s.arg1
    let d := s.descAt (op8 s.arg0)
    let dom := s.domain d.port
    let m := if p = 0xFF#8 then c else peerMaster s p
    decode (.cmd (commandWord 0x01 c e false)) = .ok (.openConn c e)
    ∧ (∀ x, firstError (openChecks s c) = some x → exec (.openConn c e) s = .next (s.endErr x))
    ∧ (firstError (openChecks s c) = none → d.kind = .can →
        ∀ l x r, dom.table = l ++ x :: r → (∀ y ∈ l, ¬clash s.cfg d.can.baseIdRx d.can.baseIdTx y) →
          clash s.cfg d.can.baseIdRx d.can.baseIdTx x →
          exec (.openConn c e) s = .next (s.endErr (.idOverlapOther d.can.baseIdRx x.slot)))
    ∧ (firstError (openChecks s c) = none → d.kind = .can →
        (∀ y ∈ dom.table, ¬clash s.cfg d.can.baseIdRx d.can.baseIdTx y) →
        exec (.openConn c e) s = .next (((s.setDomain d.port
            { dmaster := if m = c then c else dom.dmaster
              table := dom.table ++ [⟨c, d.can.baseIdRx, d.can.baseIdTx⟩] }).setConn c
          (if p = 0xFF#8 then freshConn s e .master 0xFF#8 else freshConn s e .slave m)).endOk false))
    ∧ (firstError (openChecks s c) = none → d.kind ≠ .can →
        exec (.openConn c e) s = .next ((s.setConn c (freshConn s e .none 0xFF#8)).endOk false))

/-- What a port call that ends shows on the trace, where its success has no data (R39). -/
def Sys2Proof.Draw.shows (d : Draw) : PortAnswer :=
  match d.fate with
  | .returns => .done
  | .notConnected => .notConnected
  | .timeout f => .timeout f

/-- The slot unused, and the descriptor freed by its owner (R91). -/
def Sys2Proof.Machine.released (s : State) (c : Slot) (k : Conn) : State :=
  (if k.owner then s.modDesc k.desc (fun d => { d with valid := false }) else s).dropConn c

/-- The table of a domain without the entries of a slot (R136). -/
def Sys2Proof.Machine.without (s : State) (q : Byte) (c : Slot) : List RouteEntry := (s.domain q).table.filter (fun e => e.slot ≠ c)

/-- R91, R136, R137: CLOSE of an SPI or Modbus connection, of a CAN Slave, and of the last connection of a domain. A
port is disconnected only by a connected owner (SPI, Modbus) or a connected last Master (CAN), and how that call ends
does not matter. -/
def Obligations.CloseReleasesTheConnection : Prop :=
  ∀ (s : State) (c : Slot), s.LinksLegal → s.RoutingLegal → s.admits c suitsAny false →
    let k := s.conn c
    let q := (s.descOf c).port
    let note := fun (v : State) (d : Draw) => v.note (.disconnect k.kind q) d.shows
    (k.kind ≠ .can → (k.owner && k.connected) = false →
        exec (.closeConn c) s = .next ((released s c k).endOk false))
    ∧ (k.kind ≠ .can → (k.owner && k.connected) = true → ∀ d, s.draw 0 = some d →
        exec (.closeConn c) s = .next ((released (note s d) c k).endOk false))
    ∧ (k.role = .slave →
        exec (.closeConn c) s = .next ((released
          (s.setDomain q { dmaster := (s.domain q).dmaster, table := without s q c }) c k).endOk false))
    ∧ (k.role = .master → without s q c = [] → k.connected = false →
        exec (.closeConn c) s = .next ((released (s.setDomain q { dmaster := 0xFF#8, table := [] }) c k).endOk false))
    ∧ (k.role = .master → without s q c = [] → k.connected = true → ∀ d, s.draw 0 = some d →
        exec (.closeConn c) s = .next ((released
          ((note s d).setDomain q { dmaster := 0xFF#8, table := [] }) c k).endOk false))

/-- R138: CLOSE of a Master that is not the last makes the connection of the first remaining entry the Master, its flag
connected only if both were, points every other one to it, and touches no port. -/
def Obligations.CloseOfAMasterElectsTheFirstEntry : Prop :=
  ∀ (s : State) (c : Slot) (n : RouteEntry) (es : List RouteEntry),
    s.LinksLegal → s.RoutingLegal → s.admits c suitsAny false → (s.conn c).role = .master →
    without s (s.descOf c).port c = n :: es →
    let q := (s.descOf c).port
    ∃ t : State, exec (.closeConn c) s = .next (t.endOk false)
      ∧ t.domain q = { dmaster := n.slot, table := n :: es } ∧ (∀ q', q' ≠ q → t.domain q' = s.domain q')
      ∧ (∀ x, t.conn? x =
          if x = c then none
          else if x = n.slot then (s.conn? x).map fun k => { k with
            role := .master, master := 0xFF#8, connected := k.connected && (s.conn c).connected }
          else if x ∈ es.map RouteEntry.slot then (s.conn? x).map fun k => { k with master := n.slot }
          else s.conn? x)
      ∧ t = { s with
          conns := t.conns, domains := t.domains
          descs := if (s.conn c).owner then s.descs.modify (s.conn c).desc.toNat fun d => { d with valid := false }
            else s.descs }

/-- R92: CONNECT. It makes the base cache INVALID (R63), also where it ends with an error: that reading of R63's "at every
CONNECT" is the model's (log 15). -/
def Obligations.ConnectOpensTheTransport : Prop :=
  ∀ (s : State) (c : Slot), s.admits c suitsAny false →
    let k := s.conn c
    let fresh := fun (v : State) => v.modConn c fun k => { k with baseCache := none }
    let up := fun (v : State) => v.modConn c fun k => { k with connected := true, baseCache := none }
    let note := fun (d : Draw) => s.note (.connect k.kind (s.descOf c).port (s.descOf c)) d.shows
    decode (.cmd (commandWord 0x03 c false false)) = .ok (.connect c)
    ∧ (k.role = .slave → (s.conn k.master).connected = false →
        exec (.connect c) s = .next ((fresh s).endErr .notConnectedBlock))
    ∧ (k.role = .slave → (s.conn k.master).connected = true → exec (.connect c) s = .next ((up s).endOk false))
    ∧ (k.role ≠ .slave → ∀ d, s.draw 0 = some d →
        (d.fate = .returns → exec (.connect c) s = .next ((up (note d)).endOk false))
        ∧ (d.fate = .notConnected → exec (.connect c) s = .next ((fresh (note d)).endErr .notConnectedDriver))
        ∧ ∀ f, d.fate = .timeout f → exec (.connect c) s = .next ((fresh (note d)).endErr (.timeoutTransport f)))

/-- R93: DISCONNECT. -/
def Obligations.DisconnectClosesTheTransport : Prop :=
  ∀ (s : State) (c : Slot), s.admits c suitsAny false →
    let k := s.conn c
    let down := s.modConn c fun k => { k with connected := false }
    let note := fun (d : Draw) => down.note (.disconnect k.kind (s.descOf c).port) d.shows
    decode (.cmd (commandWord 0x04 c false false)) = .ok (.disconnect c)
    ∧ (k.role = .slave ∨ k.connected = false → exec (.disconnect c) s = .next (down.endOk false))
    ∧ (k.role ≠ .slave → k.connected = true → ∀ d, s.draw 0 = some d →
        (d.fate = .returns → exec (.disconnect c) s = .next ((note d).endOk false))
        ∧ (d.fate = .notConnected → exec (.disconnect c) s = .next ((note d).endErr .notConnectedDriver))
        ∧ ∀ f, d.fate = .timeout f → exec (.disconnect c) s = .next ((note d).endErr (.timeoutTransport f)))

/-- R94, R98, R99: ISCONN answers the block's flags in RES; GETDT and SETDT read and write the cached device type. -/
def Obligations.IsconnGetdtSetdtUseTheFlagsAndTheCache : Prop :=
  ∀ (s : State) (c : Slot), s.admits c suitsAny false →
    let k := s.conn c
    decode (.cmd (commandWord 0x05 c false false)) = .ok (.isconn c)
    ∧ decode (.cmd (commandWord 0x08 c false false)) = .ok (.getdt c)
    ∧ decode (.cmd (commandWord 0x09 c false false)) = .ok (.setdt c)
    ∧ exec (.isconn c) s =
        .next (s.endOk (k.connected && (k.role != .slave || (s.conn k.master).connected)))
    ∧ (k.devType = none → exec (.getdt c) s = .next (s.endErr .devtypeUnset))
    ∧ (∀ v, k.devType = some v → exec (.getdt c) s = .next ({ s with result0 := v }.endOk false))
    ∧ exec (.setdt c) s = .next ((s.modConn c fun k => { k with devType := some s.arg0 }).endOk false)

/-- R95: RESIZE, on the buffers of a legal state. The address of SIZE_TOO_LARGE, 0, is the model's choice (log 32). -/
def Obligations.ResizeKeepsTheCommonPrefix : Prop :=
  ∀ (s : State) (c : Slot) (e : Bool), s.MemoryLegal → s.admits c suitsAny false →
    let old := if e then (s.conn c).outbuf else (s.conn c).inbuf
    let checks : List (Bool × Err) :=
      [(decide (s.arg0.toNat < minBuf (s.conn c).kind), .bufTooSmall s.arg0),
        (decide (s.cfg.bufMax < s.arg0.toNat), .sizeTooLarge 0#32 s.arg0)]
    decode (.cmd (commandWord 0x06 c e false)) = .ok (.resize c e)
    ∧ (∀ x, firstError checks = some x → exec (.resize c e) s = .next (s.endErr x))
    ∧ (firstError checks = none → ∃ b : Buf, b.len = s.arg0.toNat
        ∧ (∀ i, mread b.mem i = if i < min old.len s.arg0.toNat then mread old.mem i else none)
        ∧ exec (.resize c e) s = .next ((s.modConn c fun k =>
            if e then { k with outbuf := b } else { k with inbuf := b }).endOk false))

/-- R96: BUFPEEK. The address of SIZE_ZERO, the offset, is the model's choice (log 33). -/
def Obligations.BufpeekCopiesIntoHbuf : Prop :=
  ∀ (s : State) (c : Slot) (e : Bool), s.admits c suitsAny false →
    let buf := if e then (s.conn c).outbuf else (s.conn c).inbuf
    let checks : List (Bool × Err) :=
      [(decide (s.arg1 = 0#32), .sizeZero s.arg0),
        (decide (s.cfg.hbufSize < s.arg1.toNat ∨ buf.len < s.arg0.toNat + s.arg1.toNat), .sizeTooLarge s.arg0 s.arg1)]
    decode (.cmd (commandWord 0x0A c e false)) = .ok (.bufpeek c e)
    ∧ (∀ x, firstError checks = some x → exec (.bufpeek c e) s = .next (s.endErr x))
    ∧ (firstError checks = none → ∃ m : Memory,
        (∀ i, mread m i = if i < s.arg1.toNat then mread buf.mem (s.arg0.toNat + i) else mread s.hbuf i)
        ∧ exec (.bufpeek c e) s = .next ({ s with hbuf := m }.endOk false))

/-- R97: SETADDR writes the one address field of the connection's descriptor, and nothing else. -/
def Obligations.SetaddrWritesTheDescriptor : Prop :=
  ∀ (s : State) (c : Slot), s.admits c suitsAny false →
    let wide := s.arg0.extractLsb' 8 24 ≠ 0#24
    decode (.cmd (commandWord 0x07 c false false)) = .ok (.setaddr c)
    ∧ (wide → exec (.setaddr c) s = .next (s.endErr .reservedBits))
    ∧ (¬wide → (s.conn c).kind = .spi →
        exec (.setaddr c) s = .next ({ s with
          descs := s.descs.modify (s.conn c).desc.toNat fun d => { d with
            spi := { d.spi with chipAddress := s.arg0.extractLsb' 0 8 } } }.endOk false))
    ∧ (¬wide → (s.conn c).kind = .modbus →
        exec (.setaddr c) s = .next ({ s with
          descs := s.descs.modify (s.conn c).desc.toNat fun d => { d with
            mb := { d.mb with devAddr := s.arg0.extractLsb' 0 8 } } }.endOk false))
    ∧ (¬wide → (s.conn c).kind = .can → exec (.setaddr c) s = .next (s.endErr .wrongKind))

/-! ### CRC -/

/-- R88, R89: CRC16 and CRCCHK. -/
def Obligations.CrcCommandsAnswerTheCrc : Prop :=
  ∀ s : State,
    let tooLong := s.cfg.hbufSize < s.arg0.toNat
    let wide := s.arg1.extractLsb' 16 16 ≠ 0#16
    decode (.cmd 0x00000020#32) = .ok .crc16 ∧ decode (.cmd 0x00000021#32) = .ok .crcchk
    ∧ (tooLong → exec .crc16 s = .next (s.endErr (.sizeTooLarge 0#32 s.arg0)))
    ∧ (wide → exec .crcchk s = .next (s.endErr .reservedBits))
    ∧ (¬wide → tooLong → exec .crcchk s = .next (s.endErr (.sizeTooLarge 0#32 s.arg0)))
    ∧ (¬tooLong → (∃ i, i < s.arg0.toNat ∧ mread s.hbuf i = none) →
        exec .crc16 s = .fault .undefRead ∧ (¬wide → exec .crcchk s = .fault .undefRead))
    ∧ ∀ bs : Bytes, ¬tooLong → bs.length = s.arg0.toNat → (∀ i, i < bs.length → mread s.hbuf i = bs[i]?) →
        exec .crc16 s = .next ({ s with result0 := 0#16 ++ crc16 bs }.endOk false)
        ∧ (¬wide → exec .crcchk s = .next (s.endOk (crc16 bs == s.arg1.extractLsb' 0 16)))

/-- R84 with R87: CRC16 of no byte is 0xFFFF, one more byte changes it by the loop body of R84, cutting a byte string in
two changes nothing, and the check value of the algorithm is met. The bit order is the spec's own reading (D5). -/
def Obligations.Crc16IsTheLoopOfTheRule : Prop :=
  crc16 [] = 0xFFFF#16
  ∧ (∀ (b : Bytes) (v : Byte), crc16 (b ++ [v]) =
      (fun c : BitVec 16 => if c.getLsbD 0 then (c >>> 1) ^^^ 0xA001#16 else c >>> 1)^[8]
        (crc16 b ^^^ v.setWidth 16))
  ∧ (∀ a b b' : Bytes, crc16 b = crc16 b' → crc16 (b ++ a) = crc16 (b' ++ a))
  ∧ crc16 [0x31#8, 0x32#8, 0x33#8, 0x34#8, 0x35#8, 0x36#8, 0x37#8, 0x38#8, 0x39#8] = 0x4B37#16

/-- R86: the check holds exactly for the CRC of header and payload, and no single bit-flip in either passes it. -/
def Obligations.CrcCheckFailsOnASingleBitFlip : Prop :=
  (∀ (h p : Bytes) (c : BitVec 16), crcCheck h p c = true ↔ crc16 (h ++ p) = c)
  ∧ ∀ (h p h' p' : Bytes) (i j : Nat) (v : Byte), h'.length = h.length → j < 8 → (h ++ p)[i]? = some v →
      h' ++ p' = (h ++ p).set i (v ^^^ (1#8 <<< j)) → crcCheck h' p' (crc16 (h ++ p)) = false

/-! ### Checks -/

/-- The error reports of R157, one line per error: the error, ERRCODE, ERRSUB, ERRADDR, ERRSIZE, ERRINFO. -/
def Sys2Proof.Machine.reportTable (a n : Word) (f : Bool) (slot : Slot) : List (Err × Nat × Nat × Word × Word × Bool) :=
  [(.notConnectedBlock, 1, 1, 0#32, 0#32, false), (.notConnectedDriver, 1, 2, 0#32, 0#32, false),
    (.timeoutReady, 2, 1, 0#32, 0#32, false), (.timeoutAnswerWait f, 2, 2, 0#32, 0#32, f),
    (.timeoutResponseSlot f, 2, 3, 0#32, 0#32, f), (.timeoutStreamAck, 2, 4, 0#32, 0#32, false),
    (.timeoutTransport f, 2, 5, 0#32, 0#32, f), (.crcSpi a n, 3, 1, a, n, false), (.crcModbus a n, 3, 2, a, n, false),
    (.txAccessViolation a n, 4, 1, a, n, false), (.txInvalidAddress a n, 4, 2, a, n, false),
    (.txCommandNotFound a n, 4, 3, a, n, false), (.txWriteDisabled a n, 4, 4, a, n, false)]
  ++ [(.txCrcFailed a n, 4, 5, a, n, false), (.txExecError a n, 4, 6, a, n, false), (.txUnknown a n, 4, 7, a, n, false),
    (.weVerify, 4, 8, 0#32, 0#32, false), (.echoMismatch a, 4, 9, a, 8#32, false),
    (.sensorFailureFf a, 4, 10, a, 8#32, false), (.unknownCanId a, 4, 11, a, 8#32, false),
    (.noConfigAnswer, 4, 12, 0#32, 0#32, false), (.unexpectedAnswer a n, 4, 13, a, n, false),
    (.fifoOverflow a, 4, 14, a, 8#32, false), (.unsupportedOpcode, 5, 1, 0#32, 0#32, false),
    (.idOverlapSelf a, 5, 2, a, 0#32, false), (.idOverlapOther a slot, 5, 3, a, 0#24 ++ slot, false)]
  ++ [(.invalidResetType a, 5, 4, a, 0#32, false), (.badConn, 5, 5, 0#32, 0#32, false),
    (.badDescriptor, 5, 6, 0#32, 0#32, false), (.sizeZero a, 5, 7, a, 0#32, false),
    (.sizeTooLarge a n, 5, 8, a, n, false), (.addressRange a n, 5, 9, a, n, false), (.notMaster, 5, 10, 0#32, 0#32, false),
    (.notRegistered, 5, 11, 0#32, 0#32, false), (.wrongKind, 5, 12, 0#32, 0#32, false),
    (.devtypeUnset, 5, 13, 0#32, 0#32, false), (.fifoEmpty, 5, 14, 0#32, 0#32, false),
    (.reservedBits, 5, 15, 0#32, 0#32, false), (.portBusy, 5, 16, 0#32, 0#32, false),
    (.bufTooSmall n, 5, 17, 0#32, n, false), (.busEvent, 6, 1, 0#32, 0#32, false)]

/-- R156, R157, R160: what an error completion writes, for every error: STATUS with BUSY 0, DONE 1, ERR 1, RES 0 and the
codes of the tables, and the context; nothing else. Where the tables list no context the model writes 0 (log 21). -/
def Obligations.ErrorReportsAreThoseOfTheTables : Prop :=
  (∀ (s : State) (a n : Word) (f : Bool) (slot : Slot), ∀ r ∈ reportTable a n f slot,
    s.endErr r.1 = { s with
      status := BitVec.ofNat 32 (2 ^ 16 * r.2.2.1 + 2 ^ 8 * r.2.1 + 0b0110)
      errAddr := r.2.2.2.1, errSize := r.2.2.2.2.1, errInfo := if r.2.2.2.2.2 then 1#32 else 0#32 })
  ∧ ∀ e : Err, ∃ (a n : Word) (f : Bool) (slot : Slot), e ∈ (reportTable a n f slot).map Prod.fst

/-- The commands with a CONN operand other than OPEN: whether the ARG operands fit their widths (R66, R68), which
connections suit it (R71), and whether it needs a connected transport (R158 step 6). -/
def Sys2Proof.Machine.connRows (s : State) (c : Slot) (e : Bool) : List (Instr × Bool × (Conn → Desc → Bool) × Bool) :=
  let narrow := fun w : Word => w.extractLsb' 8 24 == 0#24
  let any := fun (_ : Conn) (_ : Desc) => true
  let register := fun (k : Conn) (d : Desc) => decide (k.kind ≠ .can ∨ d.can.proto = .universal)
  let can := fun (k : Conn) (_ : Desc) => decide (k.kind = .can)
  let direct := fun (k : Conn) (d : Desc) => decide (k.kind = .can ∧ d.can.proto = .direct)
  [(.closeConn c, true, any, false), (.connect c, true, any, false), (.disconnect c, true, any, false),
    (.isconn c, true, any, false), (.resize c e, true, any, false),
    (.setaddr c, narrow s.arg0, fun k _ => decide (k.kind ≠ .can), false), (.getdt c, true, any, false),
    (.setdt c, true, any, false), (.bufpeek c e, true, any, false), (.init c, true, register, true),
    (.rdreg c, true, register, true), (.wrreg c, true, register, true), (.isready c, true, register, true)]
  ++ [(.setwe c e, true, register, true), (.getsr c, true, register, true), (.reset c e, true, register, true),
    (.canrd c, true, can, true), (.cansend c, true, can, true), (.cansendw c, true, can, true),
    (.getval c, narrow s.arg0 && narrow s.arg1, direct, true), (.setval c, true, direct, true),
    (.stream c e, true, direct, true), (.rdcfg c, true, direct, true), (.rddet c, true, direct, true),
    (.popcfg c, true, direct, false), (.popdet c, true, direct, false)]

/-- R70, R71 and R158, steps 3 to 6: the first failing common check is the error, with no port call and no other state
change. -/
def Obligations.CommonChecksComeInOrder : Prop :=
  ∀ (s : State) (c : Slot) (e : Bool), ∀ r ∈ connRows s c e, ∀ x,
    firstError [(!r.2.1, .reservedBits),
      (decide (s.cfg.nConn ≤ c.toNat ∨ s.conn? c = none), .badConn),
      (!r.2.2.1 (s.conn c) (s.descOf c), .wrongKind),
      (r.2.2.2 && !((s.conn c).connected
        && ((s.conn c).role != .slave || (s.conn (s.conn c).master).connected)), .notConnectedBlock)] = some x →
    exec r.1 s = .next (s.endErr x)

/-- R45, R52, R53: the size and reach checks of RDREG and WRREG, before any frame. Each clause holds in whatever order
the size limit of a Modbus page and the reach are checked (log 13). -/
def Obligations.RegisterAccessesAreChecked : Prop :=
  ∀ (s : State) (c : Slot), s.admits c suitsRegister true → ∀ r ∈ [(Instr.rdreg c, false), (Instr.wrreg c, true)],
    let k := s.conn c
    let n := s.arg1.toNat
    let write := r.2 = true
    let tooLarge := s.cfg.hbufSize < n ∨ (write ∧ k.inbuf.len < n) ∨ (¬write ∧ k.kind ≠ .can ∧ k.outbuf.len < n)
      ∨ (¬write ∧ k.kind = .spi ∧ 0xFFFF < n)
    let pageTooSmall := write ∧ k.kind = .modbus ∧ (s.descOf c).mb.page.toNat < n
    let beyond := (if k.kind = .spi then 0xFFFFFF else 0xFFFFFFFF) < s.arg0.toNat + n - 1
    (n = 0 → exec r.1 s = .next (s.endErr (.sizeZero s.arg0)))
    ∧ (n ≠ 0 → tooLarge → exec r.1 s = .next (s.endErr (.sizeTooLarge s.arg0 s.arg1)))
    ∧ (n ≠ 0 → ¬tooLarge → pageTooSmall → ¬beyond → exec r.1 s = .next (s.endErr (.sizeTooLarge s.arg0 s.arg1)))
    ∧ (n ≠ 0 → ¬tooLarge → ¬pageTooSmall → beyond → exec r.1 s = .next (s.endErr (.addressRange s.arg0 s.arg1)))

/-! ### The register engine -/

/-- R101: with budget `N` a transaction makes at most `N` attempts, with 1 ms of sleep between them, and exactly `N` if
each fails its check; with budget 0 it makes one attempt with no check. `att` is any attempt, `u j` and `v j` the
states before and after attempt `j`. -/
def Obligations.CrcBudgetBoundsTheAttempts : Prop :=
  ∀ (N k : Nat) (att : Bool → Cmd (Except Err Bytes)) (spent : Err) (u v : Nat → State) (e : Nat → Err),
    (∀ j, j < k → att true (u j) = .ok (.error (e j)) (v j) ∧ u (j + 1) = (v j).afterEvents [.sleep 1]) →
    (∀ d t, k < N → att true (u k) = .ok (.ok d) t → withCrcRetry N att spent (u 0) = .ok d t)
    ∧ (∀ x t, k < N → att true (u k) = .error x t → withCrcRetry N att spent (u 0) = .error x t)
    ∧ (∀ t, k + 1 = N → att true (u k) = .ok (.error (e k)) t →
        withCrcRetry N att spent (u 0) = .error (.err (e k)) t)
    ∧ (∀ d t, att false (u 0) = .ok (.ok d) t → withCrcRetry 0 att spent (u 0) = .ok d t)
    ∧ (∀ x t, att false (u 0) = .error x t → withCrcRetry 0 att spent (u 0) = .error x t)

/-- A 16-bit value, high byte first (R11). -/
def Sys2Proof.Machine.hiLo (v : BitVec 16) : Bytes := [v.extractLsb' 8 8, v.extractLsb' 0 8]

/-- A 16-bit value, low byte first (R11). -/
def Sys2Proof.Machine.loHi (v : BitVec 16) : Bytes := [v.extractLsb' 0 8, v.extractLsb' 8 8]

/-- A 32-bit value, high byte first (R11). -/
def Sys2Proof.Machine.bigEndian (v : Word) : Bytes :=
  [v.extractLsb' 24 8, v.extractLsb' 16 8, v.extractLsb' 8 8, v.extractLsb' 0 8]

/-- The six header bytes of an SPI frame (R47, R74). -/
def Sys2Proof.Machine.spiHead (op : Byte) (a : Word) (n : Nat) : Bytes :=
  [op, a.extractLsb' 16 8, a.extractLsb' 8 8, a.extractLsb' 0 8] ++ hiLo (BitVec.ofNat 16 n)

/-- Bytes and their CRC, high byte first (R75). -/
def Sys2Proof.Machine.withCrc (b : Bytes) : Bytes := b ++ hiLo (crc16 b)

/-- An SPI read exchange of `n` bytes on the trace (R76, R77): the request, and the answer `r` of `n + 2` bytes. -/
def Sys2Proof.Machine.spiReadEvents (s : State) (c : Slot) (op : Byte) (a : Word) (n : Nat) (r : Bytes) : List Event :=
  [.port (.spiWrite (s.descOf c).port (if s.cfg.spiReadReqCrc then withCrc (spiHead op a n) else spiHead op a n) false)
      .done,
    .port (.spiRead (s.descOf c).port (n + 2) true) (.bytes r)]

/-- Whether an SPI read answer passes the CRC check (R77). -/
def Sys2Proof.Machine.spiPasses (op : Byte) (a : Word) (n : Nat) (r : Bytes) : Prop := r.drop n = hiLo (crc16 (spiHead op a n ++ r.take n))

/-- Port call number `i` from now on is an SPI read that returns the `n` bytes `r` (R39). -/
def Sys2Proof.Machine.spiGets (s : State) (i n : Nat) (r : Bytes) : Prop := ∃ d, s.returns i d ∧ r = spiAnswer (s.draws + i) n d

/-- Port call number `i` from now on returns. -/
def Sys2Proof.Machine.goesThrough (s : State) (i : Nat) : Prop := ∃ d, s.returns i d

/-- The delivery of read data: to `outbuf` where the transport is not CAN, and to HBUF (R111). -/
def Sys2Proof.Machine.delivered (s : State) (c : Slot) (data : Bytes) : State :=
  (if (s.conn c).kind = .can then s else s.modConn c (outbufWrite 0 data)).setHbuf data

/-- RDREG on SPI (R105, R111, R118, R101): the ready guard, whose error is the command's; then one frame an attempt. The
attempts end with the first answer that passes the CRC check, or after `N` failed ones with CRCFailure; with budget 0
there is one attempt, unchecked. `g` is the state the guard leaves, attempt `j` gets the answer `r j`. -/
def Obligations.SpiReadIsOneFrameAnAttempt : Prop :=
  ∀ (s : State) (c : Slot),
    let n := s.arg1.toNat
    let N := s.arg2.toNat
    let op := s.cfg.opcRegmapRead.wire
    let guard := readyGuard c s.arg3.toNat N s
    s.admits c suitsRegister true → (s.conn c).kind = .spi → s.accessError c false s.arg0 n = none →
    (∀ e g, guard = .error (.err e) g → exec (.rdreg c) s = .next (g.endErr e))
    ∧ ∀ (g : State) (k : Nat) (r : Nat → Bytes),
      let passes := fun j => spiPasses op s.arg0 n (r j)
      let round := fun j => spiReadEvents s c op s.arg0 n (r j)
      let rounds := (List.range k).flatMap (fun j => round j ++ [.sleep 1]) ++ round k
      guard = .ok () g →
      (∀ j, j ≤ k → goesThrough g (2 * j) ∧ spiGets g (2 * j + 1) (n + 2) (r j)) → (∀ j, j < k → ¬passes j) →
      (k < N → passes k →
        exec (.rdreg c) s = .next ((delivered (g.afterEvents rounds) c ((r k).take n)).endOk false))
      ∧ (k + 1 = N → ¬passes k →
          exec (.rdreg c) s = .next ((g.afterEvents rounds).endErr (.crcSpi s.arg0 s.arg1)))
      ∧ (N = 0 → k = 0 →
          exec (.rdreg c) s = .next ((delivered (g.afterEvents (round 0)) c ((r 0).take n)).endOk false))

/-- What a failed port call raises (R39). -/
def Sys2Proof.Machine.driverErr : Fate → Option Err
  | .returns => none
  | .notConnected => some .notConnectedDriver
  | .timeout f => some (.timeoutTransport f)

/-- One attempt of the Modbus exchange (R122), with and without the CRC check: `d0` answers the send, `d1` the receive. -/
def Obligations.ModbusAttemptChecksItsAnswer : Prop :=
  ∀ (s : State) (p dev fc : Byte) (q : Bytes) (len m : Nat) (ca : Word) (chk : Bool) (d0 d1 : Draw),
    s.draw 0 = some d0 → s.draw 1 = some d1 →
    let A := d1.bytes.take (len + 4)
    let n := BitVec.ofNat 32 m
    let sent := s.note (.mbSend p q) d0.shows
    let failed := sent.note (.mbRecv p (len + 4)) d1.shows
    let u := s.afterEvents [.port (.mbSend p q) .done, .port (.mbRecv p (len + 4)) (.bytes A)]
    let attempt := mbAttempt p dev fc q len ca m chk s
    let badCrc := A.drop (len + 2) ≠ loHi (crc16 (A.take (len + 2)))
    (∀ e, driverErr d0.fate = some e → attempt = if chk then .ok (.error e) sent else .error (.err e) sent)
    ∧ (∀ e, d0.fate = .returns → driverErr d1.fate = some e →
        attempt = if chk then .ok (.error e) failed else .error (.err e) failed)
    ∧ (d0.fate = .returns → d1.fate = .returns →
        (A.length ≠ len + 4 → attempt =
          if chk then .ok (.error (.crcModbus ca n)) u else .error (.err (.unexpectedAnswer ca n)) u)
        ∧ (A.length = len + 4 → chk = true → badCrc → attempt = .ok (.error (.crcModbus ca n)) u)
        ∧ (A.length = len + 4 → ¬(chk = true ∧ badCrc) → A.take 2 ≠ [dev, fc] →
            attempt = .error (.err (.unexpectedAnswer ca n)) u)
        ∧ (A.length = len + 4 → ¬(chk = true ∧ badCrc) → A.take 2 = [dev, fc] →
            attempt = .ok (.ok ((A.drop 2).take len)) u))

/-- A Modbus exchange on the trace: a request body with its CRC, low byte first (R78), and the answer. -/
def Sys2Proof.Machine.mbEvents (s : State) (c : Slot) (body : Bytes) (len : Nat) (A : Bytes) : List Event :=
  [.port (.mbSend (s.descOf c).port (body ++ loHi (crc16 body))) .done,
    .port (.mbRecv (s.descOf c).port (len + 4)) (.bytes A)]

/-- The next two port calls are a Modbus exchange that returns the answer `A`, of the right length, device address and
function code, and with a good CRC if one is checked (R79). -/
def Sys2Proof.Machine.mbGets (s : State) (dev fc : Byte) (len : Nat) (checked : Prop) (A : Bytes) : Prop :=
  goesThrough s 0 ∧ (∃ d, s.returns 1 d ∧ A = d.bytes.take (len + 4)) ∧ A.length = len + 4 ∧ A.take 2 = [dev, fc]
    ∧ (checked → A.drop (len + 2) = loHi (crc16 (A.take (len + 2))))

/-- RDREG (R111) ends as its read ends, its data delivered on success only, on any transport. The read on Modbus (R105,
R123): before each page the ready guard, whose error ends it; then the exchange of the page, here with a good first
answer `A j` in the state `g j` the guard of page `j` leaves. `x j` is the state before page `j`, `P` the page of the
descriptor. The last clause is the whole of it for one page without ready timeout. -/
def Obligations.RegisterReadsDeliverTheirPages : Prop :=
  (∀ (s : State) (c : Slot), s.admits c suitsRegister true → s.accessError c false s.arg0 s.arg1.toNat = none →
    let read := tRead c s.cfg.opcRegmapRead s.arg0 s.arg1.toNat s.arg2.toNat s.arg3.toNat s
    (∀ data u, read = .ok data u → exec (.rdreg c) s = .next ((delivered u c data).endOk false))
    ∧ ∀ e u, read = .error (.err e) u → exec (.rdreg c) s = .next (u.endErr e))
  ∧ (∀ (s : State) (c : Slot) (op : Opc) (a : Word) (n N T k : Nat) (x g : Nat → State) (A : Nat → Bytes),
      let P := (s.descOf c).mb.page.toNat
      let K := (n + P - 1) / P
      let len := fun j => min P (n - j * P)
      let dev := (s.descOf c).mb.devAddr
      let body := fun j => [dev, 0x42#8, op.wire] ++ bigEndian (a + BitVec.ofNat 32 (j * P))
        ++ hiLo (BitVec.ofNat 16 (len j))
      (s.conn c).kind = .modbus → 0 < P → x 0 = s → k ≤ K →
      (∀ j, j < k → readyGuard c T N (x j) = .ok () (g j) ∧ mbGets (g j) dev 0x42#8 (len j) (N ≠ 0) (A j)
        ∧ x (j + 1) = (g j).afterEvents (mbEvents s c (body j) (len j) (A j))) →
      (k = K → tRead c op a n N T s = .ok ((List.range K).flatMap fun j => ((A j).drop 2).take (len j)) (x K))
      ∧ (k < K → ∀ e u, readyGuard c T N (x k) = .error e u → tRead c op a n N T s = .error e u))
  ∧ ∀ (s : State) (c : Slot) (A : Bytes),
      let n := s.arg1.toNat
      let dev := (s.descOf c).mb.devAddr
      let body := [dev, 0x42#8, s.cfg.opcRegmapRead.wire] ++ bigEndian s.arg0 ++ hiLo (BitVec.ofNat 16 n)
      s.admits c suitsRegister true → (s.conn c).kind = .modbus → s.accessError c false s.arg0 n = none →
      n ≤ (s.descOf c).mb.page.toNat → s.arg3 = 0#32 → mbGets s dev 0x42#8 n (s.arg2 ≠ 0#32) A →
      exec (.rdreg c) s =
        .next ((delivered (s.afterEvents (mbEvents s c body n A)) c ((A.drop 2).take n)).endOk false)

/-- R105, R107, R113: the polls of the busy bit, on any transport, with timeout `T` and CRC budget `N`. Poll `j` reads the
status byte `st j` in state `u j` and leaves `v j`; while it is busy and budget is left, 10 ms of sleep and the next poll
follow. The ready guard of a transaction runs them unless `T` is 0 and raises Timeout READY where the budget is spent;
ISREADY answers how they end. -/
def Obligations.ReadyPollsReadTheBusyBit : Prop :=
  (∀ c : Slot, decode (.cmd (commandWord 0x13 c false false)) = .ok (.isready c))
  ∧ ∀ (s : State) (c : Slot) (T N k : Nat) (u v : Nat → State) (st : Nat → Byte),
    u 0 = s → k ≤ (T + 9) / 10 →
    (∀ j, j < k → getStatus c N (u j) = .ok (st j) (v j) ∧ (st j).getLsbD 0 = true
      ∧ u (j + 1) = (v j).afterEvents [.sleep 10]) →
    let ready := fun t => ∃ x, getStatus c N (u k) = .ok x t ∧ x.getLsbD 0 = false
    let spent := fun t => ∃ x, getStatus c N (u k) = .ok x t ∧ x.getLsbD 0 = true ∧ k = (T + 9) / 10
    (T = 0 → readyGuard c T N s = .ok () s)
    ∧ (T ≠ 0 → (∀ t, ready t → readyGuard c T N s = .ok () t)
        ∧ (∀ t, spent t → readyGuard c T N s = .error (.err .timeoutReady) t)
        ∧ ∀ e t, getStatus c N (u k) = .error e t → readyGuard c T N s = .error e t)
    ∧ (s.admits c suitsRegister true → T = s.arg0.toNat → N = s.arg2.toNat →
        (∀ t, ready t → exec (.isready c) s = .next (t.endOk true))
        ∧ (∀ t, spent t → exec (.isready c) s = .next (t.endOk false))
        ∧ ∀ e t, getStatus c N (u k) = .error (.err e) t → exec (.isready c) s = .next (t.endErr e))

/-- An SPI opcode frame on the trace (R75, R121). -/
def Sys2Proof.Machine.spiOpcodeEvent (s : State) (c : Slot) (op : Opc) : Event :=
  .port (.spiWrite (s.descOf c).port (withCrc (spiHead op.wire 0#32 0)) true) .done

/-- The status read exchange on the trace (R106, R118). -/
def Sys2Proof.Machine.spiStatusEvents (s : State) (c : Slot) (r : Bytes) : List Event :=
  spiReadEvents s c s.cfg.opcReadStatus.wire 0#32 1 r

/-- An answer of the status read that is used: its CRC is good, or the budget is 0 (R101, R106). -/
def Sys2Proof.Machine.statusRead (s : State) (i budget : Nat) (r : Bytes) : Prop :=
  goesThrough s i ∧ spiGets s (i + 1) 3 r ∧ (budget ≠ 0 → spiPasses s.cfg.opcReadStatus.wire 0#32 1 r)

/-- The status read (R106) and the write-enable handshake (R108), on any transport; GETSR (R115) and SETWE (R114), which end
as they end, each error of them the command's; and GETSR, ISREADY (R113) and SETWE on SPI where the first answer is good
(R121): the events, RESULT0, RES and the write-enable check. -/
def Obligations.StatusCommandsReadTheStatusByte : Prop :=
  (∀ (s : State) (c : Slot) (N : Nat),
    let read := tRead c s.cfg.opcReadStatus 0#32 1 N 0 s
    (∀ data u, read = .ok data u → getStatus c N s = .ok (data.getD 0 0#8) u)
    ∧ ∀ x u, read = .error x u → getStatus c N s = .error x u)
  ∧ (∀ (s : State) (c : Slot) (e : Bool) (N : Nat),
    let send := tOpcode c (if e then s.cfg.opcWren else s.cfg.opcWrdis) N s
    (∀ x u, send = .error x u → setWriteEnable c e N s = .error x u)
    ∧ ∀ u, send = .ok () u →
      (∀ x v, getStatus c N u = .error x v → setWriteEnable c e N s = .error x v)
      ∧ ∀ st v, getStatus c N u = .ok st v → setWriteEnable c e N s =
          if st.getLsbD s.cfg.statusWelBit = e then .ok () v else .error (.err .weVerify) v)
  ∧ (∀ (s : State) (c : Slot) (e : Bool), s.admits c suitsRegister true →
    let status := getStatus c s.arg2.toNat s
    let handshake := setWriteEnable c e s.arg2.toNat s
    decode (.cmd (commandWord 0x15 c false false)) = .ok (.getsr c)
    ∧ decode (.cmd (commandWord 0x14 c e false)) = .ok (.setwe c e)
    ∧ (∀ st u, status = .ok st u → exec (.getsr c) s = .next ({ u with result0 := 0#24 ++ st }.endOk false))
    ∧ (∀ x u, status = .error (.err x) u → exec (.getsr c) s = .next (u.endErr x))
    ∧ (∀ u, handshake = .ok () u → exec (.setwe c e) s = .next (u.endOk false))
    ∧ ∀ x u, handshake = .error (.err x) u → exec (.setwe c e) s = .next (u.endErr x))
  ∧ ∀ (s : State) (c : Slot) (e : Bool) (r : Bytes), s.admits c suitsRegister true → (s.conn c).kind = .spi →
    (statusRead s 0 s.arg2.toNat r →
      exec (.getsr c) s =
        .next ({ s.afterEvents (spiStatusEvents s c r) with result0 := 0#24 ++ r.getD 0 0#8 }.endOk false)
      ∧ ((r.getD 0 0#8).getLsbD 0 = false →
          exec (.isready c) s = .next ((s.afterEvents (spiStatusEvents s c r)).endOk true))
      ∧ ((r.getD 0 0#8).getLsbD 0 = true → s.arg0 = 0#32 →
          exec (.isready c) s = .next ((s.afterEvents (spiStatusEvents s c r)).endOk false)))
    ∧ (goesThrough s 0 → statusRead s 1 s.arg2.toNat r →
        let t := s.afterEvents
          (spiOpcodeEvent s c (if e then s.cfg.opcWren else s.cfg.opcWrdis) :: spiStatusEvents s c r)
        ((r.getD 0 0#8).getLsbD s.cfg.statusWelBit = e → exec (.setwe c e) s = .next (t.endOk false))
        ∧ ((r.getD 0 0#8).getLsbD s.cfg.statusWelBit ≠ e → exec (.setwe c e) s = .next (t.endErr .weVerify)))

/-- The 8 data bytes of a frame (R80). -/
def Sys2Proof.Machine.frameOf (cmd sub : Byte) (a : Bytes) : Frame :=
  ⟨cmd, sub, a.getD 0 0#8, a.getD 1 0#8, a.getD 2 0#8, a.getD 3 0#8, a.getD 4 0#8, a.getD 5 0#8⟩

/-- The opcode transfer (R104) on the three transports: one frame on SPI (R121), on Modbus the exchange of its request
with the CRC budget (R122, R125), on Universal-over-CAN the exchange of its command frame (R128, R132). RESET (R116): an
illegal type ends with its error and sends nothing; a legal one makes the opcode transfer of its type and ends as that ends,
here also with its events on SPI and on Modbus. Each makes the base cache INVALID (R63), also where it ends with an error:
that reading of R63's "at every RESET command" is the model's (log 15). -/
def Obligations.ResetSendsTheOpcodeOfItsType : Prop :=
  (∀ (s : State) (c : Slot) (op : Opc) (N : Nat),
    let send := tOpcode c op N s
    let port := (s.descOf c).port
    let dev := (s.descOf c).mb.devAddr
    let body := [dev, 0x44#8, op.wire]
    let endsAs := fun o : EStateM.Result Stop State Bytes =>
      (∀ data u, o = .ok data u → send = .ok () u) ∧ ∀ x u, o = .error x u → send = .error x u
    ((s.conn c).kind = .spi → ∀ d, s.draw 0 = some d →
      let u := s.note (.spiWrite port (withCrc (spiHead op.wire 0#32 0)) true) d.shows
      (d.fate = .returns → send = .ok () u) ∧ ∀ e, driverErr d.fate = some e → send = .error (.err e) u)
    ∧ ((s.conn c).kind = .modbus → endsAs (withCrcRetry N
        (mbAttempt port dev 0x44#8 (body ++ loHi (crc16 body)) 0 0#32 0) (.crcModbus 0#32 0#32) s))
    ∧ ((s.conn c).kind = .can → endsAs (canuExchange c (frameOf op.canu 0#8 []) s)))
  ∧ ∀ (s : State) (c : Slot) (b : Bool), s.admits c suitsRegister true →
    let fresh := fun (u : State) => u.modConn c fun k => { k with baseCache := none }
    decode (.cmd (commandWord 0x16 c false b)) = .ok (.reset c b)
    ∧ ((∀ x ∈ s.cfg.resetTypes, x.code ≠ s.arg0) →
        exec (.reset c b) s = .next ((fresh s).endErr (.invalidResetType s.arg0)))
    ∧ ∀ l x r, s.cfg.resetTypes = l ++ x :: r → (∀ y ∈ l, y.code ≠ s.arg0) → x.code = s.arg0 →
        let op := if b then x.boot else x.opc
        let dev := (s.descOf c).mb.devAddr
        (∀ u, tOpcode c op s.arg2.toNat s = .ok () u → exec (.reset c b) s = .next ((fresh u).endOk false))
        ∧ (∀ e u, tOpcode c op s.arg2.toNat s = .error (.err e) u →
          exec (.reset c b) s = .next ((fresh u).endErr e))
        ∧ ((s.conn c).kind = .spi → goesThrough s 0 →
            exec (.reset c b) s = .next ((fresh (s.afterEvents [spiOpcodeEvent s c op])).endOk false))
        ∧ ((s.conn c).kind = .modbus → ∀ A, mbGets s dev 0x44#8 0 (s.arg2 ≠ 0#32) A →
            exec (.reset c b) s =
              .next ((fresh (s.afterEvents (mbEvents s c [dev, 0x44#8, op.wire] 0 A))).endOk false))

/-- R109: the write sequence, on any transport: what follows the set of the write enable, in state `u` after the data are
in `inbuf`, and what the clear of the write enable does after a write that succeeds or fails. WRREG that passes its checks
ends as the write sequence of HBUF's bytes ends (R112). -/
def Obligations.WriteSequenceClearsTheWriteEnable : Prop :=
  (∀ (s : State) (c : Slot) (a : Word) (data : Bytes) (N T : Nat),
    (∀ x t, setWriteEnable c true N s = .error x t → writeSeq c a data N T s = .error x t)
    ∧ ∀ t, setWriteEnable c true N s = .ok () t →
      let u := t.modConn c fun k => { k with inbuf := bufWrite k.inbuf 0 data }
      let write := tWrite c t.cfg.opcRegmapWrite a data.length N T u
      (∀ v, write = .ok () v → writeSeq c a data N T s = setWriteEnable c false N v)
      ∧ (∀ e v w, write = .error (.err e) v → setWriteEnable c false N v = .ok () w →
          writeSeq c a data N T s = .error (.err e) w)
      ∧ (∀ e v x w, write = .error (.err e) v → setWriteEnable c false N v = .error x w →
          writeSeq c a data N T s = .error x w))
  ∧ ∀ (s : State) (c : Slot) (data : Bytes), s.admits c suitsRegister true →
      s.accessError c true s.arg0 s.arg1.toNat = none → data.length = s.arg1.toNat →
      (∀ i, i < data.length → mread s.hbuf i = data[i]?) →
      let sequence := writeSeq c s.arg0 data s.arg2.toNat s.arg3.toNat s
      (∀ t, sequence = .ok () t → exec (.wrreg c) s = .next (t.endOk false))
      ∧ ∀ e t, sequence = .error (.err e) t → exec (.wrreg c) s = .next (t.endErr e)

/-- The transaction-info read of R120: `code` is what the device answers. A TXINFO_ADDR above 0xFFFFFF goes out with its low
24 bits, unchecked, which is the model's choice (log 35). -/
def Obligations.TransactionInfoIsDecoded : Prop :=
  ∀ (s : State) (p : Byte) (chk : Bool) (ca : Word) (m : Nat) (r : Bytes), s.cfg.wf = true →
    goesThrough s 0 → spiGets s 1 3 r →
    let op := s.cfg.opcRegmapRead.wire
    let H := spiHead op s.cfg.txinfoAddr 1
    let u := s.afterEvents [.port (.spiWrite p (if s.cfg.spiReadReqCrc then withCrc H else H) false) .done,
      .port (.spiRead p 3 true) (.bytes r)]
    let n := BitVec.ofNat 32 m
    let code := r.getD 0 0#8
    let bad := chk = true ∧ ¬spiPasses op s.cfg.txinfoAddr 1 r
    let t := s.cfg.txCodes
    (bad → txInfo p chk ca m s = .ok (.error (.crcSpi ca n)) u)
    ∧ (¬bad → code = 0#8 → txInfo p chk ca m s = .ok (.ok []) u)
    ∧ (¬bad → code = t.crcFailed → chk = true → txInfo p chk ca m s = .ok (.error (.crcSpi ca n)) u)
    ∧ (¬bad → ∀ x, (code, x) ∈ [(t.accessViolation, Err.txAccessViolation ca n),
          (t.invalidAddress, .txInvalidAddress ca n), (t.commandNotFound, .txCommandNotFound ca n),
          (t.writeDisabled, .txWriteDisabled ca n), (t.execError, .txExecError ca n)] →
        txInfo p chk ca m s = .error (.err x) u)
    ∧ (¬bad → code = t.crcFailed → chk = false → txInfo p chk ca m s = .error (.err (.txCrcFailed ca n)) u)
    ∧ (¬bad → code ≠ 0#8 → code ∉ [t.accessViolation, t.invalidAddress, t.commandNotFound, t.writeDisabled, t.crcFailed,
          t.execError] → txInfo p chk ca m s = .error (.err (.txUnknown ca n)) u)

/-- The answers of one good SPI write sequence of one page, from port call number `i` on: nine calls, the status reads
answer the write enable asked for, transaction info is 0, and each CRC that is checked is good (R108, R109, R119). -/
def Sys2Proof.Machine.spiWriteGood (s : State) (i N : Nat) (r1 r2 r3 : Bytes) : Prop :=
  goesThrough s i ∧ statusRead s (i + 1) N r1 ∧ (r1.getD 0 0#8).getLsbD s.cfg.statusWelBit = true
    ∧ goesThrough s (i + 3) ∧ goesThrough s (i + 4) ∧ spiGets s (i + 5) 3 r2 ∧ r2.getD 0 0#8 = 0#8
    ∧ (N ≠ 0 → spiPasses s.cfg.opcRegmapRead.wire s.cfg.txinfoAddr 1 r2)
    ∧ goesThrough s (i + 6) ∧ statusRead s (i + 7) N r3 ∧ (r3.getD 0 0#8).getLsbD s.cfg.statusWelBit = false

/-- The events of that write sequence (R108, R109, R119, R120, R121). -/
def Sys2Proof.Machine.spiWriteEvents (s : State) (c : Slot) (a : Word) (data r1 r2 r3 : Bytes) : List Event :=
  spiOpcodeEvent s c s.cfg.opcWren :: spiStatusEvents s c r1
    ++ .port (.spiWrite (s.descOf c).port
        (withCrc (spiHead s.cfg.opcRegmapWrite.wire a data.length ++ data)) true) .done
    :: spiReadEvents s c s.cfg.opcRegmapRead.wire s.cfg.txinfoAddr 1 r2
    ++ spiOpcodeEvent s c s.cfg.opcWrdis :: spiStatusEvents s c r3

/-- `inbuf` of a connection holds the bytes a write takes from it (R103). -/
def Sys2Proof.Machine.inbufHolds (s : State) (c : Slot) (data : Bytes) : Prop :=
  ∀ i, i < data.length → mread (s.conn c).inbuf.mem i = data[i]?

/-- The write of the bytes in `inbuf`, on the three transports: the ready guard before each frame and after it (R105), an
error of a guard or of an exchange ending the write. `x j` is the state before chunk `j`, and `k` chunks have gone well.
On SPI (R119) pages of at most 512 bytes, each the frame and the transaction info, with good first attempts; on Modbus
(R124) one exchange, with a good first answer; on Universal-over-CAN (R131) chunks of at most 4 bytes, each the base check
and the exchange of its frame. The first clause is WRREG (R112) of one page on SPI without ready timeout, with good first
answers: HBUF goes through `inbuf` to the device in one frame between a set and a clear of the write enable. The transaction-info
read on SPI takes the low 24 bits of TXINFO_ADDR, the model's choice for a wider one (log 35). -/
def Obligations.WritesSendTheirFrames : Prop :=
  (∀ (s : State) (c : Slot) (data r1 r2 r3 : Bytes), s.admits c suitsRegister true → (s.conn c).kind = .spi →
    s.accessError c true s.arg0 s.arg1.toNat = none → s.arg1.toNat ≤ 512 → s.arg3 = 0#32 →
    data.length = s.arg1.toNat → (∀ i, i < data.length → mread s.hbuf i = data[i]?) →
    spiWriteGood s 0 s.arg2.toNat r1 r2 r3 →
    exec (.wrreg c) s = .next (((s.modConn c fun k => { k with inbuf := bufWrite k.inbuf 0 data }).afterEvents
      (spiWriteEvents s c s.arg0 data r1 r2 r3)).endOk false))
  ∧ ∀ (s : State) (c : Slot) (a : Word) (data : Bytes) (N T : Nat), inbufHolds s c data →
    let op := s.cfg.opcRegmapWrite
    let guard := readyGuard c T N
    let write := tWrite c op a data.length N T s
    let port := (s.descOf c).port
    ((s.conn c).kind = .spi → ∀ (k : Nat) (x g h : Nat → State),
      let K := (data.length + 511) / 512
      let page := fun j => (data.drop (512 * j)).take 512
      let addr := fun j => a + BitVec.ofNat 32 (512 * j)
      let sent := fun j => (g j).afterEvents
        [.port (.spiWrite port (withCrc (spiHead op.wire (addr j) (page j).length ++ page j)) true) .done]
      x 0 = s → k ≤ K →
      (∀ j, j < k → guard (x j) = .ok () (g j) ∧ goesThrough (g j) 0 ∧ guard (sent j) = .ok () (h j)
        ∧ txInfo port (decide (N ≠ 0)) (addr j) (page j).length (h j) = .ok (.ok []) (x (j + 1))) →
      (k = K → write = .ok () (x K))
      ∧ (k < K → (∀ e u, guard (x k) = .error e u → write = .error e u)
          ∧ (guard (x k) = .ok () (g k) → goesThrough (g k) 0 → ∀ e u, guard (sent k) = .error e u →
              write = .error e u)))
    ∧ ((s.conn c).kind = .modbus → ∀ (g : State) (A : Bytes),
      let dev := (s.descOf c).mb.devAddr
      let body := [dev, 0x43#8, op.wire] ++ bigEndian a ++ hiLo (BitVec.ofNat 16 data.length) ++ data
      (∀ e u, guard s = .error e u → write = .error e u)
      ∧ (guard s = .ok () g → mbGets g dev 0x43#8 0 (N ≠ 0) A → write = guard (g.afterEvents (mbEvents s c body 0 A))))
    ∧ ((s.conn c).kind = .can → ∀ (k : Nat) (x g h w : Nat → State) (r : Nat → Bytes),
      let K := (data.length + 3) / 4
      let chunk := fun j => (data.drop (4 * j)).take 4
      let addr := fun j => a + BitVec.ofNat 32 (4 * j)
      let F := fun j => frameOf op.canu (BitVec.ofNat 8 (chunk j).length)
        ([(addr j).extractLsb' 0 8, (addr j).extractLsb' 8 8] ++ chunk j)
      x 0 = s → k ≤ K →
      (∀ j, j < k → guard (x j) = .ok () (g j) ∧ baseCheck c (addr j) (g j) = .ok () (h j)
        ∧ canuExchange c (F j) (h j) = .ok (r j) (w j) ∧ guard (w j) = .ok () (x (j + 1))) →
      (k = K → write = .ok () (x K))
      ∧ (k < K → (∀ e u, guard (x k) = .error e u → write = .error e u)
          ∧ (guard (x k) = .ok () (g k) → (∀ e u, baseCheck c (addr k) (g k) = .error e u → write = .error e u)
            ∧ (baseCheck c (addr k) (g k) = .ok () (h k) →
                (∀ e u, canuExchange c (F k) (h k) = .error e u → write = .error e u)
                ∧ (canuExchange c (F k) (h k) = .ok (r k) (w k) → ∀ e u, guard (w k) = .error e u →
                    write = .error e u)))))

/-- The writes of INIT, steps 2 to 4 (R117). -/
def Sys2Proof.Machine.initWriteAt (g : Config) (j : Nat) : InitWrite :=
  if j = 0 then g.initSecure else if j = 1 then g.initReadypin else g.initPartial

/-- INIT (R117), the same on every transport (R110): the read of the device type without CRC check, at the address of the
descriptor's generation; `devType` and RESULT0 from it; then the three write sequences with the default budget, in order.
The first error ends it: that of a transaction, or of the size and reach checks of an access, which is the model's choice
(log 12). `x j` is the state before write `j`, and `k` writes have gone well. The last clause is INIT on SPI with good
answers, each access of at most one page; the model's choice for a TXINFO_ADDR above 0xFFFFFF is its low 24 bits (log 35). -/
def Obligations.InitRunsItsFourSteps : Prop :=
  (∀ (s : State) (c : Slot), s.admits c suitsRegister true →
    let g := (s.descOf c).gen
    let w := initWriteAt s.cfg
    let addr := fun j => if g = .old then (w j).addrOld else (w j).addrNew
    let typeAddr := if g = .old then s.cfg.devtypeAddrOld else s.cfg.devtypeAddrNew
    let typeCheck := s.accessError c false typeAddr s.cfg.devtypeSize
    let read := tRead c s.cfg.opcRegmapRead typeAddr s.cfg.devtypeSize 0 0 s
    let check := fun j (u : State) => u.accessError c true (addr j) (w j).data.length
    let write := fun j => writeSeq c (addr j) (w j).data s.cfg.defaultCrcRetries 0
    let fails := fun (e : Err) (u : State) => exec (.init c) s = .next (u.endErr e)
    decode (.cmd (commandWord 0x10 c false false)) = .ok (.init c)
    ∧ (∀ e, typeCheck = some e → fails e s)
    ∧ (typeCheck = none → ∀ e u, read = .error (.err e) u → fails e u)
    ∧ (typeCheck = none → ∀ v u, read = .ok v u →
      let type := BitVec.ofNat 32 (leValue v)
      ∀ (k : Nat) (x : Nat → State), k ≤ 3 →
        x 0 = { u.modConn c fun k => { k with devType := some type } with result0 := type } →
        (∀ j, j < k → check j (x j) = none ∧ write j (x j) = .ok () (x (j + 1))) →
        (k = 3 → exec (.init c) s = .next ((x 3).endOk false))
        ∧ (k < 3 → (∀ e, check k (x k) = some e → fails e (x k))
            ∧ (check k (x k) = none → ∀ e t, write k (x k) = .error (.err e) t → fails e t))))
  ∧ ∀ (s : State) (c : Slot) (r0 : Bytes) (r : Nat → Nat → Bytes), s.admits c suitsRegister true →
    (s.conn c).kind = .spi →
    let g := (s.descOf c).gen
    let w := initWriteAt s.cfg
    let addr := fun j => if g = .old then (w j).addrOld else (w j).addrNew
    let typeAddr := if g = .old then s.cfg.devtypeAddrOld else s.cfg.devtypeAddrNew
    let type := BitVec.ofNat 32 (leValue (r0.take s.cfg.devtypeSize))
    let fill := fun j (k : Conn) => { k with inbuf := bufWrite k.inbuf 0 (w j).data }
    let events := fun j => spiWriteEvents s c (addr j) (w j).data (r j 0) (r j 1) (r j 2)
    s.accessError c false typeAddr s.cfg.devtypeSize = none →
    goesThrough s 0 → spiGets s 1 (s.cfg.devtypeSize + 2) r0 →
    (∀ j, j < 3 → s.accessError c true (addr j) (w j).data.length = none ∧ (w j).data.length ≤ 512
      ∧ spiWriteGood s (2 + 9 * j) s.cfg.defaultCrcRetries (r j 0) (r j 1) (r j 2)) →
    ∃ t : State, exec (.init c) s = .next (t.endOk false)
      ∧ t = { s.afterEvents (spiReadEvents s c s.cfg.opcRegmapRead.wire typeAddr s.cfg.devtypeSize r0
          ++ events 0 ++ events 1 ++ events 2) with result0 := type, conns := t.conns }
      ∧ ∀ x, t.conn? x = if x = c then
          some (fill 2 (fill 1 (fill 0 { s.conn c with devType := some type }))) else s.conn? x

/-! ### Universal-over-CAN -/

/-- R129: no frame is sent while the 64 KB page of a chunk is the cached one; else a SetBaseAddress exchange is, and the
cache is the page after it, or invalid if it fails. -/
def Obligations.BaseAddressIsSentWhenThePageChanges : Prop :=
  ∀ (s : State) (c : Slot) (ca : Word),
    let hi := ca &&& 0xFFFF0000#32
    let V := if s.cfg.canBaseValue = .full then ca else hi
    let F := frameOf s.cfg.canuCmdSetbase 0#8
      [0#8, 0#8, V.extractLsb' 0 8, V.extractLsb' 8 8, V.extractLsb' 16 8, V.extractLsb' 24 8]
    let cached := fun (b : Option Word) (u : State) => u.modConn c fun k => { k with baseCache := b }
    ((s.conn c).baseCache = some hi → baseCheck c ca s = .ok () s)
    ∧ ((s.conn c).baseCache ≠ some hi →
        (∀ A u, canuExchange c F s = .ok A u → baseCheck c ca s = .ok () (cached (some hi) u))
        ∧ ∀ e u, canuExchange c F s = .error (.err e) u → baseCheck c ca s = .error (.err e) (cached none u))

/-- The chunks of a transfer (R53): chunk `k` of a transfer of `n` bytes in pieces of `p` covers offsets `k * p` to
`min ((k + 1) * p) n`, and there is no further chunk. -/
def Obligations.ChunksCoverTheTransfer : Prop :=
  ∀ p n : Nat, 0 < p →
    chunks p n = (List.range ((n + p - 1) / p)).map fun k => (k * p, min ((k + 1) * p) n - k * p)

/-- A frame for the slot `c` on the bus of its port: no event, an ID that is not 0 and that no earlier entry of the
domain's table takes (R139, R141). -/
def Sys2Proof.Machine.frameFor (s : State) (c : Slot) (x : CanRx) : Prop :=
  x.ev = 0#32 ∧ x.id ≠ 0#32 ∧ ∃ l e r, (s.domain (s.descOf c).port).table = l ++ e :: r ∧ e.slot = c
    ∧ inRange s.cfg e.txId x.id.toNat ∧ ∀ y ∈ l, ¬inRange s.cfg y.txId x.id.toNat

/-- The first 8 bytes of `outbuf`, the response slot (R127), are the bytes `b`. -/
def Sys2Proof.Machine.slotHolds (s : State) (c : Slot) (b : Bytes) : Prop :=
  b.length = 8 ∧ ∀ i, i < 8 → mread (s.conn c).outbuf.mem i = b[i]?

/-- How the slot polls of R128 end from state `u`: at most 100 routed reads, each followed by 1 ms of sleep, until the slot
is not all zero, or an error of a read, or the Timeout with its free flag. -/
def Sys2Proof.Machine.slotEnds (c : Slot) (u : State) (o : EStateM.Result Stop State Bytes) : Prop :=
  let empty := fun v : State => slotHolds v c (List.replicate 8 0#8)
  ∃ (k : Nat) (us vs : Nat → State) (hits : Nat → Bool × Word), k ≤ 100 ∧ us 0 = u
    ∧ (∀ j, j < k → empty (us j) ∧ routeRead c (us j) = .ok (hits j) (vs j)
        ∧ us (j + 1) = (vs j).afterEvents [.sleep 1])
    ∧ ((k < 100 ∧ ∃ b, slotHolds (us k) c b ∧ b ≠ List.replicate 8 0#8 ∧ o = .ok b (us k))
      ∨ (k < 100 ∧ empty (us k) ∧ ∃ x t, routeRead c (us k) = .error x t ∧ o = .error x t)
      ∨ (k = 100 ∧ o = .error (.err (.timeoutResponseSlot (Config.freeFlag (us k).draws))) (us k)))

/-- The exchange of a Universal frame (R128): the slot zeroed, write-and-wait, whose error is the exchange's, then the
polls of the slot; which value the flag of RESPONSE_SLOT has is free (log 5). The read on Universal-over-CAN (R130): before
each chunk of at most 4 bytes the ready guard and the base check, whose errors end it, then the exchange of its frame,
whose argument bytes from 2 on are the data; `x j` is the state before chunk `j`, and `k` chunks have gone well. The last
clause is RDREG of one chunk, its page cached, without ready timeout, answered by the first frame read (R127). -/
def Obligations.UniversalCanReadsPollTheirSlot : Prop :=
  (∀ (s : State) (c : Slot) (F : Frame),
    let z := s.modConn c fun k => { k with outbuf := bufWrite k.outbuf 0 (List.replicate 8 0#8) }
    (∀ e u, writeAndWait c F z = .error e u → canuExchange c F s = .error e u)
    ∧ ∀ u o, writeAndWait c F z = .ok () u → slotEnds c u o → canuExchange c F s = o)
  ∧ (∀ (s : State) (c : Slot) (a : Word) (n N T k : Nat) (x g h : Nat → State) (r : Nat → Bytes),
      let op := s.cfg.opcRegmapRead
      let K := (n + 3) / 4
      let len := fun j => min 4 (n - 4 * j)
      let addr := fun j => a + BitVec.ofNat 32 (4 * j)
      let F := fun j => frameOf op.canu (BitVec.ofNat 8 (len j)) [(addr j).extractLsb' 0 8, (addr j).extractLsb' 8 8]
      let read := tRead c op a n N T s
      (s.conn c).kind = .can → x 0 = s → k ≤ K →
      (∀ j, j < k → readyGuard c T N (x j) = .ok () (g j) ∧ baseCheck c (addr j) (g j) = .ok () (h j)
        ∧ canuExchange c (F j) (h j) = .ok (r j) (x (j + 1))) →
      (k = K → read = .ok ((List.range K).flatMap fun j => ((r j).drop 4).take (len j)) (x K))
      ∧ (k < K → (∀ e u, readyGuard c T N (x k) = .error e u → read = .error e u)
          ∧ (readyGuard c T N (x k) = .ok () (g k) →
              (∀ e u, baseCheck c (addr k) (g k) = .error e u → read = .error e u)
              ∧ (baseCheck c (addr k) (g k) = .ok () (h k) →
                  ∀ e u, canuExchange c (F k) (h k) = .error e u → read = .error e u))))
  ∧ ∀ (s : State) (c : Slot) (d : Draw) (x : CanRx),
      let n := s.arg1.toNat
      let q := (s.descOf c).port
      let F := frameOf s.cfg.opcRegmapRead.canu (BitVec.ofNat 8 n) [s.arg0.extractLsb' 0 8, s.arg0.extractLsb' 8 8]
      let slot := fun (b : Bytes) (k : Conn) => { k with outbuf := bufWrite k.outbuf 0 b }
      s.admits c suitsRegister true → (s.conn c).kind = .can → s.MemoryLegal →
      s.accessError c false s.arg0 n = none → n ≤ 4 → s.arg3 = 0#32 →
      (s.conn c).baseCache = some (s.arg0 &&& 0xFFFF0000#32) →
      goesThrough s 0 → s.returns 1 d → d.frame = some x → frameFor s c x → x.data.bytes ≠ List.replicate 8 0#8 →
      exec (.rdreg c) s = .next ((((((s.modConn c (slot (List.replicate 8 0#8))).modConn c (slot x.data.bytes)).afterEvents
        [.port (.canWrite q (s.descOf c).can.baseIdRx F) .done, .port (.canRead q) (.frame (some x))])).setHbuf
        ((x.data.bytes.drop 4).take n)).endOk false)

/-! ### CAN routing -/

/-- The six argument bytes are all 0xFF (R147). -/
def Sys2Proof.Machine.allOnes (f : Frame) : Prop :=
  f.arg0 = 0xFF#8 ∧ f.arg1 = 0xFF#8 ∧ f.arg2 = 0xFF#8 ∧ f.arg3 = 0xFF#8 ∧ f.arg4 = 0xFF#8 ∧ f.arg5 = 0xFF#8

/-- A configuration answer of a Direct-CAN connection (R147). -/
def Sys2Proof.Machine.configAnswer (d : CanDesc) (x : CanRx) : Prop :=
  x.id = d.baseIdTx
    ∨ (d.answerOnTx1 = true ∧ x.id.toNat = d.baseIdTx.toNat + 1 ∧ d.answerOffset.toNat ≤ x.data.cmd.toNat)

/-- R139, R140, R141, R144, R147: CANRD reads the bus once and routes what it reads. -/
def Obligations.CanrdRoutesOneFrame : Prop :=
  ∀ (s : State) (c : Slot) (d : Draw), s.admits c suitsCan true → s.draw 0 = some d →
    let q := (s.descOf c).port
    let failed := s.note (.canRead q) d.shows
    let u := s.note (.canRead q) (.frame d.frame)
    let answers := fun (v : State) (id : Word) (hit : Bool) => exec (.canrd c) s = .next ({ v with result0 := id }.endOk hit)
    let fails := fun (x : Err) => exec (.canrd c) s = .next (u.endErr x)
    decode (.cmd (commandWord 0x30 c false false)) = .ok (.canrd c)
    ∧ (∀ e, driverErr d.fate = some e → exec (.canrd c) s = .next (failed.endErr e))
    ∧ (d.fate = .returns → d.frame = none → answers u 0#32 false)
    ∧ ∀ x, d.fate = .returns → d.frame = some x →
      (x.ev ≠ 0#32 → fails .busEvent)
      ∧ (x.ev = 0#32 → x.id = 0#32 → answers u 0#32 false)
      ∧ (x.ev = 0#32 → x.id ≠ 0#32 → (∀ y ∈ (s.domain q).table, ¬inRange s.cfg y.txId x.id.toNat) →
          fails (.unknownCanId x.id))
      ∧ ∀ l e r, x.ev = 0#32 → x.id ≠ 0#32 → (s.domain q).table = l ++ e :: r →
        inRange s.cfg e.txId x.id.toNat → (∀ y ∈ l, ¬inRange s.cfg y.txId x.id.toNat) →
        let t := e.slot
        let D := (s.descOf t).can
        let k := s.conn t
        (D.proto = .universal → answers (u.modConn t fun k => { k with outbuf := bufWrite k.outbuf 0 x.data.bytes })
          x.id (t == c))
        ∧ (D.proto = .direct → allOnes x.data → fails (.sensorFailureFf x.id))
        ∧ (D.proto = .direct → ¬allOnes x.data → configAnswer D x →
            (s.cfg.fifoDepth ≤ k.cfgFifo.length → fails (.fifoOverflow x.id))
            ∧ (k.cfgFifo.length < s.cfg.fifoDepth →
                answers (u.modConn t fun k => { k with cfgFifo := k.cfgFifo ++ [(x.id, x.data)] }) x.id (t == c)))
        ∧ (D.proto = .direct → ¬allOnes x.data → ¬configAnswer D x →
            (s.cfg.fifoDepth ≤ k.detFifo.length → fails (.fifoOverflow x.id))
            ∧ (k.detFifo.length < s.cfg.fifoDepth →
                answers (u.modConn t fun k => { k with detFifo := k.detFifo ++ [(x.id, x.data)] }) x.id (t == c)))

/-- How the read loop of R143 ends from state `u`: at most 1000 routed reads, 1 ms of sleep after each miss, until a frame
for `c`, or an error of a read, or the Timeout with its free flag. -/
def Sys2Proof.Machine.waitEnds (c : Slot) (u : State) (o : EStateM.Result Stop State Unit) : Prop :=
  ∃ (k : Nat) (us vs : Nat → State) (ids : Nat → Word), k ≤ 1000 ∧ us 0 = u
    ∧ (∀ j, j < k → routeRead c (us j) = .ok (false, ids j) (vs j) ∧ us (j + 1) = (vs j).afterEvents [.sleep 1])
    ∧ ((k < 1000 ∧ ∃ id t, routeRead c (us k) = .ok (true, id) t ∧ o = .ok () t)
      ∨ (k < 1000 ∧ ∃ x t, routeRead c (us k) = .error x t ∧ o = .error x t)
      ∨ (k = 1000 ∧ o = .error (.err (.timeoutAnswerWait (Config.freeFlag (us k).draws))) (us k)))

/-- R143: write-and-wait sends the frame and waits; only an EventError of the wait sends it again, at most three times in
all. `a j` is the state before attempt `j`, `w j` the one after its write. -/
def Obligations.WriteAndWaitResendsOnBusEvents : Prop :=
  ∀ (c : Slot) (F : Frame) (n : Nat) (a w : Nat → State), n < 3 →
    (∀ j, j < n → sendFrame c F (a j) = .ok () (w j) ∧ waitEnds c (w j) (.error (.err .busEvent) (a (j + 1)))) →
    (∀ x t, sendFrame c F (a n) = .error x t → writeAndWait c F (a 0) = .error x t)
    ∧ ∀ o, sendFrame c F (a n) = .ok () (w n) → waitEnds c (w n) o →
        (n = 2 ∨ ∀ t, o ≠ .error (.err .busEvent) t) → writeAndWait c F (a 0) = o

/-- HBUF[0..8) holds the frame (R145). -/
def Sys2Proof.Machine.hbufHolds (s : State) (F : Frame) : Prop := ∀ i, i < 8 → mread s.hbuf i = F.bytes[i]?

/-- R142, R145: CANSEND sends the frame in HBUF with the connection's Rx ID on the port of its domain. -/
def Obligations.CansendWritesOneFrame : Prop :=
  ∀ (s : State) (c : Slot), s.admits c suitsCan true →
    decode (.cmd (commandWord 0x31 c false false)) = .ok (.cansend c)
    ∧ ((∃ i, i < 8 ∧ mread s.hbuf i = none) → exec (.cansend c) s = .fault .undefRead)
    ∧ ∀ (F : Frame) (d : Draw), hbufHolds s F → s.draw 0 = some d →
      let u := s.note (.canWrite (s.descOf c).port (s.descOf c).can.baseIdRx F) d.shows
      (d.fate = .returns → exec (.cansend c) s = .next (u.endOk false))
      ∧ ∀ e, driverErr d.fate = some e → exec (.cansend c) s = .next (u.endErr e)

/-- CANSENDW (R146) ends as the write-and-wait of the frame in HBUF ends; and where the first frame read is for a
Universal connection, its events are one write and one read and the frame is in the response slot. -/
def Obligations.CansendwWaitsForItsFrame : Prop :=
  ∀ (s : State) (c : Slot) (F : Frame), s.admits c suitsCan true → hbufHolds s F →
    (∀ u, writeAndWait c F s = .ok () u → exec (.cansendw c) s = .next (u.endOk false))
    ∧ (∀ e u, writeAndWait c F s = .error (.err e) u → exec (.cansendw c) s = .next (u.endErr e))
    ∧ ∀ d x, (s.descOf c).can.proto = .universal → goesThrough s 0 → s.returns 1 d → d.frame = some x → frameFor s c x →
        exec (.cansendw c) s = .next (((s.modConn c fun k => { k with outbuf := bufWrite k.outbuf 0 x.data.bytes }).afterEvents
          [.port (.canWrite (s.descOf c).port (s.descOf c).can.baseIdRx F) .done,
            .port (.canRead (s.descOf c).port) (.frame (some x))]).endOk false)

/-! ### Direct CAN -/

/-- The request frame of GETVAL and of SETVAL (R82, R148, R149). -/
def Sys2Proof.Machine.requests (s : State) (c : Slot) (i : Instr) (F : Frame) : Prop :=
  (i = .getval c ∧ s.arg0.extractLsb' 8 24 = 0#24 ∧ s.arg1.extractLsb' 8 24 = 0#24
      ∧ F = frameOf (s.arg0.extractLsb' 0 8) (s.arg1.extractLsb' 0 8) [])
    ∨ (i = .setval c ∧ hbufHolds s F)

/-- The echo check of an answer (R148, R149). -/
def Sys2Proof.Machine.echoes (s : State) (c : Slot) (F A : Frame) : Prop :=
  A.cmd = F.cmd + (s.descOf c).can.answerOffset ∧ A.sub = F.sub

/-- What GETVAL and SETVAL do once the wait has ended (R148, R149): exactly one frame is popped; a wrong echo is an error,
a right one is shown to the host. -/
def Obligations.RequestsPopOneConfigAnswer : Prop :=
  ∀ (s : State) (c : Slot) (i : Instr) (F : Frame), s.admits c suitsDirect true → requests s c i F →
    (∀ e u, writeAndWait c F s = .error (.err e) u → exec i s = .next (u.endErr e))
    ∧ ∀ u, writeAndWait c F s = .ok () u →
      ((u.conn c).cfgFifo = [] → exec i s = .next (u.endErr .noConfigAnswer))
      ∧ ∀ id A rest, (u.conn c).cfgFifo = (id, A) :: rest →
        let popped := u.modConn c fun k => { k with cfgFifo := rest }
        (¬echoes s c F A → exec i s = .next (popped.endErr (.echoMismatch id)))
        ∧ (echoes s c F A → exec i s = .next ({ popped with
            hbuf := mwriteBytes u.hbuf 0 A.bytes, result0 := id }.endOk false))

/-- GETVAL and SETVAL whose first frame read is their configuration answer (R147, R148, R149). -/
def Obligations.RequestsShowTheirAnswer : Prop :=
  ∀ (s : State) (c : Slot) (i : Instr) (F : Frame) (d : Draw) (x : CanRx) (id : Word) (A : Frame)
    (rest : List (Word × Frame)),
    s.admits c suitsDirect true → requests s c i F → goesThrough s 0 → s.returns 1 d → d.frame = some x →
    frameFor s c x → ¬allOnes x.data → configAnswer (s.descOf c).can x → (s.conn c).cfgFifo.length < s.cfg.fifoDepth →
    (s.conn c).cfgFifo ++ [(x.id, x.data)] = (id, A) :: rest → echoes s c F A →
    ∃ t : State, exec i s = .next (t.endOk false)
      ∧ t = { s.afterEvents [.port (.canWrite (s.descOf c).port (s.descOf c).can.baseIdRx F) .done,
            .port (.canRead (s.descOf c).port) (.frame (some x))] with
          conns := t.conns, hbuf := mwriteBytes s.hbuf 0 A.bytes, result0 := id }
      ∧ ∀ y, t.conn? y = if y = c then some { s.conn c with cfgFifo := rest } else s.conn? y

/-- R150: STREAM. Family B sends the request and awaits nothing; family A awaits an answer, at most five times, and
pops it unchecked; both settle for 10 ms and then set the state. `a j` is the state before attempt `j`. In the last
clause a Timeout of the transport driver ends family A's request like any other error: that only the answer-wait Timeout
is retried is the model's choice (log 14). -/
def Obligations.StreamSettlesAndSetsTheState : Prop :=
  ∀ (s : State) (c : Slot) (e : Bool), s.admits c suitsDirect true →
    let D := (s.descOf c).can
    let v := s.arg0
    let F := frameOf s.cfg.dcanStreamCmd (if e then s.cfg.dcanStreamSubOn else s.cfg.dcanStreamSubOff)
      [v.extractLsb' 0 8, v.extractLsb' 8 8, v.extractLsb' 16 8, v.extractLsb' 24 8]
    let settled := fun (u : State) => (u.afterEvents [.sleep 10]).modConn c fun k => { k with
      dstate := if e then .streaming else .idle }
    decode (.cmd (commandWord 0x42 c e false)) = .ok (.stream c e)
    ∧ (D.family = .b → ∀ d, s.draw 0 = some d →
        let u := s.note (.canWrite (s.descOf c).port D.baseIdRx F) d.shows
        (d.fate = .returns → exec (.stream c e) s = .next ((settled u).endOk false))
        ∧ ∀ x, driverErr d.fate = some x → exec (.stream c e) s = .next (u.endErr x))
    ∧ (D.family = .a → ∀ (n : Nat) (a : Nat → State) (f : Nat → Bool), a 0 = s → n < 5 →
        (∀ j, j < n → writeAndWait c F (a j) = .error (.err (.timeoutAnswerWait (f j))) (a (j + 1))) →
        (∀ u, writeAndWait c F (a n) = .ok () u → exec (.stream c e) s =
          .next ((settled (u.modConn c fun k => { k with cfgFifo := k.cfgFifo.tail })).endOk false))
        ∧ (∀ g u, writeAndWait c F (a n) = .error (.err (.timeoutAnswerWait g)) u → n = 4 →
            exec (.stream c e) s = .next (u.endErr .timeoutStreamAck))
        ∧ ∀ x u, writeAndWait c F (a n) = .error (.err x) u → (∀ g, x ≠ .timeoutAnswerWait g) →
            exec (.stream c e) s = .next (u.endErr x))

/-- R152 to R155: RDCFG and RDDET read the bus once if their FIFO is empty and answer whether it is not; POPCFG and
POPDET move its front to the host. -/
def Obligations.FifoCommands : Prop :=
  ∀ (s : State) (c : Slot) (r : Bool × Word) (u : State) (x : Err),
    decode (.cmd (commandWord 0x43 c false false)) = .ok (.rdcfg c)
    ∧ decode (.cmd (commandWord 0x44 c false false)) = .ok (.rddet c)
    ∧ decode (.cmd (commandWord 0x45 c false false)) = .ok (.popcfg c)
    ∧ decode (.cmd (commandWord 0x46 c false false)) = .ok (.popdet c)
    ∧ (s.admits c suitsDirect true →
      ((s.conn c).cfgFifo ≠ [] → exec (.rdcfg c) s = .next (s.endOk true))
      ∧ ((s.conn c).cfgFifo = [] → routeRead c s = .ok r u →
          exec (.rdcfg c) s = .next (u.endOk (decide ((u.conn c).cfgFifo ≠ []))))
      ∧ ((s.conn c).cfgFifo = [] → routeRead c s = .error (.err x) u → exec (.rdcfg c) s = .next (u.endErr x))
      ∧ ((s.conn c).detFifo ≠ [] → exec (.rddet c) s = .next (s.endOk true))
      ∧ ((s.conn c).detFifo = [] → routeRead c s = .ok r u →
          exec (.rddet c) s = .next (u.endOk (decide ((u.conn c).detFifo ≠ []))))
      ∧ ((s.conn c).detFifo = [] → routeRead c s = .error (.err x) u → exec (.rddet c) s = .next (u.endErr x)))
    ∧ (s.admits c suitsDirect false →
      ((s.conn c).cfgFifo = [] → exec (.popcfg c) s = .next (s.endErr .fifoEmpty))
      ∧ (∀ id A rest, (s.conn c).cfgFifo = (id, A) :: rest → exec (.popcfg c) s =
          .next ({ s.modConn c fun k => { k with cfgFifo := rest } with
            hbuf := mwriteBytes s.hbuf 0 A.bytes, result0 := id }.endOk false))
      ∧ ((s.conn c).detFifo = [] → exec (.popdet c) s = .next (s.endErr .fifoEmpty))
      ∧ ∀ id A rest, (s.conn c).detFifo = (id, A) :: rest → exec (.popdet c) s =
          .next ({ s.modConn c fun k => { k with detFifo := rest } with
            hbuf := mwriteBytes s.hbuf 0 A.bytes, result0 := id }.endOk false))

/-! ### Modbus request frames -/

/-- The three Modbus request frames run alone, with a good first answer: the frame of R78, the exchange of R122, the
answer's data in `outbuf`. That the rows of the opcode table run so is the model's choice (log 11). -/
def Obligations.ModbusFramesRunTheirExchange : Prop :=
  ∀ (s : State) (dev op : Byte) (a : Word) (size : BitVec 16) (payload A : Bytes),
    let c := cmdConn s.cmd
    let runs := fun (i : Instr) (body : Bytes) (len : Nat) => exec i s = .next (((s.afterEvents
      (mbEvents s c body len A)).modConn c fun k => { k with outbuf := bufWrite k.outbuf 0 ((A.drop 2).take len) }).endOk
      false)
    s.admits c suitsModbus true →
    (s.accessError c false a size.toNat = none → mbGets s dev 0x42#8 size.toNat (s.arg2 ≠ 0#32) A →
      runs (.mbReadData dev op a size) ([dev, 0x42#8, op] ++ bigEndian a ++ hiLo size) size.toNat)
    ∧ (s.accessError c true a payload.length = none → mbGets s dev 0x43#8 0 (s.arg2 ≠ 0#32) A →
      runs (.mbWriteData dev op a payload)
        ([dev, 0x43#8, op] ++ bigEndian a ++ hiLo (BitVec.ofNat 16 payload.length) ++ payload) 0)
    ∧ (mbGets s dev 0x44#8 0 (s.arg2 ≠ 0#32) A → runs (.mbSendOpcode dev op) [dev, 0x44#8, op] 0)

end
end

