-- ==== Sys2Proof/Laws/Cmd.lean ====
section
/-! SUPPORT. The laws of computations: what a run of a composite gives in terms of the runs of its parts, and two
judgements carried through every composite: `Keeps R`, every run relates its start and end states by `R`; `Triple`,
every run from `P` ends in `Q` or `E`. -/

namespace Sys2Proof.Machine

variable {α β : Type}

/-! ### Runs of composites -/

theorem cmd_pure (a : α) (s : State) : (pure a : Cmd α) s = .ok a s := rfl

theorem cmd_get (s : State) : (get : Cmd State) s = .ok s s := rfl

theorem cmd_modify (f : State → State) (s : State) : (modify f : Cmd PUnit) s = .ok ⟨⟩ (f s) := rfl

theorem cmd_bind (m : Cmd α) (f : α → Cmd β) (s : State) :
    (m >>= f) s = match m s with
      | .ok a t => f a t
      | .error e t => .error e t := by
  show EStateM.bind m f s = _
  unfold EStateM.bind
  cases m s <;> rfl

theorem cmd_bind_ok {m : Cmd α} {f : α → Cmd β} {s t : State} {a : α} (h : m s = .ok a t) : (m >>= f) s = f a t := by
  rw [cmd_bind, h]

theorem cmd_bind_error {m : Cmd α} {f : α → Cmd β} {s t : State} {e : Stop} (h : m s = .error e t) :
    (m >>= f) s = .error e t := by
  rw [cmd_bind, h]

/-- From a value of a composite: the values of its parts. -/
theorem cmd_bind_eq_ok {m : Cmd α} {f : α → Cmd β} {s t : State} {b : β} (h : (m >>= f) s = .ok b t) :
    ∃ a u, m s = .ok a u ∧ f a u = .ok b t := by
  rw [cmd_bind] at h
  cases hm : m s with
  | ok a u => rw [hm] at h; exact ⟨a, u, rfl, h⟩
  | error e u => rw [hm] at h; cases h

/-- From a stop of a composite: one of its parts stopped. -/
theorem cmd_bind_eq_error {m : Cmd α} {f : α → Cmd β} {s t : State} {e : Stop} (h : (m >>= f) s = .error e t) :
    m s = .error e t ∨ ∃ a u, m s = .ok a u ∧ f a u = .error e t := by
  rw [cmd_bind] at h
  cases hm : m s with
  | ok a u => rw [hm] at h; exact .inr ⟨a, u, rfl, h⟩
  | error e' u => rw [hm] at h; cases h; exact .inl rfl

theorem check_none (s : State) : check none s = .ok () s := rfl

theorem check_some (e : Err) (s : State) : check (some e) s = .error (.err e) s := rfl

theorem local_bind (m : Local α) (f : α → Local β) (s : State) :
    (m >>= f) s = match m s with
      | .ok a t => f a t
      | .error e t => .error e t := by
  show EStateM.bind m f s = _
  unfold EStateM.bind
  cases m s <;> rfl

theorem checkLocal_none (s : State) : checkLocal none s = .ok () s := rfl

theorem checkLocal_some (e : Err) (s : State) : checkLocal (some e) s = .error e s := rfl

/-! ### Relations every run keeps -/

/-- Every run of `m`, to whatever end, relates its start and end states by `R`. -/
def Keeps (R : State → State → Prop) (m : Cmd α) : Prop :=
  ∀ s, match m s with
    | .ok _ t => R s t
    | .error _ t => R s t

/-- A relation that holds of no change and of one change after another. -/
structure Steps (R : State → State → Prop) : Prop where
  refl : ∀ s, R s s
  trans : ∀ {s t u}, R s t → R t u → R s u

variable {R : State → State → Prop}

theorem Keeps.ok {m : Cmd α} (h : Keeps R m) {s t : State} {a : α} (e : m s = .ok a t) : R s t := by
  have := h s; rw [e] at this; exact this

theorem Keeps.error {m : Cmd α} (h : Keeps R m) {s t : State} {x : Stop} (e : m s = .error x t) : R s t := by
  have := h s; rw [e] at this; exact this

theorem keeps_of {m : Cmd α} (h : ∀ s t, (∀ a, m s = .ok a t → R s t) ∧ (∀ e, m s = .error e t → R s t)) :
    Keeps R m := by
  intro s
  cases hm : m s with
  | ok a t => exact (h s t).1 a hm
  | error e t => exact (h s t).2 e hm

theorem Keeps.mono {R' : State → State → Prop} {m : Cmd α} (h : Keeps R m) (hr : ∀ s t, R s t → R' s t) :
    Keeps R' m := by
  intro s
  have := h s
  cases hm : m s with
  | ok a t => rw [hm] at this; exact hr s t this
  | error e t => rw [hm] at this; exact hr s t this

theorem keeps_pure (hR : Steps R) (a : α) : Keeps R (pure a : Cmd α) := fun s => hR.refl s

theorem keeps_raise (hR : Steps R) (e : Err) : Keeps R (raise e : Cmd α) := fun s => hR.refl s

theorem keeps_stopFault (hR : Steps R) (f : Fault) : Keeps R (stopFault f : Cmd α) := fun s => hR.refl s

theorem keeps_get (hR : Steps R) : Keeps R (get : Cmd State) := fun s => hR.refl s

theorem keeps_modify {f : State → State} (h : ∀ s, R s (f s)) : Keeps R (modify f : Cmd PUnit) := fun s => h s

theorem keeps_check (hR : Steps R) (o : Option Err) : Keeps R (check o) := by
  cases o
  · exact fun s => hR.refl s
  · exact fun s => hR.refl s

theorem keeps_bind (hR : Steps R) {m : Cmd α} {f : α → Cmd β} (hm : Keeps R m) (hf : ∀ a, Keeps R (f a)) :
    Keeps R (m >>= f) := by
  intro s
  rw [cmd_bind]
  have h1 := hm s
  cases h : m s with
  | error e t => rw [h] at h1; exact h1
  | ok a t =>
    rw [h] at h1
    have h2 := hf a t
    simp only
    cases h' : f a t with
    | ok b u => rw [h'] at h2; exact hR.trans h1 h2
    | error e u => rw [h'] at h2; exact hR.trans h1 h2

/-- A composite that reads the state first. -/
theorem keeps_get_bind {f : State → Cmd β} (h : ∀ a, Keeps R (f a)) : Keeps R (get >>= f) := fun s => h s s

/-- A composite that reads the state first and is judged from that very state. -/
theorem keeps_get_at {f : State → Cmd β} (h : ∀ s, match f s s with | .ok _ t => R s t | .error _ t => R s t) :
    Keeps R (get >>= f) := fun s => h s

theorem keeps_catchErr (hR : Steps R) {m : Cmd α} {h : Err → Cmd α} (hm : Keeps R m) (hh : ∀ e, Keeps R (h e)) :
    Keeps R (catchErr m h) := by
  intro s
  unfold catchErr
  have h1 := hm s
  cases hs : m s with
  | ok a t => rw [hs] at h1; exact h1
  | error x t =>
    rw [hs] at h1
    cases x with
    | fault f => exact h1
    | stuck => exact h1
    | err e =>
      have h2 := hh e t
      simp only
      cases h' : h e t with
      | ok b u => rw [h'] at h2; exact hR.trans h1 h2
      | error y u => rw [h'] at h2; exact hR.trans h1 h2

theorem keeps_attempt {m : Cmd α} (hm : Keeps R m) : Keeps R (attempt m) := by
  intro s
  unfold attempt
  have h1 := hm s
  cases hs : m s with
  | ok a t => rw [hs] at h1; exact h1
  | error x t =>
    rw [hs] at h1
    cases x <;> exact h1

theorem keeps_ite {p : Prop} [Decidable p] {m m' : Cmd α} (h : p → Keeps R m) (h' : ¬p → Keeps R m') :
    Keeps R (if p then m else m') := by
  split
  · exact h ‹_›
  · exact h' ‹_›

/-- A port call changes the state by `note` only. -/
theorem keeps_portCall (hR : Steps R) (hn : ∀ s c a, R s (s.note c a)) (call : PortCall) (ans : Draw → PortAnswer)
    (val : Draw → α) : Keeps R (portCall call ans val) := by
  intro s
  unfold portCall
  cases s.nextDraw with
  | none => exact hn s call _
  | some d => cases hd : d.fate <;> simp only [hd] <;> exact hn s call _

theorem keeps_hbufData (hR : Steps R) (n : Nat) : Keeps R (hbufData n) := by
  intro s
  unfold hbufData
  cases mreadBytes s.hbuf 0 n <;> exact hR.refl s

theorem keeps_inbufData (hR : Steps R) (c : Slot) (off m : Nat) : Keeps R (inbufData c off m) := by
  intro s
  unfold inbufData
  cases mreadBytes (s.conn c).inbuf.mem off m <;> exact hR.refl s

theorem keeps_likelyDisconnected (hR : Steps R) : Keeps R likelyDisconnected := fun s => hR.refl s

/-! ### What every run ends in -/

/-- Every run of `m` from a state of `P` ends with a value in `Q`, or stops in `E`. -/
def Triple (P : State → Prop) (m : Cmd α) (Q : α → State → Prop) (E : Stop → State → Prop) : Prop :=
  ∀ s, P s → match m s with
    | .ok a t => Q a t
    | .error e t => E e t

variable {P : State → Prop} {Q : α → State → Prop} {E : Stop → State → Prop}

theorem Triple.ok {m : Cmd α} (h : Triple P m Q E) {s t : State} {a : α} (hp : P s) (e : m s = .ok a t) : Q a t := by
  have := h s hp; rw [e] at this; exact this

theorem Triple.error {m : Cmd α} (h : Triple P m Q E) {s t : State} {x : Stop} (hp : P s) (e : m s = .error x t) :
    E x t := by
  have := h s hp; rw [e] at this; exact this

theorem Triple.weaken {P' : State → Prop} {Q' : α → State → Prop} {E' : Stop → State → Prop} {m : Cmd α}
    (h : Triple P m Q E) (hP : ∀ s, P' s → P s) (hQ : ∀ a t, Q a t → Q' a t) (hE : ∀ e t, E e t → E' e t) :
    Triple P' m Q' E' := by
  intro s hp
  have := h s (hP s hp)
  cases hm : m s with
  | ok a t => rw [hm] at this; exact hQ a t this
  | error e t => rw [hm] at this; exact hE e t this

theorem triple_pure {a : α} (h : ∀ s, P s → Q a s) : Triple P (pure a) Q E := fun s hp => h s hp

theorem triple_raise {e : Err} (h : ∀ s, P s → E (.err e) s) : Triple P (raise e) Q E := fun s hp => h s hp

theorem triple_modify {f : State → State} {Q : PUnit → State → Prop} (h : ∀ s, P s → Q ⟨⟩ (f s)) :
    Triple P (modify f) Q E := fun s hp => h s hp

theorem triple_bind {Q' : β → State → Prop} {m : Cmd α} {f : α → Cmd β} (hm : Triple P m Q E)
    (hf : ∀ a, Triple (Q a) (f a) Q' E) : Triple P (m >>= f) Q' E := by
  intro s hp
  rw [cmd_bind]
  have h1 := hm s hp
  cases h : m s with
  | error e t => rw [h] at h1; exact h1
  | ok a t => rw [h] at h1; exact hf a t h1

theorem triple_get_bind {Q' : β → State → Prop} {f : State → Cmd β}
    (h : ∀ s, P s → match f s s with | .ok a t => Q' a t | .error e t => E e t) : Triple P (get >>= f) Q' E :=
  fun s hp => h s hp

theorem triple_catchErr {m : Cmd α} {h : Err → Cmd α} {E' : Stop → State → Prop} (hm : Triple P m Q E')
    (hh : ∀ e, Triple (E' (.err e)) (h e) Q E) (hf : ∀ f t, E' (.fault f) t → E (.fault f) t)
    (hs : ∀ t, E' .stuck t → E .stuck t) : Triple P (catchErr m h) Q E := by
  intro s hp
  unfold catchErr
  have h1 := hm s hp
  cases hm' : m s with
  | ok a t => rw [hm'] at h1; exact h1
  | error x t =>
    rw [hm'] at h1
    cases x with
    | fault f => exact hf f t h1
    | stuck => exact hs t h1
    | err e => exact hh e t h1

end Sys2Proof.Machine
end

