-- ==== Sys2Proof/Laws/Memory.lean ====
section
/-! SUPPORT. The laws of tables and memories: what a read gives after a write, and that every operation keeps the
canonical form. -/

namespace Sys2Proof.Machine

variable {α : Type}

/-! ### Reading -/

@[simp] theorem tget_nil (x : Nat) : tget ([] : Table α) x = none := rfl

theorem tget_tset (t : Table α) (x y : Nat) (v : α) :
    tget (tset t x v) y = if x = y then some v else tget t y := by
  induction t with
  | nil => simp [tset, tget]
  | cons e r ih =>
    obtain ⟨k, w⟩ := e
    simp only [tset]
    split
    · rfl
    · split
      · subst x; by_cases h : k = y <;> simp [tget, h]
      · by_cases h : k = y
        · subst y; simp [tget]; omega
        · simp [tget, h, ih]

@[simp] theorem tget_tset_same (t : Table α) (x : Nat) (v : α) : tget (tset t x v) x = some v := by
  simp [tget_tset]

theorem tget_tset_other (t : Table α) {x y : Nat} (v : α) (h : x ≠ y) : tget (tset t x v) y = tget t y := by
  simp [tget_tset, h]

theorem tget_filter (t : Table α) (p : Nat → Bool) (y : Nat) :
    tget (t.filter (fun e => p e.1)) y = if p y then tget t y else none := by
  induction t with
  | nil => simp
  | cons e r ih =>
    obtain ⟨k, w⟩ := e
    by_cases hk : p k
    · by_cases h : k = y
      · subst y; simp [tget, hk]
      · simp [tget, hk, h, ih]
    · by_cases h : k = y
      · subst y; simp [hk, ih]
      · simp [tget, hk, h, ih]

theorem tget_terase (t : Table α) (x y : Nat) :
    tget (terase t x) y = if x = y then none else tget t y := by
  have := tget_filter t (fun k => k != x) y
  rw [terase, this]
  by_cases h : x = y
  · simp [h]
  · have h' : y ≠ x := fun e => h e.symm
    simp [h, h']

theorem tget_tput (t : Table α) (x y : Nat) (o : Option α) :
    tget (tput t x o) y = if x = y then o else tget t y := by
  cases o <;> simp [tput, tget_tset, tget_terase]

theorem tget_tmodify (t : Table α) (x y : Nat) (f : α → α) :
    tget (tmodify t x f) y = if x = y then (tget t x).map f else tget t y := by
  unfold tmodify
  by_cases h : x = y
  · subst y; cases hx : tget t x <;> simp [hx]
  · cases hx : tget t x <;> simp [h, tget_tset]

/-! ### The canonical form -/

/-- Every key of a table is above a bound. -/
def TAbove (b : Nat) (t : Table α) : Prop := ∀ e ∈ t, b < e.1

theorem twf_cons {k : Nat} {v : α} {t : Table α} :
    twf ((k, v) :: t) = true ↔ TAbove k t ∧ twf t = true := by
  induction t generalizing k v with
  | nil => simp [twf, TAbove]
  | cons e r ih =>
    obtain ⟨k', w⟩ := e
    simp only [twf, Bool.and_eq_true, decide_eq_true_eq]
    constructor
    · rintro ⟨hk, hw⟩
      refine ⟨?_, hw⟩
      have := (ih.1 hw).1
      intro e he
      rcases List.mem_cons.1 he with rfl | he
      · exact hk
      · exact lt_trans hk (this e he)
    · rintro ⟨ha, hw⟩
      exact ⟨ha (k', w) (by simp), hw⟩

theorem twf_filter {t : Table α} (p : Nat × α → Bool) (h : twf t = true) : twf (t.filter p) = true := by
  induction t with
  | nil => exact h
  | cons e r ih =>
    obtain ⟨k, v⟩ := e
    obtain ⟨ha, hr⟩ := twf_cons.1 h
    by_cases hp : p (k, v)
    · rw [List.filter_cons_of_pos hp]
      exact twf_cons.2 ⟨fun e he => ha e (List.mem_filter.1 he).1, ih hr⟩
    · rw [List.filter_cons_of_neg hp]; exact ih hr

theorem mem_tset {t : Table α} {x : Nat} {v : α} {e : Nat × α} (h : e ∈ tset t x v) : e = (x, v) ∨ e ∈ t := by
  induction t with
  | nil => simpa [tset] using h
  | cons f r ih =>
    obtain ⟨k, w⟩ := f
    simp only [tset] at h
    split at h
    · simpa using h
    · split at h
      · rcases List.mem_cons.1 h with h | h
        · exact .inl h
        · exact .inr (List.mem_cons_of_mem _ h)
      · rcases List.mem_cons.1 h with h | h
        · exact .inr (h ▸ List.mem_cons_self ..)
        · rcases ih h with h | h
          · exact .inl h
          · exact .inr (List.mem_cons_of_mem _ h)

theorem twf_tset {t : Table α} (x : Nat) (v : α) (h : twf t = true) : twf (tset t x v) = true := by
  induction t with
  | nil => rfl
  | cons e r ih =>
    obtain ⟨k, w⟩ := e
    obtain ⟨ha, hr⟩ := twf_cons.1 h
    simp only [tset]
    split
    · rename_i hx
      refine twf_cons.2 ⟨?_, h⟩
      intro e he
      rcases List.mem_cons.1 he with rfl | he
      · exact hx
      · exact lt_trans hx (ha e he)
    · split
      · subst x; exact twf_cons.2 ⟨ha, hr⟩
      · rename_i hlt hne
        refine twf_cons.2 ⟨?_, ih hr⟩
        intro e he
        rcases mem_tset he with rfl | he
        · show k < x; omega
        · exact ha e he

theorem twf_terase {t : Table α} (x : Nat) (h : twf t = true) : twf (terase t x) = true := twf_filter _ h

theorem twf_tput {t : Table α} (x : Nat) (o : Option α) (h : twf t = true) : twf (tput t x o) = true := by
  cases o
  · exact twf_terase x h
  · exact twf_tset x _ h

theorem twf_tmodify {t : Table α} (x : Nat) (f : α → α) (h : twf t = true) : twf (tmodify t x f) = true := by
  unfold tmodify; split
  · exact twf_tset x _ h
  · exact h

theorem tget_of_above {t : Table α} {b x : Nat} (h : TAbove b t) (hx : x ≤ b) : tget t x = none := by
  induction t with
  | nil => rfl
  | cons e r ih =>
    obtain ⟨k, v⟩ := e
    have hk : b < k := h (k, v) (by simp)
    simp only [tget]
    rw [if_neg (by omega)]
    exact ih (fun e he => h e (List.mem_cons_of_mem _ he))

/-- In canonical form, equal reads are equal tables. -/
theorem table_ext {t u : Table α} (ht : twf t = true) (hu : twf u = true) (h : ∀ x, tget t x = tget u x) : t = u := by
  induction t generalizing u with
  | nil =>
    cases u with
    | nil => rfl
    | cons e r => obtain ⟨k, v⟩ := e; simpa [tget] using h k
  | cons e r ih =>
    obtain ⟨k, v⟩ := e
    obtain ⟨ha, hr⟩ := twf_cons.1 ht
    cases u with
    | nil => simpa [tget] using h k
    | cons e' r' =>
      obtain ⟨k', v'⟩ := e'
      obtain ⟨ha', hr'⟩ := twf_cons.1 hu
      have hk : k = k' := by
        rcases Nat.lt_trichotomy k k' with hlt | rfl | hlt
        · have := h k
          simp only [tget, if_true] at this
          rw [if_neg (by omega), tget_of_above ha' (by omega)] at this
          cases this
        · rfl
        · have := h k'
          simp only [tget, if_true] at this
          rw [if_neg (by omega), tget_of_above ha (by omega)] at this
          cases this
      subst k'
      have hv : v = v' := by simpa [tget] using h k
      subst v'
      rw [ih hr hr' (fun x => ?_)]
      by_cases hx : x ≤ k
      · rw [tget_of_above ha hx, tget_of_above ha' hx]
      · have := h x
        simpa only [tget, if_neg (show k ≠ x by omega)] using this

/-! ### Memories -/

theorem mread_mwrite (m : Memory) (a x : Nat) (b : Option Byte) :
    mread (mwrite m a b) x = if a = x then b else mread m x := tget_tput m a x b

theorem mread_mbelow (m : Memory) (n x : Nat) : mread (mbelow m n) x = if x < n then mread m x else none := by
  have := tget_filter m (fun k => decide (k < n)) x
  simpa [mread, mbelow] using this

theorem mread_mwriteBytes (m : Memory) (a : Nat) (bs : Bytes) (x : Nat) :
    mread (mwriteBytes m a bs) x = if a ≤ x ∧ x < a + bs.length then bs[x - a]? else mread m x := by
  induction bs generalizing m a with
  | nil =>
    simp only [mwriteBytes, List.length_nil, Nat.add_zero]
    rw [if_neg (by omega)]
  | cons b bs ih =>
    simp only [mwriteBytes]
    rw [ih, mread_mwrite]
    simp only [List.length_cons]
    by_cases h : a = x
    · subst h
      rw [if_neg (by omega), if_pos rfl, if_pos (by omega)]; simp
    · by_cases h2 : a + 1 ≤ x ∧ x < a + 1 + bs.length
      · rw [if_pos h2, if_pos (by omega)]
        obtain ⟨j, hj⟩ : ∃ j, x - a = j + 1 := ⟨x - a - 1, by omega⟩
        rw [hj]; simp; congr 1; omega
      · rw [if_neg h2, if_neg h, if_neg (by omega)]

theorem mread_mcopy (dst src : Memory) (a o n x : Nat) :
    mread (mcopy dst src a o n) x = if a ≤ x ∧ x < a + n then mread src (o + (x - a)) else mread dst x := by
  induction n generalizing dst a o with
  | zero => simp only [mcopy, Nat.add_zero]; rw [if_neg (by omega)]
  | succ n ih =>
    simp only [mcopy]
    rw [ih, mread_mwrite]
    by_cases h : a = x
    · subst h
      rw [if_neg (by omega), if_pos rfl, if_pos (by omega)]; simp
    · by_cases h2 : a + 1 ≤ x ∧ x < a + 1 + n
      · rw [if_pos h2, if_pos (by omega)]; congr 1; omega
      · rw [if_neg h2, if_neg h, if_neg (by omega)]

theorem mwrite_wf {m : Memory} (a : Nat) (b : Option Byte) (h : m.wf = true) : (mwrite m a b).wf = true :=
  twf_tput a b h

theorem mwriteBytes_wf {m : Memory} (a : Nat) (bs : Bytes) (h : m.wf = true) : (mwriteBytes m a bs).wf = true := by
  induction bs generalizing m a with
  | nil => exact h
  | cons b bs ih => exact ih (a + 1) (mwrite_wf a (some b) h)

theorem mcopy_wf {dst : Memory} (src : Memory) (a o n : Nat) (h : dst.wf = true) : (mcopy dst src a o n).wf = true := by
  induction n generalizing dst a o with
  | zero => exact h
  | succ n ih => exact ih (a + 1) (o + 1) (mwrite_wf a _ h)

theorem mbelow_wf {m : Memory} (n : Nat) (h : m.wf = true) : (mbelow m n).wf = true := twf_filter _ h

/-- A defined range reads as its bytes, one by one. -/
theorem mreadBytes_eq_some {m : Memory} {a n : Nat} {bs : Bytes} :
    mreadBytes m a n = some bs ↔ bs.length = n ∧ ∀ i, i < n → mread m (a + i) = bs[i]? := by
  induction n generalizing a bs with
  | zero =>
    cases bs <;> simp [mreadBytes]
  | succ n ih =>
    simp only [mreadBytes]
    cases hb : mread m a with
    | none =>
      simp only [reduceCtorEq, false_iff]
      rintro ⟨hl, h⟩
      have := h 0 (by omega)
      rw [Nat.add_zero, hb] at this
      cases bs <;> simp_all
    | some b =>
      cases hr : mreadBytes m (a + 1) n with
      | none =>
        simp only [reduceCtorEq, false_iff]
        rintro ⟨hl, h⟩
        cases bs with
        | nil => simp at hl
        | cons c cs =>
          have : mreadBytes m (a + 1) n = some cs := ih.2 ⟨by simpa using hl, fun i hi => by
            have := h (i + 1) (by omega)
            rw [show a + 1 + i = a + (i + 1) by omega, this]; simp⟩
          rw [hr] at this; cases this
      | some cs =>
        obtain ⟨hl, h⟩ := ih.1 hr
        constructor
        · rintro ⟨⟩
          refine ⟨by simp [hl], fun i hi => ?_⟩
          cases i with
          | zero => simpa using hb
          | succ i =>
            rw [show a + (i + 1) = a + 1 + i by omega, h i (by omega)]; simp
        · rintro ⟨hl', h'⟩
          cases bs with
          | nil => simp at hl'
          | cons d ds =>
            have h0 := h' 0 (by omega)
            rw [Nat.add_zero, hb] at h0
            have hd : b = d := by simpa using h0
            have : mreadBytes m (a + 1) n = some ds := ih.2 ⟨by simpa using hl', fun i hi => by
              have := h' (i + 1) (by omega)
              rw [show a + 1 + i = a + (i + 1) by omega, this]; simp⟩
            rw [hr] at this
            cases this; subst hd; rfl

theorem mreadBytes_mwriteBytes (m : Memory) (a : Nat) (bs : Bytes) :
    mreadBytes (mwriteBytes m a bs) a bs.length = some bs := by
  refine mreadBytes_eq_some.2 ⟨rfl, fun i hi => ?_⟩
  rw [mread_mwriteBytes, if_pos (by omega)]; congr 1; omega

/-! ### Buffers -/

theorem bufWrite_len (b : Buf) (o : Nat) (bs : Bytes) : (bufWrite b o bs).len = b.len := rfl

theorem bufWrite_wf {b : Buf} (o : Nat) (bs : Bytes) (h : b.mem.wf = true) : (bufWrite b o bs).mem.wf = true :=
  mbelow_wf _ (mwriteBytes_wf o bs h)

theorem bufResize_wf {b : Buf} (n : Nat) (h : b.mem.wf = true) : (bufResize b n).mem.wf = true := mbelow_wf _ h

theorem bufWrite_read (b : Buf) (o : Nat) (bs : Bytes) (x : Nat) :
    mread (bufWrite b o bs).mem x =
      if x < b.len then (if o ≤ x ∧ x < o + bs.length then bs[x - o]? else mread b.mem x) else none := by
  simp only [bufWrite, mread_mbelow, mread_mwriteBytes]

theorem bufResize_read (b : Buf) (n x : Nat) :
    mread (bufResize b n).mem x = if x < n then mread b.mem x else none := by
  simp only [bufResize, mread_mbelow]

end Sys2Proof.Machine
end

