-- ==== Sys2Proof/Laws/Quiet.lean ====
section
/-! SUPPORT. What the shared operations can change. `Within R` says it once: only the connections, each by `R`, the
trace, which only grows, and the answers of the ports, which are used in order. -/

namespace Sys2Proof.Machine

/-! ### Events and answers -/

theorem portEvents_append (a b : List Event) : portEvents (a ++ b) = portEvents a + portEvents b := by
  induction a with
  | nil => simp [portEvents]
  | cons e r ih =>
    cases e
    · simp [portEvents, ih]; omega
    · simp [portEvents, ih]

/-- The events of a run stand before those of the start, and each port call among them used one answer. -/
def Traffic (s t : State) : Prop :=
  ∃ es : List Event, t.trace = es ++ s.trace ∧ t.draws = s.draws + portEvents es
    ∧ t.oracle = s.oracle.drop (portEvents es)

theorem Traffic.refl (s : State) : Traffic s s := ⟨[], rfl, rfl, rfl⟩

theorem Traffic.trans {s t u : State} (h : Traffic s t) (h' : Traffic t u) : Traffic s u := by
  obtain ⟨es, h1, h2, h3⟩ := h
  obtain ⟨fs, h4, h5, h6⟩ := h'
  refine ⟨fs ++ es, by rw [h4, h1, List.append_assoc], ?_, ?_⟩
  · rw [h5, h2, portEvents_append]; omega
  · rw [h6, h3, List.drop_drop, portEvents_append]; congr 1; omega

/-! ### The frame -/

/-- A relation of connections before and after. -/
abbrev ConnRel := Config → Conn → Conn → Prop

/-- From `s` to `t` only connections changed, each used one by `R` and none opened or closed; and the trace, the
answers left and their count. -/
structure Within (R : ConnRel) (s t : State) : Prop where
  rest : t = { s with conns := t.conns, oracle := t.oracle, draws := t.draws, trace := t.trace }
  traffic : Traffic s t
  unused : ∀ x, tget s.conns x = none → tget t.conns x = none
  used : ∀ x k, tget s.conns x = some k → ∃ k', tget t.conns x = some k' ∧ R s.cfg k k'
  wf : twf s.conns = true → twf t.conns = true

/-- A relation of connections that holds of no change and of one change after another. -/
structure ConnSteps (R : ConnRel) : Prop where
  refl : ∀ g k, R g k k
  trans : ∀ {g k k' k''}, R g k k' → R g k' k'' → R g k k''

variable {R : ConnRel}

theorem Within.cfg {s t : State} (h : Within R s t) : t.cfg = s.cfg := by rw [h.rest]
theorem Within.descs {s t : State} (h : Within R s t) : t.descs = s.descs := by rw [h.rest]
theorem Within.domains {s t : State} (h : Within R s t) : t.domains = s.domains := by rw [h.rest]
theorem Within.hbuf {s t : State} (h : Within R s t) : t.hbuf = s.hbuf := by rw [h.rest]

theorem Within.steps (hR : ConnSteps R) : Steps (Within R) where
  refl s := ⟨rfl, .refl s, fun _ h => h, fun _ k h => ⟨k, h, hR.refl _ k⟩, fun h => h⟩
  trans {s t u} h h' := by
    refine ⟨?_, h.traffic.trans h'.traffic, fun x hx => h'.unused x (h.unused x hx), ?_, fun w => h'.wf (h.wf w)⟩
    · rw [h'.rest, h.rest]
    · intro x k hk
      obtain ⟨k', hk', r⟩ := h.used x k hk
      obtain ⟨k'', hk'', r'⟩ := h'.used x k' hk'
      rw [h.cfg] at r'
      exact ⟨k'', hk'', hR.trans r r'⟩

theorem Within.mono {R' : ConnRel} (hr : ∀ g k k', R g k k' → R' g k k') {s t : State} (h : Within R s t) :
    Within R' s t :=
  ⟨h.rest, h.traffic, h.unused, fun x k hk => (h.used x k hk).imp fun _ p => ⟨p.1, hr _ _ _ p.2⟩, h.wf⟩

theorem within_note (hR : ConnSteps R) (s : State) (c : PortCall) (a : PortAnswer) : Within R s (s.note c a) :=
  ⟨rfl, ⟨[.port c a], rfl, rfl, by simp [State.note, portEvents]⟩, fun _ h => h, fun _ k h => ⟨k, h, hR.refl _ k⟩,
    fun h => h⟩

theorem within_sleep (hR : ConnSteps R) (s : State) (ms : Nat) :
    Within R s { s with trace := .sleep ms :: s.trace } :=
  ⟨rfl, ⟨[.sleep ms], rfl, rfl, by simp [portEvents]⟩, fun _ h => h, fun _ k h => ⟨k, h, hR.refl _ k⟩, fun h => h⟩

theorem within_modConn (hR : ConnSteps R) (s : State) (c : Slot) (f : Conn → Conn)
    (hf : ∀ k, s.conn? c = some k → R s.cfg k (f k)) : Within R s (s.modConn c f) := by
  refine ⟨rfl, .refl s, ?_, ?_, fun w => twf_tmodify _ _ w⟩
  · intro x hx
    show tget (tmodify s.conns c.toNat f) x = none
    rw [tget_tmodify]
    split
    · rename_i e; rw [e, hx]; rfl
    · exact hx
  · intro x k hk
    show ∃ k', tget (tmodify s.conns c.toNat f) x = some k' ∧ _
    rw [tget_tmodify]
    split
    · rename_i e
      subst e
      exact ⟨f k, by rw [hk]; rfl, hf k hk⟩
    · exact ⟨k, hk, hR.refl _ k⟩

/-! ### What delivery and the base check do to a connection -/

/-- Only what a transport delivers, and the base cache: the fields CONNECT, OPEN, SETDT and STREAM set, `inbuf` and the
buffer lengths stay, and so do the bytes of `outbuf` past the response slot. -/
structure ConnQuiet (g : Config) (k k' : Conn) : Prop where
  desc : k'.desc = k.desc
  kind : k'.kind = k.kind
  owner : k'.owner = k.owner
  connected : k'.connected = k.connected
  devType : k'.devType = k.devType
  role : k'.role = k.role
  master : k'.master = k.master
  dstate : k'.dstate = k.dstate
  inbuf : k'.inbuf = k.inbuf
  outLen : k'.outbuf.len = k.outbuf.len
  outRest : ∀ x, 8 ≤ x → x < k.outbuf.len → mread k'.outbuf.mem x = mread k.outbuf.mem x
  outDefined : ∀ x, x < k.outbuf.len → mread k.outbuf.mem x ≠ none → mread k'.outbuf.mem x ≠ none
  legal : k.Legal g → k'.Legal g

theorem ConnQuiet.steps : ConnSteps ConnQuiet where
  refl _ _ := ⟨rfl, rfl, rfl, rfl, rfl, rfl, rfl, rfl, rfl, rfl, fun _ _ _ => rfl, fun _ _ h => h,
    fun h => h⟩
  trans h h' :=
    ⟨h'.desc.trans h.desc, h'.kind.trans h.kind, h'.owner.trans h.owner, h'.connected.trans h.connected,
      h'.devType.trans h.devType, h'.role.trans h.role, h'.master.trans h.master, h'.dstate.trans h.dstate,
      h'.inbuf.trans h.inbuf, h'.outLen.trans h.outLen,
      fun x a b => (h'.outRest x a (by rw [h.outLen]; exact b)).trans (h.outRest x a b),
      fun x a b => h'.outDefined x (by rw [h.outLen]; exact a) (h.outDefined x a b),
      fun l => h'.legal (h.legal l)⟩

/-- The frame of the transport operations. -/
abbrev Quiet : State → State → Prop := Within ConnQuiet

theorem Quiet.steps : Steps Quiet := Within.steps ConnQuiet.steps

theorem bufWrite_legal {g : Config} {kd : Kind} {b : Buf} (o : Nat) (bs : Bytes) (h : b.Legal g kd) :
    (bufWrite b o bs).Legal g kd where
  wf := bufWrite_wf o bs h.wf
  inside x hx := by
    have hx' : b.len ≤ x := hx
    rw [bufWrite_read, if_neg (by omega)]
  atLeast := h.atLeast
  atMost := h.atMost

theorem connQuiet_slot (g : Config) (k : Conn) (bs : Bytes) (hl : bs.length ≤ 8) : ConnQuiet g k (outbufWrite 0 bs k) :=
  ⟨rfl, rfl, rfl, rfl, rfl, rfl, rfl, rfl, rfl, rfl,
    fun x h8 hx => by
      show mread (bufWrite k.outbuf 0 bs).mem x = _
      rw [bufWrite_read, if_pos hx, if_neg (by omega)],
    fun x hx hd => by
      show mread (bufWrite k.outbuf 0 bs).mem x ≠ _
      rw [bufWrite_read, if_pos hx]
      split
      · rw [List.getElem?_eq_getElem (by omega)]; simp
      · exact hd,
    fun l => ⟨l.inbuf, bufWrite_legal 0 bs l.outbuf, l.base, l.cfgDepth, l.detDepth⟩⟩

theorem pageOf_low (a : Word) : (pageOf a).extractLsb' 0 16 = 0#16 := by
  apply BitVec.eq_of_getLsbD_eq
  intro i hi
  simp only [pageOf, BitVec.getLsbD_extractLsb', BitVec.getLsbD_and, hi, decide_true, Bool.true_and,
    Nat.zero_add, BitVec.getLsbD_zero]
  have : (0xFFFF0000#32).getLsbD i = false := by
    interval_cases i <;> rfl
  rw [this, Bool.and_false]

theorem connQuiet_base (g : Config) (k : Conn) (b : Option Word) (hb : ∀ v, b = some v → v.extractLsb' 0 16 = 0#16) :
    ConnQuiet g k { k with baseCache := b } :=
  ⟨rfl, rfl, rfl, rfl, rfl, rfl, rfl, rfl, rfl, rfl, fun _ _ _ => rfl,
    fun _ _ h => h, fun l => ⟨l.inbuf, l.outbuf, hb, l.cfgDepth, l.detDepth⟩⟩

theorem quiet_setBase (s : State) (c : Slot) (b : Option Word) (hb : ∀ v, b = some v → v.extractLsb' 0 16 = 0#16) :
    Quiet s (s.setBase c b) :=
  within_modConn ConnQuiet.steps s c _ fun k _ => connQuiet_base _ k b hb

theorem frame_bytes_length (f : Frame) : f.bytes.length = 8 := rfl

/-! ### The transport operations are quiet -/

theorem quiet_port {α : Type} (call : PortCall) (ans : Draw → PortAnswer) (val : Draw → α) :
    Keeps Quiet (portCall call ans val) :=
  keeps_portCall Quiet.steps (fun s c a => within_note ConnQuiet.steps s c a) call ans val

theorem quiet_sleep (ms : Nat) : Keeps Quiet (sleep ms) := fun s => within_sleep ConnQuiet.steps s ms

theorem quiet_spiWrite (p : Byte) (bs : Bytes) (e : Bool) : Keeps Quiet (spiWrite p bs e) := quiet_port _ _ _

theorem quiet_spiRead (p : Byte) (n : Nat) (e : Bool) : Keeps Quiet (spiRead p n e) := fun s => quiet_port _ _ _ s

theorem quiet_mbSend (p : Byte) (bs : Bytes) : Keeps Quiet (mbSend p bs) := quiet_port _ _ _

theorem quiet_mbRecv (p : Byte) (n : Nat) : Keeps Quiet (mbRecv p n) := quiet_port _ _ _

theorem quiet_canRead (p : Byte) : Keeps Quiet (canRead p) := quiet_port _ _ _

theorem quiet_canWrite (p : Byte) (id : Word) (f : Frame) : Keeps Quiet (canWrite p id f) := quiet_port _ _ _

theorem quiet_raise {α : Type} (e : Err) : Keeps Quiet (raise e : Cmd α) := keeps_raise Quiet.steps e

theorem quiet_pure {α : Type} (a : α) : Keeps Quiet (pure a : Cmd α) := keeps_pure Quiet.steps a

theorem quiet_bind {α β : Type} {m : Cmd α} {f : α → Cmd β} (hm : Keeps Quiet m) (hf : ∀ a, Keeps Quiet (f a)) :
    Keeps Quiet (m >>= f) := keeps_bind Quiet.steps hm hf

theorem quiet_catchErr {α : Type} {m : Cmd α} {h : Err → Cmd α} (hm : Keeps Quiet m) (hh : ∀ e, Keeps Quiet (h e)) :
    Keeps Quiet (catchErr m h) := keeps_catchErr Quiet.steps hm hh

theorem quiet_orInvalidate {α : Type} {c : Slot} {m : Cmd α} (hm : Keeps Quiet m) : Keeps Quiet (orInvalidate c m) :=
  quiet_catchErr hm fun _ => quiet_bind (keeps_modify fun s => quiet_setBase s c none (by simp)) fun _ => quiet_raise _

/-- A frame is enqueued only while its FIFO has room (R147). -/
theorem quiet_classify (t : Slot) (id : Word) (f : Frame) : Keeps Quiet (classify t id f) := by
  intro s
  unfold classify
  by_cases h1 : allFf f = true
  · simp only [h1, if_true]; exact Quiet.steps.refl s
  · by_cases h2 : isConfigFrame (s.descOf t).can id f = true
    · by_cases h3 : s.cfg.fifoDepth ≤ (s.conn t).cfgFifo.length
      · simp only [h1, h2, h3, if_true]; exact Quiet.steps.refl s
      · simp only [h1, h2, h3, if_true]
        refine within_modConn ConnQuiet.steps s t _ fun k hk => ?_
        have hk' : s.conn t = k := by simp [State.conn, hk]
        rw [hk'] at h3
        exact ⟨rfl, rfl, rfl, rfl, rfl, rfl, rfl, rfl, rfl, rfl, fun _ _ _ => rfl,
          fun _ _ h => h, fun l => ⟨l.inbuf, l.outbuf, l.base, by simp; omega, l.detDepth⟩⟩
    · by_cases h3 : s.cfg.fifoDepth ≤ (s.conn t).detFifo.length
      · simp only [h1, h2, h3, if_true]; exact Quiet.steps.refl s
      · simp only [h1, h2, h3, if_false]
        refine within_modConn ConnQuiet.steps s t _ fun k hk => ?_
        have hk' : s.conn t = k := by simp [State.conn, hk]
        rw [hk'] at h3
        exact ⟨rfl, rfl, rfl, rfl, rfl, rfl, rfl, rfl, rfl, rfl, fun _ _ _ => rfl,
          fun _ _ h => h, fun l => ⟨l.inbuf, l.outbuf, l.base, l.cfgDepth, by simp; omega⟩⟩

theorem quiet_deliver (t : Slot) (id : Word) (f : Frame) : Keeps Quiet (deliver t id f) := by
  intro s
  unfold deliver
  cases (s.descOf t).can.proto with
  | universal => exact within_modConn ConnQuiet.steps s t _ fun k _ => connQuiet_slot _ k _ (by rw [frame_bytes_length])
  | direct => exact quiet_classify t id f s

theorem quiet_forward (q : Byte) (id : Word) (f : Frame) : Keeps Quiet (forward q id f) := by
  refine keeps_get_bind fun s => ?_
  split
  · exact quiet_raise _
  · exact quiet_bind (quiet_deliver _ _ _) fun _ => quiet_pure _

theorem quiet_routeRead (c : Slot) : Keeps Quiet (routeRead c) := by
  refine keeps_get_bind fun s => quiet_bind (quiet_canRead _) fun r => ?_
  split
  · exact quiet_pure _
  · refine keeps_ite (fun _ => quiet_raise _) fun _ => keeps_ite (fun _ => quiet_pure _) fun _ => ?_
    exact quiet_bind (quiet_forward _ _ _) fun _ => quiet_pure _

theorem quiet_sendFrame (c : Slot) (f : Frame) : Keeps Quiet (sendFrame c f) :=
  keeps_get_bind fun _ => quiet_canWrite _ _ _

theorem quiet_awaitFrame (c : Slot) (n : Nat) : Keeps Quiet (awaitFrame c n) := by
  induction n with
  | zero => exact quiet_bind (keeps_likelyDisconnected Quiet.steps) fun _ => quiet_raise _
  | succ n ih =>
    exact quiet_bind (quiet_routeRead c) fun r => keeps_ite (fun _ => quiet_pure _) fun _ =>
      quiet_bind (quiet_sleep _) fun _ => ih

theorem quiet_writeAttempts (c : Slot) (f : Frame) (n : Nat) : Keeps Quiet (writeAttempts c f n) := by
  induction n with
  | zero => exact quiet_raise _
  | succ n ih =>
    exact quiet_bind (quiet_sendFrame c f) fun _ => quiet_catchErr (quiet_awaitFrame c _) fun e =>
      keeps_ite (fun _ => ih) fun _ => quiet_raise _

theorem quiet_writeAndWait (c : Slot) (f : Frame) : Keeps Quiet (writeAndWait c f) := quiet_writeAttempts c f _

theorem quiet_crcLoop {α : Type} {att : Cmd (Except Err α)} (h : Keeps Quiet att) (spent : Err) (n : Nat) :
    Keeps Quiet (crcLoop att spent n) := by
  induction n with
  | zero => exact quiet_raise _
  | succ n ih =>
    refine quiet_bind h fun r => ?_
    cases r with
    | ok v => exact quiet_pure _
    | error e => exact keeps_ite (fun _ => quiet_raise _) fun _ => quiet_bind (quiet_sleep _) fun _ => ih

theorem quiet_withCrcRetry {α : Type} (n : Nat) {att : Bool → Cmd (Except Err α)} (h : ∀ b, Keeps Quiet (att b))
    (spent : Err) : Keeps Quiet (withCrcRetry n att spent) := by
  refine keeps_ite (fun _ => quiet_bind (h _) fun r => ?_) fun _ => quiet_crcLoop (h _) spent n
  cases r with
  | ok v => exact quiet_pure _
  | error e => exact quiet_raise _

theorem quiet_overChunks {f : Nat → Nat → Cmd Bytes} (h : ∀ a b, Keeps Quiet (f a b)) (l : List (Nat × Nat)) :
    Keeps Quiet (overChunks f l) := by
  induction l with
  | nil => exact quiet_pure _
  | cons e r ih => exact quiet_bind (h _ _) fun _ => quiet_bind ih fun _ => quiet_pure _

theorem quiet_spiReadAttempt (p op : Byte) (a : Word) (n : Nat) (chk : Bool) :
    Keeps Quiet (spiReadAttempt p op a n chk) :=
  keeps_get_bind fun _ => quiet_bind (quiet_spiWrite _ _ _) fun _ => quiet_bind (quiet_spiRead _ _ _) fun _ =>
    keeps_ite (fun _ => quiet_pure _) fun _ => quiet_pure _

theorem quiet_spiTRead {guard : Cmd Unit} (hg : Keeps Quiet guard) (p : Byte) (op : Opc) (a : Word) (n b : Nat) :
    Keeps Quiet (spiTRead guard p op a n b) :=
  quiet_bind hg fun _ => quiet_withCrcRetry _ (quiet_spiReadAttempt _ _ _ _) _

theorem quiet_txInfoResult (t : TxCodes) (chk : Bool) (code : Byte) (ca : Word) (m : Nat) :
    Keeps Quiet (txInfoResult t chk code ca m) := by
  unfold txInfoResult
  repeat' first
    | exact quiet_pure _
    | exact quiet_raise _
    | refine keeps_ite (fun _ => ?_) fun _ => ?_

theorem quiet_txInfo (p : Byte) (chk : Bool) (ca : Word) (m : Nat) : Keeps Quiet (txInfo p chk ca m) :=
  keeps_get_bind fun _ => quiet_bind (quiet_spiWrite _ _ _) fun _ => quiet_bind (quiet_spiRead _ _ _) fun _ =>
    keeps_ite (fun _ => quiet_pure _) fun _ => quiet_txInfoResult _ _ _ _ _

theorem quiet_spiWriteAttempt {guard : Cmd Unit} (hg : Keeps Quiet guard) (p op : Byte) (ca : Word) (d : Bytes)
    (chk : Bool) : Keeps Quiet (spiWriteAttempt guard p op ca d chk) :=
  quiet_bind (quiet_spiWrite _ _ _) fun _ => quiet_bind hg fun _ => quiet_txInfo _ _ _ _

theorem quiet_spiTWrite {guard : Cmd Unit} (hg : Keeps Quiet guard) (c : Slot) (p : Byte) (op : Opc) (a : Word)
    (n b : Nat) : Keeps Quiet (spiTWrite guard c p op a n b) :=
  quiet_bind (quiet_overChunks (fun _ _ => quiet_bind hg fun _ =>
    quiet_bind (keeps_inbufData Quiet.steps _ _ _) fun _ => quiet_withCrcRetry _ (quiet_spiWriteAttempt hg _ _ _ _) _) _)
    fun _ => quiet_pure _

theorem quiet_mbRound (p : Byte) (q : Bytes) (l : Nat) : Keeps Quiet (mbRound p q l) :=
  quiet_bind (quiet_mbSend _ _) fun _ => quiet_mbRecv _ _

theorem quiet_mbCheckAnswer (dev fc : Byte) (mlen : Nat) (ca : Word) (m : Nat) (chk : Bool) (a : Bytes) :
    Keeps Quiet (mbCheckAnswer dev fc mlen ca m chk a) := by
  unfold mbCheckAnswer
  repeat' first
    | exact quiet_pure _
    | exact quiet_raise _
    | refine keeps_ite (fun _ => ?_) fun _ => ?_

theorem quiet_mbAttempt (p dev fc : Byte) (q : Bytes) (mlen : Nat) (ca : Word) (m : Nat) (chk : Bool) :
    Keeps Quiet (mbAttempt p dev fc q mlen ca m chk) := by
  refine quiet_bind (keeps_attempt (quiet_mbRound _ _ _)) fun r => ?_
  cases r with
  | error e => exact keeps_ite (fun _ => quiet_pure _) fun _ => quiet_raise _
  | ok a => exact quiet_mbCheckAnswer _ _ _ _ _ _ _

theorem quiet_mbExchange (p dev fc : Byte) (q : Bytes) (mlen b : Nat) (ca : Word) (m : Nat) :
    Keeps Quiet (mbExchange p dev fc q mlen b ca m) := quiet_withCrcRetry _ (quiet_mbAttempt _ _ _ _ _ _ _) _

theorem quiet_mbTRead {guard : Cmd Unit} (hg : Keeps Quiet guard) (d : Desc) (op : Opc) (a : Word) (n b : Nat) :
    Keeps Quiet (mbTRead guard d op a n b) :=
  quiet_overChunks (fun _ _ => quiet_bind hg fun _ => quiet_mbExchange _ _ _ _ _ _ _ _) _

theorem quiet_mbTWrite {guard : Cmd Unit} (hg : Keeps Quiet guard) (c : Slot) (d : Desc) (op : Opc) (a : Word)
    (n b : Nat) : Keeps Quiet (mbTWrite guard c d op a n b) :=
  quiet_bind hg fun _ => quiet_bind (keeps_inbufData Quiet.steps _ _ _) fun _ =>
    quiet_bind (quiet_mbExchange _ _ _ _ _ _ _ _) fun _ => hg

theorem quiet_mbTOpcode (d : Desc) (op : Opc) (b : Nat) : Keeps Quiet (mbTOpcode d op b) :=
  quiet_bind (quiet_mbExchange _ _ _ _ _ _ _ _) fun _ => quiet_pure _

theorem quiet_slotPolls (c : Slot) (n : Nat) : Keeps Quiet (slotPolls c n) := by
  induction n with
  | zero => exact quiet_bind (keeps_likelyDisconnected Quiet.steps) fun _ => quiet_raise _
  | succ n ih =>
    refine keeps_get_bind fun s => ?_
    split
    · exact keeps_ite (fun _ => quiet_pure _) fun _ => quiet_bind (quiet_routeRead c) fun _ =>
        quiet_bind (quiet_sleep _) fun _ => ih
    · exact keeps_stopFault Quiet.steps _

theorem quiet_canuExchange (c : Slot) (f : Frame) : Keeps Quiet (canuExchange c f) :=
  quiet_bind (keeps_modify fun s => within_modConn ConnQuiet.steps s c _ fun k _ =>
    connQuiet_slot _ k _ (by simp [zeros])) fun _ =>
    quiet_bind (quiet_writeAndWait c f) fun _ => quiet_slotPolls c _

theorem quiet_baseCheck (c : Slot) (ca : Word) : Keeps Quiet (baseCheck c ca) := by
  refine keeps_get_bind fun s => keeps_ite (fun _ => quiet_pure _) fun _ => ?_
  refine quiet_bind (quiet_orInvalidate (quiet_canuExchange _ _)) fun _ => keeps_modify fun s => quiet_setBase s c _ ?_
  rintro v ⟨⟩; exact pageOf_low ca

theorem quiet_baseCheckIf (b : Bool) (c : Slot) (ca : Word) : Keeps Quiet (baseCheckIf b c ca) :=
  keeps_ite (fun _ => quiet_baseCheck c ca) fun _ => quiet_pure _

theorem quiet_canuTRead {guard : Cmd Unit} (hg : Keeps Quiet guard) (c : Slot) (op : Opc) (a : Word) (n : Nat) :
    Keeps Quiet (canuTRead guard c op a n) :=
  quiet_overChunks (fun _ _ => quiet_bind hg fun _ => keeps_get_bind fun _ => quiet_bind (quiet_baseCheckIf _ _ _) fun _ =>
    quiet_bind (quiet_canuExchange _ _) fun _ => quiet_pure _) _

theorem quiet_canuTWrite {guard : Cmd Unit} (hg : Keeps Quiet guard) (c : Slot) (op : Opc) (a : Word) (n : Nat) :
    Keeps Quiet (canuTWrite guard c op a n) :=
  quiet_bind (quiet_overChunks (fun _ _ => quiet_bind hg fun _ => keeps_get_bind fun _ =>
    quiet_bind (quiet_baseCheckIf _ _ _) fun _ => quiet_bind (keeps_inbufData Quiet.steps _ _ _) fun _ =>
    quiet_bind (quiet_canuExchange _ _) fun _ => quiet_bind hg fun _ => quiet_pure _) _) fun _ => quiet_pure _

theorem quiet_canuTOpcode (c : Slot) (op : Opc) : Keeps Quiet (canuTOpcode c op) :=
  quiet_bind (quiet_canuExchange _ _) fun _ => quiet_pure _

/-! ### The internal operations of the register engine are quiet -/

theorem quiet_tReadWith {guard : Cmd Unit} (hg : Keeps Quiet guard) (c : Slot) (op : Opc) (a : Word) (n b : Nat) :
    Keeps Quiet (tReadWith guard c op a n b) := by
  refine keeps_get_bind fun s => ?_
  cases (s.conn c).kind with
  | spi => exact quiet_spiTRead hg _ _ _ _ _
  | modbus => exact quiet_mbTRead hg _ _ _ _ _
  | can => exact quiet_canuTRead hg _ _ _ _

theorem quiet_getStatus (c : Slot) (b : Nat) : Keeps Quiet (getStatus c b) :=
  keeps_get_bind fun _ => quiet_bind (quiet_tReadWith (quiet_pure _) _ _ _ _ _) fun _ => quiet_pure _

theorem quiet_readyLoop (c : Slot) (b n : Nat) : Keeps Quiet (readyLoop c b n) := by
  induction n with
  | zero => exact quiet_bind (quiet_getStatus c b) fun _ => quiet_pure _
  | succ n ih =>
    exact quiet_bind (quiet_getStatus c b) fun _ => keeps_ite (fun _ => quiet_pure _) fun _ =>
      quiet_bind (quiet_sleep _) fun _ => ih

theorem quiet_readyPoll (c : Slot) (t b : Nat) : Keeps Quiet (readyPoll c t b) := quiet_readyLoop c b _

theorem quiet_readyGuard (c : Slot) (t b : Nat) : Keeps Quiet (readyGuard c t b) :=
  keeps_ite (fun _ => quiet_pure _) fun _ => quiet_bind (quiet_readyPoll c t b) fun _ =>
    keeps_ite (fun _ => quiet_pure _) fun _ => quiet_raise _

theorem quiet_tRead (c : Slot) (op : Opc) (a : Word) (n b t : Nat) : Keeps Quiet (tRead c op a n b t) :=
  quiet_tReadWith (quiet_readyGuard c t b) c op a n b

theorem quiet_tWrite (c : Slot) (op : Opc) (a : Word) (n b t : Nat) : Keeps Quiet (tWrite c op a n b t) := by
  refine keeps_get_bind fun s => ?_
  cases (s.conn c).kind with
  | spi => exact quiet_spiTWrite (quiet_readyGuard c t b) _ _ _ _ _ _
  | modbus => exact quiet_mbTWrite (quiet_readyGuard c t b) _ _ _ _ _ _
  | can => exact quiet_canuTWrite (quiet_readyGuard c t b) _ _ _ _

theorem quiet_tOpcode (c : Slot) (op : Opc) (b : Nat) : Keeps Quiet (tOpcode c op b) := by
  refine keeps_get_bind fun s => ?_
  cases (s.conn c).kind with
  | spi => exact quiet_spiWrite _ _ _
  | modbus => exact quiet_mbTOpcode _ _ _
  | can => exact quiet_canuTOpcode _ _

theorem quiet_setWriteEnable (c : Slot) (e : Bool) (b : Nat) : Keeps Quiet (setWriteEnable c e b) :=
  keeps_get_bind fun _ => quiet_bind (quiet_tOpcode _ _ _) fun _ => quiet_bind (quiet_getStatus _ _) fun _ =>
    keeps_ite (fun _ => quiet_pure _) fun _ => quiet_raise _

/-! ### The write sequence -/

/-- What a command may do to a connection it works on: its buffers' bytes, base cache and FIFOs. -/
structure ConnWork (g : Config) (k k' : Conn) : Prop where
  desc : k'.desc = k.desc
  kind : k'.kind = k.kind
  owner : k'.owner = k.owner
  connected : k'.connected = k.connected
  devType : k'.devType = k.devType
  role : k'.role = k.role
  master : k'.master = k.master
  dstate : k'.dstate = k.dstate
  inLen : k'.inbuf.len = k.inbuf.len
  outLen : k'.outbuf.len = k.outbuf.len
  outDefined : ∀ x, x < k.outbuf.len → mread k.outbuf.mem x ≠ none → mread k'.outbuf.mem x ≠ none
  legal : k.Legal g → k'.Legal g

theorem ConnWork.steps : ConnSteps ConnWork where
  refl _ _ := ⟨rfl, rfl, rfl, rfl, rfl, rfl, rfl, rfl, rfl, rfl, fun _ _ h => h, fun h => h⟩
  trans h h' :=
    ⟨h'.desc.trans h.desc, h'.kind.trans h.kind, h'.owner.trans h.owner, h'.connected.trans h.connected,
      h'.devType.trans h.devType, h'.role.trans h.role, h'.master.trans h.master, h'.dstate.trans h.dstate,
      h'.inLen.trans h.inLen, h'.outLen.trans h.outLen,
      fun x a b => h'.outDefined x (by rw [h.outLen]; exact a) (h.outDefined x a b), fun l => h'.legal (h.legal l)⟩

theorem ConnQuiet.work {g : Config} {k k' : Conn} (h : ConnQuiet g k k') : ConnWork g k k' :=
  ⟨h.desc, h.kind, h.owner, h.connected, h.devType, h.role, h.master, h.dstate, by rw [h.inbuf], h.outLen, h.outDefined, h.legal⟩

/-- The frame of a command that works on a connection. -/
abbrev Works : State → State → Prop := Within ConnWork

theorem Works.steps : Steps Works := Within.steps ConnWork.steps

theorem works_of_quiet {α : Type} {m : Cmd α} (h : Keeps Quiet m) : Keeps Works m :=
  h.mono fun _ _ q => q.mono fun _ _ _ r => r.work

theorem connWork_inbuf (g : Config) (k : Conn) (o : Nat) (bs : Bytes) : ConnWork g k (inbufWrite o bs k) :=
  ⟨rfl, rfl, rfl, rfl, rfl, rfl, rfl, rfl, rfl, rfl, fun _ _ h => h,
    fun l => ⟨bufWrite_legal o bs l.inbuf, l.outbuf, l.base, l.cfgDepth, l.detDepth⟩⟩

theorem connWork_outbuf (g : Config) (k : Conn) (o : Nat) (bs : Bytes) : ConnWork g k (outbufWrite o bs k) :=
  ⟨rfl, rfl, rfl, rfl, rfl, rfl, rfl, rfl, rfl, rfl,
    fun x hx hd => by
      show mread (bufWrite k.outbuf o bs).mem x ≠ _
      rw [bufWrite_read, if_pos hx]
      split
      · rw [List.getElem?_eq_getElem (by omega)]; simp
      · exact hd,
    fun l => ⟨l.inbuf, bufWrite_legal o bs l.outbuf, l.base, l.cfgDepth, l.detDepth⟩⟩

theorem works_writeSeq (c : Slot) (a : Word) (data : Bytes) (b t : Nat) : Keeps Works (writeSeq c a data b t) := by
  have hw := fun e => works_of_quiet (quiet_setWriteEnable c e b)
  refine keeps_bind Works.steps (hw true) fun _ => ?_
  refine keeps_bind Works.steps
    (keeps_modify fun s => within_modConn ConnWork.steps s c _ fun k _ => connWork_inbuf _ k 0 data) fun _ => ?_
  refine keeps_get_bind fun s => keeps_bind Works.steps (keeps_catchErr Works.steps ?_ fun e => ?_) fun _ => hw false
  · exact works_of_quiet (quiet_tWrite _ _ _ _ _ _)
  · exact keeps_bind Works.steps (hw false) fun _ => keeps_raise Works.steps _

end Sys2Proof.Machine
end

