-- ==== Sys2Proof/Laws/State.lean ====
section
/-! SUPPORT. The fields of the state after each update: one lemma per field per update. -/

namespace Sys2Proof.Machine

/-! ### `State.start` -/

@[simp] theorem State.start_cfg (s : State) (w : Word) : (s.start w).cfg = s.cfg := rfl
@[simp] theorem State.start_cmd (s : State) (w : Word) : (s.start w).cmd = w := rfl
@[simp] theorem State.start_arg0 (s : State) (w : Word) : (s.start w).arg0 = s.arg0 := rfl
@[simp] theorem State.start_arg1 (s : State) (w : Word) : (s.start w).arg1 = s.arg1 := rfl
@[simp] theorem State.start_arg2 (s : State) (w : Word) : (s.start w).arg2 = s.arg2 := rfl
@[simp] theorem State.start_arg3 (s : State) (w : Word) : (s.start w).arg3 = s.arg3 := rfl
@[simp] theorem State.start_status (s : State) (w : Word) : (s.start w).status = statusBusy := rfl
@[simp] theorem State.start_result0 (s : State) (w : Word) : (s.start w).result0 = 0#32 := rfl
@[simp] theorem State.start_result1 (s : State) (w : Word) : (s.start w).result1 = 0#32 := rfl
@[simp] theorem State.start_errAddr (s : State) (w : Word) : (s.start w).errAddr = 0#32 := rfl
@[simp] theorem State.start_errSize (s : State) (w : Word) : (s.start w).errSize = 0#32 := rfl
@[simp] theorem State.start_errInfo (s : State) (w : Word) : (s.start w).errInfo = 0#32 := rfl
@[simp] theorem State.start_stuck (s : State) (w : Word) : (s.start w).stuck = false := rfl
@[simp] theorem State.start_hbuf (s : State) (w : Word) : (s.start w).hbuf = s.hbuf := rfl
@[simp] theorem State.start_conns (s : State) (w : Word) : (s.start w).conns = s.conns := rfl
@[simp] theorem State.start_descs (s : State) (w : Word) : (s.start w).descs = s.descs := rfl
@[simp] theorem State.start_domains (s : State) (w : Word) : (s.start w).domains = s.domains := rfl
@[simp] theorem State.start_wire (s : State) (w : Word) : (s.start w).wire = s.wire := rfl
@[simp] theorem State.start_hostq (s : State) (w : Word) : (s.start w).hostq = s.hostq := rfl
@[simp] theorem State.start_readData (s : State) (w : Word) : (s.start w).readData = s.readData := rfl
@[simp] theorem State.start_oracle (s : State) (w : Word) : (s.start w).oracle = s.oracle := rfl
@[simp] theorem State.start_draws (s : State) (w : Word) : (s.start w).draws = s.draws := rfl
@[simp] theorem State.start_trace (s : State) (w : Word) : (s.start w).trace = s.trace := rfl

/-! ### `State.endOk` -/

@[simp] theorem State.endOk_cfg (s : State) (res : Bool) : (s.endOk res).cfg = s.cfg := rfl
@[simp] theorem State.endOk_cmd (s : State) (res : Bool) : (s.endOk res).cmd = s.cmd := rfl
@[simp] theorem State.endOk_arg0 (s : State) (res : Bool) : (s.endOk res).arg0 = s.arg0 := rfl
@[simp] theorem State.endOk_arg1 (s : State) (res : Bool) : (s.endOk res).arg1 = s.arg1 := rfl
@[simp] theorem State.endOk_arg2 (s : State) (res : Bool) : (s.endOk res).arg2 = s.arg2 := rfl
@[simp] theorem State.endOk_arg3 (s : State) (res : Bool) : (s.endOk res).arg3 = s.arg3 := rfl
@[simp] theorem State.endOk_status (s : State) (res : Bool) : (s.endOk res).status = statusOk res := rfl
@[simp] theorem State.endOk_result0 (s : State) (res : Bool) : (s.endOk res).result0 = s.result0 := rfl
@[simp] theorem State.endOk_result1 (s : State) (res : Bool) : (s.endOk res).result1 = s.result1 := rfl
@[simp] theorem State.endOk_errAddr (s : State) (res : Bool) : (s.endOk res).errAddr = s.errAddr := rfl
@[simp] theorem State.endOk_errSize (s : State) (res : Bool) : (s.endOk res).errSize = s.errSize := rfl
@[simp] theorem State.endOk_errInfo (s : State) (res : Bool) : (s.endOk res).errInfo = s.errInfo := rfl
@[simp] theorem State.endOk_stuck (s : State) (res : Bool) : (s.endOk res).stuck = s.stuck := rfl
@[simp] theorem State.endOk_hbuf (s : State) (res : Bool) : (s.endOk res).hbuf = s.hbuf := rfl
@[simp] theorem State.endOk_conns (s : State) (res : Bool) : (s.endOk res).conns = s.conns := rfl
@[simp] theorem State.endOk_descs (s : State) (res : Bool) : (s.endOk res).descs = s.descs := rfl
@[simp] theorem State.endOk_domains (s : State) (res : Bool) : (s.endOk res).domains = s.domains := rfl
@[simp] theorem State.endOk_wire (s : State) (res : Bool) : (s.endOk res).wire = s.wire := rfl
@[simp] theorem State.endOk_hostq (s : State) (res : Bool) : (s.endOk res).hostq = s.hostq := rfl
@[simp] theorem State.endOk_readData (s : State) (res : Bool) : (s.endOk res).readData = s.readData := rfl
@[simp] theorem State.endOk_oracle (s : State) (res : Bool) : (s.endOk res).oracle = s.oracle := rfl
@[simp] theorem State.endOk_draws (s : State) (res : Bool) : (s.endOk res).draws = s.draws := rfl
@[simp] theorem State.endOk_trace (s : State) (res : Bool) : (s.endOk res).trace = s.trace := rfl

/-! ### `State.endErr` -/

@[simp] theorem State.endErr_cfg (s : State) (e : Err) : (s.endErr e).cfg = s.cfg := rfl
@[simp] theorem State.endErr_cmd (s : State) (e : Err) : (s.endErr e).cmd = s.cmd := rfl
@[simp] theorem State.endErr_arg0 (s : State) (e : Err) : (s.endErr e).arg0 = s.arg0 := rfl
@[simp] theorem State.endErr_arg1 (s : State) (e : Err) : (s.endErr e).arg1 = s.arg1 := rfl
@[simp] theorem State.endErr_arg2 (s : State) (e : Err) : (s.endErr e).arg2 = s.arg2 := rfl
@[simp] theorem State.endErr_arg3 (s : State) (e : Err) : (s.endErr e).arg3 = s.arg3 := rfl
@[simp] theorem State.endErr_status (s : State) (e : Err) : (s.endErr e).status = statusError e := rfl
@[simp] theorem State.endErr_result0 (s : State) (e : Err) : (s.endErr e).result0 = s.result0 := rfl
@[simp] theorem State.endErr_result1 (s : State) (e : Err) : (s.endErr e).result1 = s.result1 := rfl
@[simp] theorem State.endErr_errAddr (s : State) (e : Err) : (s.endErr e).errAddr = e.addr := rfl
@[simp] theorem State.endErr_errSize (s : State) (e : Err) : (s.endErr e).errSize = e.size := rfl
@[simp] theorem State.endErr_errInfo (s : State) (e : Err) : (s.endErr e).errInfo = errInfoWord e := rfl
@[simp] theorem State.endErr_stuck (s : State) (e : Err) : (s.endErr e).stuck = s.stuck := rfl
@[simp] theorem State.endErr_hbuf (s : State) (e : Err) : (s.endErr e).hbuf = s.hbuf := rfl
@[simp] theorem State.endErr_conns (s : State) (e : Err) : (s.endErr e).conns = s.conns := rfl
@[simp] theorem State.endErr_descs (s : State) (e : Err) : (s.endErr e).descs = s.descs := rfl
@[simp] theorem State.endErr_domains (s : State) (e : Err) : (s.endErr e).domains = s.domains := rfl
@[simp] theorem State.endErr_wire (s : State) (e : Err) : (s.endErr e).wire = s.wire := rfl
@[simp] theorem State.endErr_hostq (s : State) (e : Err) : (s.endErr e).hostq = s.hostq := rfl
@[simp] theorem State.endErr_readData (s : State) (e : Err) : (s.endErr e).readData = s.readData := rfl
@[simp] theorem State.endErr_oracle (s : State) (e : Err) : (s.endErr e).oracle = s.oracle := rfl
@[simp] theorem State.endErr_draws (s : State) (e : Err) : (s.endErr e).draws = s.draws := rfl
@[simp] theorem State.endErr_trace (s : State) (e : Err) : (s.endErr e).trace = s.trace := rfl

/-! ### `State.hang` -/

@[simp] theorem State.hang_cfg (s : State) : s.hang.cfg = s.cfg := rfl
@[simp] theorem State.hang_cmd (s : State) : s.hang.cmd = s.cmd := rfl
@[simp] theorem State.hang_arg0 (s : State) : s.hang.arg0 = s.arg0 := rfl
@[simp] theorem State.hang_arg1 (s : State) : s.hang.arg1 = s.arg1 := rfl
@[simp] theorem State.hang_arg2 (s : State) : s.hang.arg2 = s.arg2 := rfl
@[simp] theorem State.hang_arg3 (s : State) : s.hang.arg3 = s.arg3 := rfl
@[simp] theorem State.hang_status (s : State) : s.hang.status = s.status := rfl
@[simp] theorem State.hang_result0 (s : State) : s.hang.result0 = s.result0 := rfl
@[simp] theorem State.hang_result1 (s : State) : s.hang.result1 = s.result1 := rfl
@[simp] theorem State.hang_errAddr (s : State) : s.hang.errAddr = s.errAddr := rfl
@[simp] theorem State.hang_errSize (s : State) : s.hang.errSize = s.errSize := rfl
@[simp] theorem State.hang_errInfo (s : State) : s.hang.errInfo = s.errInfo := rfl
@[simp] theorem State.hang_stuck (s : State) : s.hang.stuck = true := rfl
@[simp] theorem State.hang_hbuf (s : State) : s.hang.hbuf = s.hbuf := rfl
@[simp] theorem State.hang_conns (s : State) : s.hang.conns = s.conns := rfl
@[simp] theorem State.hang_descs (s : State) : s.hang.descs = s.descs := rfl
@[simp] theorem State.hang_domains (s : State) : s.hang.domains = s.domains := rfl
@[simp] theorem State.hang_wire (s : State) : s.hang.wire = s.wire := rfl
@[simp] theorem State.hang_hostq (s : State) : s.hang.hostq = s.hostq := rfl
@[simp] theorem State.hang_readData (s : State) : s.hang.readData = s.readData := rfl
@[simp] theorem State.hang_oracle (s : State) : s.hang.oracle = s.oracle := rfl
@[simp] theorem State.hang_draws (s : State) : s.hang.draws = s.draws := rfl
@[simp] theorem State.hang_trace (s : State) : s.hang.trace = s.trace := rfl

/-! ### `State.setConn` -/

@[simp] theorem State.setConn_cfg (s : State) (c : Slot) (k : Conn) : (s.setConn c k).cfg = s.cfg := rfl
@[simp] theorem State.setConn_cmd (s : State) (c : Slot) (k : Conn) : (s.setConn c k).cmd = s.cmd := rfl
@[simp] theorem State.setConn_arg0 (s : State) (c : Slot) (k : Conn) : (s.setConn c k).arg0 = s.arg0 := rfl
@[simp] theorem State.setConn_arg1 (s : State) (c : Slot) (k : Conn) : (s.setConn c k).arg1 = s.arg1 := rfl
@[simp] theorem State.setConn_arg2 (s : State) (c : Slot) (k : Conn) : (s.setConn c k).arg2 = s.arg2 := rfl
@[simp] theorem State.setConn_arg3 (s : State) (c : Slot) (k : Conn) : (s.setConn c k).arg3 = s.arg3 := rfl
@[simp] theorem State.setConn_status (s : State) (c : Slot) (k : Conn) : (s.setConn c k).status = s.status := rfl
@[simp] theorem State.setConn_result0 (s : State) (c : Slot) (k : Conn) : (s.setConn c k).result0 = s.result0 := rfl
@[simp] theorem State.setConn_result1 (s : State) (c : Slot) (k : Conn) : (s.setConn c k).result1 = s.result1 := rfl
@[simp] theorem State.setConn_errAddr (s : State) (c : Slot) (k : Conn) : (s.setConn c k).errAddr = s.errAddr := rfl
@[simp] theorem State.setConn_errSize (s : State) (c : Slot) (k : Conn) : (s.setConn c k).errSize = s.errSize := rfl
@[simp] theorem State.setConn_errInfo (s : State) (c : Slot) (k : Conn) : (s.setConn c k).errInfo = s.errInfo := rfl
@[simp] theorem State.setConn_stuck (s : State) (c : Slot) (k : Conn) : (s.setConn c k).stuck = s.stuck := rfl
@[simp] theorem State.setConn_hbuf (s : State) (c : Slot) (k : Conn) : (s.setConn c k).hbuf = s.hbuf := rfl
@[simp] theorem State.setConn_conns (s : State) (c : Slot) (k : Conn) : (s.setConn c k).conns = tset s.conns c.toNat k := rfl
@[simp] theorem State.setConn_descs (s : State) (c : Slot) (k : Conn) : (s.setConn c k).descs = s.descs := rfl
@[simp] theorem State.setConn_domains (s : State) (c : Slot) (k : Conn) : (s.setConn c k).domains = s.domains := rfl
@[simp] theorem State.setConn_wire (s : State) (c : Slot) (k : Conn) : (s.setConn c k).wire = s.wire := rfl
@[simp] theorem State.setConn_hostq (s : State) (c : Slot) (k : Conn) : (s.setConn c k).hostq = s.hostq := rfl
@[simp] theorem State.setConn_readData (s : State) (c : Slot) (k : Conn) : (s.setConn c k).readData = s.readData := rfl
@[simp] theorem State.setConn_oracle (s : State) (c : Slot) (k : Conn) : (s.setConn c k).oracle = s.oracle := rfl
@[simp] theorem State.setConn_draws (s : State) (c : Slot) (k : Conn) : (s.setConn c k).draws = s.draws := rfl
@[simp] theorem State.setConn_trace (s : State) (c : Slot) (k : Conn) : (s.setConn c k).trace = s.trace := rfl

/-! ### `State.modConn` -/

@[simp] theorem State.modConn_cfg (s : State) (c : Slot) (f : Conn → Conn) : (s.modConn c f).cfg = s.cfg := rfl
@[simp] theorem State.modConn_cmd (s : State) (c : Slot) (f : Conn → Conn) : (s.modConn c f).cmd = s.cmd := rfl
@[simp] theorem State.modConn_arg0 (s : State) (c : Slot) (f : Conn → Conn) : (s.modConn c f).arg0 = s.arg0 := rfl
@[simp] theorem State.modConn_arg1 (s : State) (c : Slot) (f : Conn → Conn) : (s.modConn c f).arg1 = s.arg1 := rfl
@[simp] theorem State.modConn_arg2 (s : State) (c : Slot) (f : Conn → Conn) : (s.modConn c f).arg2 = s.arg2 := rfl
@[simp] theorem State.modConn_arg3 (s : State) (c : Slot) (f : Conn → Conn) : (s.modConn c f).arg3 = s.arg3 := rfl
@[simp] theorem State.modConn_status (s : State) (c : Slot) (f : Conn → Conn) : (s.modConn c f).status = s.status := rfl
@[simp] theorem State.modConn_result0 (s : State) (c : Slot) (f : Conn → Conn) : (s.modConn c f).result0 = s.result0 := rfl
@[simp] theorem State.modConn_result1 (s : State) (c : Slot) (f : Conn → Conn) : (s.modConn c f).result1 = s.result1 := rfl
@[simp] theorem State.modConn_errAddr (s : State) (c : Slot) (f : Conn → Conn) : (s.modConn c f).errAddr = s.errAddr := rfl
@[simp] theorem State.modConn_errSize (s : State) (c : Slot) (f : Conn → Conn) : (s.modConn c f).errSize = s.errSize := rfl
@[simp] theorem State.modConn_errInfo (s : State) (c : Slot) (f : Conn → Conn) : (s.modConn c f).errInfo = s.errInfo := rfl
@[simp] theorem State.modConn_stuck (s : State) (c : Slot) (f : Conn → Conn) : (s.modConn c f).stuck = s.stuck := rfl
@[simp] theorem State.modConn_hbuf (s : State) (c : Slot) (f : Conn → Conn) : (s.modConn c f).hbuf = s.hbuf := rfl
@[simp] theorem State.modConn_conns (s : State) (c : Slot) (f : Conn → Conn) : (s.modConn c f).conns = tmodify s.conns c.toNat f := rfl
@[simp] theorem State.modConn_descs (s : State) (c : Slot) (f : Conn → Conn) : (s.modConn c f).descs = s.descs := rfl
@[simp] theorem State.modConn_domains (s : State) (c : Slot) (f : Conn → Conn) : (s.modConn c f).domains = s.domains := rfl
@[simp] theorem State.modConn_wire (s : State) (c : Slot) (f : Conn → Conn) : (s.modConn c f).wire = s.wire := rfl
@[simp] theorem State.modConn_hostq (s : State) (c : Slot) (f : Conn → Conn) : (s.modConn c f).hostq = s.hostq := rfl
@[simp] theorem State.modConn_readData (s : State) (c : Slot) (f : Conn → Conn) : (s.modConn c f).readData = s.readData := rfl
@[simp] theorem State.modConn_oracle (s : State) (c : Slot) (f : Conn → Conn) : (s.modConn c f).oracle = s.oracle := rfl
@[simp] theorem State.modConn_draws (s : State) (c : Slot) (f : Conn → Conn) : (s.modConn c f).draws = s.draws := rfl
@[simp] theorem State.modConn_trace (s : State) (c : Slot) (f : Conn → Conn) : (s.modConn c f).trace = s.trace := rfl

/-! ### `State.dropConn` -/

@[simp] theorem State.dropConn_cfg (s : State) (c : Slot) : (s.dropConn c).cfg = s.cfg := rfl
@[simp] theorem State.dropConn_cmd (s : State) (c : Slot) : (s.dropConn c).cmd = s.cmd := rfl
@[simp] theorem State.dropConn_arg0 (s : State) (c : Slot) : (s.dropConn c).arg0 = s.arg0 := rfl
@[simp] theorem State.dropConn_arg1 (s : State) (c : Slot) : (s.dropConn c).arg1 = s.arg1 := rfl
@[simp] theorem State.dropConn_arg2 (s : State) (c : Slot) : (s.dropConn c).arg2 = s.arg2 := rfl
@[simp] theorem State.dropConn_arg3 (s : State) (c : Slot) : (s.dropConn c).arg3 = s.arg3 := rfl
@[simp] theorem State.dropConn_status (s : State) (c : Slot) : (s.dropConn c).status = s.status := rfl
@[simp] theorem State.dropConn_result0 (s : State) (c : Slot) : (s.dropConn c).result0 = s.result0 := rfl
@[simp] theorem State.dropConn_result1 (s : State) (c : Slot) : (s.dropConn c).result1 = s.result1 := rfl
@[simp] theorem State.dropConn_errAddr (s : State) (c : Slot) : (s.dropConn c).errAddr = s.errAddr := rfl
@[simp] theorem State.dropConn_errSize (s : State) (c : Slot) : (s.dropConn c).errSize = s.errSize := rfl
@[simp] theorem State.dropConn_errInfo (s : State) (c : Slot) : (s.dropConn c).errInfo = s.errInfo := rfl
@[simp] theorem State.dropConn_stuck (s : State) (c : Slot) : (s.dropConn c).stuck = s.stuck := rfl
@[simp] theorem State.dropConn_hbuf (s : State) (c : Slot) : (s.dropConn c).hbuf = s.hbuf := rfl
@[simp] theorem State.dropConn_conns (s : State) (c : Slot) : (s.dropConn c).conns = terase s.conns c.toNat := rfl
@[simp] theorem State.dropConn_descs (s : State) (c : Slot) : (s.dropConn c).descs = s.descs := rfl
@[simp] theorem State.dropConn_domains (s : State) (c : Slot) : (s.dropConn c).domains = s.domains := rfl
@[simp] theorem State.dropConn_wire (s : State) (c : Slot) : (s.dropConn c).wire = s.wire := rfl
@[simp] theorem State.dropConn_hostq (s : State) (c : Slot) : (s.dropConn c).hostq = s.hostq := rfl
@[simp] theorem State.dropConn_readData (s : State) (c : Slot) : (s.dropConn c).readData = s.readData := rfl
@[simp] theorem State.dropConn_oracle (s : State) (c : Slot) : (s.dropConn c).oracle = s.oracle := rfl
@[simp] theorem State.dropConn_draws (s : State) (c : Slot) : (s.dropConn c).draws = s.draws := rfl
@[simp] theorem State.dropConn_trace (s : State) (c : Slot) : (s.dropConn c).trace = s.trace := rfl

/-! ### `State.modDesc` -/

@[simp] theorem State.modDesc_cfg (s : State) (d : Byte) (f : Desc → Desc) : (s.modDesc d f).cfg = s.cfg := rfl
@[simp] theorem State.modDesc_cmd (s : State) (d : Byte) (f : Desc → Desc) : (s.modDesc d f).cmd = s.cmd := rfl
@[simp] theorem State.modDesc_arg0 (s : State) (d : Byte) (f : Desc → Desc) : (s.modDesc d f).arg0 = s.arg0 := rfl
@[simp] theorem State.modDesc_arg1 (s : State) (d : Byte) (f : Desc → Desc) : (s.modDesc d f).arg1 = s.arg1 := rfl
@[simp] theorem State.modDesc_arg2 (s : State) (d : Byte) (f : Desc → Desc) : (s.modDesc d f).arg2 = s.arg2 := rfl
@[simp] theorem State.modDesc_arg3 (s : State) (d : Byte) (f : Desc → Desc) : (s.modDesc d f).arg3 = s.arg3 := rfl
@[simp] theorem State.modDesc_status (s : State) (d : Byte) (f : Desc → Desc) : (s.modDesc d f).status = s.status := rfl
@[simp] theorem State.modDesc_result0 (s : State) (d : Byte) (f : Desc → Desc) : (s.modDesc d f).result0 = s.result0 := rfl
@[simp] theorem State.modDesc_result1 (s : State) (d : Byte) (f : Desc → Desc) : (s.modDesc d f).result1 = s.result1 := rfl
@[simp] theorem State.modDesc_errAddr (s : State) (d : Byte) (f : Desc → Desc) : (s.modDesc d f).errAddr = s.errAddr := rfl
@[simp] theorem State.modDesc_errSize (s : State) (d : Byte) (f : Desc → Desc) : (s.modDesc d f).errSize = s.errSize := rfl
@[simp] theorem State.modDesc_errInfo (s : State) (d : Byte) (f : Desc → Desc) : (s.modDesc d f).errInfo = s.errInfo := rfl
@[simp] theorem State.modDesc_stuck (s : State) (d : Byte) (f : Desc → Desc) : (s.modDesc d f).stuck = s.stuck := rfl
@[simp] theorem State.modDesc_hbuf (s : State) (d : Byte) (f : Desc → Desc) : (s.modDesc d f).hbuf = s.hbuf := rfl
@[simp] theorem State.modDesc_conns (s : State) (d : Byte) (f : Desc → Desc) : (s.modDesc d f).conns = s.conns := rfl
@[simp] theorem State.modDesc_descs (s : State) (d : Byte) (f : Desc → Desc) : (s.modDesc d f).descs = s.descs.modify d.toNat f := rfl
@[simp] theorem State.modDesc_domains (s : State) (d : Byte) (f : Desc → Desc) : (s.modDesc d f).domains = s.domains := rfl
@[simp] theorem State.modDesc_wire (s : State) (d : Byte) (f : Desc → Desc) : (s.modDesc d f).wire = s.wire := rfl
@[simp] theorem State.modDesc_hostq (s : State) (d : Byte) (f : Desc → Desc) : (s.modDesc d f).hostq = s.hostq := rfl
@[simp] theorem State.modDesc_readData (s : State) (d : Byte) (f : Desc → Desc) : (s.modDesc d f).readData = s.readData := rfl
@[simp] theorem State.modDesc_oracle (s : State) (d : Byte) (f : Desc → Desc) : (s.modDesc d f).oracle = s.oracle := rfl
@[simp] theorem State.modDesc_draws (s : State) (d : Byte) (f : Desc → Desc) : (s.modDesc d f).draws = s.draws := rfl
@[simp] theorem State.modDesc_trace (s : State) (d : Byte) (f : Desc → Desc) : (s.modDesc d f).trace = s.trace := rfl

/-! ### `State.setDomain` -/

@[simp] theorem State.setDomain_cfg (s : State) (q : Byte) (d : Domain) : (s.setDomain q d).cfg = s.cfg := rfl
@[simp] theorem State.setDomain_cmd (s : State) (q : Byte) (d : Domain) : (s.setDomain q d).cmd = s.cmd := rfl
@[simp] theorem State.setDomain_arg0 (s : State) (q : Byte) (d : Domain) : (s.setDomain q d).arg0 = s.arg0 := rfl
@[simp] theorem State.setDomain_arg1 (s : State) (q : Byte) (d : Domain) : (s.setDomain q d).arg1 = s.arg1 := rfl
@[simp] theorem State.setDomain_arg2 (s : State) (q : Byte) (d : Domain) : (s.setDomain q d).arg2 = s.arg2 := rfl
@[simp] theorem State.setDomain_arg3 (s : State) (q : Byte) (d : Domain) : (s.setDomain q d).arg3 = s.arg3 := rfl
@[simp] theorem State.setDomain_status (s : State) (q : Byte) (d : Domain) : (s.setDomain q d).status = s.status := rfl
@[simp] theorem State.setDomain_result0 (s : State) (q : Byte) (d : Domain) : (s.setDomain q d).result0 = s.result0 := rfl
@[simp] theorem State.setDomain_result1 (s : State) (q : Byte) (d : Domain) : (s.setDomain q d).result1 = s.result1 := rfl
@[simp] theorem State.setDomain_errAddr (s : State) (q : Byte) (d : Domain) : (s.setDomain q d).errAddr = s.errAddr := rfl
@[simp] theorem State.setDomain_errSize (s : State) (q : Byte) (d : Domain) : (s.setDomain q d).errSize = s.errSize := rfl
@[simp] theorem State.setDomain_errInfo (s : State) (q : Byte) (d : Domain) : (s.setDomain q d).errInfo = s.errInfo := rfl
@[simp] theorem State.setDomain_stuck (s : State) (q : Byte) (d : Domain) : (s.setDomain q d).stuck = s.stuck := rfl
@[simp] theorem State.setDomain_hbuf (s : State) (q : Byte) (d : Domain) : (s.setDomain q d).hbuf = s.hbuf := rfl
@[simp] theorem State.setDomain_conns (s : State) (q : Byte) (d : Domain) : (s.setDomain q d).conns = s.conns := rfl
@[simp] theorem State.setDomain_descs (s : State) (q : Byte) (d : Domain) : (s.setDomain q d).descs = s.descs := rfl
@[simp] theorem State.setDomain_domains (s : State) (q : Byte) (d : Domain) : (s.setDomain q d).domains = if d = emptyDomain then terase s.domains q.toNat else tset s.domains q.toNat d := rfl
@[simp] theorem State.setDomain_wire (s : State) (q : Byte) (d : Domain) : (s.setDomain q d).wire = s.wire := rfl
@[simp] theorem State.setDomain_hostq (s : State) (q : Byte) (d : Domain) : (s.setDomain q d).hostq = s.hostq := rfl
@[simp] theorem State.setDomain_readData (s : State) (q : Byte) (d : Domain) : (s.setDomain q d).readData = s.readData := rfl
@[simp] theorem State.setDomain_oracle (s : State) (q : Byte) (d : Domain) : (s.setDomain q d).oracle = s.oracle := rfl
@[simp] theorem State.setDomain_draws (s : State) (q : Byte) (d : Domain) : (s.setDomain q d).draws = s.draws := rfl
@[simp] theorem State.setDomain_trace (s : State) (q : Byte) (d : Domain) : (s.setDomain q d).trace = s.trace := rfl

/-! ### `State.setHbuf` -/

@[simp] theorem State.setHbuf_cfg (s : State) (bs : Bytes) : (s.setHbuf bs).cfg = s.cfg := rfl
@[simp] theorem State.setHbuf_cmd (s : State) (bs : Bytes) : (s.setHbuf bs).cmd = s.cmd := rfl
@[simp] theorem State.setHbuf_arg0 (s : State) (bs : Bytes) : (s.setHbuf bs).arg0 = s.arg0 := rfl
@[simp] theorem State.setHbuf_arg1 (s : State) (bs : Bytes) : (s.setHbuf bs).arg1 = s.arg1 := rfl
@[simp] theorem State.setHbuf_arg2 (s : State) (bs : Bytes) : (s.setHbuf bs).arg2 = s.arg2 := rfl
@[simp] theorem State.setHbuf_arg3 (s : State) (bs : Bytes) : (s.setHbuf bs).arg3 = s.arg3 := rfl
@[simp] theorem State.setHbuf_status (s : State) (bs : Bytes) : (s.setHbuf bs).status = s.status := rfl
@[simp] theorem State.setHbuf_result0 (s : State) (bs : Bytes) : (s.setHbuf bs).result0 = s.result0 := rfl
@[simp] theorem State.setHbuf_result1 (s : State) (bs : Bytes) : (s.setHbuf bs).result1 = s.result1 := rfl
@[simp] theorem State.setHbuf_errAddr (s : State) (bs : Bytes) : (s.setHbuf bs).errAddr = s.errAddr := rfl
@[simp] theorem State.setHbuf_errSize (s : State) (bs : Bytes) : (s.setHbuf bs).errSize = s.errSize := rfl
@[simp] theorem State.setHbuf_errInfo (s : State) (bs : Bytes) : (s.setHbuf bs).errInfo = s.errInfo := rfl
@[simp] theorem State.setHbuf_stuck (s : State) (bs : Bytes) : (s.setHbuf bs).stuck = s.stuck := rfl
@[simp] theorem State.setHbuf_hbuf (s : State) (bs : Bytes) : (s.setHbuf bs).hbuf = mwriteBytes s.hbuf 0 bs := rfl
@[simp] theorem State.setHbuf_conns (s : State) (bs : Bytes) : (s.setHbuf bs).conns = s.conns := rfl
@[simp] theorem State.setHbuf_descs (s : State) (bs : Bytes) : (s.setHbuf bs).descs = s.descs := rfl
@[simp] theorem State.setHbuf_domains (s : State) (bs : Bytes) : (s.setHbuf bs).domains = s.domains := rfl
@[simp] theorem State.setHbuf_wire (s : State) (bs : Bytes) : (s.setHbuf bs).wire = s.wire := rfl
@[simp] theorem State.setHbuf_hostq (s : State) (bs : Bytes) : (s.setHbuf bs).hostq = s.hostq := rfl
@[simp] theorem State.setHbuf_readData (s : State) (bs : Bytes) : (s.setHbuf bs).readData = s.readData := rfl
@[simp] theorem State.setHbuf_oracle (s : State) (bs : Bytes) : (s.setHbuf bs).oracle = s.oracle := rfl
@[simp] theorem State.setHbuf_draws (s : State) (bs : Bytes) : (s.setHbuf bs).draws = s.draws := rfl
@[simp] theorem State.setHbuf_trace (s : State) (bs : Bytes) : (s.setHbuf bs).trace = s.trace := rfl

/-! ### `State.note` -/

@[simp] theorem State.note_cfg (s : State) (call : PortCall) (ans : PortAnswer) : (s.note call ans).cfg = s.cfg := rfl
@[simp] theorem State.note_cmd (s : State) (call : PortCall) (ans : PortAnswer) : (s.note call ans).cmd = s.cmd := rfl
@[simp] theorem State.note_arg0 (s : State) (call : PortCall) (ans : PortAnswer) : (s.note call ans).arg0 = s.arg0 := rfl
@[simp] theorem State.note_arg1 (s : State) (call : PortCall) (ans : PortAnswer) : (s.note call ans).arg1 = s.arg1 := rfl
@[simp] theorem State.note_arg2 (s : State) (call : PortCall) (ans : PortAnswer) : (s.note call ans).arg2 = s.arg2 := rfl
@[simp] theorem State.note_arg3 (s : State) (call : PortCall) (ans : PortAnswer) : (s.note call ans).arg3 = s.arg3 := rfl
@[simp] theorem State.note_status (s : State) (call : PortCall) (ans : PortAnswer) : (s.note call ans).status = s.status := rfl
@[simp] theorem State.note_result0 (s : State) (call : PortCall) (ans : PortAnswer) : (s.note call ans).result0 = s.result0 := rfl
@[simp] theorem State.note_result1 (s : State) (call : PortCall) (ans : PortAnswer) : (s.note call ans).result1 = s.result1 := rfl
@[simp] theorem State.note_errAddr (s : State) (call : PortCall) (ans : PortAnswer) : (s.note call ans).errAddr = s.errAddr := rfl
@[simp] theorem State.note_errSize (s : State) (call : PortCall) (ans : PortAnswer) : (s.note call ans).errSize = s.errSize := rfl
@[simp] theorem State.note_errInfo (s : State) (call : PortCall) (ans : PortAnswer) : (s.note call ans).errInfo = s.errInfo := rfl
@[simp] theorem State.note_stuck (s : State) (call : PortCall) (ans : PortAnswer) : (s.note call ans).stuck = s.stuck := rfl
@[simp] theorem State.note_hbuf (s : State) (call : PortCall) (ans : PortAnswer) : (s.note call ans).hbuf = s.hbuf := rfl
@[simp] theorem State.note_conns (s : State) (call : PortCall) (ans : PortAnswer) : (s.note call ans).conns = s.conns := rfl
@[simp] theorem State.note_descs (s : State) (call : PortCall) (ans : PortAnswer) : (s.note call ans).descs = s.descs := rfl
@[simp] theorem State.note_domains (s : State) (call : PortCall) (ans : PortAnswer) : (s.note call ans).domains = s.domains := rfl
@[simp] theorem State.note_wire (s : State) (call : PortCall) (ans : PortAnswer) : (s.note call ans).wire = s.wire := rfl
@[simp] theorem State.note_hostq (s : State) (call : PortCall) (ans : PortAnswer) : (s.note call ans).hostq = s.hostq := rfl
@[simp] theorem State.note_readData (s : State) (call : PortCall) (ans : PortAnswer) : (s.note call ans).readData = s.readData := rfl
@[simp] theorem State.note_oracle (s : State) (call : PortCall) (ans : PortAnswer) : (s.note call ans).oracle = s.oracle.tail := rfl
@[simp] theorem State.note_draws (s : State) (call : PortCall) (ans : PortAnswer) : (s.note call ans).draws = s.draws + 1 := rfl
@[simp] theorem State.note_trace (s : State) (call : PortCall) (ans : PortAnswer) : (s.note call ans).trace = .port call ans :: s.trace := rfl

/-! ### `State.showFrame` -/

@[simp] theorem State.showFrame_cfg (s : State) (e : Word × Frame) : (s.showFrame e).cfg = s.cfg := rfl
@[simp] theorem State.showFrame_cmd (s : State) (e : Word × Frame) : (s.showFrame e).cmd = s.cmd := rfl
@[simp] theorem State.showFrame_arg0 (s : State) (e : Word × Frame) : (s.showFrame e).arg0 = s.arg0 := rfl
@[simp] theorem State.showFrame_arg1 (s : State) (e : Word × Frame) : (s.showFrame e).arg1 = s.arg1 := rfl
@[simp] theorem State.showFrame_arg2 (s : State) (e : Word × Frame) : (s.showFrame e).arg2 = s.arg2 := rfl
@[simp] theorem State.showFrame_arg3 (s : State) (e : Word × Frame) : (s.showFrame e).arg3 = s.arg3 := rfl
@[simp] theorem State.showFrame_status (s : State) (e : Word × Frame) : (s.showFrame e).status = s.status := rfl
@[simp] theorem State.showFrame_result0 (s : State) (e : Word × Frame) : (s.showFrame e).result0 = e.1 := rfl
@[simp] theorem State.showFrame_result1 (s : State) (e : Word × Frame) : (s.showFrame e).result1 = s.result1 := rfl
@[simp] theorem State.showFrame_errAddr (s : State) (e : Word × Frame) : (s.showFrame e).errAddr = s.errAddr := rfl
@[simp] theorem State.showFrame_errSize (s : State) (e : Word × Frame) : (s.showFrame e).errSize = s.errSize := rfl
@[simp] theorem State.showFrame_errInfo (s : State) (e : Word × Frame) : (s.showFrame e).errInfo = s.errInfo := rfl
@[simp] theorem State.showFrame_stuck (s : State) (e : Word × Frame) : (s.showFrame e).stuck = s.stuck := rfl
@[simp] theorem State.showFrame_hbuf (s : State) (e : Word × Frame) : (s.showFrame e).hbuf = mwriteBytes s.hbuf 0 e.2.bytes := rfl
@[simp] theorem State.showFrame_conns (s : State) (e : Word × Frame) : (s.showFrame e).conns = s.conns := rfl
@[simp] theorem State.showFrame_descs (s : State) (e : Word × Frame) : (s.showFrame e).descs = s.descs := rfl
@[simp] theorem State.showFrame_domains (s : State) (e : Word × Frame) : (s.showFrame e).domains = s.domains := rfl
@[simp] theorem State.showFrame_wire (s : State) (e : Word × Frame) : (s.showFrame e).wire = s.wire := rfl
@[simp] theorem State.showFrame_hostq (s : State) (e : Word × Frame) : (s.showFrame e).hostq = s.hostq := rfl
@[simp] theorem State.showFrame_readData (s : State) (e : Word × Frame) : (s.showFrame e).readData = s.readData := rfl
@[simp] theorem State.showFrame_oracle (s : State) (e : Word × Frame) : (s.showFrame e).oracle = s.oracle := rfl
@[simp] theorem State.showFrame_draws (s : State) (e : Word × Frame) : (s.showFrame e).draws = s.draws := rfl
@[simp] theorem State.showFrame_trace (s : State) (e : Word × Frame) : (s.showFrame e).trace = s.trace := rfl

/-! ### `State.setBase` -/

@[simp] theorem State.setBase_cfg (s : State) (c : Slot) (b : Option Word) : (s.setBase c b).cfg = s.cfg := rfl
@[simp] theorem State.setBase_cmd (s : State) (c : Slot) (b : Option Word) : (s.setBase c b).cmd = s.cmd := rfl
@[simp] theorem State.setBase_arg0 (s : State) (c : Slot) (b : Option Word) : (s.setBase c b).arg0 = s.arg0 := rfl
@[simp] theorem State.setBase_arg1 (s : State) (c : Slot) (b : Option Word) : (s.setBase c b).arg1 = s.arg1 := rfl
@[simp] theorem State.setBase_arg2 (s : State) (c : Slot) (b : Option Word) : (s.setBase c b).arg2 = s.arg2 := rfl
@[simp] theorem State.setBase_arg3 (s : State) (c : Slot) (b : Option Word) : (s.setBase c b).arg3 = s.arg3 := rfl
@[simp] theorem State.setBase_status (s : State) (c : Slot) (b : Option Word) : (s.setBase c b).status = s.status := rfl
@[simp] theorem State.setBase_result0 (s : State) (c : Slot) (b : Option Word) : (s.setBase c b).result0 = s.result0 := rfl
@[simp] theorem State.setBase_result1 (s : State) (c : Slot) (b : Option Word) : (s.setBase c b).result1 = s.result1 := rfl
@[simp] theorem State.setBase_errAddr (s : State) (c : Slot) (b : Option Word) : (s.setBase c b).errAddr = s.errAddr := rfl
@[simp] theorem State.setBase_errSize (s : State) (c : Slot) (b : Option Word) : (s.setBase c b).errSize = s.errSize := rfl
@[simp] theorem State.setBase_errInfo (s : State) (c : Slot) (b : Option Word) : (s.setBase c b).errInfo = s.errInfo := rfl
@[simp] theorem State.setBase_stuck (s : State) (c : Slot) (b : Option Word) : (s.setBase c b).stuck = s.stuck := rfl
@[simp] theorem State.setBase_hbuf (s : State) (c : Slot) (b : Option Word) : (s.setBase c b).hbuf = s.hbuf := rfl
@[simp] theorem State.setBase_conns (s : State) (c : Slot) (b : Option Word) : (s.setBase c b).conns = tmodify s.conns c.toNat (fun k => { k with baseCache := b }) := rfl
@[simp] theorem State.setBase_descs (s : State) (c : Slot) (b : Option Word) : (s.setBase c b).descs = s.descs := rfl
@[simp] theorem State.setBase_domains (s : State) (c : Slot) (b : Option Word) : (s.setBase c b).domains = s.domains := rfl
@[simp] theorem State.setBase_wire (s : State) (c : Slot) (b : Option Word) : (s.setBase c b).wire = s.wire := rfl
@[simp] theorem State.setBase_hostq (s : State) (c : Slot) (b : Option Word) : (s.setBase c b).hostq = s.hostq := rfl
@[simp] theorem State.setBase_readData (s : State) (c : Slot) (b : Option Word) : (s.setBase c b).readData = s.readData := rfl
@[simp] theorem State.setBase_oracle (s : State) (c : Slot) (b : Option Word) : (s.setBase c b).oracle = s.oracle := rfl
@[simp] theorem State.setBase_draws (s : State) (c : Slot) (b : Option Word) : (s.setBase c b).draws = s.draws := rfl
@[simp] theorem State.setBase_trace (s : State) (c : Slot) (b : Option Word) : (s.setBase c b).trace = s.trace := rfl

/-! ### `State.fetched` -/

@[simp] theorem State.fetched_cfg (s : State) : (s.fetched).cfg = s.cfg := rfl
@[simp] theorem State.fetched_cmd (s : State) : (s.fetched).cmd = s.cmd := rfl
@[simp] theorem State.fetched_arg0 (s : State) : (s.fetched).arg0 = s.arg0 := rfl
@[simp] theorem State.fetched_arg1 (s : State) : (s.fetched).arg1 = s.arg1 := rfl
@[simp] theorem State.fetched_arg2 (s : State) : (s.fetched).arg2 = s.arg2 := rfl
@[simp] theorem State.fetched_arg3 (s : State) : (s.fetched).arg3 = s.arg3 := rfl
@[simp] theorem State.fetched_status (s : State) : (s.fetched).status = s.status := rfl
@[simp] theorem State.fetched_result0 (s : State) : (s.fetched).result0 = s.result0 := rfl
@[simp] theorem State.fetched_result1 (s : State) : (s.fetched).result1 = s.result1 := rfl
@[simp] theorem State.fetched_errAddr (s : State) : (s.fetched).errAddr = s.errAddr := rfl
@[simp] theorem State.fetched_errSize (s : State) : (s.fetched).errSize = s.errSize := rfl
@[simp] theorem State.fetched_errInfo (s : State) : (s.fetched).errInfo = s.errInfo := rfl
@[simp] theorem State.fetched_stuck (s : State) : (s.fetched).stuck = s.stuck := rfl
@[simp] theorem State.fetched_hbuf (s : State) : (s.fetched).hbuf = s.hbuf := rfl
@[simp] theorem State.fetched_conns (s : State) : (s.fetched).conns = s.conns := rfl
@[simp] theorem State.fetched_descs (s : State) : (s.fetched).descs = s.descs := rfl
@[simp] theorem State.fetched_domains (s : State) : (s.fetched).domains = s.domains := rfl
@[simp] theorem State.fetched_wire (s : State) : (s.fetched).wire = none := rfl
@[simp] theorem State.fetched_hostq (s : State) : (s.fetched).hostq = s.hostq := rfl
@[simp] theorem State.fetched_readData (s : State) : (s.fetched).readData = s.readData := rfl
@[simp] theorem State.fetched_oracle (s : State) : (s.fetched).oracle = s.oracle := rfl
@[simp] theorem State.fetched_draws (s : State) : (s.fetched).draws = s.draws := rfl
@[simp] theorem State.fetched_trace (s : State) : (s.fetched).trace = s.trace := rfl

/-! ### `State.nextHostItem` -/

@[simp] theorem State.nextHostItem_cfg (s : State) : (s.nextHostItem).cfg = s.cfg := rfl
@[simp] theorem State.nextHostItem_cmd (s : State) : (s.nextHostItem).cmd = s.cmd := rfl
@[simp] theorem State.nextHostItem_arg0 (s : State) : (s.nextHostItem).arg0 = s.arg0 := rfl
@[simp] theorem State.nextHostItem_arg1 (s : State) : (s.nextHostItem).arg1 = s.arg1 := rfl
@[simp] theorem State.nextHostItem_arg2 (s : State) : (s.nextHostItem).arg2 = s.arg2 := rfl
@[simp] theorem State.nextHostItem_arg3 (s : State) : (s.nextHostItem).arg3 = s.arg3 := rfl
@[simp] theorem State.nextHostItem_status (s : State) : (s.nextHostItem).status = s.status := rfl
@[simp] theorem State.nextHostItem_result0 (s : State) : (s.nextHostItem).result0 = s.result0 := rfl
@[simp] theorem State.nextHostItem_result1 (s : State) : (s.nextHostItem).result1 = s.result1 := rfl
@[simp] theorem State.nextHostItem_errAddr (s : State) : (s.nextHostItem).errAddr = s.errAddr := rfl
@[simp] theorem State.nextHostItem_errSize (s : State) : (s.nextHostItem).errSize = s.errSize := rfl
@[simp] theorem State.nextHostItem_errInfo (s : State) : (s.nextHostItem).errInfo = s.errInfo := rfl
@[simp] theorem State.nextHostItem_stuck (s : State) : (s.nextHostItem).stuck = s.stuck := rfl
@[simp] theorem State.nextHostItem_hbuf (s : State) : (s.nextHostItem).hbuf = s.hbuf := rfl
@[simp] theorem State.nextHostItem_conns (s : State) : (s.nextHostItem).conns = s.conns := rfl
@[simp] theorem State.nextHostItem_descs (s : State) : (s.nextHostItem).descs = s.descs := rfl
@[simp] theorem State.nextHostItem_domains (s : State) : (s.nextHostItem).domains = s.domains := rfl
@[simp] theorem State.nextHostItem_wire (s : State) : (s.nextHostItem).wire = s.wire := rfl
@[simp] theorem State.nextHostItem_hostq (s : State) : (s.nextHostItem).hostq = s.hostq.tail := rfl
@[simp] theorem State.nextHostItem_readData (s : State) : (s.nextHostItem).readData = s.readData := rfl
@[simp] theorem State.nextHostItem_oracle (s : State) : (s.nextHostItem).oracle = s.oracle := rfl
@[simp] theorem State.nextHostItem_draws (s : State) : (s.nextHostItem).draws = s.draws := rfl
@[simp] theorem State.nextHostItem_trace (s : State) : (s.nextHostItem).trace = s.trace := rfl

/-! ### The block reset and the state after reset -/

@[simp] theorem State.blockReset_cfg (s : State) : s.blockReset.cfg = s.cfg := rfl
@[simp] theorem State.blockReset_cmd (s : State) : s.blockReset.cmd = 0#32 := rfl
@[simp] theorem State.blockReset_arg0 (s : State) : s.blockReset.arg0 = 0#32 := rfl
@[simp] theorem State.blockReset_arg1 (s : State) : s.blockReset.arg1 = 0#32 := rfl
@[simp] theorem State.blockReset_arg2 (s : State) : s.blockReset.arg2 = 0#32 := rfl
@[simp] theorem State.blockReset_arg3 (s : State) : s.blockReset.arg3 = 0#32 := rfl
@[simp] theorem State.blockReset_status (s : State) : s.blockReset.status = 0#32 := rfl
@[simp] theorem State.blockReset_result0 (s : State) : s.blockReset.result0 = 0#32 := rfl
@[simp] theorem State.blockReset_result1 (s : State) : s.blockReset.result1 = 0#32 := rfl
@[simp] theorem State.blockReset_errAddr (s : State) : s.blockReset.errAddr = 0#32 := rfl
@[simp] theorem State.blockReset_errSize (s : State) : s.blockReset.errSize = 0#32 := rfl
@[simp] theorem State.blockReset_errInfo (s : State) : s.blockReset.errInfo = 0#32 := rfl
@[simp] theorem State.blockReset_stuck (s : State) : s.blockReset.stuck = false := rfl
@[simp] theorem State.blockReset_hbuf (s : State) : s.blockReset.hbuf = [] := rfl
@[simp] theorem State.blockReset_conns (s : State) : s.blockReset.conns = [] := rfl
@[simp] theorem State.blockReset_descs (s : State) : s.blockReset.descs = s.cfg.descs := rfl
@[simp] theorem State.blockReset_domains (s : State) : s.blockReset.domains = [] := rfl
@[simp] theorem State.blockReset_wire (s : State) : s.blockReset.wire = none := rfl
@[simp] theorem State.blockReset_hostq (s : State) : s.blockReset.hostq = s.hostq := rfl
@[simp] theorem State.blockReset_readData (s : State) : s.blockReset.readData = s.readData := rfl
@[simp] theorem State.blockReset_oracle (s : State) : s.blockReset.oracle = s.oracle := rfl
@[simp] theorem State.blockReset_draws (s : State) : s.blockReset.draws = s.draws := rfl
@[simp] theorem State.blockReset_trace (s : State) : s.blockReset.trace = s.trace := rfl

@[simp] theorem State.resetWith_cfg (g : Config) : (State.resetWith g).cfg = g := rfl
@[simp] theorem State.resetWith_cmd (g : Config) : (State.resetWith g).cmd = 0#32 := rfl
@[simp] theorem State.resetWith_arg0 (g : Config) : (State.resetWith g).arg0 = 0#32 := rfl
@[simp] theorem State.resetWith_arg1 (g : Config) : (State.resetWith g).arg1 = 0#32 := rfl
@[simp] theorem State.resetWith_arg2 (g : Config) : (State.resetWith g).arg2 = 0#32 := rfl
@[simp] theorem State.resetWith_arg3 (g : Config) : (State.resetWith g).arg3 = 0#32 := rfl
@[simp] theorem State.resetWith_status (g : Config) : (State.resetWith g).status = 0#32 := rfl
@[simp] theorem State.resetWith_result0 (g : Config) : (State.resetWith g).result0 = 0#32 := rfl
@[simp] theorem State.resetWith_result1 (g : Config) : (State.resetWith g).result1 = 0#32 := rfl
@[simp] theorem State.resetWith_errAddr (g : Config) : (State.resetWith g).errAddr = 0#32 := rfl
@[simp] theorem State.resetWith_errSize (g : Config) : (State.resetWith g).errSize = 0#32 := rfl
@[simp] theorem State.resetWith_errInfo (g : Config) : (State.resetWith g).errInfo = 0#32 := rfl
@[simp] theorem State.resetWith_stuck (g : Config) : (State.resetWith g).stuck = false := rfl
@[simp] theorem State.resetWith_hbuf (g : Config) : (State.resetWith g).hbuf = [] := rfl
@[simp] theorem State.resetWith_conns (g : Config) : (State.resetWith g).conns = [] := rfl
@[simp] theorem State.resetWith_descs (g : Config) : (State.resetWith g).descs = g.descs := rfl
@[simp] theorem State.resetWith_domains (g : Config) : (State.resetWith g).domains = [] := rfl
@[simp] theorem State.resetWith_wire (g : Config) : (State.resetWith g).wire = none := rfl
@[simp] theorem State.resetWith_hostq (g : Config) : (State.resetWith g).hostq = [] := rfl
@[simp] theorem State.resetWith_readData (g : Config) : (State.resetWith g).readData = 0#32 := rfl
@[simp] theorem State.resetWith_oracle (g : Config) : (State.resetWith g).oracle = [] := rfl
@[simp] theorem State.resetWith_draws (g : Config) : (State.resetWith g).draws = 0 := rfl
@[simp] theorem State.resetWith_trace (g : Config) : (State.resetWith g).trace = [] := rfl

/-! ### Connections, descriptors and domains after an update -/

theorem State.conn?_eq (s : State) (c : Slot) : s.conn? c = tget s.conns c.toNat := rfl

theorem State.conn?_setConn (s : State) (c x : Slot) (k : Conn) :
    (s.setConn c k).conn? x = if c = x then some k else s.conn? x := by
  simp [State.conn?, tget_tset, BitVec.toNat_inj]

theorem State.conn?_modConn (s : State) (c x : Slot) (f : Conn → Conn) :
    (s.modConn c f).conn? x = if c = x then (s.conn? c).map f else s.conn? x := by
  simp [State.conn?, tget_tmodify, BitVec.toNat_inj]

theorem State.conn?_dropConn (s : State) (c x : Slot) :
    (s.dropConn c).conn? x = if c = x then none else s.conn? x := by
  simp [State.conn?, tget_terase, BitVec.toNat_inj]

theorem State.conn_of_some {s : State} {c : Slot} {k : Conn} (h : s.conn? c = some k) : s.conn c = k := by
  simp [State.conn, h]

theorem State.domain_setDomain (s : State) (q x : Byte) (d : Domain) :
    (s.setDomain q d).domain x = if q = x then d else s.domain x := by
  unfold State.domain
  simp only [State.setDomain_domains]
  by_cases hd : d = emptyDomain
  · rw [if_pos hd, tget_terase]
    by_cases h : q = x
    · simp [h, hd]
    · have : q.toNat ≠ x.toNat := fun e => h (BitVec.eq_of_toNat_eq e)
      simp [h, this]
  · rw [if_neg hd, tget_tset]
    by_cases h : q = x
    · simp [h]
    · have : q.toNat ≠ x.toNat := fun e => h (BitVec.eq_of_toNat_eq e)
      simp [h, this]

end Sys2Proof.Machine
end

