-- ==== Sys2Proof/Laws/Values.lean ====
section
/-! SUPPORT. The two ends of a command, and the lengths of what the read operations answer. -/

namespace Sys2Proof.Machine

/-! ### The ends -/

/-- `t` is where a command that stopped short by `x` in `u` is left: the completion of R160, or stuck (R187). -/
def Left (u : State) (x : Stop) (t : State) : Prop := (∃ e, x = .err e ∧ t = u.endErr e) ∨ (x = .stuck ∧ t = u.hang)

/-- `t` is `u` with the report of an error, or stuck. -/
def Broken (u t : State) : Prop := (∃ e, t = u.endErr e) ∨ t = u.hang

/-- `t` is `u` where a command ended, or stuck. -/
def Ended (u t : State) : Prop := (∃ r, t = u.endOk r) ∨ Broken u t

theorem Left.broken {u t : State} {x : Stop} (h : Left u x t) : Broken u t :=
  h.imp (fun ⟨e, _, he⟩ => ⟨e, he⟩) And.right

theorem left_err {u t : State} {e : Err} (h : Left u (.err e) t) : t = u.endErr e := by
  rcases h with ⟨e', h1, h2⟩ | ⟨h1, -⟩
  · cases h1; exact h2
  · cases h1

theorem left_stuck {u t : State} (h : Left u .stuck t) : t = u.hang := by
  rcases h with ⟨e', h1, -⟩ | ⟨-, h2⟩
  · cases h1
  · exact h2

theorem not_left_fault {u t : State} {f : Fault} : ¬Left u (.fault f) t := by
  rintro (⟨e, h, -⟩ | ⟨h, -⟩) <;> cases h

theorem endErr_broken (u : State) (e : Err) : Broken u (u.endErr e) := .inl ⟨e, rfl⟩

/-- A command with a next state ends in R161, or stops short. -/
theorem endCmd_next {m : Cmd Bool} {s t : State} (h : endCmd m s = .next t) :
    (∃ r u, m s = .ok r u ∧ t = u.endOk r) ∨ (∃ x u, m s = .error x u ∧ Left u x t) := by
  unfold endCmd at h
  split at h
  · rename_i r u hm; cases h; exact .inl ⟨r, u, hm, rfl⟩
  · rename_i e u hm; cases h; exact .inr ⟨_, u, hm, .inl ⟨e, rfl, rfl⟩⟩
  · cases h
  · rename_i u hm; cases h; exact .inr ⟨_, u, hm, .inr ⟨rfl, rfl⟩⟩

theorem endCmd_ok {m : Cmd Bool} {s u : State} {r : Bool} (h : m s = .ok r u) : endCmd m s = .next (u.endOk r) := by
  unfold endCmd; rw [h]

theorem endCmd_err {m : Cmd Bool} {s u : State} {e : Err} (h : m s = .error (.err e) u) :
    endCmd m s = .next (u.endErr e) := by
  unfold endCmd; rw [h]

theorem endCmd_stuck {m : Cmd Bool} {s u : State} (h : m s = .error .stuck u) : endCmd m s = .next u.hang := by
  unfold endCmd; rw [h]

theorem endCmd_left {m : Cmd Bool} {s u : State} {x : Stop} (h : m s = .error x u) (hf : ∀ f, x ≠ .fault f) :
    ∃ t, endCmd m s = .next t ∧ Left u x t := by
  cases x with
  | err e => exact ⟨_, endCmd_err h, .inl ⟨e, rfl, rfl⟩⟩
  | fault f => exact absurd rfl (hf f)
  | stuck => exact ⟨_, endCmd_stuck h, .inr ⟨rfl, rfl⟩⟩

theorem endCmd_fault {m : Cmd Bool} {s u : State} {f : Fault} (h : m s = .error (.fault f) u) :
    endCmd m s = .fault f := by
  unfold endCmd; rw [h]

/-- A local command always ends, in R161 or in R160. -/
theorem endLocal_next {m : Local Bool} {s t : State} (h : endLocal m s = .next t) :
    (∃ r u, m s = .ok r u ∧ t = u.endOk r) ∨ (∃ e u, m s = .error e u ∧ t = u.endErr e) := by
  unfold endLocal finishLocal at h
  split at h
  · rename_i r u hm; cases h; exact .inl ⟨r, u, hm, rfl⟩
  · rename_i e u hm; cases h; exact .inr ⟨e, u, hm, rfl⟩

/-- A relation every run of a command keeps, and its two ends keep, is kept from start to end. -/
theorem endCmd_keeps {R : State → State → Prop} (hR : Steps R) (hok : ∀ s r, R s (s.endOk r))
    (herr : ∀ s e, R s (s.endErr e)) (hst : ∀ s, R s s.hang) {m : Cmd Bool} (hm : Keeps R m) {s t : State} (h : endCmd m s = .next t) :
    R s t := by
  rcases endCmd_next h with ⟨r, u, hu, rfl⟩ | ⟨x, u, hu, ⟨e, -, rfl⟩ | ⟨-, rfl⟩⟩
  · exact hR.trans (hm.ok hu) (hok u r)
  · exact hR.trans (hm.error hu) (herr u e)
  · exact hR.trans (hm.error hu) (hst u)

/-! ### Lengths of answers -/

/-- Every value of `m` satisfies `P`. -/
def Answers {α : Type} (P : α → Prop) (m : Cmd α) : Prop := ∀ s a t, m s = .ok a t → P a

variable {α β : Type}

theorem answers_bind {P : β → Prop} {m : Cmd α} {f : α → Cmd β} (h : ∀ a, Answers P (f a)) : Answers P (m >>= f) := by
  intro s b t e
  obtain ⟨a, u, -, h2⟩ := cmd_bind_eq_ok e
  exact h a u b t h2

theorem answers_bind_with {Q : α → Prop} {P : β → Prop} {m : Cmd α} {f : α → Cmd β} (hm : Answers Q m)
    (h : ∀ a, Q a → Answers P (f a)) : Answers P (m >>= f) := by
  intro s b t e
  obtain ⟨a, u, h1, h2⟩ := cmd_bind_eq_ok e
  exact h a (hm s a u h1) u b t h2

theorem answers_pure {P : α → Prop} {a : α} (h : P a) : Answers P (pure a) := by
  rintro s b t ⟨⟩; exact h

theorem answers_raise {P : α → Prop} (e : Err) : Answers P (raise e) := by
  rintro s b t ⟨⟩

theorem answers_ite {p : Prop} [Decidable p] {P : α → Prop} {m m' : Cmd α} (h : Answers P m) (h' : Answers P m') :
    Answers P (if p then m else m') := by
  split
  · exact h
  · exact h'

theorem answers_crcLoop {P : α → Prop} {att : Cmd (Except Err α)} (h : Answers (fun r => ∀ v, r = .ok v → P v) att)
    (spent : Err) (n : Nat) : Answers P (crcLoop att spent n) := by
  induction n with
  | zero => exact answers_raise _
  | succ n ih =>
    refine answers_bind_with h fun r hr => ?_
    cases r with
    | ok v => exact answers_pure (hr v rfl)
    | error e => exact answers_ite (answers_raise _) (answers_bind fun _ => ih)

theorem answers_withCrcRetry {P : α → Prop} (n : Nat) {att : Bool → Cmd (Except Err α)}
    (h : ∀ b, Answers (fun r => ∀ v, r = .ok v → P v) (att b)) (spent : Err) :
    Answers P (withCrcRetry n att spent) := by
  refine answers_ite (answers_bind_with (h false) fun r hr => ?_) (answers_crcLoop (h true) spent n)
  cases r with
  | ok v => exact answers_pure (hr v rfl)
  | error e => exact answers_raise _

theorem answers_spiRead (p : Byte) (n : Nat) (e : Bool) : Answers (fun r => r.length = n) (spiRead p n e) := by
  intro s a t h
  unfold spiRead portCall at h
  cases hd : s.nextDraw with
  | none => rw [hd] at h; cases h
  | some d =>
    rw [hd] at h
    cases hf : d.fate with
    | returns => simp only [hf] at h; cases h; simp [spiAnswer]
    | notConnected => simp only [hf] at h; cases h
    | timeout f => simp only [hf] at h; cases h

theorem answers_spiTRead (guard : Cmd Unit) (p : Byte) (op : Opc) (a : Word) (n b : Nat) :
    Answers (fun r => r.length = n) (spiTRead guard p op a n b) := by
  refine answers_bind fun _ => answers_withCrcRetry _ (fun chk => ?_) _
  refine answers_bind fun _ => answers_bind fun _ => answers_bind_with (answers_spiRead _ _ _) fun r hr => ?_
  refine answers_ite (answers_pure (by simp)) (answers_pure ?_)
  rintro v ⟨⟩; simp [hr]

theorem answers_mbExchange (p dev fc : Byte) (q : Bytes) (mlen b : Nat) (ca : Word) (m : Nat) :
    Answers (fun r => r.length = mlen) (mbExchange p dev fc q mlen b ca m) := by
  refine answers_withCrcRetry _ (fun chk => ?_) _
  refine answers_bind fun r => ?_
  cases r with
  | error e => exact answers_ite (answers_pure (by simp)) (answers_raise _)
  | ok a =>
    show Answers _ (mbCheckAnswer dev fc mlen ca m chk a)
    unfold mbCheckAnswer
    by_cases hl : a.length ≠ mlen + 4
    · rw [if_pos hl]; exact answers_ite (answers_pure (by simp)) (answers_raise _)
    · rw [if_neg hl]
      refine answers_ite (answers_pure (by simp)) (answers_ite (answers_raise _) (answers_pure ?_))
      rintro v ⟨⟩
      simp; omega

/-- The chunks of a transfer cover no more than its bytes. -/
theorem chunksFrom_sum (p fuel off n : Nat) : ((chunksFrom p fuel off n).map Prod.snd).sum ≤ n - off := by
  induction fuel generalizing off with
  | zero => simp [chunksFrom]
  | succ f ih =>
    simp only [chunksFrom]
    split
    · simp
    · simp only [List.map_cons, List.sum_cons]
      have := ih (off + p)
      have h2 : min p (n - off) ≤ p := Nat.min_le_left _ _
      have h3 : min p (n - off) ≤ n - off := Nat.min_le_right _ _
      omega

/-- With a chunk size above 0 they cover all of them. -/
theorem chunksFrom_sum_eq {p fuel off n : Nat} (hp : 0 < p) (hf : n - off ≤ fuel) :
    ((chunksFrom p fuel off n).map Prod.snd).sum = n - off := by
  induction fuel generalizing off with
  | zero => simp [chunksFrom]; omega
  | succ f ih =>
    simp only [chunksFrom]
    split
    · simp; omega
    · simp only [List.map_cons, List.sum_cons]
      rw [ih (by omega)]
      rcases Nat.le_total p (n - off) with h | h
      · rw [Nat.min_eq_left h]; omega
      · rw [Nat.min_eq_right h]; omega

theorem chunksFrom_inside {p fuel off n : Nat} {e : Nat × Nat} (h : e ∈ chunksFrom p fuel off n) :
    e.1 + e.2 ≤ n ∧ e.2 ≤ p ∧ off ≤ e.1 := by
  induction fuel generalizing off with
  | zero => simp [chunksFrom] at h
  | succ f ih =>
    simp only [chunksFrom] at h
    split at h
    · simp at h
    · rcases List.mem_cons.1 h with rfl | h
      · refine ⟨?_, Nat.min_le_left _ _, Nat.le_refl _⟩
        show off + min p (n - off) ≤ n
        have : min p (n - off) ≤ n - off := Nat.min_le_right _ _
        omega
      · have := ih h
        exact ⟨this.1, this.2.1, by omega⟩

theorem chunks_sum (p n : Nat) : ((chunks p n).map Prod.snd).sum ≤ n := by
  have := chunksFrom_sum p n 0 n; simpa [chunks] using this

theorem chunks_inside {p n : Nat} {e : Nat × Nat} (h : e ∈ chunks p n) : e.1 + e.2 ≤ n ∧ e.2 ≤ p :=
  let ⟨a, b, _⟩ := chunksFrom_inside h
  ⟨a, b⟩

theorem answers_overChunks {f : Nat → Nat → Cmd Bytes} {l : List (Nat × Nat)}
    (h : ∀ e ∈ l, Answers (fun r => r.length = e.2) (f e.1 e.2)) :
    Answers (fun r => r.length = (l.map Prod.snd).sum) (overChunks f l) := by
  induction l with
  | nil => exact answers_pure rfl
  | cons e r ih =>
    refine answers_bind_with (h e (by simp)) fun d hd => ?_
    refine answers_bind_with (ih fun x hx => h x (List.mem_cons_of_mem _ hx)) fun d' hd' => answers_pure ?_
    simp [hd, hd']

theorem answers_slotPolls (c : Slot) (n : Nat) : Answers (fun r => r.length = 8) (slotPolls c n) := by
  induction n with
  | zero => exact answers_bind fun _ => answers_raise _
  | succ n ih =>
    intro s a t h
    obtain ⟨s0, u, h1, h⟩ := cmd_bind_eq_ok h
    cases h1
    cases hm : mreadBytes (s.conn c).outbuf.mem 0 8 with
    | none => rw [hm] at h; cases h
    | some r =>
      rw [hm] at h
      simp only at h
      split at h
      · cases h; exact (mreadBytes_eq_some.1 hm).1
      · exact answers_bind (fun _ => answers_bind fun _ => ih) _ _ _ h

theorem answers_canuExchange (c : Slot) (f : Frame) : Answers (fun r => r.length = 8) (canuExchange c f) :=
  answers_bind fun _ => answers_bind fun _ => answers_slotPolls c _

/-- A read answers at most the bytes it was asked for. -/
theorem answers_tReadWith (guard : Cmd Unit) (c : Slot) (op : Opc) (a : Word) (n b : Nat) :
    Answers (fun r => r.length ≤ n) (tReadWith guard c op a n b) := by
  intro s r t h
  obtain ⟨s0, u, h1, h⟩ := cmd_bind_eq_ok h
  cases h1
  cases hk : (s.conn c).kind with
  | spi => rw [hk] at h; exact (answers_spiTRead _ _ _ _ _ _ _ _ _ h).le
  | modbus =>
    rw [hk] at h
    have : r.length = _ := answers_overChunks (fun e _ => answers_bind fun _ => answers_mbExchange _ _ _ _ _ _ _ _) _ _ _ h
    have := chunks_sum (s.descOf c).mb.page.toNat n
    omega
  | can =>
    rw [hk] at h
    have : r.length = _ := answers_overChunks (fun e he => answers_bind fun _ => answers_bind fun _ => answers_bind fun _ =>
      answers_bind_with (answers_canuExchange _ _) fun r hr => answers_pure (by
        have := (chunks_inside he).2
        have hc : canChunk = 4 := rfl
        simp [hr]; omega)) _ _ _ h
    have := chunks_sum canChunk n
    omega

theorem answers_tRead (c : Slot) (op : Opc) (a : Word) (n b t : Nat) :
    Answers (fun r => r.length ≤ n) (tRead c op a n b t) := answers_tReadWith _ _ _ _ _ _

end Sys2Proof.Machine
end

