-- ==== Sys2Proof/Laws/Calls.lean ====
section
/-! SUPPORT. Port calls with known answers: what one call does, and where the answers and the fields of a state are after
some events. -/

namespace Sys2Proof.Machine

theorem nextDraw_eq_draw (s : State) : s.nextDraw = s.draw 0 := by
  unfold State.nextDraw State.draw
  cases s.oracle <;> rfl

@[simp] theorem draw_note (s : State) (c : PortCall) (a : PortAnswer) (i : Nat) : (s.note c a).draw i = s.draw (i + 1) := by
  unfold State.draw State.note
  have h : s.draws + 1 + i = s.draws + (i + 1) := by omega
  cases s.oracle <;> simp [h]

theorem draw_congr {s t : State} (ho : t.oracle = s.oracle) (hd : t.draws = s.draws) (i : Nat) : t.draw i = s.draw i := by
  unfold State.draw; rw [ho, hd]

/-- One port call with a known answer. -/
theorem portCall_run {α : Type} {s : State} {d : Draw} (h : s.draw 0 = some d) (call : PortCall) (ans : Draw → PortAnswer)
    (val : Draw → α) :
    portCall call ans val s = match d.fate with
      | .returns => .ok (val d) (s.note call (ans d))
      | .notConnected => .error (.err .notConnectedDriver) (s.note call .notConnected)
      | .timeout f => .error (.err (.timeoutTransport f)) (s.note call (.timeout f)) := by
  unfold portCall
  rw [nextDraw_eq_draw]
  cases h2 : d.fate <;> simp [h, h2]

theorem portCall_returns {α : Type} {s : State} {d : Draw} (h : s.returns 0 d) (call : PortCall)
    (ans : Draw → PortAnswer) (val : Draw → α) : portCall call ans val s = .ok (val d) (s.note call (ans d)) := by
  simp only [portCall_run h.1, h.2]

@[simp] theorem afterEvents_nil (s : State) : s.afterEvents [] = s := rfl

theorem afterEvents_append (s : State) (a b : List Event) : s.afterEvents (a ++ b) = (s.afterEvents a).afterEvents b := by
  induction a generalizing s with
  | nil => rfl
  | cons e r ih => cases e <;> exact ih _

/-- Events change the trace, the answers left and the count of calls, and nothing else. -/
theorem afterEvents_eq (s : State) (es : List Event) :
    s.afterEvents es = { s with
      trace := es.reverse ++ s.trace, oracle := s.oracle.drop (portEvents es), draws := s.draws + portEvents es } := by
  induction es generalizing s with
  | nil => rfl
  | cons e r ih =>
    cases e with
    | port c a =>
      rw [show s.afterEvents (.port c a :: r) = (s.note c a).afterEvents r from rfl, ih]
      have h1 : List.drop (portEvents r) s.oracle.tail = List.drop (portEvents r + 1) s.oracle := by simp
      simp [State.note, portEvents, h1]
      omega
    | sleep m =>
      rw [show s.afterEvents (.sleep m :: r) = { s with trace := .sleep m :: s.trace }.afterEvents r from rfl, ih]
      simp [portEvents]

@[simp] theorem draw_afterEvents (s : State) (es : List Event) (i : Nat) :
    (s.afterEvents es).draw i = s.draw (portEvents es + i) := by
  rw [afterEvents_eq]
  unfold State.draw
  simp [List.getD_eq_getElem?_getD, Nat.add_assoc]

@[simp] theorem afterEvents_cfg (s : State) (es : List Event) : (s.afterEvents es).cfg = s.cfg := by rw [afterEvents_eq]
@[simp] theorem afterEvents_conns (s : State) (es : List Event) : (s.afterEvents es).conns = s.conns := by rw [afterEvents_eq]
@[simp] theorem afterEvents_descs (s : State) (es : List Event) : (s.afterEvents es).descs = s.descs := by rw [afterEvents_eq]
@[simp] theorem afterEvents_domains (s : State) (es : List Event) : (s.afterEvents es).domains = s.domains := by
  rw [afterEvents_eq]
@[simp] theorem afterEvents_hbuf (s : State) (es : List Event) : (s.afterEvents es).hbuf = s.hbuf := by rw [afterEvents_eq]
@[simp] theorem afterEvents_draws (s : State) (es : List Event) : (s.afterEvents es).draws = s.draws + portEvents es := by
  rw [afterEvents_eq]
@[simp] theorem afterEvents_conn? (s : State) (es : List Event) (c : Slot) : (s.afterEvents es).conn? c = s.conn? c := by
  unfold State.conn?; rw [afterEvents_conns]
@[simp] theorem afterEvents_conn (s : State) (es : List Event) (c : Slot) : (s.afterEvents es).conn c = s.conn c := by
  unfold State.conn; rw [afterEvents_conn?]
@[simp] theorem afterEvents_descOf (s : State) (es : List Event) (c : Slot) : (s.afterEvents es).descOf c = s.descOf c := by
  unfold State.descOf State.descAt; rw [afterEvents_conn, afterEvents_descs]
@[simp] theorem afterEvents_domain (s : State) (es : List Event) (q : Byte) : (s.afterEvents es).domain q = s.domain q := by
  unfold State.domain; rw [afterEvents_domains]

/-- Changing a connection and events on the trace do not touch each other. -/
theorem afterEvents_modConn (s : State) (es : List Event) (c : Slot) (f : Conn → Conn) :
    (s.modConn c f).afterEvents es = (s.afterEvents es).modConn c f := by
  rw [afterEvents_eq, afterEvents_eq]; rfl

end Sys2Proof.Machine
end

