-- ==== Sys2Proof/Laws/Commands.lean ====
section
/-! SUPPORT. One lemma per command: every way it can end, the state it leaves in terms of `Quiet` or `Works`, and the
runs of the operations it is made of. -/

namespace Sys2Proof.Machine

/-! ### The common checks -/

theorem enter_run (w : Bool) (c : Slot) (f : Conn → Desc → Bool) (tr : Bool) (s : State) :
    enter w c f tr s = match s.commandError w c f tr with
      | none => .ok () s
      | some e => .error (.err e) s := by
  unfold enter
  cases s.commandError w c f tr <;> rfl

theorem enterLocal_run (w : Bool) (c : Slot) (f : Conn → Desc → Bool) (s : State) :
    enterLocal w c f s = match s.commandError w c f false with
      | none => .ok () s
      | some e => .error e s := by
  unfold enterLocal
  cases s.commandError w c f false <;> rfl

/-- A command behind the common checks ends with their first error, the state otherwise as it was, or passes them. -/
theorem endCmd_enter {w : Bool} {c : Slot} {f : Conn → Desc → Bool} {tr : Bool} {g : Unit → Cmd Bool} {s t : State}
    (h : endCmd (enter w c f tr >>= g) s = .next t) :
    (∃ e, s.commandError w c f tr = some e ∧ t = s.endErr e)
      ∨ (s.commandError w c f tr = none ∧ endCmd (g ()) s = .next t) := by
  cases hc : s.commandError w c f tr with
  | none =>
    refine .inr ⟨rfl, ?_⟩
    have : (enter w c f tr >>= g) s = g () s := cmd_bind_ok (by rw [enter_run, hc])
    rw [endCmd, this] at h
    exact h
  | some e =>
    have : (enter w c f tr >>= g) s = .error (.err e) s := cmd_bind_error (by rw [enter_run, hc])
    rw [endCmd_err this] at h
    exact .inl ⟨e, rfl, by cases h; rfl⟩

theorem endCmd_enter_error {w : Bool} {c : Slot} {f : Conn → Desc → Bool} {tr : Bool} {g : Unit → Cmd Bool} {s : State}
    {e : Err} (h : s.commandError w c f tr = some e) : endCmd (enter w c f tr >>= g) s = .next (s.endErr e) :=
  endCmd_err (cmd_bind_error (by rw [enter_run, h]))

theorem endCmd_enter_none {w : Bool} {c : Slot} {f : Conn → Desc → Bool} {tr : Bool} {g : Unit → Cmd Bool} {s : State}
    (h : s.commandError w c f tr = none) : endCmd (enter w c f tr >>= g) s = endCmd (g ()) s := by
  have : (enter w c f tr >>= g) s = g () s := cmd_bind_ok (by rw [enter_run, h])
  rw [endCmd, this]; rfl

theorem endLocal_enter_error {w : Bool} {c : Slot} {f : Conn → Desc → Bool} {g : Unit → Local Bool} {s : State}
    {e : Err} (h : s.commandError w c f false = some e) :
    endLocal (enterLocal w c f >>= g) s = .next (s.endErr e) := by
  unfold endLocal finishLocal
  rw [local_bind, enterLocal_run, h]

theorem endLocal_enter_none {w : Bool} {c : Slot} {f : Conn → Desc → Bool} {g : Unit → Local Bool} {s : State}
    (h : s.commandError w c f false = none) : endLocal (enterLocal w c f >>= g) s = endLocal (g ()) s := by
  unfold endLocal finishLocal
  rw [local_bind, enterLocal_run, h]

/-- A command whose slot is admitted passes the common checks. -/
theorem commandError_of_admits {s : State} {c : Slot} {f : Conn → Desc → Bool} {tr : Bool} (h : s.admits c f tr) :
    s.commandError true c f tr = none := by
  obtain ⟨h1, h2, h3, h4⟩ := h
  obtain ⟨k, hk⟩ := Option.isSome_iff_exists.mp h2
  have hc : s.conn c = k := State.conn_of_some hk
  simp only [State.descOf, hc] at h3 h4
  have hr : tr = true → s.reaches k = true := by
    intro ht
    obtain ⟨h5, h6⟩ := h4 ht
    unfold State.reaches
    by_cases hs : k.role = .slave
    · simp [h5, h6 hs]
    · simp [h5, hs]
  unfold State.commandError
  cases tr <;> simp_all [Nat.not_le.mpr h1]

/-- The connection a command that passed its checks acts on. -/
theorem commandError_none {s : State} {w : Bool} {c : Slot} {f : Conn → Desc → Bool} {tr : Bool}
    (h : s.commandError w c f tr = none) :
    ∃ k, s.conn? c = some k ∧ s.conn c = k ∧ w = true ∧ c.toNat < s.cfg.nConn ∧ f k (s.descAt k.desc) = true
      ∧ (tr = true → s.reaches k = true) := by
  unfold State.commandError at h
  split at h
  · cases h
  · rename_i hw
    cases hk : s.conn? c with
    | none => simp only [hk] at h; cases h
    | some k =>
      simp only [hk] at h
      split at h
      · cases h
      · rename_i hn
        split at h
        · cases h
        · rename_i hf
          split at h
          · cases h
          · rename_i ht
            refine ⟨k, rfl, by simp [State.conn, hk], by simpa using hw, by omega, by simpa using hf, fun e => ?_⟩
            subst e
            simpa using ht

/-! ### Commands whose work is quiet -/

theorem quietEnd {m : Cmd Bool} (hm : Keeps Quiet m) {s t : State} (h : endCmd m s = .next t) :
    ∃ u, Quiet s u ∧ Ended u t := by
  rcases endCmd_next h with ⟨r, u, hu, rfl⟩ | ⟨x, u, hu, hl⟩
  · exact ⟨u, hm.ok hu, .inl ⟨r, rfl⟩⟩
  · exact ⟨u, hm.error hu, .inr hl.broken⟩

theorem worksEnd {m : Cmd Bool} (hm : Keeps Works m) {s t : State} (h : endCmd m s = .next t) :
    ∃ u, Works s u ∧ Ended u t := by
  rcases endCmd_next h with ⟨r, u, hu, rfl⟩ | ⟨x, u, hu, hl⟩
  · exact ⟨u, hm.ok hu, .inl ⟨r, rfl⟩⟩
  · exact ⟨u, hm.error hu, .inr hl.broken⟩

theorem quiet_enter (w : Bool) (c : Slot) (f : Conn → Desc → Bool) (tr : Bool) : Keeps Quiet (enter w c f tr) :=
  fun s => keeps_check Quiet.steps (s.commandError w c f tr) s

theorem quiet_checkAccess (c : Slot) (w : Bool) (a : Word) (n : Nat) : Keeps Quiet (checkAccess c w a n) :=
  fun s => keeps_check Quiet.steps (s.accessError c w a n) s

theorem quiet_hbufData (n : Nat) : Keeps Quiet (hbufData n) := keeps_hbufData Quiet.steps n

theorem execIsready_end {c : Slot} {s t : State} (h : execIsready c s = .next t) : ∃ u, Quiet s u ∧ Ended u t :=
  quietEnd (quiet_bind (quiet_enter _ _ _ _) fun _ => quiet_readyPoll _ _ _) h

theorem execSetwe_end {c : Slot} {e : Bool} {s t : State} (h : execSetwe c e s = .next t) :
    ∃ u, Quiet s u ∧ Ended u t :=
  quietEnd (quiet_bind (quiet_enter _ _ _ _) fun _ => quiet_bind (quiet_setWriteEnable _ _ _) fun _ => quiet_pure _) h

theorem execReset_end {c : Slot} {b : Bool} {s t : State} (h : execReset c b s = .next t) :
    ∃ u, Quiet s u ∧ Ended u t := by
  refine quietEnd (quiet_bind (quiet_enter _ _ _ _) fun _ => quiet_bind (quiet_orInvalidate (keeps_get_bind fun s => ?_)) fun _ =>
    quiet_bind (keeps_modify fun s => quiet_setBase s c none (by simp)) fun _ => quiet_pure _) h
  split
  · exact quiet_raise _
  · exact quiet_tOpcode _ _ _

theorem execCansend_end {c : Slot} {s t : State} (h : execCansend c s = .next t) : ∃ u, Quiet s u ∧ Ended u t :=
  quietEnd (quiet_bind (quiet_enter _ _ _ _) fun _ => quiet_bind (quiet_hbufData _) fun _ =>
    quiet_bind (quiet_sendFrame _ _) fun _ => quiet_pure _) h

theorem execCansendw_end {c : Slot} {s t : State} (h : execCansendw c s = .next t) : ∃ u, Quiet s u ∧ Ended u t :=
  quietEnd (quiet_bind (quiet_enter _ _ _ _) fun _ => quiet_bind (quiet_hbufData _) fun _ =>
    quiet_bind (quiet_writeAndWait _ _) fun _ => quiet_pure _) h

theorem execRdcfg_end {c : Slot} {s t : State} (h : execRdcfg c s = .next t) : ∃ u, Quiet s u ∧ Ended u t := by
  refine quietEnd (quiet_bind (quiet_enter _ _ _ _) fun _ => ?_) h
  refine keeps_ite (fun _ => ?_) fun _ => keeps_get_bind fun _ => quiet_pure _
  exact quiet_bind (quiet_routeRead _) fun _ => keeps_get_bind fun _ => quiet_pure _

theorem execRddet_end {c : Slot} {s t : State} (h : execRddet c s = .next t) : ∃ u, Quiet s u ∧ Ended u t := by
  refine quietEnd (quiet_bind (quiet_enter _ _ _ _) fun _ => ?_) h
  refine keeps_ite (fun _ => ?_) fun _ => keeps_get_bind fun _ => quiet_pure _
  exact quiet_bind (quiet_routeRead _) fun _ => keeps_get_bind fun _ => quiet_pure _

/-! ### Commands that end by writing what they found -/

/-- A command that works and then writes a result: its work stops short, or the result is written. -/
theorem coreEnd {α : Type} {R : State → State → Prop} {core : Cmd α} {g : α → State → State} {r : α → Bool}
    (hc : Keeps R core) {s t : State}
    (h : endCmd (core >>= fun a => modify (g a) >>= fun _ => pure (r a)) s = .next t) :
    (∃ x u, core s = .error x u ∧ R s u ∧ Left u x t)
      ∨ ∃ a u, core s = .ok a u ∧ R s u ∧ t = (g a u).endOk (r a) := by
  rcases endCmd_next h with ⟨b, u, hu, rfl⟩ | ⟨x, u, hu, hl⟩
  · obtain ⟨a, v, h1, h2⟩ := cmd_bind_eq_ok hu
    cases h2
    exact .inr ⟨a, v, h1, hc.ok h1, rfl⟩
  · rcases cmd_bind_eq_error hu with h1 | ⟨a, v, h1, h2⟩
    · exact .inl ⟨x, u, h1, hc.error h1, hl⟩
    · cases h2

/-- No change at all. -/
theorem same_steps : Steps (fun s t : State => s = t) := ⟨fun _ => rfl, fun h h' => h.trans h'⟩

theorem same_checkAccess (c : Slot) (w : Bool) (a : Word) (n : Nat) :
    Keeps (fun s t : State => s = t) (checkAccess c w a n) := fun s => keeps_check same_steps (s.accessError c w a n) s

theorem same_crcData (l : Word) : Keeps (fun s t : State => s = t) (crcData l) :=
  keeps_get_bind fun _ => keeps_bind same_steps (keeps_check same_steps _) fun _ => keeps_hbufData same_steps _

theorem execCrcchk_end {s t : State} (h : execCrcchk s = .next t) : Ended s t := by
  have hk : Keeps (fun s t : State => s = t) (do
      check (if fits16 s.arg1 then none else some .reservedBits)
      let bs ← crcData s.arg0
      pure (crc16 bs == op16 s.arg1) : Cmd Bool) :=
    keeps_bind same_steps (keeps_check same_steps _) fun _ => keeps_bind same_steps (same_crcData _) fun _ =>
      keeps_pure same_steps _
  rcases endCmd_next h with ⟨r, u, hu, rfl⟩ | ⟨x, u, hu, hl⟩
  · rw [hk.ok hu]; exact .inl ⟨r, rfl⟩
  · rw [hk.error hu]; exact .inr hl.broken

theorem execCrc16_end {s t : State} (h : execCrc16 s = .next t) :
    Broken s t
      ∨ ∃ bs, mreadBytes s.hbuf 0 s.arg0.toNat = some bs
          ∧ t = { s with result0 := (crc16 bs).setWidth 32 }.endOk false := by
  rcases coreEnd (same_crcData s.arg0) h with ⟨x, u, -, rfl, hl⟩ | ⟨bs, u, h1, rfl, rfl⟩
  · exact .inl hl.broken
  · refine .inr ⟨bs, ?_, rfl⟩
    obtain ⟨_, u1, h2, h3⟩ := cmd_bind_eq_ok h1
    cases h2
    obtain ⟨_, u2, h4, h5⟩ := cmd_bind_eq_ok h3
    unfold hbufData at h5
    have : s = u2 := (keeps_check same_steps _).ok h4
    subst this
    cases hm : mreadBytes s.hbuf 0 s.arg0.toNat with
    | none => rw [hm] at h5; cases h5
    | some b => rw [hm] at h5; cases h5; rfl

theorem execGetsr_end {c : Slot} {s t : State} (h : execGetsr c s = .next t) :
    (∃ u, Quiet s u ∧ Broken u t)
      ∨ ∃ (b : Byte) (u : State), getStatus c s.arg2.toNat s = .ok b u ∧ Quiet s u
          ∧ t = { u with result0 := b.setWidth 32 }.endOk false := by
  rcases endCmd_enter h with ⟨e, -, rfl⟩ | ⟨-, h⟩
  · exact .inl ⟨s, Quiet.steps.refl s, endErr_broken s e⟩
  · rcases coreEnd (quiet_getStatus c _) h with ⟨x, u, -, hq, hl⟩ | ⟨b, u, h1, hq, rfl⟩
    · exact .inl ⟨u, hq, hl.broken⟩
    · exact .inr ⟨b, u, h1, hq, rfl⟩

theorem execCanrd_end {c : Slot} {s t : State} (h : execCanrd c s = .next t) :
    (∃ u, Quiet s u ∧ Broken u t)
      ∨ ∃ (r : Bool × Word) (u : State), routeRead c s = .ok r u ∧ Quiet s u
          ∧ t = { u with result0 := r.2 }.endOk r.1 := by
  rcases endCmd_enter h with ⟨e, -, rfl⟩ | ⟨-, h⟩
  · exact .inl ⟨s, Quiet.steps.refl s, endErr_broken s e⟩
  · rcases coreEnd (quiet_routeRead c) h with ⟨x, u, -, hq, hl⟩ | ⟨b, u, h1, hq, rfl⟩
    · exact .inl ⟨u, hq, hl.broken⟩
    · exact .inr ⟨b, u, h1, hq, rfl⟩

/-- The state after a register read delivered its data (R111). -/
def State.delivered (s : State) (c : Slot) (data : Bytes) : State :=
  (if (s.conn c).kind ≠ .can then s.modConn c (outbufWrite 0 data) else s).setHbuf data

theorem execRdreg_end {c : Slot} {s t : State} (h : execRdreg c s = .next t) :
    (∃ u, Quiet s u ∧ Broken u t)
      ∨ ∃ (data : Bytes) (u : State), s.accessError c false s.arg0 s.arg1.toNat = none
          ∧ tRead c s.cfg.opcRegmapRead s.arg0 s.arg1.toNat s.arg2.toNat s.arg3.toNat s = .ok data u ∧ Quiet s u
          ∧ data.length ≤ s.arg1.toNat ∧ t = (u.delivered c data).endOk false := by
  rcases endCmd_enter h with ⟨e, -, rfl⟩ | ⟨-, h⟩
  · exact .inl ⟨s, Quiet.steps.refl s, endErr_broken s e⟩
  · rcases endCmd_next h with ⟨r, u, hu, rfl⟩ | ⟨x, u, hu, hl⟩
    · obtain ⟨_, u1, h1, h2⟩ := cmd_bind_eq_ok hu
      obtain ⟨data, u2, h3, h4⟩ := cmd_bind_eq_ok h2
      have hs : s = u1 ∧ s.accessError c false s.arg0 s.arg1.toNat = none := by
        unfold checkAccess at h1
        cases ha : s.accessError c false s.arg0 s.arg1.toNat with
        | none => rw [ha] at h1; cases h1; exact ⟨rfl, rfl⟩
        | some e => rw [ha] at h1; cases h1
      obtain ⟨rfl, ha⟩ := hs
      cases h4
      exact .inr ⟨data, u2, ha, h3, (quiet_tRead _ _ _ _ _ _).ok h3, answers_tRead _ _ _ _ _ _ _ _ _ h3, rfl⟩
    · rcases cmd_bind_eq_error hu with h1 | ⟨_, u1, h1, h2⟩
      · exact .inl ⟨u, (quiet_checkAccess _ _ _ _).error h1, hl.broken⟩
      · rcases cmd_bind_eq_error h2 with h3 | ⟨data, u2, h3, h4⟩
        · exact .inl ⟨u, Quiet.steps.trans ((quiet_checkAccess _ _ _ _).ok h1) ((quiet_tRead _ _ _ _ _ _).error h3),
            hl.broken⟩
        · cases h4

theorem works_hbufData (n : Nat) : Keeps Works (hbufData n) := keeps_hbufData Works.steps n

theorem execWrreg_end {c : Slot} {s t : State} (h : execWrreg c s = .next t) : ∃ u, Works s u ∧ Ended u t :=
  worksEnd (keeps_bind Works.steps (works_of_quiet (quiet_enter _ _ _ _)) fun _ =>
    keeps_bind Works.steps (works_of_quiet (quiet_checkAccess _ _ _ _)) fun _ =>
    keeps_bind Works.steps (works_hbufData _) fun _ => keeps_bind Works.steps (works_writeSeq _ _ _ _ _) fun _ =>
    keeps_pure Works.steps _) h

theorem works_initWrite (c : Slot) (g : Gen) (w : InitWrite) (b : Nat) : Keeps Works (initWrite c g w b) :=
  keeps_bind Works.steps (works_of_quiet (quiet_checkAccess _ _ _ _)) fun _ => works_writeSeq _ _ _ _ _

/-- INIT ends in an error of its read, or works on from the state with the device type stored (R117). -/
theorem execInit_end {c : Slot} {s t : State} (h : execInit c s = .next t) :
    (∃ u, Quiet s u ∧ Broken u t)
      ∨ ∃ (v : Bytes) (u w : State),
          tRead c s.cfg.opcRegmapRead (s.cfg.devtypeAddr (s.descOf c).gen) s.cfg.devtypeSize 0 0 s = .ok v u ∧ Quiet s u
          ∧ Works { u.modConn c (fun k => { k with devType := some (BitVec.ofNat 32 (leValue v)) }) with
              result0 := BitVec.ofNat 32 (leValue v) } w
          ∧ Ended w t := by
  rcases endCmd_enter h with ⟨e, -, rfl⟩ | ⟨-, h⟩
  · exact .inl ⟨s, Quiet.steps.refl s, endErr_broken s e⟩
  · have hw : ∀ (g : Gen) (b : Nat), Keeps Works (do
        initWrite c g s.cfg.initSecure b
        initWrite c g s.cfg.initReadypin b
        initWrite c g s.cfg.initPartial b
        pure false : Cmd Bool) := fun g b =>
      keeps_bind Works.steps (works_initWrite _ _ _ _) fun _ => keeps_bind Works.steps (works_initWrite _ _ _ _) fun _ =>
        keeps_bind Works.steps (works_initWrite _ _ _ _) fun _ => keeps_pure Works.steps _
    rcases endCmd_next h with ⟨r, u, hu, rfl⟩ | ⟨x, u, hu, hl⟩
    · obtain ⟨_, u1, h1, h2⟩ := cmd_bind_eq_ok hu
      obtain ⟨v, u2, h3, h4⟩ := cmd_bind_eq_ok h2
      obtain ⟨_, u3, h5, h6⟩ := cmd_bind_eq_ok h4
      cases h5
      have hs : s = u1 := (same_checkAccess _ _ _ _).ok h1
      subst hs
      exact .inr ⟨v, u2, u, h3, (quiet_tRead _ _ _ _ _ _).ok h3, (hw _ _).ok h6, .inl ⟨r, rfl⟩⟩
    · rcases cmd_bind_eq_error hu with h1 | ⟨_, u1, h1, h2⟩
      · exact .inl ⟨u, (quiet_checkAccess _ _ _ _).error h1, hl.broken⟩
      · have hs : s = u1 := (same_checkAccess _ _ _ _).ok h1
        subst hs
        rcases cmd_bind_eq_error h2 with h3 | ⟨v, u2, h3, h4⟩
        · exact .inl ⟨u, (quiet_tRead _ _ _ _ _ _).error h3, hl.broken⟩
        · rcases cmd_bind_eq_error h4 with h5 | ⟨_, u3, h5, h6⟩
          · cases h5
          · cases h5
            exact .inr ⟨v, u2, u, h3, (quiet_tRead _ _ _ _ _ _).ok h3, (hw _ _).error h6, .inr hl.broken⟩

/-! ### The Direct-CAN commands -/

theorem connQuiet_popCfg (g : Config) (k : Conn) : ConnQuiet g k (popCfg k) :=
  ⟨rfl, rfl, rfl, rfl, rfl, rfl, rfl, rfl, rfl, rfl, fun _ _ _ => rfl, fun _ _ h => h,
    fun l => ⟨l.inbuf, l.outbuf, l.base, by
      have := l.cfgDepth
      simp only [popCfg, List.length_tail]; omega, l.detDepth⟩⟩

theorem connQuiet_popDet (g : Config) (k : Conn) : ConnQuiet g k (popDet k) :=
  ⟨rfl, rfl, rfl, rfl, rfl, rfl, rfl, rfl, rfl, rfl, fun _ _ _ => rfl, fun _ _ h => h,
    fun l => ⟨l.inbuf, l.outbuf, l.base, l.cfgDepth, by
      have := l.detDepth
      simp only [popDet, List.length_tail]; omega⟩⟩

theorem quiet_popCfg (s : State) (c : Slot) : Quiet s (s.modConn c popCfg) :=
  within_modConn ConnQuiet.steps s c _ fun k _ => connQuiet_popCfg _ k

theorem quiet_popDet (s : State) (c : Slot) : Quiet s (s.modConn c popDet) :=
  within_modConn ConnQuiet.steps s c _ fun k _ => connQuiet_popDet _ k

/-- A request ends in an error, or with the popped answer shown to the host (R148, R149). -/
theorem requestAnswer_end {c : Slot} {f : Frame} {s t : State}
    (h : endCmd (requestAnswer c f >>= fun _ => pure false) s = .next t) :
    (∃ u, Quiet s u ∧ Broken u t) ∨ ∃ (u : State) (e : Word × Frame), Quiet s u
      ∧ t = (u.showFrame e).endOk false := by
  have key : ∀ o, requestAnswer c f s = o → match o with
      | .ok _ v => ∃ (u : State) (e : Word × Frame), Quiet s u ∧ v = u.showFrame e
      | .error _ v => Quiet s v := by
    rintro o rfl
    unfold requestAnswer
    rw [cmd_bind]
    cases h1 : writeAndWait c f s with
    | error e u => exact (quiet_writeAndWait c f).error h1
    | ok _ u =>
      have hq := (quiet_writeAndWait c f).ok h1
      simp only [cmd_bind, cmd_get]
      cases hf : (u.conn c).cfgFifo with
      | nil => exact hq
      | cons e es =>
        simp only [cmd_bind, cmd_modify]
        have hq2 := Quiet.steps.trans hq (quiet_popCfg u c)
        split
        · rename_i v hv
          split at hv
          · cases hv
          · cases hv; exact ⟨_, e, hq2, rfl⟩
        · rename_i x v hv
          split at hv
          · cases hv; exact hq2
          · cases hv
  rcases endCmd_next h with ⟨r, u, hu, rfl⟩ | ⟨x, u, hu, hl⟩
  · obtain ⟨_, v, h1, h2⟩ := cmd_bind_eq_ok hu
    cases h2
    obtain ⟨w, e, hq, rfl⟩ := key _ h1
    exact .inr ⟨w, e, hq, rfl⟩
  · rcases cmd_bind_eq_error hu with h1 | ⟨_, v, h1, h2⟩
    · exact .inl ⟨u, key _ h1, hl.broken⟩
    · cases h2

theorem execGetval_end {c : Slot} {s t : State} (h : execGetval c s = .next t) :
    (∃ u, Quiet s u ∧ Broken u t) ∨ ∃ (u : State) (e : Word × Frame), Quiet s u
      ∧ t = (u.showFrame e).endOk false := by
  rcases endCmd_enter h with ⟨e, -, rfl⟩ | ⟨-, h⟩
  · exact .inl ⟨s, Quiet.steps.refl s, endErr_broken s e⟩
  · exact requestAnswer_end h

theorem execSetval_end {c : Slot} {s t : State} (h : execSetval c s = .next t) :
    (∃ u, Quiet s u ∧ Broken u t) ∨ ∃ (u : State) (e : Word × Frame), Quiet s u
      ∧ t = (u.showFrame e).endOk false := by
  rcases endCmd_enter h with ⟨e, -, rfl⟩ | ⟨-, h⟩
  · exact .inl ⟨s, Quiet.steps.refl s, endErr_broken s e⟩
  · cases hb : mreadBytes s.hbuf 0 8 with
    | none =>
      rw [endCmd_fault (u := s) (f := .undefRead) (cmd_bind_error (by rw [hbufData, hb]))] at h
      cases h
    | some bs =>
      have : (hbufData 8 >>= fun bs => requestAnswer c (Frame.ofBytes bs) >>= fun _ => (pure false : Cmd Bool)) s
          = (requestAnswer c (Frame.ofBytes bs) >>= fun _ => (pure false : Cmd Bool)) s :=
        cmd_bind_ok (by rw [hbufData, hb])
      rw [endCmd, this] at h
      exact requestAnswer_end h

theorem quiet_streamAttempts (c : Slot) (f : Frame) (n : Nat) : Keeps Quiet (streamAttempts c f n) := by
  induction n with
  | zero => exact quiet_raise _
  | succ n ih =>
    exact quiet_catchErr (quiet_writeAndWait c f) fun e => keeps_ite (fun _ => keeps_ite (fun _ => quiet_raise _) fun _ => ih)
      fun _ => quiet_raise _

/-- STREAM ends in an error with `dstate` kept, or with it set (R150). -/
theorem execStream_end {c : Slot} {e : Bool} {s t : State} (h : execStream c e s = .next t) :
    (∃ u, Quiet s u ∧ Broken u t) ∨ ∃ u, Quiet s u
      ∧ t = (u.modConn c (fun k => { k with dstate := if e then .streaming else .idle })).endOk false := by
  rcases endCmd_enter h with ⟨e, -, rfl⟩ | ⟨-, h⟩
  · exact .inl ⟨s, Quiet.steps.refl s, endErr_broken s e⟩
  · have hk : Keeps Quiet (do
        match (s.descOf c).can.family with
        | .a =>
          streamAttempts c (dcanStreamFrame s.cfg e s.arg0) streamAckAttempts
          modify (fun s => s.modConn c popCfg)
        | .b => sendFrame c (dcanStreamFrame s.cfg e s.arg0)
        sleep streamSettleMs : Cmd Unit) := by
      cases (s.descOf c).can.family with
      | a => exact quiet_bind (quiet_streamAttempts _ _ _) fun _ =>
          quiet_bind (keeps_modify fun s => quiet_popCfg s c) fun _ => quiet_sleep _
      | b => exact quiet_bind (quiet_sendFrame _ _) fun _ => quiet_sleep _
    have h' : endCmd ((do
        match (s.descOf c).can.family with
        | .a =>
          streamAttempts c (dcanStreamFrame s.cfg e s.arg0) streamAckAttempts
          modify (fun s => s.modConn c popCfg)
        | .b => sendFrame c (dcanStreamFrame s.cfg e s.arg0)
        sleep streamSettleMs : Cmd Unit) >>= fun _ =>
          modify (fun s => s.modConn c (fun k => { k with dstate := if e then .streaming else .idle })) >>= fun _ =>
          pure false) s = .next t := by
      rw [← h]
      unfold endCmd
      cases (s.descOf c).can.family <;> simp only [bind_assoc]
    rcases coreEnd hk h' with ⟨x, u, -, hq, hl⟩ | ⟨_, u, -, hq, rfl⟩
    · exact .inl ⟨u, hq, hl.broken⟩
    · exact .inr ⟨u, hq, rfl⟩

/-! ### The Modbus request frames -/

theorem wireExchange_end {pre : Slot → Cmd Unit} (hp : ∀ c, Keeps Quiet (pre c)) {dev fc : Byte} {body : Bytes}
    {mlen : Nat} {a : Word} {n : Nat} {s t : State} (h : wireExchange pre dev fc body mlen a n s = .next t) :
    ∃ u, Works s u ∧ Ended u t :=
  worksEnd (keeps_bind Works.steps (works_of_quiet (quiet_enter _ _ _ _)) fun _ =>
    keeps_bind Works.steps (works_of_quiet (hp _)) fun _ =>
    keeps_bind Works.steps (works_of_quiet (quiet_mbExchange _ _ _ _ _ _ _ _)) fun _ =>
    keeps_bind Works.steps (keeps_modify fun s => within_modConn ConnWork.steps s _ _ fun k _ => connWork_outbuf _ k 0 _)
      fun _ => keeps_pure Works.steps _) h

/-! ### Commands that touch no port -/

theorem execIsconn_run (c : Slot) (s : State) :
    execIsconn c s = match s.commandError true c suitsAny false with
      | some e => .next (s.endErr e)
      | none => .next (s.endOk (s.reaches (s.conn c))) := by
  cases h : s.commandError true c suitsAny false with
  | some e => exact endLocal_enter_error h
  | none => exact endLocal_enter_none h

theorem execResize_run (c : Slot) (e : Bool) (s : State) :
    execResize c e s = match s.commandError true c suitsAny false with
      | some x => .next (s.endErr x)
      | none =>
        match s.resizeError c s.arg0 with
        | some x => .next (s.endErr x)
        | none =>
          .next ((s.modConn c (fun k => setSelected e (bufResize (k.selected e) s.arg0.toNat) k)).endOk false) := by
  cases h : s.commandError true c suitsAny false with
  | some x => exact endLocal_enter_error h
  | none =>
    refine (endLocal_enter_none h).trans ?_
    simp only [endLocal, finishLocal, local_bind]
    cases s.resizeError c s.arg0 <;> rfl

theorem execBufpeek_run (c : Slot) (e : Bool) (s : State) :
    execBufpeek c e s = match s.commandError true c suitsAny false with
      | some x => .next (s.endErr x)
      | none =>
        match s.peekError ((s.conn c).selected e) s.arg0 s.arg1 with
        | some x => .next (s.endErr x)
        | none =>
          .next ({ s with
            hbuf := mcopy s.hbuf ((s.conn c).selected e).mem 0 s.arg0.toNat s.arg1.toNat }.endOk false) := by
  cases h : s.commandError true c suitsAny false with
  | some x => exact endLocal_enter_error h
  | none =>
    refine (endLocal_enter_none h).trans ?_
    simp only [endLocal, finishLocal, local_bind]
    cases s.peekError ((s.conn c).selected e) s.arg0 s.arg1 <;> rfl

theorem execSetaddr_run (c : Slot) (s : State) :
    execSetaddr c s = match s.commandError (fits8 s.arg0) c suitsAddressed false with
      | some x => .next (s.endErr x)
      | none => .next ((s.modDesc (s.conn c).desc (setAddress (op8 s.arg0) (s.conn c).kind)).endOk false) := by
  cases h : s.commandError (fits8 s.arg0) c suitsAddressed false with
  | some x => exact endLocal_enter_error h
  | none => exact endLocal_enter_none h

theorem execGetdt_run (c : Slot) (s : State) :
    execGetdt c s = match s.commandError true c suitsAny false with
      | some x => .next (s.endErr x)
      | none =>
        match (s.conn c).devType with
        | none => .next (s.endErr .devtypeUnset)
        | some v => .next ({ s with result0 := v }.endOk false) := by
  cases h : s.commandError true c suitsAny false with
  | some x => exact endLocal_enter_error h
  | none =>
    refine (endLocal_enter_none h).trans ?_
    cases hd : (s.conn c).devType <;> simp only [endLocal, finishLocal] <;> rfl

theorem execSetdt_run (c : Slot) (s : State) :
    execSetdt c s = match s.commandError true c suitsAny false with
      | some x => .next (s.endErr x)
      | none => .next ((s.modConn c (fun k => { k with devType := some s.arg0 })).endOk false) := by
  cases h : s.commandError true c suitsAny false with
  | some x => exact endLocal_enter_error h
  | none => exact endLocal_enter_none h

theorem execPopcfg_run (c : Slot) (s : State) :
    execPopcfg c s = match s.commandError true c suitsDirect false with
      | some x => .next (s.endErr x)
      | none =>
        match (s.conn c).cfgFifo with
        | [] => .next (s.endErr .fifoEmpty)
        | e :: _ => .next (((s.modConn c popCfg).showFrame e).endOk false) := by
  cases h : s.commandError true c suitsDirect false with
  | some x => exact endLocal_enter_error h
  | none =>
    refine (endLocal_enter_none h).trans ?_
    cases hd : (s.conn c).cfgFifo <;> simp only [endLocal, finishLocal] <;> rfl

theorem execPopdet_run (c : Slot) (s : State) :
    execPopdet c s = match s.commandError true c suitsDirect false with
      | some x => .next (s.endErr x)
      | none =>
        match (s.conn c).detFifo with
        | [] => .next (s.endErr .fifoEmpty)
        | e :: _ => .next (((s.modConn c popDet).showFrame e).endOk false) := by
  cases h : s.commandError true c suitsDirect false with
  | some x => exact endLocal_enter_error h
  | none =>
    refine (endLocal_enter_none h).trans ?_
    cases hd : (s.conn c).detFifo <;> simp only [endLocal, finishLocal] <;> rfl

/-- The role OPEN gives a connection and the state after its registration, or the error (R90, R135). -/
theorem openRole_run (c : Slot) (d : Desc) (p : Slot) (s : State) :
    openRole c d p s =
      if d.kind ≠ .can then .ok (.none, noSlot) s
      else if p ≠ noSlot then
        match s.peerError c p d.port with
        | some e => .error e s
        | none =>
          match overlapError s.cfg (s.domain d.port).table d.can.baseIdRx d.can.baseIdTx with
          | some e => .error e s
          | none => .ok (.slave, s.masterOf p) (s.register (s.masterOf p) c d)
      else if (s.domain d.port).dmaster ≠ noSlot then .error .portBusy s
      else
        match overlapError s.cfg (s.domain d.port).table d.can.baseIdRx d.can.baseIdTx with
        | some e => .error e s
        | none => .ok (.master, noSlot) (s.register c c d) := by
  unfold openRole
  rw [local_bind]
  show (if d.kind ≠ .can then _ else _ : Local (Role × Slot)) s = _
  by_cases h1 : d.kind ≠ .can
  · rw [if_pos h1, if_pos h1]; rfl
  · rw [if_neg h1, if_neg h1]
    by_cases h2 : p ≠ noSlot
    · rw [if_pos h2, if_pos h2]
      simp only [local_bind]
      cases h3 : s.peerError c p d.port with
      | some e => rfl
      | none =>
        simp only [checkLocal_none, registerConnection]
        cases overlapError s.cfg (s.domain d.port).table d.can.baseIdRx d.can.baseIdTx <;> rfl
    · rw [if_neg h2, if_neg h2]
      simp only [local_bind]
      by_cases h3 : (s.domain d.port).dmaster ≠ noSlot
      · rw [if_pos h3, if_pos h3]; rfl
      · rw [if_neg h3, if_neg h3]
        simp only [checkLocal_none, registerConnection]
        cases overlapError s.cfg (s.domain d.port).table d.can.baseIdRx d.can.baseIdTx <;> rfl

/-- OPEN ends in an error with nothing else changed, or with the connection constructed (R90, R43). -/
theorem execOpen_run (c : Slot) (e : Bool) (s : State) :
    execOpen c e s =
      if fits8 s.arg0 && fits8 s.arg1 then
        match s.openError c (op8 s.arg0) (op8 s.arg1) with
        | some x => .next (s.endErr x)
        | none =>
          match openRole c (s.descAt (op8 s.arg0)) (op8 s.arg1) s with
          | .error x u => .next (u.endErr x)
          | .ok r u =>
            .next ((u.setConn c (openedConn s.cfg (op8 s.arg0) (s.descAt (op8 s.arg0)).kind e r.1 r.2)).endOk false)
      else .next (s.endErr .reservedBits) := by
  unfold execOpen endLocal finishLocal
  rw [local_bind]
  by_cases h1 : (fits8 s.arg0 && fits8 s.arg1) = true
  · rw [if_pos h1, if_pos h1]
    simp only [checkLocal_none, local_bind]
    cases h2 : s.openError c (op8 s.arg0) (op8 s.arg1) with
    | some x => rfl
    | none =>
      simp only [checkLocal_none]
      cases h3 : openRole c (s.descAt (op8 s.arg0)) (op8 s.arg1) s <;> rfl
  · rw [if_neg h1, if_neg h1]; rfl

end Sys2Proof.Machine
end

