-- ==== Sys2Proof/Laws/Frame.lean ====
section
/-! SUPPORT. The shape of the end of every command but OPEN, CLOSE and SETADDR, said once: the connections changed by the
command's relation, the trace grown, some bytes of HBUF and RESULT0 written, and one of the two ends. -/

namespace Sys2Proof.Machine

/-- What a command may change of a connection: `connected` only CONNECT and DISCONNECT, the device type only INIT and
SETDT, `dstate` only STREAM, a buffer's length only RESIZE. -/
structure ConnStep (i : Instr) (g : Config) (k k' : Conn) : Prop where
  desc : k'.desc = k.desc
  kind : k'.kind = k.kind
  owner : k'.owner = k.owner
  role : k'.role = k.role
  master : k'.master = k.master
  connected : (∀ c, i ≠ .connect c) → (∀ c, i ≠ .disconnect c) → k'.connected = k.connected
  devType : (∀ c, i ≠ .init c) → (∀ c, i ≠ .setdt c) → k'.devType = k.devType
  dstate : (∀ c e, i ≠ .stream c e) → k'.dstate = k.dstate
  lengths : (∀ c e, i ≠ .resize c e) → k'.inbuf.len = k.inbuf.len ∧ k'.outbuf.len = k.outbuf.len
  legal : k.Legal g → k'.Legal g

theorem ConnStep.steps (i : Instr) : ConnSteps (ConnStep i) where
  refl _ _ := ⟨rfl, rfl, rfl, rfl, rfl, fun _ _ => rfl, fun _ _ => rfl, fun _ => rfl, fun _ => ⟨rfl, rfl⟩, fun h => h⟩
  trans h h' :=
    ⟨h'.desc.trans h.desc, h'.kind.trans h.kind, h'.owner.trans h.owner, h'.role.trans h.role,
      h'.master.trans h.master, fun a b => (h'.connected a b).trans (h.connected a b),
      fun a b => (h'.devType a b).trans (h.devType a b), fun a => (h'.dstate a).trans (h.dstate a),
      fun a => ⟨(h'.lengths a).1.trans (h.lengths a).1, (h'.lengths a).2.trans (h.lengths a).2⟩,
      fun l => h'.legal (h.legal l)⟩

theorem ConnWork.step {i : Instr} {g : Config} {k k' : Conn} (h : ConnWork g k k') : ConnStep i g k k' :=
  ⟨h.desc, h.kind, h.owner, h.role, h.master, fun _ _ => h.connected, fun _ _ => h.devType, fun _ => h.dstate,
    fun _ => ⟨h.inLen, h.outLen⟩, h.legal⟩

/-- The state at the end of a command `i` that started in `s`. -/
def Shape (i : Instr) (s t : State) : Prop :=
  ∃ (u : State) (m : Memory) (v : Word), Within (ConnStep i) s u
    ∧ (∀ x, hbufStored i s ≤ x → mread m x = mread s.hbuf x)
    ∧ (s.hbuf.wf = true → m.wf = true)
    ∧ (writesResult i = false → v = s.result0)
    ∧ ((m = s.hbuf ∧ Broken { u with result0 := v } t)
        ∨ ∃ r, t = { u with hbuf := m, result0 := v }.endOk r)

theorem shape_of_end {i : Instr} {s u t : State} (h : Within (ConnStep i) s u) (e : Ended u t) : Shape i s t := by
  have hv : u.result0 = s.result0 := by rw [h.rest]
  refine ⟨u, s.hbuf, s.result0, h, fun _ _ => rfl, fun w => w, fun _ => rfl, ?_⟩
  rcases e with ⟨r, rfl⟩ | e
  · exact .inr ⟨r, by rw [← hv, ← h.hbuf]⟩
  · exact .inl ⟨rfl, by rw [← hv]; exact e⟩

theorem shape_of_works {i : Instr} {s u t : State} (h : Works s u) (e : Ended u t) : Shape i s t :=
  shape_of_end (h.mono fun _ _ _ r => r.step) e

theorem shape_of_quiet {i : Instr} {s u t : State} (h : Quiet s u) (e : Ended u t) : Shape i s t :=
  shape_of_works (h.mono fun _ _ _ r => r.work) e

/-- A result is written at the end. -/
theorem shape_result {i : Instr} {s u t : State} {v : Word} {r : Bool} (hr : writesResult i = true)
    (h : Within (ConnStep i) s u) (e : t = { u with result0 := v }.endOk r) : Shape i s t :=
  ⟨u, s.hbuf, v, h, fun _ _ => rfl, fun w => w, fun hn => (by rw [hr] at hn; cases hn),
    .inr ⟨r, by rw [e, ← h.hbuf]⟩⟩

theorem Quiet.step {i : Instr} {s u : State} (h : Quiet s u) : Within (ConnStep i) s u :=
  h.mono fun _ _ _ r => r.work.step

theorem setHbuf_read (s : State) (bs : Bytes) (x : Nat) (h : bs.length ≤ x) :
    mread (mwriteBytes s.hbuf 0 bs) x = mread s.hbuf x := by
  rw [mread_mwriteBytes, if_neg (by omega)]

/-- An answer frame is shown to the host at the end. -/
theorem shape_showFrame {i : Instr} {s u t : State} {e : Word × Frame} (hr : writesResult i = true)
    (h8 : hbufStored i s = 8) (h : Within (ConnStep i) s u) (ht : t = (u.showFrame e).endOk false) : Shape i s t := by
  refine ⟨u, mwriteBytes s.hbuf 0 e.2.bytes, e.1, h, fun x hx => ?_, fun w => mwriteBytes_wf _ _ w,
    fun hn => (by rw [hr] at hn; cases hn), .inr ⟨false, ?_⟩⟩
  · rw [h8] at hx; exact setHbuf_read s _ x hx
  · rw [ht, State.showFrame, State.setHbuf, h.hbuf]

theorem endErr_ended (s : State) (e : Err) : Ended s (s.endErr e) := .inr (endErr_broken s e)

theorem within_refl (i : Instr) (s : State) : Within (ConnStep i) s s := (Within.steps (ConnStep.steps i)).refl s

/-- A result is written during the work. -/
theorem shape_with_result {i : Instr} {s w t : State} (hr : writesResult i = true)
    (h : Within (ConnStep i) s { w with result0 := s.result0 }) (he : Ended w t) : Shape i s t := by
  have hb : w.hbuf = s.hbuf := h.hbuf
  refine ⟨{ w with result0 := s.result0 }, s.hbuf, w.result0, h, fun _ _ => rfl, fun x => x,
    fun hn => (by rw [hr] at hn; cases hn), ?_⟩
  rcases he with ⟨r, rfl⟩ | he
  · refine .inr ⟨r, ?_⟩
    rw [← hb]
  · exact .inl ⟨rfl, he⟩

/-- A frame of connections is kept under a new RESULT0. -/
theorem Within.setResult0 {R : ConnRel} {s u : State} {v : Word} (h : Within R { s with result0 := v } u) :
    Within R s { u with result0 := s.result0 } :=
  ⟨by rw [h.rest], h.traffic, h.unused, h.used, h.wf⟩

theorem within_devType {s : State} {c : Slot} {v : Word} :
    Within (ConnStep (.init c)) s (s.modConn c (fun k => { k with devType := some v })) :=
  within_modConn (ConnStep.steps _) s c _ fun _ _ =>
    ⟨rfl, rfl, rfl, rfl, rfl, fun _ _ => rfl, fun a => absurd rfl (a c), fun _ => rfl, fun _ => ⟨rfl, rfl⟩,
      fun l => ⟨l.inbuf, l.outbuf, l.base, l.cfgDepth, l.detDepth⟩⟩

theorem bufResize_legal {g : Config} {kd : Kind} {b : Buf} {n : Nat} (h : b.Legal g kd) (h1 : minBuf kd ≤ n)
    (h2 : n ≤ g.bufMax) : (bufResize b n).Legal g kd :=
  ⟨bufResize_wf n h.wf, fun x hx => by
    have hx' : n ≤ x := hx
    rw [bufResize_read, if_neg (by omega)], h1, h2⟩

/-- CONNECT stops short with nothing but the trace and the base cache changed, or ends with the flag set and the base
cache invalid (R63, R92). -/
theorem execConnect_end {c : Slot} {s t : State} (h : execConnect c s = .next t) :
    ∃ u, Quiet s u ∧ (Broken u t
      ∨ t = (u.modConn c (fun k => { k with connected := true, baseCache := none })).endOk false) := by
  rcases endCmd_enter h with ⟨e, -, rfl⟩ | ⟨-, h⟩
  · exact ⟨s, Quiet.steps.refl s, .inl (endErr_broken s e)⟩
  · have hk : Keeps Quiet (orInvalidate c (
        if (s.conn c).role = .slave then
          check (if (s.conn (s.conn c).master).connected then none else some .notConnectedBlock)
        else portConnect (s.conn c).kind (s.descOf c).port (s.descOf c))) :=
      quiet_orInvalidate (keeps_ite (fun _ => keeps_check Quiet.steps _) fun _ => quiet_port _ _ _)
    rcases coreEnd hk h with ⟨x, u, -, hq, hl⟩ | ⟨_, u, -, hq, rfl⟩
    · exact ⟨u, hq, .inl hl.broken⟩
    · exact ⟨u, hq, .inr rfl⟩

theorem within_connect {s : State} {c : Slot} :
    Within (ConnStep (.connect c)) s (s.modConn c (fun k => { k with connected := true, baseCache := none })) :=
  within_modConn (ConnStep.steps _) s c _ fun _ _ =>
    ⟨rfl, rfl, rfl, rfl, rfl, fun a => absurd rfl (a c), fun _ _ => rfl, fun _ => rfl, fun _ => ⟨rfl, rfl⟩,
      fun l => ⟨l.inbuf, l.outbuf, by rintro b ⟨⟩, l.cfgDepth, l.detDepth⟩⟩

theorem within_disconnect {s : State} {c : Slot} :
    Within (ConnStep (.disconnect c)) s (s.modConn c (fun k => { k with connected := false })) :=
  within_modConn (ConnStep.steps _) s c _ fun _ _ =>
    ⟨rfl, rfl, rfl, rfl, rfl, fun _ a => absurd rfl (a c), fun _ _ => rfl, fun _ => rfl, fun _ => ⟨rfl, rfl⟩,
      fun l => ⟨l.inbuf, l.outbuf, l.base, l.cfgDepth, l.detDepth⟩⟩

theorem execDisconnect_end {c : Slot} {s t : State} (h : execDisconnect c s = .next t) :
    ∃ u, Within (ConnStep (.disconnect c)) s u ∧ Ended u t := by
  have hR : Steps (Within (ConnStep (.disconnect c))) := Within.steps (ConnStep.steps _)
  have hk : Keeps (Within (ConnStep (.disconnect c))) (do
      enter true c suitsAny false
      let k := s.conn c
      modify (fun s => s.modConn c (fun k => { k with connected := false }))
      if k.role ≠ .slave ∧ k.connected then portDisconnect k.kind (s.descOf c).port
      pure false : Cmd Bool) := by
    refine keeps_bind hR (fun s => keeps_check hR (s.commandError _ _ _ _) s) fun _ => ?_
    refine keeps_bind hR (keeps_modify fun s => within_disconnect) fun _ => ?_
    refine keeps_ite (fun _ => keeps_bind hR ?_ fun _ => keeps_pure hR _) fun _ => keeps_pure hR _
    exact keeps_portCall hR (fun s c a => within_note (ConnStep.steps _) s c a) _ _ _
  rcases endCmd_next h with ⟨r, u, hu, rfl⟩ | ⟨x, u, hu, hl⟩
  · exact ⟨u, hk.ok hu, .inl ⟨r, rfl⟩⟩
  · exact ⟨u, hk.error hu, .inr hl.broken⟩

/-- The shape of the end of every command but OPEN, CLOSE and SETADDR. -/
theorem exec_shape {i : Instr} {s t : State} (h : exec i s = .next t) (ho : ∀ c e, i ≠ .openConn c e)
    (hc : ∀ c, i ≠ .closeConn c) (ha : ∀ c, i ≠ .setaddr c) : Shape i s t := by
  cases i with
  | openConn c e => exact absurd rfl (ho c e)
  | closeConn c => exact absurd rfl (hc c)
  | setaddr c => exact absurd rfl (ha c)
  | connect c =>
    obtain ⟨u, hq, hb | rfl⟩ := execConnect_end h
    · exact shape_of_quiet hq (.inr hb)
    · exact shape_of_end ((Within.steps (ConnStep.steps _)).trans hq.step within_connect) (.inl ⟨false, rfl⟩)
  | disconnect c => obtain ⟨u, hw, he⟩ := execDisconnect_end h; exact shape_of_end hw he
  | isconn c =>
    simp only [exec, execIsconn_run] at h
    split at h <;> cases h
    · exact shape_of_end (within_refl _ s) (endErr_ended _ _)
    · exact shape_of_end (within_refl _ s) (.inl ⟨_, rfl⟩)
  | resize c e =>
    simp only [exec, execResize_run] at h
    split at h
    · cases h; exact shape_of_end (within_refl _ s) (endErr_ended _ _)
    · rename_i hn
      split at h
      · cases h; exact shape_of_end (within_refl _ s) (endErr_ended _ _)
      · rename_i hr
        cases h
        obtain ⟨k, hk, hk', -⟩ := commandError_none hn
        refine shape_of_end (within_modConn (ConnStep.steps _) s c _ fun k₁ h₁ => ?_) (.inl ⟨_, rfl⟩)
        have : k₁ = k := by rw [hk] at h₁; cases h₁; rfl
        subst this
        have hsz : minBuf k₁.kind ≤ s.arg0.toNat ∧ s.arg0.toNat ≤ s.cfg.bufMax := by
          unfold State.resizeError at hr
          rw [hk'] at hr
          split at hr
          · cases hr
          · split at hr
            · cases hr
            · omega
        cases e
        · exact ⟨rfl, rfl, rfl, rfl, rfl, fun _ _ => rfl, fun _ _ => rfl, fun _ => rfl, fun a => absurd rfl (a c _),
            fun l => ⟨bufResize_legal l.inbuf hsz.1 hsz.2, l.outbuf, l.base, l.cfgDepth, l.detDepth⟩⟩
        · exact ⟨rfl, rfl, rfl, rfl, rfl, fun _ _ => rfl, fun _ _ => rfl, fun _ => rfl, fun a => absurd rfl (a c _),
            fun l => ⟨l.inbuf, bufResize_legal l.outbuf hsz.1 hsz.2, l.base, l.cfgDepth, l.detDepth⟩⟩
  | getdt c =>
    simp only [exec, execGetdt_run] at h
    split at h
    · cases h; exact shape_of_end (within_refl _ s) (endErr_ended _ _)
    · split at h <;> cases h
      · exact shape_of_end (within_refl _ s) (endErr_ended _ _)
      · exact shape_result rfl (within_refl _ s) rfl
  | setdt c =>
    simp only [exec, execSetdt_run] at h
    split at h <;> cases h
    · exact shape_of_end (within_refl _ s) (endErr_ended _ _)
    · refine shape_of_end (within_modConn (ConnStep.steps _) s c _ fun k _ => ?_) (.inl ⟨_, rfl⟩)
      exact ⟨rfl, rfl, rfl, rfl, rfl, fun _ _ => rfl, fun _ a => absurd rfl (a c), fun _ => rfl, fun _ => ⟨rfl, rfl⟩,
        fun l => ⟨l.inbuf, l.outbuf, l.base, l.cfgDepth, l.detDepth⟩⟩
  | bufpeek c e =>
    simp only [exec, execBufpeek_run] at h
    split at h
    · cases h; exact shape_of_end (within_refl _ s) (endErr_ended _ _)
    · split at h <;> cases h
      · exact shape_of_end (within_refl _ s) (endErr_ended _ _)
      · refine ⟨s, _, s.result0, within_refl _ s, fun x hx => ?_, fun w => mcopy_wf _ _ _ _ w, fun _ => rfl,
          .inr ⟨false, rfl⟩⟩
        have hx' : s.arg1.toNat ≤ x := hx
        rw [mread_mcopy, if_neg (by omega)]
  | init c =>
    rcases execInit_end h with ⟨u, hq, hb⟩ | ⟨v, u, w, -, hq, hw, he⟩
    · exact shape_of_quiet hq (.inr hb)
    · have hS := Within.steps (ConnStep.steps (.init c))
      have h1 : Within (ConnStep (.init c)) s { w with result0 := s.result0 } := by
        have h2 := (hw.mono fun _ _ _ r => r.step (i := .init c)).setResult0
        have h3 := hS.trans hq.step (within_devType (c := c) (v := BitVec.ofNat 32 (leValue v)))
        have h4 := hS.trans h3 h2
        have hv : u.result0 = s.result0 := by rw [hq.rest]
        rw [← hv]
        exact h4
      exact shape_with_result rfl h1 he
  | rdreg c =>
    rcases execRdreg_end h with ⟨u, hq, hb⟩ | ⟨data, u, -, -, hq, hl, rfl⟩
    · exact shape_of_quiet hq (.inr hb)
    · have hS := Within.steps (ConnStep.steps (.rdreg c))
      have h1 : Within (ConnStep (.rdreg c)) s
          (if (u.conn c).kind ≠ .can then u.modConn c (outbufWrite 0 data) else u) := by
        split
        · exact hS.trans hq.step (within_modConn (ConnStep.steps _) u c _ fun k _ => (connWork_outbuf _ k 0 data).step)
        · exact hq.step
      have hv := congrArg State.result0 h1.rest
      refine ⟨_, mwriteBytes s.hbuf 0 data, s.result0, h1, fun x hx => ?_, fun w => mwriteBytes_wf _ _ w,
        fun _ => rfl, .inr ⟨false, ?_⟩⟩
      · have hx' : s.arg1.toNat ≤ x := hx
        exact setHbuf_read s _ x (by omega)
      · rw [State.delivered, State.setHbuf, h1.hbuf]
        rw [← hv]
  | wrreg c => obtain ⟨u, hw, he⟩ := execWrreg_end h; exact shape_of_works hw he
  | isready c => obtain ⟨u, hw, he⟩ := execIsready_end h; exact shape_of_quiet hw he
  | setwe c e => obtain ⟨u, hw, he⟩ := execSetwe_end h; exact shape_of_quiet hw he
  | getsr c =>
    rcases execGetsr_end h with ⟨u, hq, hb⟩ | ⟨b, u, -, hq, rfl⟩
    · exact shape_of_quiet hq (.inr hb)
    · exact shape_result rfl hq.step rfl
  | reset c b => obtain ⟨u, hw, he⟩ := execReset_end h; exact shape_of_quiet hw he
  | crc16 =>
    rcases execCrc16_end h with hb | ⟨bs, -, rfl⟩
    · exact shape_of_end (within_refl _ s) (.inr hb)
    · exact shape_result rfl (within_refl _ s) rfl
  | crcchk => exact shape_of_end (within_refl _ s) (execCrcchk_end h)
  | canrd c =>
    rcases execCanrd_end h with ⟨u, hq, hb⟩ | ⟨b, u, -, hq, rfl⟩
    · exact shape_of_quiet hq (.inr hb)
    · exact shape_result rfl hq.step rfl
  | cansend c => obtain ⟨u, hw, he⟩ := execCansend_end h; exact shape_of_quiet hw he
  | cansendw c => obtain ⟨u, hw, he⟩ := execCansendw_end h; exact shape_of_quiet hw he
  | getval c =>
    rcases execGetval_end h with ⟨u, hq, hb⟩ | ⟨u, e, hq, rfl⟩
    · exact shape_of_quiet hq (.inr hb)
    · exact shape_showFrame rfl rfl hq.step rfl
  | setval c =>
    rcases execSetval_end h with ⟨u, hq, hb⟩ | ⟨u, e, hq, rfl⟩
    · exact shape_of_quiet hq (.inr hb)
    · exact shape_showFrame rfl rfl hq.step rfl
  | stream c e =>
    rcases execStream_end h with ⟨u, hq, hb⟩ | ⟨u, hq, rfl⟩
    · exact shape_of_quiet hq (.inr hb)
    · refine shape_of_end ((Within.steps (ConnStep.steps _)).trans hq.step
        (within_modConn (ConnStep.steps _) u c _ fun k _ => ?_)) (.inl ⟨_, rfl⟩)
      exact ⟨rfl, rfl, rfl, rfl, rfl, fun _ _ => rfl, fun _ _ => rfl, fun a => absurd rfl (a c e), fun _ => ⟨rfl, rfl⟩,
        fun l => ⟨l.inbuf, l.outbuf, l.base, l.cfgDepth, l.detDepth⟩⟩
  | rdcfg c => obtain ⟨u, hw, he⟩ := execRdcfg_end h; exact shape_of_quiet hw he
  | rddet c => obtain ⟨u, hw, he⟩ := execRddet_end h; exact shape_of_quiet hw he
  | popcfg c =>
    simp only [exec, execPopcfg_run] at h
    split at h
    · cases h; exact shape_of_end (within_refl _ s) (endErr_ended _ _)
    · split at h <;> cases h
      · exact shape_of_end (within_refl _ s) (endErr_ended _ _)
      · exact shape_showFrame rfl rfl (quiet_popCfg s c).step rfl
  | popdet c =>
    simp only [exec, execPopdet_run] at h
    split at h
    · cases h; exact shape_of_end (within_refl _ s) (endErr_ended _ _)
    · split at h <;> cases h
      · exact shape_of_end (within_refl _ s) (endErr_ended _ _)
      · exact shape_showFrame rfl rfl (quiet_popDet s c).step rfl
  | mbReadData dev op addr size =>
    obtain ⟨u, hw, he⟩ := wireExchange_end (fun _ => quiet_checkAccess _ _ _ _) h; exact shape_of_works hw he
  | mbWriteData dev op addr payload =>
    obtain ⟨u, hw, he⟩ := wireExchange_end (fun _ => quiet_checkAccess _ _ _ _) h; exact shape_of_works hw he
  | mbSendOpcode dev op =>
    obtain ⟨u, hw, he⟩ := wireExchange_end (fun _ => quiet_pure _) h; exact shape_of_works hw he

end Sys2Proof.Machine
end

