-- ==== Sys2Proof/Laws/Close.lean ====
section
/-! SUPPORT. The ends of CLOSE and SETADDR, and the parts of CLOSE: unregistering, the discarded disconnect, the
destruction of a CAN connection. -/

namespace Sys2Proof.Machine

/-- The state with the entries of `c` removed from the table of a port (R136). -/
def State.unregistered (s : State) (q : Byte) (c : Slot) : State :=
  s.setDomain q { s.domain q with table := (s.domain q).table.filter (fun e => e.slot != c) }

theorem unregisterConnection_run (q : Byte) (m c : Slot) (s : State) :
    unregisterConnection q m c s =
      if (s.conn m).role ≠ .master then .error (.err .notMaster) s
      else if (s.domain q).table.all (fun e => e.slot != c) then .error (.err .notRegistered) s
      else .ok () (s.unregistered q c) := rfl

/-- A disconnect whose driver error is discarded is one port call, which returns or is stuck. -/
theorem discardedDisconnect_run (k : Kind) (p : Byte) (s : State) :
    (∃ a, catchErr (portDisconnect k p) (fun _ => pure ()) s = .ok () (s.note (.disconnect k p) a))
      ∨ catchErr (portDisconnect k p) (fun _ => pure ()) s = .error .stuck (s.note (.disconnect k p) .pending) := by
  unfold catchErr portDisconnect portCall
  cases s.nextDraw with
  | none => exact .inr rfl
  | some d =>
    cases hd : d.fate with
    | returns => exact .inl ⟨.done, by simp only [hd]⟩
    | notConnected => exact .inl ⟨.notConnected, by simp only [hd]; rfl⟩
    | timeout f => exact .inl ⟨.timeout f, by simp only [hd]; rfl⟩

/-- Every end of `DestroyCan` (R137): an error with nothing changed; stuck in the disconnect; the entry removed; the last entry of the port
removed, with the port disconnected if it was connected; a new Master elected. -/
theorem destroyCan_end {q : Byte} {c : Slot} {s : State} :
    (∃ e, destroyCan q c s = .error (.err e) s)
    ∨ destroyCan q c s = .error .stuck ((s.unregistered q c).note (.disconnect .can q) .pending)
    ∨ ((s.conn c).role = .slave ∧ destroyCan q c s = .ok () (s.unregistered q c))
    ∨ ((s.conn c).role = .master ∧ ((s.unregistered q c).domain q).table = []
        ∧ ∃ u, (u = s.unregistered q c ∨ ∃ call a, u = (s.unregistered q c).note call a)
          ∧ destroyCan q c s = .ok () (u.setDomain q { u.domain q with dmaster := noSlot }))
    ∨ ((s.conn c).role = .master ∧ ((s.unregistered q c).domain q).table ≠ []
        ∧ destroyCan q c s = .ok () ((s.unregistered q c).reelect q c)) := by
  unfold destroyCan
  simp only [cmd_bind, cmd_get]
  by_cases h1 : (s.conn c).role = .slave
  · rw [if_pos h1, unregisterConnection_run]
    split
    · exact .inl ⟨_, rfl⟩
    · split
      · exact .inl ⟨_, rfl⟩
      · exact .inr (.inr (.inl ⟨h1, rfl⟩))
  · rw [if_neg h1, cmd_bind, unregisterConnection_run]
    by_cases h2 : (s.conn c).role = .master
    · rw [if_neg (by simp [h2])]
      split
      · rename_i h; split at h
        · cases h
        · cases h
          simp only [cmd_bind, cmd_get]
          by_cases h3 : ((s.unregistered q c).domain q).table = []
          · rw [if_pos h3]
            by_cases h4 : ((s.unregistered q c).conn c).connected = true
            · rw [if_pos h4, cmd_bind]
              rcases discardedDisconnect_run .can q (s.unregistered q c) with ⟨a, ha⟩ | ha
              · rw [ha]
                exact .inr (.inr (.inr (.inl ⟨h2, h3, _, .inr ⟨_, a, rfl⟩, rfl⟩)))
              · rw [ha]
                exact .inr (.inl rfl)
            · rw [if_neg h4]
              exact .inr (.inr (.inr (.inl ⟨h2, h3, _, .inl rfl, rfl⟩)))
          · rw [if_neg h3]
            exact .inr (.inr (.inr (.inr ⟨h2, h3, rfl⟩)))
      · rename_i h; split at h
        · cases h; exact .inl ⟨_, rfl⟩
        · cases h
    · rw [if_pos h2]
      exact .inl ⟨_, rfl⟩

/-- The last act of CLOSE: an owner's descriptor is freed and the slot is unused (R91). -/
def State.closed (s : State) (c : Slot) (k : Conn) : State :=
  (if k.owner then s.modDesc k.desc (fun d => { d with valid := false }) else s).dropConn c

/-- Every end of CLOSE (R91). -/
theorem execClose_end {c : Slot} {s t : State} (h : execClose c s = .next t) :
    (∃ e, t = s.endErr e)
    ∨ (∃ u call, (u = s ∨ u = s.unregistered (s.descOf c).port c) ∧ t = (u.note call .pending).hang)
    ∨ ∃ k u, s.conn? c = some k ∧ s.conn c = k ∧ t = (u.closed c k).endOk false
      ∧ ((k.kind ≠ .can ∧ (u = s ∨ ∃ call a, u = s.note call a))
        ∨ (k.kind = .can ∧ k.role = .slave ∧ u = s.unregistered (s.descOf c).port c)
        ∨ (k.kind = .can ∧ k.role = .master ∧ ((s.unregistered (s.descOf c).port c).domain (s.descOf c).port).table = []
          ∧ ∃ v, (v = s.unregistered (s.descOf c).port c ∨ ∃ call a, v = (s.unregistered (s.descOf c).port c).note call a)
            ∧ u = v.setDomain (s.descOf c).port { v.domain (s.descOf c).port with dmaster := noSlot })
        ∨ (k.kind = .can ∧ k.role = .master ∧ ((s.unregistered (s.descOf c).port c).domain (s.descOf c).port).table ≠ []
          ∧ u = (s.unregistered (s.descOf c).port c).reelect (s.descOf c).port c)) := by
  rcases endCmd_enter h with ⟨e, -, rfl⟩ | ⟨hn, h⟩
  · exact .inl ⟨e, rfl⟩
  · obtain ⟨k, hk, hk', -⟩ := commandError_none hn
    have fin : ∀ (m : Cmd Unit) (b : Unit → Cmd Bool) (u : State), m s = .ok () u →
        (∀ x v, b x v = .ok false (v.closed c k)) → endCmd (m >>= b) s = .next ((u.closed c k).endOk false) := by
      intro m b u hm hb
      exact endCmd_ok (by rw [cmd_bind_ok hm, hb])
    have tail : ∀ (v : State), ((if (s.conn c).owner = true then
          modify (fun s_1 : State => s_1.modDesc (s.conn c).desc (fun d => { d with valid := false })) >>= fun _ =>
            modify (fun s => s.dropConn c) >>= fun _ => (pure false : Cmd Bool)
        else modify (fun s => s.dropConn c) >>= fun _ => (pure false : Cmd Bool)) v)
        = .ok false (v.closed c k) := by
      intro v
      rw [hk']
      unfold State.closed
      cases k.owner <;> rfl
    by_cases hc : k.kind = .can
    · have e : endCmd (destroyCan (s.descOf c).port c >>= fun _ => (if (s.conn c).owner = true then
          modify (fun s_1 : State => s_1.modDesc (s.conn c).desc (fun d => { d with valid := false })) >>= fun _ =>
            modify (fun s => s.dropConn c) >>= fun _ => (pure false : Cmd Bool)
        else modify (fun s => s.dropConn c) >>= fun _ => (pure false : Cmd Bool))) s = .next t := by
        rw [← h]; simp only [hk', hc, if_true]
      rcases destroyCan_end (q := (s.descOf c).port) (c := c) (s := s) with
        ⟨x, hx⟩ | hx | ⟨hr, hx⟩ | ⟨hr, ht, u, hu, hx⟩ | ⟨hr, ht, hx⟩
      · rw [endCmd_err (cmd_bind_error hx)] at e; cases e; exact .inl ⟨x, rfl⟩
      · rw [endCmd_stuck (cmd_bind_error hx)] at e; cases e; exact .inr (.inl ⟨_, _, .inr rfl, rfl⟩)
      · rw [fin _ _ _ hx fun _ v => tail v] at e; cases e
        exact .inr (.inr ⟨k, _, hk, hk', rfl, .inr (.inl ⟨hc, by rw [← hk']; exact hr, rfl⟩)⟩)
      · rw [fin _ _ _ hx fun _ v => tail v] at e; cases e
        exact .inr (.inr ⟨k, _, hk, hk', rfl, .inr (.inr (.inl ⟨hc, by rw [← hk']; exact hr, ht, u, hu, rfl⟩))⟩)
      · rw [fin _ _ _ hx fun _ v => tail v] at e; cases e
        exact .inr (.inr ⟨k, _, hk, hk', rfl, .inr (.inr (.inr ⟨hc, by rw [← hk']; exact hr, ht, rfl⟩))⟩)
    · by_cases ho : (k.owner && k.connected) = true
      · have e : endCmd (catchErr (portDisconnect k.kind (s.descOf c).port) (fun _ => pure ()) >>= fun _ =>
          (if (s.conn c).owner = true then
            modify (fun s_1 : State => s_1.modDesc (s.conn c).desc (fun d => { d with valid := false })) >>= fun _ =>
              modify (fun s => s.dropConn c) >>= fun _ => (pure false : Cmd Bool)
          else modify (fun s => s.dropConn c) >>= fun _ => (pure false : Cmd Bool))) s = .next t := by
          rw [← h]; simp only [hk', hc, ho, if_true, if_false]
        rcases discardedDisconnect_run k.kind (s.descOf c).port s with ⟨a, ha⟩ | ha
        · rw [fin _ _ _ ha fun _ v => tail v] at e; cases e
          exact .inr (.inr ⟨k, _, hk, hk', rfl, .inl ⟨hc, .inr ⟨_, a, rfl⟩⟩⟩)
        · rw [endCmd_stuck (cmd_bind_error ha)] at e; cases e; exact .inr (.inl ⟨_, _, .inl rfl, rfl⟩)
      · have e : endCmd (if (s.conn c).owner = true then
            modify (fun s_1 : State => s_1.modDesc (s.conn c).desc (fun d => { d with valid := false })) >>= fun _ =>
              modify (fun s => s.dropConn c) >>= fun _ => (pure false : Cmd Bool)
          else modify (fun s => s.dropConn c) >>= fun _ => (pure false : Cmd Bool)) s = .next t := by
          rw [← h]; simp only [hk', hc, ho, if_false]; rfl
        rw [endCmd_ok (tail s)] at e; cases e
        exact .inr (.inr ⟨k, s, hk, hk', rfl, .inl ⟨hc, .inl rfl⟩⟩)

/-! ### What CLOSE leaves as it was -/

/-- From `s` to `u` only connections, domains, the trace and the answers changed. -/
structure Kept (s u : State) : Prop where
  rest : u = { s with conns := u.conns, domains := u.domains, oracle := u.oracle, draws := u.draws, trace := u.trace }
  traffic : Traffic s u

theorem Kept.refl (s : State) : Kept s s := ⟨rfl, Traffic.refl s⟩

theorem Kept.trans {s t u : State} (h : Kept s t) (h' : Kept t u) : Kept s u :=
  ⟨by rw [h'.rest, h.rest], h.traffic.trans h'.traffic⟩

theorem kept_note (s : State) (c : PortCall) (a : PortAnswer) : Kept s (s.note c a) :=
  ⟨rfl, (within_note ConnQuiet.steps s c a).traffic⟩

theorem kept_setDomain (s : State) (q : Byte) (d : Domain) : Kept s (s.setDomain q d) := ⟨rfl, Traffic.refl s⟩

theorem kept_modConn (s : State) (c : Slot) (f : Conn → Conn) : Kept s (s.modConn c f) := ⟨rfl, Traffic.refl s⟩

theorem kept_pointTo (n : Slot) (l : List RouteEntry) : ∀ s : State, Kept s (s.pointTo n l) := by
  induction l with
  | nil => exact Kept.refl
  | cons e es ih => exact fun s => (kept_modConn s _ _).trans (ih _)

theorem kept_reelect (s : State) (q : Byte) (c : Slot) : Kept s (s.reelect q c) := by
  unfold State.reelect
  split
  · exact Kept.refl s
  · exact ((kept_modConn s _ _).trans (kept_setDomain _ _ _)).trans (kept_pointTo _ _ _)

theorem kept_unregistered (s : State) (q : Byte) (c : Slot) : Kept s (s.unregistered q c) := kept_setDomain s _ _

/-- CLOSE ends in an error with nothing else changed, is stuck in its disconnect, or ends with the slot unused (R91). -/
theorem execClose_kept {c : Slot} {s t : State} (h : execClose c s = .next t) :
    (∃ e, t = s.endErr e) ∨ (∃ u, Kept s u ∧ t = u.hang)
      ∨ ∃ k u, s.conn? c = some k ∧ Kept s u ∧ t = (u.closed c k).endOk false := by
  rcases execClose_end h with ⟨e, rfl⟩ | ⟨u, call, hu, rfl⟩ | ⟨k, u, hk, -, rfl, hu⟩
  · exact .inl ⟨e, rfl⟩
  · refine .inr (.inl ⟨_, Kept.trans ?_ (kept_note u call _), rfl⟩)
    rcases hu with rfl | rfl
    · exact Kept.refl _
    · exact kept_unregistered _ _ _
  · refine .inr (.inr ⟨k, u, hk, ?_, rfl⟩)
    rcases hu with ⟨-, rfl | ⟨_, _, rfl⟩⟩ | ⟨-, -, rfl⟩ | ⟨-, -, -, v, hv, rfl⟩ | ⟨-, -, -, rfl⟩
    · exact Kept.refl _
    · exact kept_note _ _ _
    · exact kept_unregistered _ _ _
    · refine Kept.trans ?_ (kept_setDomain v _ _)
      rcases hv with rfl | ⟨_, _, rfl⟩
      · exact kept_unregistered _ _ _
      · exact (kept_unregistered _ _ _).trans (kept_note _ _ _)
    · exact (kept_unregistered _ _ _).trans (kept_reelect _ _ _)

/-- OPEN ends in an error with nothing else changed, or with the connection in its slot (R90). -/
theorem execOpen_kept {c : Slot} {e : Bool} {s t : State} (h : execOpen c e s = .next t) :
    (∃ x, t = s.endErr x) ∨ ∃ r u, openRole c (s.descAt (op8 s.arg0)) (op8 s.arg1) s = .ok r u ∧ Kept s u
      ∧ s.openError c (op8 s.arg0) (op8 s.arg1) = none
      ∧ t = (u.setConn c (openedConn s.cfg (op8 s.arg0) (s.descAt (op8 s.arg0)).kind e r.1 r.2)).endOk false := by
  have hk : ∀ o, openRole c (s.descAt (op8 s.arg0)) (op8 s.arg1) s = o → match o with
      | .ok _ u => Kept s u
      | .error _ u => u = s := by
    rintro o rfl
    rw [openRole_run]
    by_cases h1 : (s.descAt (op8 s.arg0)).kind ≠ .can
    · rw [if_pos h1]; exact Kept.refl s
    · rw [if_neg h1]
      by_cases h2 : op8 s.arg1 ≠ noSlot
      · rw [if_pos h2]
        cases s.peerError c (op8 s.arg1) (s.descAt (op8 s.arg0)).port with
        | some x => rfl
        | none =>
          simp only
          cases overlapError s.cfg (s.domain (s.descAt (op8 s.arg0)).port).table (s.descAt (op8 s.arg0)).can.baseIdRx
              (s.descAt (op8 s.arg0)).can.baseIdTx with
          | some x => rfl
          | none => exact kept_setDomain s _ _
      · rw [if_neg h2]
        by_cases h3 : (s.domain (s.descAt (op8 s.arg0)).port).dmaster ≠ noSlot
        · rw [if_pos h3]
        · rw [if_neg h3]
          cases overlapError s.cfg (s.domain (s.descAt (op8 s.arg0)).port).table (s.descAt (op8 s.arg0)).can.baseIdRx
              (s.descAt (op8 s.arg0)).can.baseIdTx with
          | some x => rfl
          | none => exact kept_setDomain s _ _
  rw [execOpen_run] at h
  split at h
  · cases ho : s.openError c (op8 s.arg0) (op8 s.arg1) with
    | some x => rw [ho] at h; cases h; exact .inl ⟨x, rfl⟩
    | none =>
      rw [ho] at h
      cases hr : openRole c (s.descAt (op8 s.arg0)) (op8 s.arg1) s with
      | error x u =>
        rw [hr] at h
        have : u = s := hk _ hr
        subst this
        cases h
        exact .inl ⟨x, rfl⟩
      | ok r u => rw [hr] at h; cases h; exact .inr ⟨r, u, rfl, hk _ hr, rfl, rfl⟩
  · cases h; exact .inl ⟨_, rfl⟩

end Sys2Proof.Machine
end

