-- ==== Sys2Proof/Laws/PerInstr.lean ====
section
/-! SUPPORT. Per-instruction lemmas: the family RoundTrip, decoding an encoded well-formed instruction gives it back. -/

namespace Sys2Proof.Laws

/-! ### The fields of a CMD word -/

theorem cmdOp_cmdWord (op : Byte) (c : Slot) (e b : Bool) : cmdOp (cmdWord op c e b) = op := by
  apply BitVec.eq_of_getLsbD_eq
  intro i hi
  simp only [cmdOp, cmdWord, BitVec.getLsbD_extractLsb', BitVec.getLsbD_append]
  simp [hi]

theorem cmdConn_cmdWord (op : Byte) (c : Slot) (e b : Bool) : cmdConn (cmdWord op c e b) = c := by
  apply BitVec.eq_of_getLsbD_eq
  intro i hi
  simp only [cmdConn, cmdWord, BitVec.getLsbD_extractLsb', BitVec.getLsbD_append]
  simp [hi]

theorem cmdE_cmdWord (op : Byte) (c : Slot) (e b : Bool) : cmdE (cmdWord op c e b) = e := by
  unfold cmdE cmdWord
  rw [BitVec.getLsbD_append, BitVec.getLsbD_append, BitVec.getLsbD_append]
  simp

theorem cmdB_cmdWord (op : Byte) (c : Slot) (e b : Bool) : cmdB (cmdWord op c e b) = b := by
  unfold cmdB cmdWord
  rw [BitVec.getLsbD_append, BitVec.getLsbD_append, BitVec.getLsbD_append, BitVec.getLsbD_append]
  simp

theorem cmdReserved_cmdWord (op : Byte) (c : Slot) (e b : Bool) : cmdReserved (cmdWord op c e b) = 0#14 := by
  apply BitVec.eq_of_getLsbD_eq
  intro i hi
  have h1 : ¬18 + i < 8 := by omega
  have h2 : ¬18 + i - 8 < 8 := by omega
  have h3 : ¬18 + i - 8 - 8 < 1 := by omega
  have h4 : ¬18 + i - 8 - 8 - 1 < 1 := by omega
  simp only [cmdReserved, cmdWord, BitVec.getLsbD_extractLsb', BitVec.getLsbD_append, h1, h2, h3, h4, if_false,
    BitVec.getLsbD_zero, Bool.and_false]

/-- Decoding the CMD word of a row gives the row's instruction. -/
theorem decodeCmd_cmdWord {op : Byte} {c : Slot} {e b : Bool} {r : CmdRow} (h : cmdRow op c e b = some r)
    (hc : r.usesConn = true ∨ c = 0#8) (he : r.usesE = true ∨ e = false) (hb : r.usesB = true ∨ b = false) :
    decodeCmd (cmdWord op c e b) = .ok r.instr := by
  unfold decodeCmd CmdRow.unusedZero
  rw [cmdReserved_cmdWord, cmdOp_cmdWord, cmdConn_cmdWord, cmdE_cmdWord, cmdB_cmdWord, h]
  rcases hc with hc | hc <;> rcases he with he | he <;> rcases hb with hb | hb <;> simp [hc, he, hb]

/-! ### Modbus frames -/

theorem decodeMbFrame_mbFrame (body : Bytes) : decodeMbFrame (mbFrame body) = decodeMbBody body := by
  have hl : (mbFrame body).take ((mbFrame body).length - 2) = body := by
    simp [mbFrame, le16]
  unfold decodeMbFrame
  simp only [hl, if_true]

theorem word16_be16 (n : BitVec 16) : word16 (byteOf n 1) (byteOf n 0) = n := by
  apply BitVec.eq_of_getLsbD_eq
  intro i hi
  simp only [word16, byteOf, BitVec.getLsbD_append, BitVec.getLsbD_extractLsb']
  split
  · simp_all
  · have : i - 8 < 8 := by omega
    simp only [this, decide_true, Bool.true_and]; congr 1; omega

theorem word32_be32 (a : Word) : word32 (byteOf a 3) (byteOf a 2) (byteOf a 1) (byteOf a 0) = a := by
  apply BitVec.eq_of_getLsbD_eq
  intro i hi
  simp only [word32, byteOf, BitVec.getLsbD_append, BitVec.getLsbD_extractLsb']
  by_cases h0 : i < 8
  · simp [h0]
  · by_cases h1 : i - 8 < 8
    · simp only [h0, h1, if_false, if_true, decide_true, Bool.true_and]; congr 1; omega
    · by_cases h2 : i - 8 - 8 < 8
      · simp only [h0, h1, h2, if_false, if_true, decide_true, Bool.true_and]; congr 1; omega
      · have h3 : i - 8 - 8 - 8 < 8 := by omega
        simp only [h0, h1, h2, h3, if_false, decide_true, Bool.true_and]; congr 1; omega

namespace RoundTrip

/-- Decoding the code of a well-formed instruction gives it back. -/
def Statement (i : Instr) : Prop := i.wf = true → decode (encode i) = .ok i

theorem openConn (c : Slot) (e : Bool) : Statement (.openConn c e) := fun _ =>
  decodeCmd_cmdWord (r := { instr := .openConn c e, usesConn := true, usesE := true, usesB := false })
    rfl (by simp) (by simp) (by simp)

theorem closeConn (c : Slot) : Statement (.closeConn c) := fun _ =>
  decodeCmd_cmdWord (r := { instr := .closeConn c, usesConn := true, usesE := false, usesB := false })
    rfl (by simp) (by simp) (by simp)

theorem connect (c : Slot) : Statement (.connect c) := fun _ =>
  decodeCmd_cmdWord (r := { instr := .connect c, usesConn := true, usesE := false, usesB := false })
    rfl (by simp) (by simp) (by simp)

theorem disconnect (c : Slot) : Statement (.disconnect c) := fun _ =>
  decodeCmd_cmdWord (r := { instr := .disconnect c, usesConn := true, usesE := false, usesB := false })
    rfl (by simp) (by simp) (by simp)

theorem isconn (c : Slot) : Statement (.isconn c) := fun _ =>
  decodeCmd_cmdWord (r := { instr := .isconn c, usesConn := true, usesE := false, usesB := false })
    rfl (by simp) (by simp) (by simp)

theorem resize (c : Slot) (e : Bool) : Statement (.resize c e) := fun _ =>
  decodeCmd_cmdWord (r := { instr := .resize c e, usesConn := true, usesE := true, usesB := false })
    rfl (by simp) (by simp) (by simp)

theorem setaddr (c : Slot) : Statement (.setaddr c) := fun _ =>
  decodeCmd_cmdWord (r := { instr := .setaddr c, usesConn := true, usesE := false, usesB := false })
    rfl (by simp) (by simp) (by simp)

theorem getdt (c : Slot) : Statement (.getdt c) := fun _ =>
  decodeCmd_cmdWord (r := { instr := .getdt c, usesConn := true, usesE := false, usesB := false })
    rfl (by simp) (by simp) (by simp)

theorem setdt (c : Slot) : Statement (.setdt c) := fun _ =>
  decodeCmd_cmdWord (r := { instr := .setdt c, usesConn := true, usesE := false, usesB := false })
    rfl (by simp) (by simp) (by simp)

theorem bufpeek (c : Slot) (e : Bool) : Statement (.bufpeek c e) := fun _ =>
  decodeCmd_cmdWord (r := { instr := .bufpeek c e, usesConn := true, usesE := true, usesB := false })
    rfl (by simp) (by simp) (by simp)

theorem init (c : Slot) : Statement (.init c) := fun _ =>
  decodeCmd_cmdWord (r := { instr := .init c, usesConn := true, usesE := false, usesB := false })
    rfl (by simp) (by simp) (by simp)

theorem rdreg (c : Slot) : Statement (.rdreg c) := fun _ =>
  decodeCmd_cmdWord (r := { instr := .rdreg c, usesConn := true, usesE := false, usesB := false })
    rfl (by simp) (by simp) (by simp)

theorem wrreg (c : Slot) : Statement (.wrreg c) := fun _ =>
  decodeCmd_cmdWord (r := { instr := .wrreg c, usesConn := true, usesE := false, usesB := false })
    rfl (by simp) (by simp) (by simp)

theorem isready (c : Slot) : Statement (.isready c) := fun _ =>
  decodeCmd_cmdWord (r := { instr := .isready c, usesConn := true, usesE := false, usesB := false })
    rfl (by simp) (by simp) (by simp)

theorem setwe (c : Slot) (e : Bool) : Statement (.setwe c e) := fun _ =>
  decodeCmd_cmdWord (r := { instr := .setwe c e, usesConn := true, usesE := true, usesB := false })
    rfl (by simp) (by simp) (by simp)

theorem getsr (c : Slot) : Statement (.getsr c) := fun _ =>
  decodeCmd_cmdWord (r := { instr := .getsr c, usesConn := true, usesE := false, usesB := false })
    rfl (by simp) (by simp) (by simp)

theorem reset (c : Slot) (b : Bool) : Statement (.reset c b) := fun _ =>
  decodeCmd_cmdWord (r := { instr := .reset c b, usesConn := true, usesE := false, usesB := true })
    rfl (by simp) (by simp) (by simp)

theorem crc16 : Statement (.crc16) := fun _ =>
  decodeCmd_cmdWord (r := { instr := .crc16, usesConn := false, usesE := false, usesB := false })
    rfl (by simp) (by simp) (by simp)

theorem crcchk : Statement (.crcchk) := fun _ =>
  decodeCmd_cmdWord (r := { instr := .crcchk, usesConn := false, usesE := false, usesB := false })
    rfl (by simp) (by simp) (by simp)

theorem canrd (c : Slot) : Statement (.canrd c) := fun _ =>
  decodeCmd_cmdWord (r := { instr := .canrd c, usesConn := true, usesE := false, usesB := false })
    rfl (by simp) (by simp) (by simp)

theorem cansend (c : Slot) : Statement (.cansend c) := fun _ =>
  decodeCmd_cmdWord (r := { instr := .cansend c, usesConn := true, usesE := false, usesB := false })
    rfl (by simp) (by simp) (by simp)

theorem cansendw (c : Slot) : Statement (.cansendw c) := fun _ =>
  decodeCmd_cmdWord (r := { instr := .cansendw c, usesConn := true, usesE := false, usesB := false })
    rfl (by simp) (by simp) (by simp)

theorem getval (c : Slot) : Statement (.getval c) := fun _ =>
  decodeCmd_cmdWord (r := { instr := .getval c, usesConn := true, usesE := false, usesB := false })
    rfl (by simp) (by simp) (by simp)

theorem setval (c : Slot) : Statement (.setval c) := fun _ =>
  decodeCmd_cmdWord (r := { instr := .setval c, usesConn := true, usesE := false, usesB := false })
    rfl (by simp) (by simp) (by simp)

theorem stream (c : Slot) (e : Bool) : Statement (.stream c e) := fun _ =>
  decodeCmd_cmdWord (r := { instr := .stream c e, usesConn := true, usesE := true, usesB := false })
    rfl (by simp) (by simp) (by simp)

theorem rdcfg (c : Slot) : Statement (.rdcfg c) := fun _ =>
  decodeCmd_cmdWord (r := { instr := .rdcfg c, usesConn := true, usesE := false, usesB := false })
    rfl (by simp) (by simp) (by simp)

theorem rddet (c : Slot) : Statement (.rddet c) := fun _ =>
  decodeCmd_cmdWord (r := { instr := .rddet c, usesConn := true, usesE := false, usesB := false })
    rfl (by simp) (by simp) (by simp)

theorem popcfg (c : Slot) : Statement (.popcfg c) := fun _ =>
  decodeCmd_cmdWord (r := { instr := .popcfg c, usesConn := true, usesE := false, usesB := false })
    rfl (by simp) (by simp) (by simp)

theorem popdet (c : Slot) : Statement (.popdet c) := fun _ =>
  decodeCmd_cmdWord (r := { instr := .popdet c, usesConn := true, usesE := false, usesB := false })
    rfl (by simp) (by simp) (by simp)

theorem mbReadData (dev op : Byte) (addr : Word) (size : BitVec 16) : Statement (.mbReadData dev op addr size) := by
  intro _
  show decodeMbFrame _ = _
  rw [decodeMbFrame_mbFrame]
  simp only [mbReadBody, be32, be16, List.cons_append, List.nil_append, decodeMbBody, word32_be32, word16_be16]
  rfl

theorem mbWriteData (dev op : Byte) (addr : Word) (payload : Bytes) : Statement (.mbWriteData dev op addr payload) := by
  intro h
  have hl : payload.length < 65536 := by simpa [Instr.wf] using h
  show decodeMbFrame _ = _
  rw [decodeMbFrame_mbFrame]
  simp only [mbWriteBody, be32, be16, List.cons_append, List.nil_append, decodeMbBody, word32_be32, word16_be16]
  rw [if_neg (by decide), if_pos (by simp)]
  simp [BitVec.toNat_ofNat, Nat.mod_eq_of_lt hl]

theorem mbSendOpcode (dev op : Byte) : Statement (.mbSendOpcode dev op) := by
  intro _
  show decodeMbFrame _ = _
  rw [decodeMbFrame_mbFrame]
  rfl

end RoundTrip

end Sys2Proof.Laws
end

