-- ==== Sys2Proof/Laws/Status.lean ====
section
/-! SUPPORT. The fields of a STATUS word, and of the STATUS words the two ends of a command write. -/

namespace Sys2Proof.Machine

/-- A STATUS word's fields are the ones it was made of, and its reserved bits are zero (R21). -/
theorem statusWord_parts (a b : Byte) (r e d y : Bool) :
    (statusWord a b r e d y).extractLsb' 24 8 = 0#8 ∧ (statusWord a b r e d y).extractLsb' 4 4 = 0#4
      ∧ stBusy (statusWord a b r e d y) = y
      ∧ stErr (statusWord a b r e d y) = e ∧ stDone (statusWord a b r e d y) = d
      ∧ stRes (statusWord a b r e d y) = r ∧ stErrCode (statusWord a b r e d y) = b
      ∧ stErrSub (statusWord a b r e d y) = a := by
  unfold stBusy stErr stDone stRes stErrCode stErrSub statusWord
  refine ⟨?_, ?_, ?_, ?_, ?_, ?_, ?_, ?_⟩
  · apply BitVec.eq_of_getLsbD_eq; intro i hi
    have : ¬ 24 + i < 1 := by omega
    have : ¬ 24 + i - 1 < 1 := by omega
    have : ¬ 24 + i - 1 - 1 < 1 := by omega
    have : ¬ 24 + i - 1 - 1 - 1 < 1 := by omega
    have : ¬ 24 + i - 1 - 1 - 1 - 1 < 4 := by omega
    have : ¬ 24 + i - 1 - 1 - 1 - 1 - 4 < 8 := by omega
    have : ¬ 24 + i - 1 - 1 - 1 - 1 - 4 - 8 < 8 := by omega
    simp only [BitVec.getLsbD_extractLsb', BitVec.getLsbD_append, *, if_false, BitVec.getLsbD_zero, Bool.and_false]
  · apply BitVec.eq_of_getLsbD_eq; intro i hi
    have : ¬ 4 + i < 1 := by omega
    have : ¬ 4 + i - 1 < 1 := by omega
    have : ¬ 4 + i - 1 - 1 < 1 := by omega
    have : ¬ 4 + i - 1 - 1 - 1 < 1 := by omega
    have : 4 + i - 1 - 1 - 1 - 1 < 4 := by omega
    simp only [BitVec.getLsbD_extractLsb', BitVec.getLsbD_append, *, if_false, if_true, BitVec.getLsbD_zero, Bool.and_false]
  · rw [BitVec.getLsbD_append]; simp
  · rw [BitVec.getLsbD_append, BitVec.getLsbD_append, BitVec.getLsbD_append]; simp
  · rw [BitVec.getLsbD_append, BitVec.getLsbD_append]; simp
  · rw [BitVec.getLsbD_append, BitVec.getLsbD_append, BitVec.getLsbD_append, BitVec.getLsbD_append]; simp
  · apply BitVec.eq_of_getLsbD_eq; intro i hi
    have : ¬ 8 + i < 1 := by omega
    have : ¬ 8 + i - 1 < 1 := by omega
    have : ¬ 8 + i - 1 - 1 < 1 := by omega
    have : ¬ 8 + i - 1 - 1 - 1 < 1 := by omega
    have : ¬ 8 + i - 1 - 1 - 1 - 1 < 4 := by omega
    have : 8 + i - 1 - 1 - 1 - 1 - 4 < 8 := by omega
    simp only [BitVec.getLsbD_extractLsb', BitVec.getLsbD_append, *, if_false, if_true, decide_true, Bool.true_and]
    congr 1; omega
  · apply BitVec.eq_of_getLsbD_eq; intro i hi
    have : ¬ 16 + i < 1 := by omega
    have : ¬ 16 + i - 1 < 1 := by omega
    have : ¬ 16 + i - 1 - 1 < 1 := by omega
    have : ¬ 16 + i - 1 - 1 - 1 < 1 := by omega
    have : ¬ 16 + i - 1 - 1 - 1 - 1 < 4 := by omega
    have : ¬ 16 + i - 1 - 1 - 1 - 1 - 4 < 8 := by omega
    have : 16 + i - 1 - 1 - 1 - 1 - 4 - 8 < 8 := by omega
    simp only [BitVec.getLsbD_extractLsb', BitVec.getLsbD_append, *, if_false, if_true, decide_true, Bool.true_and]
    congr 1; omega

/-- No error has a code or a sub-code of 0 (R156, R157). -/
theorem err_codes (e : Err) : e.code ≠ 0#8 ∧ e.sub ≠ 0#8 := by cases e <;> simp [Err.code, Err.sub]

theorem statusOk_flags (r : Bool) :
    stBusy (statusOk r) = false ∧ stDone (statusOk r) = true ∧ stErr (statusOk r) = false ∧ stRes (statusOk r) = r :=
  let p := statusWord_parts 0#8 0#8 r false true false
  ⟨p.2.2.1, p.2.2.2.2.1, p.2.2.2.1, p.2.2.2.2.2.1⟩

theorem statusError_flags (e : Err) :
    stBusy (statusError e) = false ∧ stDone (statusError e) = true ∧ stErr (statusError e) = true
      ∧ stRes (statusError e) = false ∧ stErrCode (statusError e) = e.code ∧ stErrSub (statusError e) = e.sub :=
  let p := statusWord_parts e.sub e.code false true true false
  ⟨p.2.2.1, p.2.2.2.2.1, p.2.2.2.1, p.2.2.2.2.2.1, p.2.2.2.2.2.2.1, p.2.2.2.2.2.2.2⟩

theorem statusBusy_eq : statusBusy = 0x00000001#32 := by decide

end Sys2Proof.Machine
end

