-- ==== Sys2Proof/Tests/Slice0.lean ====
section
/-! SUPPORT. Small tests, with results from the spec's vectors (95_test_vectors.md, under its example configuration EX) or
worked by hand from its rules, and a witness for the hypotheses of each obligation. -/

namespace Sys2Proof.Tests

open Sys2Proof Sys2Proof.Machine

/-! ### The example configuration and its states -/

/-- A descriptor of no particular kind. -/
def desc0 : Desc := { blankDesc with valid := true, gen := .new }

/-- A CAN descriptor. -/
def canDesc (port : Byte) (d : CanDesc) : Desc := { desc0 with kind := .can, port := port, can := d }

/-- The configuration EX of 95_test_vectors.md; the three Init writes are this file's. -/
def EX : Config where
  canMaxDetections := 8
  statusWelBit := 1
  opcRegmapRead := ⟨0x03, 0x01⟩
  opcRegmapWrite := ⟨0x02, 0x02⟩
  opcReadStatus := ⟨0x05, 0x03⟩
  opcWren := ⟨0x06, 0x04⟩
  opcWrdis := ⟨0x04, 0x05⟩
  resetTypes := [⟨0, ⟨0x66, 0x66⟩, ⟨0x67, 0x67⟩⟩, ⟨1, ⟨0x99, 0x99⟩, ⟨0x9A, 0x9A⟩⟩]
  devtypeAddrOld := 0x100
  devtypeAddrNew := 0
  devtypeSize := 2
  initSecure := ⟨0x20, 0x20, [1]⟩
  initReadypin := ⟨0x24, 0x24, [0]⟩
  initPartial := ⟨0x28, 0x28, [2]⟩
  txinfoAddr := 0x10
  txCodes := ⟨1, 2, 3, 4, 5, 6⟩
  spiReadReqCrc := true
  canuCmdSetbase := 0x0B
  canBaseValue := .full
  dcanStreamCmd := 0x30
  dcanStreamSubOn := 1
  dcanStreamSubOff := 0
  fifoDepth := 4
  nConn := 8
  nSpi := 1
  nMb := 1
  nCan := 2
  hbufSize := 1024
  buf0In := ⟨1024, 256, 64⟩
  buf0Out := ⟨1024, 256, 8⟩
  bufMax := 4096
  defaultCrcRetries := 3
  descs := [desc0, { desc0 with kind := .modbus, mb := ⟨9600, .none, 1, 2⟩ },
    canDesc 0 ⟨0, 0, false, 0x740, 0x7E0, .universal, .a, 0, false⟩,
    canDesc 0 ⟨0, 0, false, 0x745, 0x7E1, .universal, .a, 0, false⟩,
    canDesc 0 ⟨0, 0, false, 0x750, 0x7E1, .universal, .a, 0, false⟩,
    canDesc 0 ⟨0, 0, false, 0x760, 0x7E2, .universal, .a, 0, false⟩,
    canDesc 1 ⟨0, 0, false, 0x700, 0x600, .direct, .a, 0, false⟩,
    canDesc 1 ⟨0, 0, false, 0x710, 0x601, .direct, .b, 0x80, true⟩]

/-- The block right after reset. -/
def base : State := State.resetWith EX

/-- A connected connection as OPEN and CONNECT leave it. -/
def live (d : Byte) (k : Kind) (r : Role) (m : Slot) : Conn := { openedConn EX d k true r m with connected := true }

/-- The six connections of the tests: SPI, Modbus, two Universal CAN on port 0, two Direct CAN on port 1. -/
def upConns : Table Conn :=
  [(0, live 0 .spi .none 0xFF), (1, live 1 .modbus .none 0xFF), (2, live 2 .can .master 0xFF), (3, live 4 .can .slave 2),
    (4, live 6 .can .master 0xFF), (5, live 7 .can .slave 4)]

/-- Their routing domains. -/
def upDomains : Table Domain :=
  [(0, ⟨2, [⟨2, 0x7E0, 0x740⟩, ⟨3, 0x7E1, 0x750⟩]⟩), (1, ⟨4, [⟨4, 0x600, 0x700⟩, ⟨5, 0x601, 0x710⟩]⟩)]

/-- The block with six connections open and connected. -/
def up : State := { base with conns := upConns, domains := upDomains }

/-- The operands ARG0 to ARG3. -/
def args (s : State) (a0 a1 a2 a3 : Word) : State := { s with arg0 := a0, arg1 := a1, arg2 := a2, arg3 := a3 }

/-- The host's data in HBUF from index 0 on. -/
def withData (s : State) (b : Bytes) : State := s.setHbuf b

/-- The scripted answers of the ports. -/
def script (s : State) (d : List Draw) : State := { s with oracle := d.map some }

/-- A port call that returns, with no data. -/
def ret : Draw := ⟨.returns, [], none⟩

/-- A port call that delivers bytes. -/
def got (b : Bytes) : Draw := ⟨.returns, b, none⟩

/-- A CAN read that delivers a frame. -/
def rx (id : Word) (b : Bytes) (ev : Word := 0#32) : Draw := ⟨.returns, [], some ⟨id, Frame.ofBytes b, ev⟩⟩

/-- A port call that times out. -/
def late (f : Bool) : Draw := ⟨.timeout f, [], none⟩

/-- One step of the machine with a CMD word as the command in progress. -/
def run (s : State) (w : Nat) : Outcome := step (s.withFetchWord 32 w)

/-- Whether a step answers a next state with a property. -/
def ends (o : Outcome) (p : State → Bool) : Bool :=
  match o with
  | .next t => p t
  | .fault _ => false
  | .refused _ => false

/-- Whether a step stops with a fault. -/
def faults (o : Outcome) (f : Fault) : Bool :=
  match o with
  | .fault g => g == f
  | .next _ => false
  | .refused _ => false

/-- The bytes of HBUF from index 0 on. -/
def shows (t : State) (b : Bytes) : Bool := mreadBytes t.hbuf 0 b.length == some b

/-- The events of a state, the first first. -/
def events (t : State) : List Event := t.trace.reverse

theorem test_EX_is_legal : EX.wf = true := by decide +kernel

/-! ### Well-formedness and decoding -/

theorem test_wf_refuses_a_long_write :
    ∃ p : Bytes, p.length = 65536 ∧ Instr.wf (.mbWriteData 0x01 0x02 0x100 p) = false ∧
      Instr.wf (.mbWriteData 0x01 0x02 0x100 p.tail) = true := by
  refine ⟨List.replicate 65536 0, List.length_replicate, ?_⟩
  generalize h : List.replicate 65536 (0 : Byte) = p
  have hl : p.length = 65536 := h ▸ List.length_replicate
  simp only [Instr.wf, List.length_tail, hl]
  decide +kernel

/-- Every row of R69 by its CMD word. -/
theorem test_decode_commands :
    ([0x00010001, 0x00000002, 0x00000003, 0x00000104, 0x00000205, 0x00010006, 0x00000007, 0x00000008, 0x00000009,
        0x0001000A, 0x00000010, 0x00000011, 0x00000012, 0x00000013, 0x00010014].map (decodeTableWord 32)
      = [some (.openConn 0 true), some (.closeConn 0), some (.connect 0), some (.disconnect 1), some (.isconn 2),
        some (.resize 0 true), some (.setaddr 0), some (.getdt 0), some (.setdt 0), some (.bufpeek 0 true),
        some (.init 0), some (.rdreg 0), some (.wrreg 0), some (.isready 0), some (.setwe 0 true)])
    ∧ [0x00000015, 0x00020016, 0x00000020, 0x00000021, 0x00000030, 0x00000331, 0x00000032, 0x00000440, 0x00000541,
        0x00010442, 0x0000FF43, 0x00000444, 0x00000445, 0x00000446].map (decodeTableWord 32)
      = [some (.getsr 0), some (.reset 0 true), some .crc16, some .crcchk, some (.canrd 0), some (.cansend 3),
        some (.cansendw 0), some (.getval 4), some (.setval 5), some (.stream 4 true), some (.rdcfg 0xFF),
        some (.rddet 4), some (.popcfg 4), some (.popdet 4)] := by decide +kernel

/-- The frames of "EX frames used below". -/
theorem test_decode_modbus_frames :
    decode (.wire [0x01, 0x42, 0x03, 0x00, 0x00, 0x01, 0x00, 0x00, 0x02, 0x31, 0xB4])
        = .ok (.mbReadData 0x01 0x03 0x100 2)
    ∧ decode (.wire [0x01, 0x43, 0x02, 0x00, 0x00, 0x01, 0x00, 0x00, 0x02, 0xAA, 0xBB, 0x77, 0x61])
        = .ok (.mbWriteData 0x01 0x02 0x100 [0xAA, 0xBB])
    ∧ decode (.wire [0x01, 0x44, 0x06, 0x93, 0x02]) = .ok (.mbSendOpcode 0x01 0x06)
    ∧ decode (.wire [0x01, 0x44, 0x06, 0x02, 0x93]) = .error .badFrame := by decide +kernel

/-- V-L2-ENC-2 a to d. -/
theorem test_decode_rejects :
    decode (.cmd 0x00040022) = .error .reservedBits ∧ decode (.cmd 0x00010022) = .error .unsupportedOpcode
    ∧ decode (.cmd 0x00000000) = .error .unsupportedOpcode ∧ decode (.cmd 0x00010011) = .error .reservedBits := by
  decide +kernel

/-- Every row of the opcode table decodes, and runs as the first instruction after reset. -/
theorem test_table_rows_run :
    ([0x01, 0x02, 0x03, 0x04, 0x05, 0x06, 0x07, 0x08, 0x09, 0x0A, 0x10, 0x11, 0x12, 0x13, 0x14, 0x15, 0x16, 0x20, 0x21,
        0x30, 0x31, 0x32, 0x40, 0x41, 0x42, 0x43, 0x44, 0x45, 0x46].all fun w =>
      (decodeTableWord 32 w).isSome && ends (step (State.reset.withFetchWord 32 w)) fun _ => true)
    ∧ [0x42, 0x43, 0x44].all fun w =>
      (decodeTableWord 8 w).isSome && ends (step (State.reset.withFetchWord 8 w)) fun _ => true := by
  decide +kernel

/-! ### CRC commands -/

/-- V-L2-CRC-3, V-L2-CRC-7a. -/
theorem test_crc16 :
    ends (run (withData (args base 9 0 0 0) [0x31, 0x32, 0x33, 0x34, 0x35, 0x36, 0x37, 0x38, 0x39]) 0x20)
        (fun t => t.status == 0x2 && t.result0 == 0x4B37)
    ∧ ends (run (args base 1025 0 0 0) 0x20) (fun t => t.status == 0x00080506 && t.errSize == 1025) := by decide +kernel

/-- V-L2-CRC-4b, V-L2-CRC-7d. -/
theorem test_crc16_order_and_undef :
    ends (run (withData (args base 11 0 0 0) [0x31, 0x32, 0x33, 0x34, 0x35, 0x36, 0x37, 0x38, 0x39, 0x4B, 0x37]) 0x20)
        (fun t => t.result0 == 0x2121)
    ∧ faults (run (withData (args base 3 0 0 0) [1, 2]) 0x20) .undefRead := by decide +kernel

/-- V-L2-CRC-5b, V-L2-CRC-6, V-L2-CRC-7c. -/
theorem test_crcchk :
    ends (run (withData (args base 8 0x105F 0 0) [2, 0, 1, 0, 0, 2, 0xAA, 0xBB]) 0x21) (fun t => t.status == 0xA)
    ∧ ends (run (withData (args base 8 0x105F 0 0) [3, 0, 1, 0, 0, 2, 0xAA, 0xBB]) 0x21) (fun t => t.status == 0x2)
    ∧ ends (run (args base 2 0x10000 0 0) 0x21) (fun t => t.status == 0x000F0506) := by decide +kernel

/-! ### Check order -/

/-- V-L2-ENC-2 e to k, on a disconnected and on a connected SPI connection. -/
theorem test_check_order :
    let down := { up with conns := [(0, { live 0 .spi .none 0xFF with connected := false })] }
    ends (run (args down 0x104 0 0 0) 0x40) (fun t => t.status == 0x000F0506)
    ∧ ends (run (args down 0x100 2 1 0) 0x911) (fun t => t.status == 0x00050506)
    ∧ ends (run (args down 0x100 2 1 0) 0x311) (fun t => t.status == 0x00050506)
    ∧ ends (run (args down 1 2 0 0) 0x40) (fun t => t.status == 0x000C0506)
    ∧ ends (run (args down 0x100 2 1 0) 0x11) (fun t => t.status == 0x00010106)
    ∧ ends (run (args up 0x100 0 1 0) 0x11) (fun t => t.status == 0x00070506 && t.errAddr == 0x100)
    ∧ ends (run (args up 0xFFFFFF 2 1 0) 0x11)
        (fun t => t.status == 0x00090506 && t.errAddr == 0xFFFFFF && t.errSize == 2) := by
  decide +kernel

/-! ### Connections -/

/-- Program 3 step 1 and V-L2-CONN-1 row 3. -/
theorem test_open :
    ends (run (args base 2 0xFF 0 0) 0x10001) (fun t => t.status == 0x2 && (t.conn 0).role == .master
      && (t.conn 0).owner && t.domain 0 == ⟨0, [⟨0, 0x7E0, 0x740⟩]⟩ && t.trace == [])
    ∧ ends (run (args base 9 0xFF 0 0) 0x101) (fun t => t.status == 0x00060506) := by decide +kernel

/-- Program 3 steps 2 and 4, on slots 2 and 3 for c0 and c1. -/
theorem test_open_slave :
    ends (run (args { up with conns := upConns.take 3, domains := [(0, ⟨2, [⟨2, 0x7E0, 0x740⟩]⟩)] } 3 2 0 0) 0x701)
        (fun t => t.status == 0x00030506 && t.errAddr == 0x7E1 && t.errSize == 2 && t.conn? 7 == none)
    ∧ ends (run (args up 5 3 0 0) 0x701)
        (fun t => t.status == 0x2 && (t.conn 7).role == .slave && (t.conn 7).master == 2
          && (t.domain 0).table.map RouteEntry.slot == [2, 3, 7]) := by decide +kernel

/-- Program 2 step 8. -/
theorem test_close :
    ends (run (script up [ret]) 0x2) (fun t => t.status == 0x2 && t.conn? 0 == none && !(t.descAt 0).valid
      && events t == [.port (.disconnect .spi 0) .done]) := by decide +kernel

/-- Program 3 step 11, on slots 2 and 3 for c0 and c1. -/
theorem test_close_of_the_master :
    ends (run up 0x202) (fun t => t.status == 0x2 && t.domain 0 == ⟨3, [⟨3, 0x7E1, 0x750⟩]⟩ && (t.conn 3).role == .master
      && (t.conn 3).master == 0xFF && (t.conn 3).connected && !(t.descAt 2).valid && t.trace == []) := by decide +kernel

/-- Program 3 steps 5 and 6. -/
theorem test_connect :
    ends (run (script { up with conns := [(0, { live 0 .spi .none 0xFF with connected := false })] } [ret]) 0x3)
        (fun t => t.status == 0x2 && (t.conn 0).connected && events t == [.port (.connect .spi 0 desc0) .done])
    ∧ ends (run { up with conns := [(2, { live 2 .can .master 0xFF with connected := false }), (3, live 4 .can .slave 2)] }
        0x303) (fun t => t.status == 0x00010106 && t.trace == []) := by decide +kernel

/-- V-L2-CONN-1 row 13; a Slave touches no port (R93). -/
theorem test_disconnect :
    ends (run (script up [ret]) 0x4) (fun t => t.status == 0x2 && !(t.conn 0).connected
      && events t == [.port (.disconnect .spi 0) .done])
    ∧ ends (run up 0x304) (fun t => t.status == 0x2 && !(t.conn 3).connected && t.trace == []) := by decide +kernel

/-- V-L2-CONN-1 rows 5 and 7. -/
theorem test_isconn :
    ends (run up 0x5) (fun t => t.status == 0xA)
    ∧ ends (run { up with conns := [(2, { live 2 .can .master 0xFF with connected := false }), (3, live 4 .can .slave 2)] }
        0x305) (fun t => t.status == 0x2) := by decide +kernel

/-- V-L1-5 and V-L2-CONN-1 row 10. -/
theorem test_resize :
    ends (run (args (up.modConn 0 (outbufWrite 0 [0xAA, 0xBB])) 1 0 0 0) 0x10006)
        (fun t => t.status == 0x2 && (t.conn 0).outbuf == ⟨1, [(0, 0xAA)]⟩ && (t.conn 0).inbuf.len == 1024)
    ∧ ends (run (args up 0 0 0 0) 0x6) (fun t => t.status == 0x00110506 && t.errSize == 0)
    ∧ ends (run (args up 7 0 0 0) 0x206) (fun t => t.status == 0x00110506 && t.errSize == 7) := by decide +kernel

/-- V-L1-5 steps 3 and 4, V-L2-CONN-1 row 12. -/
theorem test_bufpeek :
    ends (run (args (withData (up.modConn 0 (outbufWrite 0 [0xAA])) [1, 2, 3, 4, 5]) 0 4 0 0) 0x1000A)
        (fun t => t.status == 0x2 && t.hbuf == [(0, 0xAA), (4, 5)])
    ∧ ends (run (args up 1020 8 0 0) 0xA) (fun t => t.status == 0x00080506) := by decide +kernel

/-- R97. -/
theorem test_setaddr :
    ends (run (args up 0x11 0 0 0) 0x107) (fun t => t.status == 0x2 && (t.descAt 1).mb.devAddr == 0x11)
    ∧ ends (run (args up 0x111 0 0 0) 0x107) (fun t => t.status == 0x000F0506)
    ∧ ends (run (args up 0x11 0 0 0) 0x207) (fun t => t.status == 0x000C0506) := by decide +kernel

/-- V-L2-CONN-1 rows 8 and 9. -/
theorem test_getdt_setdt :
    ends (run up 0x8) (fun t => t.status == 0x000D0506)
    ∧ ends (run (args up 0x1234 0 0 0) 0x9) (fun t => t.status == 0x2 && (t.conn 0).devType == some 0x1234)
    ∧ ends (run (up.modConn 0 fun k => { k with devType := some 0x1234 }) 0x8) (fun t => t.result0 == 0x1234) := by
  decide +kernel

/-! ### Register engine on SPI -/

/-- The status read on the trace, with an answer. -/
def statusRound (b : Bytes) : List Event :=
  [.port (.spiWrite 0 [0x05, 0, 0, 0, 0, 1, 0x8E, 0xC1] false) .done, .port (.spiRead 0 3 true) (.bytes b)]

/-- An SPI frame that ends its transfer, on the trace. -/
def spiSent (b : Bytes) : Event := .port (.spiWrite 0 b true) .done

/-- The transaction-info read on the trace, with an answer. -/
def txRound (b : Bytes) : List Event :=
  [.port (.spiWrite 0 [0x03, 0, 0, 0x10, 0, 1, 0x2D, 0xC0] false) .done, .port (.spiRead 0 3 true) (.bytes b)]

/-- The read of two bytes at 0x100 on the trace, with an answer. -/
def readRound (b : Bytes) : List Event :=
  [.port (.spiWrite 0 [0x03, 0, 1, 0, 0, 2, 0x15, 0x80] false) .done, .port (.spiRead 0 4 true) (.bytes b)]

/-- V-L2-SPI-1, and V-L1-8 (b). -/
theorem test_rdreg_spi :
    ends (run (args (script up [ret, got [0xAA, 0xBB, 0xDC, 0x9E]]) 0x100 2 1 0) 0x11)
        (fun t => t.status == 0x2 && shows t [0xAA, 0xBB] && (t.conn 0).outbuf.mem == [(0, 0xAA), (1, 0xBB)]
          && events t == readRound [0xAA, 0xBB, 0xDC, 0x9E])
    ∧ ends (run (args (script up [ret, got [0xAA, 0xBB, 0, 0]]) 0x100 2 0 0) 0x11)
        (fun t => t.status == 0x2 && shows t [0xAA, 0xBB]) := by decide +kernel

/-- V-L1-8 (a). -/
theorem test_rdreg_spi_spends_its_budget :
    let bad := got [0xAA, 0xBB, 0, 0]
    let round := readRound [0xAA, 0xBB, 0, 0]
    ends (run (args (script up [ret, bad, ret, bad, ret, bad]) 0x100 2 3 0) 0x11)
      (fun t => t.status == 0x00010306 && t.errAddr == 0x100 && t.errSize == 2 && t.hbuf == []
        && events t == round ++ [.sleep 1] ++ round ++ [.sleep 1] ++ round) := by decide +kernel

/-- V-L1-1. -/
theorem test_wrreg_spi :
    let frame := spiSent [0x02, 0, 1, 0, 0, 2, 0xAA, 0xBB, 0x10, 0x5F]
    ends (run (withData (args (script up [ret, ret, got [2, 0x51, 0xCE], ret, ret, got [0, 0x50, 0x2C], ret, ret,
        got [0, 0x50, 0x2D], ret, ret, got [0, 0x90, 0x4F]]) 0x100 2 2 0) [0xAA, 0xBB]) 0x12)
      (fun t => t.status == 0x2 && (t.conn 0).inbuf.mem == [(0, 0xAA), (1, 0xBB)]
        && events t == spiSent [0x06, 0, 0, 0, 0, 0, 0x7D, 0] :: statusRound [2, 0x51, 0xCE] ++ frame
          :: txRound [0, 0x50, 0x2C] ++ .sleep 1 :: frame :: txRound [0, 0x50, 0x2D]
          ++ spiSent [0x04, 0, 0, 0, 0, 0, 0x9F, 0x01] :: statusRound [0, 0x90, 0x4F]) := by decide +kernel

/-- V-L2-ENG-3 b and g. -/
theorem test_wrreg_spi_errors :
    let start := fun (last : Bytes) => withData (args (script up [ret, ret, got [2, 0x51, 0xCE], ret, ret,
      got [4, 0x93, 0x2C], ret, ret, got last]) 0x100 2 2 0) [0xAA, 0xBB]
    ends (run (start [0, 0x90, 0x4F]) 0x12)
        (fun t => t.status == 0x00040406 && t.errAddr == 0x100 && t.errSize == 2 && t.oracle == [])
    ∧ ends (run (start [2, 0x51, 0xCE]) 0x12) (fun t => t.status == 0x00080406 && t.errAddr == 0) := by decide +kernel

/-- V-L2-ENG-2, T = 11 and a device that is ready on the second read. -/
theorem test_isready :
    let busy := got [1, 0x50, 0x8E]
    ends (run (args (script up [ret, busy, ret, busy, ret, busy]) 11 0 1 0) 0x13)
        (fun t => t.status == 0x2 && events t == statusRound [1, 0x50, 0x8E] ++ [.sleep 10]
          ++ statusRound [1, 0x50, 0x8E] ++ [.sleep 10] ++ statusRound [1, 0x50, 0x8E])
    ∧ ends (run (args (script up [ret, busy, ret, got [0, 0x90, 0x4F]]) 11 0 1 0) 0x13)
        (fun t => t.status == 0xA && t.oracle == []) := by decide +kernel

/-- V-L2-ENG-5 c and d, V-L2-ENG-3 a. -/
theorem test_setwe :
    ends (run (args (script up [ret, ret, got [2, 0x51, 0xCE]]) 0 0 1 0) 0x10014) (fun t => t.status == 0x2)
    ∧ ends (run (args (script up [ret, ret, got [0, 0x90, 0x4F]]) 0 0 1 0) 0x14)
        (fun t => t.status == 0x2
          && events t == spiSent [0x04, 0, 0, 0, 0, 0, 0x9F, 0x01] :: statusRound [0, 0x90, 0x4F])
    ∧ ends (run (args (script up [ret, ret, got [0, 0x90, 0x4F]]) 0 0 1 0) 0x10014)
        (fun t => t.status == 0x00080406) := by
  decide +kernel

/-- V-L2-ENG-5 a and b. -/
theorem test_getsr :
    ends (run (args (script up [ret, got [1, 0x50, 0x8E]]) 0 0 1 0) 0x15) (fun t => t.status == 0x2 && t.result0 == 1)
    ∧ ends (run (args (script up [ret, got [1, 0x50, 0x8F]]) 0 0 1 0) 0x15)
        (fun t => t.status == 0x00010306 && t.errAddr == 0 && t.errSize == 1) := by decide +kernel

/-- V-L2-ENG-5 e and f. -/
theorem test_reset :
    ends (run (args up 7 0 1 0) 0x16) (fun t => t.status == 0x00040506 && t.errAddr == 7 && t.trace == [])
    ∧ ends (run (args (script (up.modConn 0 fun k => { k with baseCache := some 0x10000 }) [ret]) 1 0 1 0) 0x20016)
        (fun t => t.status == 0x2 && (t.conn 0).baseCache == none
          && events t == [spiSent [0x9A, 0, 0, 0, 0, 0, 0xE1, 0x1D]]) := by decide +kernel

/-- V-L2-ENG-4. -/
theorem test_init :
    ends (run (script up [ret, got [0x34, 0x12, 0, 0], ret, ret, got [0, 0x90, 0x4F]]) 0x10)
      (fun t => t.status == 0x00080406 && t.result0 == 0x1234 && (t.conn 0).devType == some 0x1234
        && events t == [.port (.spiWrite 0 [0x03, 0, 0, 0, 0, 2, 0xE9, 0x81] false) .done,
            .port (.spiRead 0 4 true) (.bytes [0x34, 0x12, 0, 0]), spiSent [0x06, 0, 0, 0, 0, 0, 0x7D, 0]]
          ++ statusRound [0, 0x90, 0x4F]) := by decide +kernel

/-! ### Modbus -/

/-- MB-2. -/
theorem test_rdreg_modbus :
    ends (run (args (script up [ret, got [1, 0x42, 0x11, 0x22, 0x2D, 0x85], ret, got [1, 0x42, 0x33, 0x50, 0xB5]]) 0x100 3
        1 0) 0x111)
      (fun t => t.status == 0x2 && shows t [0x11, 0x22, 0x33]
        && events t == [.port (.mbSend 0 [1, 0x42, 3, 0, 0, 1, 0, 0, 2, 0x31, 0xB4]) .done,
          .port (.mbRecv 0 6) (.bytes [1, 0x42, 0x11, 0x22, 0x2D, 0x85]),
          .port (.mbSend 0 [1, 0x42, 3, 0, 0, 1, 2, 0, 1, 0xD0, 0x75]) .done,
          .port (.mbRecv 0 5) (.bytes [1, 0x42, 0x33, 0x50, 0xB5])]) := by decide +kernel

/-- MB-4, MB-5 and MB-7. -/
theorem test_rdreg_modbus_errors :
    ends (run (args (script up [ret, late true, ret, late true]) 0x100 2 2 0) 0x111)
        (fun t => t.status == 0x00050206 && t.errInfo == 1)
    ∧ ends (run (args (script up [ret, late true, ret, got [1, 0x42, 0xAA]]) 0x100 2 2 0) 0x111)
        (fun t => t.status == 0x00020306 && t.errAddr == 0x100 && t.errSize == 2)
    ∧ ends (run (args (script up [ret, got [2, 0x42, 0xAA, 0xBB, 0x9F, 0x5B]]) 0x100 2 2 0) 0x111)
        (fun t => t.status == 0x000D0406) := by decide +kernel

/-- The frames of MB-10, one by one (log 11). -/
theorem test_modbus_frames :
    let on := fun (s : State) (b : Bytes) => step { s.start 0x100 with wire := some b }
    ends (on (args (script up [ret, got [1, 0x42, 0xAA, 0xBB, 0x9F, 0x1F]]) 0 0 1 0)
        [1, 0x42, 3, 0, 0, 1, 0, 0, 2, 0x31, 0xB4])
        (fun t => t.status == 0x2 && (t.conn 1).outbuf.mem == [(0, 0xAA), (1, 0xBB)] && t.wire == none)
    ∧ ends (on (args (script up [ret, got [1, 0x43, 0x41, 0xD1]]) 0 0 1 0)
        [1, 0x43, 2, 0, 0, 1, 0, 0, 2, 0xAA, 0xBB, 0x77, 0x61]) (fun t => t.status == 0x2 && t.oracle == [])
    ∧ ends (on (args (script up [ret, got [1, 0x44, 0, 0x13]]) 0 0 1 0) [1, 0x44, 6, 0x93, 2])
        (fun t => t.status == 0x2
          && events t == [.port (.mbSend 0 [1, 0x44, 6, 0x93, 2]) .done,
            .port (.mbRecv 0 4) (.bytes [1, 0x44, 0, 0x13])]) := by decide +kernel

/-! ### CAN -/

/-- V-L2-CAN-2, on slots 2 and 3. -/
theorem test_canrd :
    ends (run (script up [rx 0x745 [1, 2, 3, 4, 5, 6, 7, 8]]) 0x230)
        (fun t => t.status == 0xA && t.result0 == 0x745
          && mreadBytes (t.conn 2).outbuf.mem 0 8 == some [1, 2, 3, 4, 5, 6, 7, 8])
    ∧ ends (run (script up [rx 0x759 [1, 2, 3, 4, 5, 6, 7, 8]]) 0x230)
        (fun t => t.status == 0x2 && t.result0 == 0x759
          && mreadBytes (t.conn 3).outbuf.mem 0 8 == some [1, 2, 3, 4, 5, 6, 7, 8])
    ∧ ends (run (script up [rx 0x74A []]) 0x230)
        (fun t => t.status == 0x000B0406 && t.errAddr == 0x74A && t.errSize == 8) := by
  decide +kernel

/-- V-L2-CAN-4. -/
theorem test_cansend :
    ends (run (withData (script up [ret]) [1, 0, 0, 0, 0, 0, 0, 0]) 0x231)
        (fun t => t.status == 0x2
          && events t == [.port (.canWrite 0 0x7E0 (Frame.ofBytes [1, 0, 0, 0, 0, 0, 0, 0])) .done])
    ∧ faults (run (withData (script up [ret]) [1, 0, 0, 0, 0, 0, 0]) 0x231) .undefRead := by decide +kernel

/-- V-L2-CAN-3 b and e. -/
theorem test_cansendw :
    ends (run (withData (script up [ret, rx 0x740 [] 1, ret, rx 0x740 []]) [1, 0, 0, 0, 0, 0, 0, 0]) 0x232)
        (fun t => t.status == 0x2 && t.oracle == [] && t.trace.length == 4)
    ∧ ends (run (withData (script up [ret, rx 0x752 [], rx 0x740 []]) [1, 0, 0, 0, 0, 0, 0, 0]) 0x232)
        (fun t => t.status == 0x2 && t.oracle == [] && t.trace.length == 4) := by decide +kernel

/-- V-L2-CAN-3 c and g. -/
theorem test_cansendw_errors :
    ends (run (withData (script up [ret, rx 0x740 [] 1, ret, rx 0x740 [] 1, ret, rx 0x740 [] 1]) (zeros 8)) 0x232)
        (fun t => t.status == 0x00010606 && t.oracle == [])
    ∧ ends (run (withData (script up [ret, rx 0x123 []]) (zeros 8)) 0x232) (fun t => t.status == 0x000B0406) := by
  decide +kernel

/-- V-L2-CANU-2 c. -/
theorem test_rdreg_can :
    let sent := fun (b : Bytes) => Event.port (.canWrite 0 0x7E0 (Frame.ofBytes b)) .done
    let seen := fun (b : Bytes) => Event.port (.canRead 0) (.frame (some ⟨0x740, Frame.ofBytes b, 0⟩))
    ends (run (args (script (up.modConn 2 fun k => { k with baseCache := some 0x10000 }) [ret,
        rx 0x740 [1, 4, 0xFC, 0xFF, 1, 2, 3, 4], ret, rx 0x740 [0x0B], ret, rx 0x740 [1, 4, 0, 0, 5, 6, 7, 8]]) 0x1FFFC 8 0
        0) 0x211)
      (fun t => t.status == 0x2 && shows t [1, 2, 3, 4, 5, 6, 7, 8] && (t.conn 2).baseCache == some 0x20000
        && events t == [sent [1, 4, 0xFC, 0xFF, 0, 0, 0, 0], seen [1, 4, 0xFC, 0xFF, 1, 2, 3, 4],
          sent [0x0B, 0, 0, 0, 0, 0, 2, 0], seen [0x0B], sent [1, 4, 0, 0, 0, 0, 0, 0],
          seen [1, 4, 0, 0, 5, 6, 7, 8]]) := by
  decide +kernel

/-- V-L2-CANU-1 d. -/
theorem test_wrreg_can :
    let sent := fun (b : Bytes) => Event.port (.canWrite 0 0x7E0 (Frame.ofBytes b)) .done
    ends (run (withData (args (script (up.modConn 2 fun k => { k with baseCache := some 0x10000 }) [ret, rx 0x740 [4], ret,
        rx 0x740 [3, 1, 0, 0, 2], ret, rx 0x740 [2], ret, rx 0x740 [5], ret, rx 0x740 [3, 1, 0, 0, 0]]) 0x10000 1 0 0)
        [0x5A]) 0x212)
      (fun t => t.status == 0x2
        && (events t).filter (fun e => match e with
            | .port (.canWrite _ _ _) _ => true
            | .port _ _ => false
            | .sleep _ => false)
          == [sent [4], sent [3, 1], sent [2, 1, 0, 0, 0x5A], sent [5], sent [3, 1]]) := by decide +kernel

/-! ### Direct CAN -/

/-- V-L2-DCAN-2 a and V-L1-2 (b). -/
theorem test_getval :
    ends (run (args (script up [ret, rx 0x700 [4, 7, 0x11, 0x22, 0x33, 0x44, 0x55, 0x66]]) 4 7 0 0) 0x440)
        (fun t => t.status == 0x2 && shows t [4, 7, 0x11, 0x22, 0x33, 0x44, 0x55, 0x66] && t.result0 == 0x700)
    ∧ ends (run (args (script (up.modConn 4 fun k => { k with cfgFifo := [(0x700, Frame.ofBytes [4, 9])] })
        [ret, rx 0x700 [4, 7, 0xAA]]) 4 7 0 0) 0x440)
        (fun t => t.status == 0x00090406 && t.errAddr == 0x700 && t.errSize == 8 && t.hbuf == []
          && (t.conn 4).cfgFifo == [(0x700, Frame.ofBytes [4, 7, 0xAA])]) := by decide +kernel

/-- V-L2-DCAN-2 c and d. -/
theorem test_setval :
    ends (run (withData (script up [ret, rx 0x710 [0x8A, 1]]) [0x0A, 1, 5, 0, 0, 0, 0, 0]) 0x541)
        (fun t => t.status == 0x2 && t.result0 == 0x710)
    ∧ ends (run (withData (script up [ret, rx 0x710 [0x0A, 1]]) [0x0A, 1, 5, 0, 0, 0, 0, 0]) 0x541)
        (fun t => t.status == 0x00090406) := by decide +kernel

/-- Program 4 step 5 and V-L2-DCAN-3 c. -/
theorem test_stream :
    ends (run (script up [ret, rx 0x700 [0x30, 1]]) 0x10442)
        (fun t => t.status == 0x2 && (t.conn 4).dstate == .streaming && (t.conn 4).cfgFifo == []
          && t.trace.head? == some (.sleep 10))
    ∧ ends (run (args (script up [ret]) 0x01020304 0 0 0) 0x542)
        (fun t => t.status == 0x2 && (t.conn 5).dstate == .idle
          && events t == [.port (.canWrite 1 0x601 (Frame.ofBytes [0x30, 0, 4, 3, 2, 1, 0, 0])) .done, .sleep 10]) := by
  decide +kernel

/-- V-L2-DCAN-1, each row through CANRD of the Slave on slot 5. -/
theorem test_classification :
    let fifos := fun (id : Word) (b : Bytes) => match run (script up [rx id b]) 0x530 with
      | .next t => ((t.conn 5).cfgFifo.length, (t.conn 5).detFifo.length, t.status)
      | .fault _ => (9, 9, 0)
      | .refused _ => (9, 9, 0)
    fifos 0x710 [0x12] = (1, 0, 0xA) ∧ fifos 0x711 [0x85] = (1, 0, 0xA) ∧ fifos 0x711 [0x80] = (1, 0, 0xA)
    ∧ fifos 0x711 [0x7F] = (0, 1, 0xA) ∧ fifos 0x712 [0x85] = (0, 1, 0xA)
    ∧ fifos 0x710 [1, 2, 0xFF, 0xFF, 0xFF, 0xFF, 0xFF, 0xFF] = (0, 0, 0x000A0406)
    ∧ fifos 0x710 [1, 2, 0xFF, 0xFF, 0xFF, 0xFF, 0xFF, 0xFE] = (1, 0, 0xA) := by decide +kernel

/-- V-L2-DCAN-4 a, d and e. -/
theorem test_rdcfg_rddet :
    let held := fun (k : Conn) => { k with cfgFifo := [(0x700, Frame.ofBytes [1])] }
    ends (run (script up [rx 0x702 [9]]) 0x444)
        (fun t => t.status == 0xA && (t.conn 4).detFifo == [(0x702, Frame.ofBytes [9])])
    ∧ ends (run (script up [rx 0x702 [9]]) 0x443) (fun t => t.status == 0x2 && (t.conn 4).detFifo.length == 1)
    ∧ ends (run (up.modConn 4 held) 0x443) (fun t => t.status == 0xA && t.trace == []) := by decide +kernel

/-- V-L2-DCAN-4 c and f. -/
theorem test_popcfg_popdet :
    let e : Word × Frame := (0x740, Frame.ofBytes [0x11, 0x22, 0x33, 0x44, 0x55, 0x66, 0x77, 0x88])
    ends (run (up.modConn 4 fun k => { k with cfgFifo := [e] }) 0x445)
        (fun t => t.status == 0x2 && t.result0 == 0x740 && (t.conn 4).cfgFifo == []
          && shows t [0x11, 0x22, 0x33, 0x44, 0x55, 0x66, 0x77, 0x88])
    ∧ ends (run (up.modConn 4 fun k => { k with detFifo := [e, e] }) 0x446)
        (fun t => t.status == 0x2 && t.result0 == 0x740 && (t.conn 4).detFifo == [e])
    ∧ ends (run up 0x446) (fun t => t.status == 0x000E0506) := by decide +kernel

/-! ### Host and reset -/

/-- Program 1 step 1, V-L2-RST-1, and R164: what the host's accesses do. -/
theorem test_host :
    let on := fun (s : State) (x : HostItem) => step { s with hostq := [x] }
    ends (on base (.waiting (.write8 0x108 0x39))) (fun t => t.hbuf == [(8, 0x39)] && t.hostq == [])
    ∧ ends (on base (.waiting (.write32 0 0x20))) (fun t => t.busy && t.cmd == 0x20)
    ∧ faults (on base (.waiting (.read8 0x100))) .undefRead
    ∧ faults (on base (.waiting (.read8 0x500))) .hostNoMove
    ∧ faults (on (base.start 0x20) (.eager (.write32 4 1))) .hostNoMove
    ∧ ends (on (base.start 0x20) (.eager (.read32 0x14))) (fun t => t.readData == 1) := by decide +kernel

/-- R172: a reset during V-L1-8 (a), after 3 of its 8 events; one that finds the command stuck in its second port call
(R187), before or after it got there; and one that comes to a CRC16 that would use an `undef` byte. -/
theorem test_reset_during_a_command :
    let bad := got [0xAA, 0xBB, 0, 0]
    let s := args (script up [ret, bad, ret, bad, ret, bad]) 0x100 2 3 0
    let on := fun (s : State) => step { s with hostq := [.reset 3] }
    let hangs := { s with oracle := [some ret, none, some ret] }
    ends (on (s.start 0x11)) (fun t => t.status == 0 && t.conn? 0 == none && t.oracle.length == 4
      && events t == readRound [0xAA, 0xBB, 0, 0] ++ [.sleep 1])
    ∧ ends (on (hangs.start 0x11)) (fun t => t.status == 0 && t.trace.length == 2 && t.oracle == [some ret])
    ∧ ends (step (hangs.start 0x11)) (fun t => ends (on t) (fun v => v.status == 0 && !v.stuck && v.trace == t.trace))
    ∧ ends (on ((args base 1 0 0 0).start 0x20)) (fun t => t.status == 0 && t.arg0 == 0 && t.trace == []) := by
  decide +kernel

/-- R187: a command whose second port call never returns has made that call and is BUSY after the next step, too. -/
theorem test_hung_command :
    let s := args { up with oracle := [some ret, none, some ret] } 0x100 2 3 0
    ends (step (s.start 0x11)) (fun t => t.status == 1 && t.stuck && t.oracle == [some ret]
      && t.trace.head? == some (.port (.spiRead 0 4 true) .pending) && ends (step t) (fun v => v == t)) := by
  decide +kernel

/-- R63: CONNECT and RESET that end with an error make the base cache INVALID, too. -/
theorem test_failed_connect_and_reset_invalidate :
    let s := (script up [⟨.notConnected, [], none⟩]).modConn 2 fun k => { k with baseCache := some 0x10000 }
    let gone := fun (w : Nat) (st : Word) => ends (run (args s 2 0 0 0) w)
      (fun t => t.status == st && (t.conn 2).baseCache == none)
    gone 0x203 0x00020106 ∧ gone 0x216 0x00040506
    ∧ ends (run (args s 1 0 0 0) 0x216) (fun t => t.status == 0x00020106 && (t.conn 2).baseCache == none) := by
  decide +kernel

/-! ### Legal states for the witnesses -/

/-- The state `up` with `conns` and `domains` of its first-port Master alone, its second-port Master alone and not
connected, and its SPI connection not connected. -/
def solo : State :=
  { base with
    conns := [(0, { live 0 .spi .none 0xFF with connected := false }), (2, live 2 .can .master 0xFF),
      (4, { live 6 .can .master 0xFF with connected := false })]
    domains := [(0, ⟨2, [⟨2, 0x7E0, 0x740⟩]⟩), (1, ⟨4, [⟨4, 0x600, 0x700⟩]⟩)] }

theorem tget_cases {α : Type} {P : Nat → α → Prop} : ∀ {t : Table α}, (∀ e ∈ t, P e.1 e.2) → ∀ x v, tget t x = some v → P x v
  | [], _, _, _, h => nomatch h
  | (k, w) :: r, hp, x, v, h => by
    simp only [tget] at h
    split at h
    · rename_i hk
      cases h; cases hk; exact hp _ (List.mem_cons_self ..)
    · exact tget_cases (fun e he => hp e (List.mem_cons_of_mem _ he)) x v h

theorem newBuf_legal (k : Kind) (n : Nat) (h : minBuf k ≤ n) (h' : n ≤ EX.bufMax) : (newBuf n).Legal EX k :=
  ⟨rfl, fun _ _ => rfl, h, h'⟩

theorem sizes_legal (k : Kind) : (minBuf k ≤ EX.buf0In.of k ∧ EX.buf0In.of k ≤ EX.bufMax)
    ∧ minBuf k ≤ EX.buf0Out.of k ∧ EX.buf0Out.of k ≤ EX.bufMax := by cases k <;> decide

theorem live_legal (d : Byte) (k : Kind) (r : Role) (m : Slot) (b : Bool) :
    ({ live d k r m with connected := b } : Conn).Legal EX :=
  ⟨newBuf_legal k _ (sizes_legal k).1.1 (sizes_legal k).1.2, newBuf_legal k _ (sizes_legal k).2.1 (sizes_legal k).2.2,
    fun _ h => (nomatch h), Nat.zero_le _, Nat.zero_le _⟩

theorem up_memory_legal : up.MemoryLegal where
  hbufWf := rfl
  hbufInside := fun _ _ => rfl
  connsWf := rfl
  conns := tget_cases fun e he => by
    simp only [up, upConns, List.mem_cons, List.not_mem_nil, or_false] at he
    rcases he with rfl | rfl | rfl | rfl | rfl | rfl <;> exact live_legal _ _ _ _ true
  domainsWf := rfl
  domains := tget_cases fun e he => by
    simp only [up, upDomains, List.mem_cons, List.not_mem_nil, or_false] at he
    rcases he with rfl | rfl <;> decide

theorem up_links_legal : up.LinksLegal where
  slot := tget_cases (P := fun x _ => x < up.cfg.nConn) (by decide +kernel)
  desc := tget_cases (P := fun _ (k : Conn) => k.desc.toNat < up.descs.length ∧ (up.descAt k.desc).kind = k.kind)
    (by decide +kernel)
  role := tget_cases (P := fun _ (k : Conn) => k.role = .none ↔ k.kind ≠ .can) (by decide +kernel)
  master := tget_cases (P := fun _ (k : Conn) => k.role ≠ .slave → k.master = noSlot) (by decide +kernel)

theorem solo_links_legal : solo.LinksLegal where
  slot := tget_cases (P := fun x _ => x < solo.cfg.nConn) (by decide +kernel)
  desc := tget_cases (P := fun _ (k : Conn) => k.desc.toNat < solo.descs.length ∧ (solo.descAt k.desc).kind = k.kind)
    (by decide +kernel)
  role := tget_cases (P := fun _ (k : Conn) => k.role = .none ↔ k.kind ≠ .can) (by decide +kernel)
  master := tget_cases (P := fun _ (k : Conn) => k.role ≠ .slave → k.master = noSlot) (by decide +kernel)

/-- The invariants of R36 as one Boolean over the listed domains and connections. -/
def routingOk (s : State) : Bool :=
  s.domains.all (fun e => decide (e.1 < 256) && match e.2.table with
    | [] => false
    | f :: fs => f.slot == e.2.dmaster && e.2.dmaster != noSlot && (s.conn f.slot).role == .master
        && fs.all (fun g => (s.conn g.slot).role == .slave && (s.conn g.slot).master == e.2.dmaster)
        && (f :: fs).all (fun g => match s.conn? g.slot with
          | some k => k.kind == .can && (s.descAt k.desc).port.toNat == e.1
          | none => false))
  && s.domains.all (fun e => decide (e.2.table.Pairwise (fun e f => overlaps s.cfg f.rxId f.txId e = false)))
  && s.conns.all (fun e => e.2.kind != .can
      || ((s.domain (s.descAt e.2.desc).port).table.filter (fun f => f.slot.toNat == e.1)).length == 1)

theorem domain_cases {s : State} {P : Byte → Domain → Prop} (h0 : ∀ q, P q emptyDomain)
    (h : ∀ e ∈ s.domains, ∀ q : Byte, q.toNat = e.1 → P q e.2) (q : Byte) : P q (s.domain q) := by
  unfold State.domain
  cases hq : tget s.domains q.toNat with
  | none => exact h0 q
  | some d => exact tget_cases (P := fun x d => ∀ q : Byte, q.toNat = x → P q d) h _ _ hq q rfl

theorem routing_legal_of {s : State} (h : routingOk s = true) : s.RoutingLegal := by
  simp only [routingOk, Bool.and_eq_true, List.all_eq_true] at h
  obtain ⟨⟨h1, h2⟩, h3⟩ := h
  have key : ∀ e ∈ s.domains, ∃ f fs, e.2.table = f :: fs ∧ f.slot = e.2.dmaster ∧ e.2.dmaster ≠ noSlot
      ∧ (s.conn f.slot).role = .master
      ∧ (∀ g ∈ fs, (s.conn g.slot).role = .slave ∧ (s.conn g.slot).master = e.2.dmaster)
      ∧ ∀ g ∈ f :: fs, ∃ k, s.conn? g.slot = some k ∧ k.kind = .can ∧ (s.descAt k.desc).port.toNat = e.1 := by
    intro e he
    have := (h1 e he).2
    cases ht : e.2.table with
    | nil => simp [ht] at this
    | cons f fs =>
      simp only [ht, Bool.and_eq_true, beq_iff_eq, bne_iff_ne, List.all_eq_true] at this
      obtain ⟨⟨⟨⟨ha, hb⟩, hc⟩, hd⟩, he⟩ := this
      refine ⟨f, fs, rfl, ha, hb, hc, hd, fun g hg => ?_⟩
      have := he g hg
      cases hk : s.conn? g.slot with
      | none => simp [hk] at this
      | some k => simp only [hk, Bool.and_eq_true, beq_iff_eq] at this; exact ⟨k, rfl, this⟩
  refine ⟨?_, ?_, ?_, ?_, ?_⟩
  · refine domain_cases (P := fun _ d => d.dmaster = noSlot ↔ d.table = []) (fun _ => by simp [emptyDomain]) ?_
    intro e he q _
    obtain ⟨f, fs, ht, -, hn, -⟩ := key e he
    simp [ht, hn]
  · refine domain_cases (P := fun _ d => ∀ e es, d.table = e :: es → e.slot = d.dmaster ∧ (s.conn e.slot).role = .master
      ∧ ∀ f ∈ es, (s.conn f.slot).role = .slave ∧ (s.conn f.slot).master = d.dmaster) (fun _ e es h => nomatch h) ?_
    intro e he q _ f' fs' hf
    obtain ⟨f, fs, ht, ha, -, hb, hc, -⟩ := key e he
    rw [ht] at hf; cases hf
    exact ⟨ha, hb, hc⟩
  · refine domain_cases (P := fun _ d => d.table.Pairwise (fun e f => overlaps s.cfg f.rxId f.txId e = false))
      (fun _ => List.Pairwise.nil) ?_
    intro e he q _
    exact of_decide_eq_true (h2 e he)
  · intro x k hk hc
    have := tget_cases (P := fun x (k : Conn) => (k.kind != .can
      || ((s.domain (s.descAt k.desc).port).table.filter (fun f => f.slot.toNat == x)).length == 1) = true)
      (fun e he => h3 e he) x.toNat k hk
    simp only [hc, bne_self_eq_false, Bool.false_or, beq_iff_eq] at this
    rw [← this]
    congr 2
    funext f
    by_cases hx : f.slot = x
    · simp [hx]
    · have : f.slot.toNat ≠ x.toNat := fun e => hx (BitVec.eq_of_toNat_eq e)
      simp [hx, this]
  · refine domain_cases (P := fun q d => ∀ e ∈ d.table, ∃ k, s.conn? e.slot = some k ∧ k.kind = .can
      ∧ (s.descAt k.desc).port = q) (fun _ e h => nomatch h) ?_
    intro e he q hq g hg
    obtain ⟨f, fs, ht, -, -, -, -, hd⟩ := key e he
    rw [ht] at hg
    obtain ⟨k, hk, hc, hp⟩ := hd g hg
    exact ⟨k, hk, hc, BitVec.eq_of_toNat_eq (hp.trans hq.symm)⟩

theorem up_routing_legal : up.RoutingLegal := routing_legal_of (by decide +kernel)

theorem solo_routing_legal : solo.RoutingLegal := routing_legal_of (by decide +kernel)

/-- The legality of a state is that of its tables. -/
theorem memory_legal_same {s t : State} (h : s.MemoryLegal) (hg : t.cfg = s.cfg) (hb : t.hbuf = s.hbuf)
    (hc : t.conns = s.conns) (hd : t.domains = s.domains) : t.MemoryLegal :=
  ⟨hb ▸ h.hbufWf, hg ▸ hb ▸ h.hbufInside, hc ▸ h.connsWf, hg ▸ hc ▸ h.conns, hd ▸ h.domainsWf, hd ▸ h.domains⟩

/-- The value of a computation that ends with one. -/
def valueOf {α : Type} [Inhabited α] (r : EStateM.Result Stop State α) : α :=
  match r with
  | .ok a _ => a
  | .error _ _ => default

/-- The state of a computation that ended. -/
def stateOf {α : Type} (r : EStateM.Result Stop State α) : State :=
  match r with
  | .ok _ t => t
  | .error _ t => t

/-- Whether a computation ends with a value. -/
def isOk {α : Type} (r : EStateM.Result Stop State α) : Bool :=
  match r with
  | .ok _ _ => true
  | .error _ _ => false

/-- How a computation stops short, if it does. -/
def stopOf {α : Type} (r : EStateM.Result Stop State α) : Option Stop :=
  match r with
  | .ok _ _ => none
  | .error x _ => some x

theorem ok_of {α : Type} [Inhabited α] {r : EStateM.Result Stop State α} (h : isOk r = true) :
    r = .ok (valueOf r) (stateOf r) := by
  cases r with
  | ok a t => rfl
  | error e t => cases h

theorem ran_of {r : EStateM.Result Stop State Unit} {t : State} (h : isOk r = true) (e : stateOf r = t) : r = .ok () t := by
  cases r with
  | ok a u => cases e; rfl
  | error x u => cases h

theorem error_of {α : Type} {r : EStateM.Result Stop State α} {x : Stop} (h : stopOf r = some x) :
    r = .error x (stateOf r) := by
  cases r with
  | ok a t => cases h
  | error e t => cases h; rfl

theorem next_of {o : Outcome} {p : State → Bool} (h : ends o p = true) : ∃ t, o = .next t ∧ p t = true := by
  cases o with
  | next t => exact ⟨t, rfl, h⟩
  | fault f => cases h
  | refused r => cases h

/-! ### Witnesses: encodings, the host window, rules over all instructions -/

theorem witness_DecodingAnEncodingGivesItBack :
    Instr.wf (.mbWriteData 0xFF 0x02 0xFFFFFFFF [0xAA, 0xBB]) = true ∧ Instr.wf (.reset 0xFF true) = true := by decide

theorem witness_EncodingADecodedCodeGivesItBack :
    decode (.cmd 0x0002FF16) = .ok (.reset 0xFF true)
    ∧ decode (.wire [0x01, 0x44, 0x06, 0x93, 0x02]) = .ok (.mbSendOpcode 0x01 0x06) := by decide +kernel

theorem hostWaits_none {s : State} (h : s.hostq = []) : hostWaits s := by
  intro x hx; simp [h] at hx

theorem witness_UnlistedOpcodeEndsUnsupported :
    base.wire = none ∧ hostWaits base
    ∧ (cmdReserved 0x00000000#32 = 0#14 ∧ cmdOp 0x00000000#32 ∉ listedOpcodes)
    ∧ cmdReserved 0x0003FF47#32 = 0#14 ∧ cmdOp 0x0003FF47#32 ∉ listedOpcodes :=
  ⟨rfl, hostWaits_none rfl, by decide +kernel⟩

theorem witness_ReservedFieldsEndReservedBits :
    base.wire = none ∧ hostWaits base ∧ cmdReserved 0x00040022#32 ≠ 0#14
    ∧ (cmdOp 0x00010011#32 ∈ listedOpcodes ∧ cmdE 0x00010011#32 = true
      ∧ cmdOp 0x00010011#32 ∉ [0x01#8, 0x06#8, 0x0A#8, 0x14#8, 0x42#8])
    ∧ (cmdOp 0x00020001#32 ∈ listedOpcodes ∧ cmdB 0x00020001#32 = true ∧ cmdOp 0x00020001#32 ≠ 0x16#8)
    ∧ cmdConn 0x00000120#32 ≠ 0#8 ∧ cmdOp 0x00000120#32 ∈ [0x20#8, 0x21#8] :=
  ⟨rfl, hostWaits_none rfl, by decide +kernel⟩

theorem witness_StepRunsTheDecodedCommand :
    (base.start 0x20).busy = true ∧ (base.start 0x20).stuck = false ∧ hostWaits (base.start 0x20)
    ∧ decode (base.start 0x20).code = .ok .crc16 ∧ (base.start 0x20).wire = none :=
  ⟨by decide +kernel, rfl, hostWaits_none rfl, by decide +kernel, rfl⟩

theorem witness_WritingCmdStartsTheCommand :
    base.busy = false ∧ (base.start 0x20).busy = true ∧ (base.start 0x20).stuck = false ∧ hostWaits (base.start 0x20)
    ∧ ∃ t, step (base.start 0x20) = .next t ∧ (!t.stuck) = true :=
  ⟨by decide +kernel, by decide +kernel, rfl, hostWaits_none rfl, next_of (by decide +kernel)⟩

theorem witness_HostAccessesReachTheirRegisters :
    base.busy = false ∧ 1023 < base.cfg.hbufSize ∧ mread { base with hbuf := [(1023, 7)] }.hbuf 1023 = some 7
    ∧ (0x028, base.errInfo) ∈ [(0x000, base.cmd), (0x004, base.arg0), (0x008, base.arg1), (0x00C, base.arg2),
      (0x010, base.arg3), (0x014, base.status), (0x018, base.result0), (0x01C, base.result1), (0x020, base.errAddr),
      (0x024, base.errSize), (0x028, base.errInfo)] := by decide +kernel

theorem witness_UndefinedBytesFaultWhereTheyAreUsed :
    (base.busy = false ∧ 1023 < base.cfg.hbufSize ∧ mread base.hbuf 1023 = none)
    ∧ (let s := args base 1024 0xFFFF 0 0
      1023 < s.arg0.toNat ∧ s.arg0.toNat ≤ s.cfg.hbufSize ∧ fits16 s.arg1 = true ∧ mread s.hbuf 1023 = none)
    ∧ (let s := args up 0 1024 0 0
      1023 < s.arg1.toNat ∧ s.admits 0 suitsRegister true ∧ s.accessError 0 true s.arg0 s.arg1.toNat = none)
    ∧ up.admits 2 suitsCan true ∧ up.admits 4 suitsDirect true ∧ mread up.hbuf 7 = none := by
  unfold State.admits; decide +kernel

theorem witness_ForbiddenHostAccessHasNoMove :
    (base.start 0x20).busy = true ∧ base.busy = false ∧ 0x014 ∉ [0x000, 0x004, 0x008, 0x00C, 0x010]
    ∧ 0x02C ∉ registerOffsets ∧ 0x002 ∉ registerOffsets ∧ 0xFF < 0x100 ∧ 0x100 + base.cfg.hbufSize ≤ 0x500 := by
  decide +kernel

/-- A command that ends without error, and one that ends with one, for the rules over all instructions. -/
theorem witness_exec_answers_next :
    (∃ t, exec (.rdreg 0) (args (script up [ret, got [0xAA, 0xBB, 0xDC, 0x9E]]) 0x100 2 1 0) = .next t
      ∧ (stErr t.status == false) = true)
    ∧ ∃ t, exec (.rdreg 0) (args (script up [ret, got [0xAA, 0xBB, 0, 0]]) 0x100 2 1 0) = .next t
      ∧ (stErr t.status == true) = true :=
  ⟨next_of (by decide +kernel), next_of (by decide +kernel)⟩

theorem witness_OperandRegistersAreNeverWritten : ∃ t, exec .crc16 base = .next t :=
  (next_of (p := fun _ => true) (by decide +kernel)).imp fun _ h => h.1

theorem witness_EveryCommandEndsInOneOfTwoWays :
    (∃ t, exec (.popdet 4) up = .next t) ∧ ∃ t, exec (.canrd 2) { up with oracle := [none] } = .next t ∧ t.stuck = true :=
  ⟨(next_of (p := fun _ => true) (by decide +kernel)).imp fun _ h => h.1, next_of (by decide +kernel)⟩

theorem witness_EventsAreAppendedInOrder : ∃ t, exec (.closeConn 0) (script up [ret]) = .next t :=
  (next_of (p := fun _ => true) (by decide +kernel)).imp fun _ h => h.1

theorem witness_OnlyNamedCommandsChangeTheTables :
    (∃ t, exec (.setaddr 1) (args up 0x11 0 0 0) = .next t) ∧ ∃ k, up.conn? 1 = some k :=
  ⟨(next_of (p := fun _ => true) (by decide +kernel)).imp fun _ h => h.1, ⟨_, rfl⟩⟩

theorem witness_OnlyDeliveredBytesOfHbufChange :
    ∃ t, exec (.getval 0) up = .next t ∧ stErr t.status = true ∧ hbufStored (.getval 0) up ≤ 8
      ∧ writesResult (.rdreg 0) = false := by
  obtain ⟨t, h, hp⟩ := next_of (show ends (exec (.getval 0) up) (fun t => stErr t.status) = true by decide +kernel)
  exact ⟨t, h, hp, by decide, rfl⟩

/-- EX with the smallest HBUF, and a state of it whose HBUF is written. -/
def tiny : State := { State.resetWith { EX with hbufSize := 8 } with hbuf := (List.range 8).map fun i => (i, 0#8) }

/-- A command stuck in a port call. -/
def hung : State := { up.start 0x230 with stuck := true }

theorem witness_EveryCommandEndsWhenPortsReturn_hangs :
    (up.admits 2 suitsCan true ∧ { up with oracle := [none] }.draw 0 = none)
    ∧ hung.busy = true ∧ hung.stuck = true ∧ hostWaits hung :=
  ⟨by unfold State.admits; decide +kernel, by decide +kernel, rfl, hostWaits_none rfl⟩

theorem witness_EveryCommandEndsWhenPortsReturn :
    tiny.cfg.wf = true ∧ tiny.MemoryLegal ∧ tiny.portsReturn ∧ ∀ x, x < tiny.cfg.hbufSize → mread tiny.hbuf x ≠ none := by
  refine ⟨by decide +kernel, ⟨by decide +kernel, ?_, rfl, fun _ _ h => (nomatch h), rfl, fun _ _ h => (nomatch h)⟩,
    fun h => (nomatch h), by decide +kernel⟩
  intro x hx
  have : tiny.hbuf.filter (fun e => decide (8 ≤ e.1)) = [] := by decide +kernel
  have h := tget_filter tiny.hbuf (fun k => decide (8 ≤ k)) x
  rw [this] at h
  have hx' : 8 ≤ x := hx
  rw [if_pos (by simpa using hx')] at h
  exact h.symm

/-! ### Witnesses: invariants and reset -/

theorem base_status_legal : base.StatusLegal :=
  ⟨by decide, by decide, by decide, by decide, by decide, by decide, nofun⟩

theorem witness_StatusStaysLegal :
    base.StatusLegal ∧ ∃ t, step { base with hostq := [.waiting (.write32 0 0x20)] } = .next t :=
  ⟨base_status_legal, (next_of (p := fun _ => true) (by decide +kernel)).imp fun _ h => h.1⟩

/-- A CLOSE of a Master as the command in progress, in a legal state. -/
def closing : State := up.start 0x202

theorem witness_MemoriesStayLegal : closing.cfg.wf = true ∧ closing.MemoryLegal ∧ ∃ t, step closing = .next t :=
  ⟨by decide +kernel, memory_legal_same up_memory_legal rfl rfl rfl rfl,
    (next_of (p := fun t => t.conn? 2 == none) (by decide +kernel)).imp fun _ h => h.1⟩

theorem witness_RoutingStaysLegal :
    up.cfg.wf = true ∧ up.StatusLegal ∧ up.LinksLegal ∧ up.RoutingLegal ∧ ∃ t, step up = .next t :=
  ⟨by decide +kernel, ⟨by decide, by decide, by decide, by decide, by decide, by decide, nofun⟩, up_links_legal,
    up_routing_legal, (next_of (p := fun _ => true) (by decide +kernel)).imp fun _ h => h.1⟩

theorem witness_ResetGivesTheResetValues :
    up.busy = false ∧ ∃ t, step { up with hostq := [.reset 3, .waiting (.read32 0x14)] } = .next t :=
  ⟨by decide +kernel, (next_of (p := fun t => t.conns == []) (by decide +kernel)).imp fun _ h => h.1⟩

/-- The reset comes to a command that would end, one that would hang, one that would use an `undef` byte, one whose code
is rejected, and one that is stuck. -/
theorem witness_ResetAbortsTheRunningCommand :
    let s := fun (v : State) (w : Word) => { v.start w with hostq := [.reset 1] }
    let good := args (script up [ret, got [0xAA, 0xBB, 0xDC, 0x9E]]) 0x100 2 1 0
    (s up 0).busy = true ∧ (s up 0).stuck = false
    ∧ (decode (s good 0x11).code = .ok (.rdreg 0)
      ∧ ∃ u, exec (.rdreg 0) { s good 0x11 with hostq := [], wire := none } = .next u ∧ (u.trace.length == 2) = true)
    ∧ (decode (s up 0x230).code = .ok (.canrd 2)
      ∧ ∃ u, exec (.canrd 2) { s up 0x230 with oracle := [none], hostq := [], wire := none } = .next u ∧ u.stuck = true)
    ∧ (decode (s up 0x20).code = .ok .crc16 ∧ exec .crc16 (args base 1 0 0 0) = .fault .undefRead)
    ∧ decode (s up 0).code = .error .unsupportedOpcode ∧ { s up 0x230 with stuck := true }.stuck = true :=
  ⟨by decide +kernel, rfl, ⟨by decide +kernel, next_of (by decide +kernel)⟩, ⟨by decide +kernel, next_of (by decide +kernel)⟩,
    ⟨by decide +kernel, rfl⟩, by decide +kernel, rfl⟩

/-! ### Witnesses: connections -/

/-- Each check of OPEN can be the first that fails, at the edge of its range. -/
theorem witness_OpenChecksThenConstructs_errors :
    let s := { up with conns := upConns.take 5 }
    let far := { s with descs := s.descs ++ [canDesc 2 ⟨0, 0, false, 0, 0x7FF, .universal, .a, 0, false⟩] }
    let wide := { base with descs := [canDesc 0 ⟨0, 0, false, 2 ^ 11 - 9, 0, .universal, .a, 0, false⟩,
      canDesc 0 ⟨0, 0, false, 0, 2 ^ 11, .universal, .a, 0, false⟩,
      canDesc 0 ⟨0, 0, false, 0x750, 0x759, .universal, .a, 0, false⟩] }
    firstError (openChecks (args s 0x100 0xFF 0 0) 7) = some .reservedBits
    ∧ firstError (openChecks (args s 0 0xFF 0 0) 8) = some .badConn
    ∧ firstError (openChecks (args s 0 0xFF 0 0) 0) = some .badConn
    ∧ firstError (openChecks (args s 8 0xFF 0 0) 7) = some .badDescriptor
    ∧ firstError (openChecks (args far 8 0xFF 0 0) 7) = some .badDescriptor
    ∧ firstError (openChecks (args s 0 0 0 0) 7) = some .badConn
    ∧ firstError (openChecks (args wide 0 0xFF 0 0) 7) = some .badDescriptor
    ∧ firstError (openChecks (args wide 1 0xFF 0 0) 7) = some .badDescriptor
    ∧ firstError (openChecks (args s 5 7 0 0) 7) = some .badConn
    ∧ firstError (openChecks (args s 5 0 0 0) 7) = some .badConn
    ∧ firstError (openChecks (args s 5 4 0 0) 7) = some .badDescriptor
    ∧ firstError (openChecks (args s 5 0xFF 0 0) 7) = some .portBusy
    ∧ firstError (openChecks (args wide 2 0xFF 0 0) 7) = some (.idOverlapSelf 0x759) := by decide +kernel

/-- A CAN OPEN that clashes with a registered entry, ones that clash with none, and an SPI OPEN. -/
theorem witness_OpenChecksThenConstructs_outcomes :
    (firstError (openChecks (args up 3 3 0 0) 7) = none
      ∧ clash EX 0x7E1 0x745 ⟨2, 0x7E0, 0x740⟩ ∧ (up.domain 0).table = [] ++ ⟨2, 0x7E0, 0x740⟩ :: [⟨3, 0x7E1, 0x750⟩])
    ∧ (firstError (openChecks (args up 5 3 0 0) 7) = none
      ∧ ∀ y ∈ (up.domain 0).table, ¬clash EX 0x7E2 0x760 y)
    ∧ (firstError (openChecks (args base 5 0xFF 0 0) 0) = none ∧ (base.domain 0).table = [])
    ∧ firstError (openChecks (args base 0 0xFF 0 0) 7) = none := by
  refine ⟨⟨by decide +kernel, .inr (.inr (.inr ⟨0x745, by unfold inRange; decide +kernel⟩)), by decide +kernel⟩,
    ⟨by decide +kernel, ?_⟩, by decide +kernel, by decide +kernel⟩
  intro y hy
  have : y = ⟨2, 0x7E0, 0x740⟩ ∨ y = ⟨3, 0x7E1, 0x750⟩ := by
    have h : (up.domain 0).table = [⟨2, 0x7E0, 0x740⟩, ⟨3, 0x7E1, 0x750⟩] := by decide +kernel
    rw [h] at hy
    simpa using hy
  unfold clash inRange
  rcases this with rfl | rfl <;>
    · simp only [show ∀ n : Nat, n + EX.canMaxDetections + 1 = n + 9 from fun _ => rfl]
      rintro (h | h | h | ⟨id, h1, h2⟩)
      · revert h; decide
      · revert h; decide
      · revert h; decide
      · simp at h1 h2; omega

theorem witness_CloseReleasesTheConnection :
    solo.LinksLegal ∧ solo.RoutingLegal ∧ up.LinksLegal ∧ up.RoutingLegal
    ∧ (solo.admits 0 suitsAny false ∧ (solo.conn 0).kind ≠ .can ∧ ((solo.conn 0).owner && (solo.conn 0).connected) = false)
    ∧ (up.admits 0 suitsAny false ∧ ((up.conn 0).owner && (up.conn 0).connected) = true)
    ∧ (up.admits 3 suitsAny false ∧ (up.conn 3).role = .slave)
    ∧ (solo.admits 4 suitsAny false ∧ (solo.conn 4).role = .master ∧ without solo 1 4 = [] ∧ (solo.conn 4).connected = false)
    ∧ (solo.admits 2 suitsAny false ∧ (solo.conn 2).role = .master ∧ without solo 0 2 = [] ∧ (solo.conn 2).connected = true)
    ∧ up.draw 0 = some (Config.freeDraw 0) :=
  ⟨solo_links_legal, solo_routing_legal, up_links_legal, up_routing_legal, by unfold State.admits; decide +kernel,
    by unfold State.admits; decide +kernel, by unfold State.admits; decide +kernel, by unfold State.admits; decide +kernel,
    by unfold State.admits; decide +kernel, rfl⟩

theorem witness_CloseOfAMasterElectsTheFirstEntry :
    up.LinksLegal ∧ up.RoutingLegal ∧ up.admits 2 suitsAny false ∧ (up.conn 2).role = .master
    ∧ without up (up.descOf 2).port 2 = ⟨3, 0x7E1, 0x750⟩ :: [] :=
  ⟨up_links_legal, up_routing_legal, by unfold State.admits; decide +kernel, by decide +kernel, by decide +kernel⟩

/-- A port call that fails because the driver is not connected. -/
def off : Draw := ⟨.notConnected, [], none⟩

theorem witness_ConnectOpensTheTransport :
    let s := { up with conns := [(2, { live 2 .can .master 0xFF with connected := false }), (3, live 4 .can .slave 2)] }
    (s.admits 3 suitsAny false ∧ (s.conn 3).role = .slave ∧ (s.conn (s.conn 3).master).connected = false)
    ∧ (up.admits 3 suitsAny false ∧ (up.conn 3).role = .slave ∧ (up.conn (up.conn 3).master).connected = true)
    ∧ (s.admits 2 suitsAny false ∧ (s.conn 2).role ≠ .slave)
    ∧ (script s [ret]).draw 0 = some ret ∧ (script s [off]).draw 0 = some off
    ∧ (script s [late true]).draw 0 = some (late true) := by
  unfold State.admits; decide +kernel

theorem witness_DisconnectClosesTheTransport :
    (up.admits 3 suitsAny false ∧ (up.conn 3).role = .slave)
    ∧ (solo.admits 0 suitsAny false ∧ (solo.conn 0).connected = false)
    ∧ (up.admits 2 suitsAny false ∧ (up.conn 2).role ≠ .slave ∧ (up.conn 2).connected = true)
    ∧ (script up [ret]).draw 0 = some ret ∧ (script up [off]).draw 0 = some off
    ∧ (script up [late false]).draw 0 = some (late false) := by
  unfold State.admits; decide +kernel

theorem witness_IsconnGetdtSetdtUseTheFlagsAndTheCache :
    up.admits 0 suitsAny false ∧ (up.conn 0).devType = none
    ∧ ((up.modConn 0 fun k => { k with devType := some 0x1234 }).conn 0).devType = some 0x1234 := by
  unfold State.admits; decide +kernel

theorem witness_ResizeKeepsTheCommonPrefix :
    up.MemoryLegal ∧ up.admits 0 suitsAny false ∧ up.admits 2 suitsAny false
    ∧ (args up 7 0 0 0).arg0.toNat < minBuf (up.conn 2).kind ∧ up.cfg.bufMax < (args up 4097 0 0 0).arg0.toNat
    ∧ ¬(args up 8 0 0 0).arg0.toNat < minBuf (up.conn 2).kind ∧ ¬up.cfg.bufMax < (args up 4096 0 0 0).arg0.toNat :=
  ⟨up_memory_legal, by unfold State.admits; decide +kernel⟩

theorem witness_BufpeekCopiesIntoHbuf :
    let checks := fun (o l : Word) => firstError [(decide (l = 0#32), Err.sizeZero o),
      (decide (up.cfg.hbufSize < l.toNat ∨ (up.conn 0).outbuf.len < o.toNat + l.toNat), .sizeTooLarge o l)]
    up.admits 0 suitsAny false ∧ checks 5 0 = some (.sizeZero 5) ∧ checks 0 1025 = some (.sizeTooLarge 0 1025)
    ∧ checks 1020 5 = some (.sizeTooLarge 1020 5) ∧ checks 1020 4 = none := by
  unfold State.admits; decide +kernel

theorem witness_SetaddrWritesTheDescriptor :
    up.admits 0 suitsAny false ∧ up.admits 1 suitsAny false ∧ up.admits 2 suitsAny false
    ∧ (args up 0x100 0 0 0).arg0.extractLsb' 8 24 ≠ 0#24 ∧ ¬(args up 0xFF 0 0 0).arg0.extractLsb' 8 24 ≠ 0#24
    ∧ (up.conn 0).kind = .spi ∧ (up.conn 1).kind = .modbus ∧ (up.conn 2).kind = .can := by
  unfold State.admits; decide +kernel

/-! ### Witnesses: CRC and the checks -/

theorem witness_CrcCommandsAnswerTheCrc :
    base.cfg.hbufSize < (args base 1025 0 0 0).arg0.toNat ∧ (args base 0 0x10000 0 0).arg1.extractLsb' 16 16 ≠ 0#16
    ∧ ¬base.cfg.hbufSize < (args base 1024 0 0 0).arg0.toNat ∧ (args base 0 0xFFFF 0 0).arg1.extractLsb' 16 16 = 0#16
    ∧ (0 < (args base 1 0 0 0).arg0.toNat ∧ mread base.hbuf 0 = none)
    ∧ (let s := withData (args base 2 0 0 0) [0xAA, 0xBB]
      [0xAA#8, 0xBB#8].length = s.arg0.toNat ∧ ∀ i, i < 2 → mread s.hbuf i = [0xAA#8, 0xBB#8][i]?) := by decide +kernel

theorem witness_Crc16IsTheLoopOfTheRule : crc16 [] = crc16 [] := rfl

theorem witness_CrcCheckFailsOnASingleBitFlip :
    let h : Bytes := [2, 0, 1, 0, 0, 2]
    let p : Bytes := [0xAA, 0xBB]
    crcCheck h p 0x105F = true ∧ h.length = h.length ∧ 7 < 8 ∧ (h ++ p)[7]? = some 0xBB
    ∧ h ++ [0xAA#8, 0x3B#8] = (h ++ p).set 7 (0xBB ^^^ (1#8 <<< 7)) := by decide +kernel

theorem witness_ErrorReportsAreThoseOfTheTables :
    (Err.bufTooSmall 7, 5, 17, 0#32, 7#32, false) ∈ reportTable 0x100 7 true 3 := by decide +kernel

/-- Each of the four common checks can be the first that fails. -/
theorem witness_CommonChecksComeInOrder :
    let report := fun (s : State) (c : Slot) (r : Instr × Bool × (Conn → Desc → Bool) × Bool) =>
      firstError [(!r.2.1, Err.reservedBits), (decide (s.cfg.nConn ≤ c.toNat ∨ s.conn? c = none), .badConn),
        (!r.2.2.1 (s.conn c) (s.descOf c), .wrongKind),
        (r.2.2.2 && !((s.conn c).connected
          && ((s.conn c).role != .slave || (s.conn (s.conn c).master).connected)), .notConnectedBlock)]
    (∃ r ∈ connRows (args up 4 0x100 0 0) 4 false, report (args up 4 0x100 0 0) 4 r = some .reservedBits)
    ∧ (∃ r ∈ connRows up 8 false, report up 8 r = some .badConn)
    ∧ (∃ r ∈ connRows up 0 true, report up 0 r = some .wrongKind)
    ∧ ∃ r ∈ connRows solo 0 true, report solo 0 r = some .notConnectedBlock := by
  refine ⟨⟨_, List.getElem_mem (n := 19) (by decide), by decide +kernel⟩,
    ⟨_, List.getElem_mem (n := 0) (by decide), by decide +kernel⟩,
    ⟨_, List.getElem_mem (n := 16) (by decide), by decide +kernel⟩,
    ⟨_, List.getElem_mem (n := 10) (by decide), by decide +kernel⟩⟩

/-- The limits of a register access, each at its edge. -/
theorem witness_RegisterAccessesAreChecked :
    up.admits 0 suitsRegister true ∧ up.admits 1 suitsRegister true ∧ up.admits 2 suitsRegister true
    ∧ (args up 0x100 0 0 0).arg1.toNat = 0 ∧ up.cfg.hbufSize < (args up 0 1025 0 0).arg1.toNat
    ∧ (up.conn 2).inbuf.len < (args up 0 65 0 0).arg1.toNat
    ∧ (up.conn 1).outbuf.len < (args up 0 257 0 0).arg1.toNat
    ∧ (up.descOf 1).mb.page.toNat < (args up 0 3 0 0).arg1.toNat
    ∧ 0xFFFFFF < (args up 0xFFFFFF 2 0 0).arg0.toNat + 2 - 1 ∧ ¬0xFFFFFF < (args up 0xFFFFFF 1 0 0).arg0.toNat + 1 - 1
    ∧ 0xFFFFFFFF < (args up 0xFFFFFFFE 3 0 0).arg0.toNat + 3 - 1 := by
  unfold State.admits; decide +kernel

/-! ### Witnesses: the register engine -/

/-- An attempt that fails until `k` sleeps are on the trace. -/
def failsUntil (k : Nat) (_ : Bool) : Cmd (Except Err Bytes) := fun s =>
  if s.trace.length = k then .ok (.ok [7]) s else .ok (.error .weVerify) s

/-- The states between such attempts. -/
def slept (j : Nat) : State := { base with trace := List.replicate j (.sleep 1) }

theorem witness_CrcBudgetBoundsTheAttempts :
    (∀ j, j < 2 → failsUntil 2 true (slept j) = .ok (.error .weVerify) (slept j)
      ∧ slept (j + 1) = (slept j).afterEvents [.sleep 1])
    ∧ failsUntil 2 true (slept 2) = .ok (.ok [7]) (slept 2)
    ∧ failsUntil 9 true (slept 2) = .ok (.error .weVerify) (slept 2)
    ∧ failsUntil 0 false (slept 0) = .ok (.ok [7]) (slept 0)
    ∧ raise (α := Except Err Bytes) .weVerify (slept 0) = .error (.err .weVerify) (slept 0) := by
  refine ⟨fun j hj => ⟨?_, rfl⟩, rfl, rfl, rfl, rfl⟩
  unfold failsUntil
  rw [if_neg (by simp [slept]; omega)]

theorem goes {s : State} {i : Nat} {d : Draw} (h : s.draw i = some d) (hf : d.fate = .returns) : goesThrough s i := ⟨d, h, hf⟩

theorem gets {s : State} {i n : Nat} {b r : Bytes} (h : s.draw i = some (got b)) (hr : r = spiAnswer (s.draws + i) n (got b)) :
    spiGets s i n r := ⟨got b, ⟨h, rfl⟩, hr⟩

/-- A bad answer then a good one within a budget of 2, a bad one with a budget of 1, and one without a check. -/
theorem witness_SpiReadIsOneFrameAnAttempt :
    let bad : Bytes := [0xAA, 0xBB, 0, 0]
    let good : Bytes := [0xAA, 0xBB, 0xDC, 0x9E]
    let s := fun (n : Word) => args (script up [ret, got bad, ret, got good]) 0x100 2 n 0
    let r := fun j : Nat => if j = 0 then bad else good
    (s 2).admits 0 suitsRegister true ∧ ((s 2).conn 0).kind = .spi ∧ (s 2).accessError 0 false 0x100 2 = none
    ∧ (∀ j, j ≤ 1 → goesThrough (s 2) (2 * j) ∧ spiGets (s 2) (2 * j + 1) 4 (r j))
    ∧ ¬spiPasses 0x03 0x100 2 (r 0) ∧ spiPasses 0x03 0x100 2 (r 1) ∧ (s 2).arg2.toNat = 2
    ∧ (goesThrough (s 1) 0 ∧ spiGets (s 1) 1 4 (r 0) ∧ (s 1).arg2.toNat = 1)
    ∧ goesThrough (s 0) 0 ∧ spiGets (s 0) 1 4 (r 0) ∧ (s 0).arg2.toNat = 0
    ∧ readyGuard 0 0 2 (s 2) = .ok () (s 2) := by
  refine ⟨by unfold State.admits; decide +kernel, by decide +kernel, by decide +kernel, ?_, ?_, ?_, rfl, ?_, ?_, ?_, rfl, rfl⟩
  · intro j hj
    obtain rfl | rfl : j = 0 ∨ j = 1 := by omega
    · exact ⟨goes (d := ret) rfl rfl, gets (b := [0xAA, 0xBB, 0, 0]) rfl (by decide +kernel)⟩
    · exact ⟨goes (d := ret) rfl rfl, gets (b := [0xAA, 0xBB, 0xDC, 0x9E]) rfl (by decide +kernel)⟩
  · unfold spiPasses; decide +kernel
  · unfold spiPasses; decide +kernel
  · exact ⟨goes (d := ret) rfl rfl, gets (b := [0xAA, 0xBB, 0, 0]) rfl (by decide +kernel), rfl⟩
  · exact goes (d := ret) rfl rfl
  · exact gets (b := [0xAA, 0xBB, 0, 0]) rfl (by decide +kernel)

/-- The ready guard of 10 ms: ready at the first poll, then the exchange; never ready; and a failed poll. -/
theorem witness_SpiReadIsOneFrameAnAttempt_guard :
    let s := fun (d : List Draw) => args (script up d) 0x100 2 1 10
    let ready := s [ret, got [0, 0x90, 0x4F], ret, got [0xAA, 0xBB, 0xDC, 0x9E]]
    let g := ready.afterEvents (spiStatusEvents ready 0 [0, 0x90, 0x4F])
    readyGuard 0 10 1 ready = .ok () g ∧ goesThrough g 0 ∧ spiGets g 1 4 [0xAA, 0xBB, 0xDC, 0x9E]
    ∧ stopOf (readyGuard 0 10 1 (s [ret, got [1, 0x50, 0x8E], ret, got [1, 0x50, 0x8E]])) = some (.err .timeoutReady)
    ∧ stopOf (readyGuard 0 10 1 (s [off])) = some (.err .notConnectedDriver) := by
  refine ⟨?_, goes (d := ret) rfl rfl, gets (b := [0xAA, 0xBB, 0xDC, 0x9E]) rfl (by decide +kernel), by decide +kernel,
    by decide +kernel⟩
  exact ran_of (by decide +kernel) (by decide +kernel)

theorem witness_ModbusAttemptChecksItsAnswer :
    driverErr off.fate = some .notConnectedDriver ∧ driverErr (late true).fate = some (.timeoutTransport true)
    ∧ (script up [ret, late true]).draw 0 = some ret ∧ (script up [ret, late true]).draw 1 = some (late true)
    ∧ ((got [1, 0x42, 0xAA]).bytes.take 6).length ≠ 6
    ∧ (let a : Bytes := [1, 0x42, 0xAA, 0xBB, 0, 0]
      a.length = 6 ∧ a.drop 4 ≠ loHi (crc16 (a.take 4)) ∧ a.take 2 = [1, 0x42])
    ∧ (let a : Bytes := [2, 0x42, 0xAA, 0xBB, 0x9F, 0x5B]
      a.length = 6 ∧ a.drop 4 = loHi (crc16 (a.take 4)) ∧ a.take 2 ≠ [1, 0x42])
    ∧ let a : Bytes := [1, 0x42, 0xAA, 0xBB, 0x9F, 0x1F]
      a.length = 6 ∧ a.drop 4 = loHi (crc16 (a.take 4)) ∧ a.take 2 = [1, 0x42] := by decide +kernel

/-- A read of one page. -/
theorem witness_RegisterReadsDeliverTheirPages :
    let a : Bytes := [1, 0x42, 0xAA, 0xBB, 0x9F, 0x1F]
    let s := args (script up [ret, got a]) 0x100 2 1 0
    s.admits 1 suitsRegister true ∧ (s.conn 1).kind = .modbus ∧ s.accessError 1 false s.arg0 2 = none
    ∧ 2 ≤ (s.descOf 1).mb.page.toNat ∧ mbGets s (s.descOf 1).mb.devAddr 0x42 2 (s.arg2 ≠ 0#32) a
    ∧ isOk (tRead 1 EX.opcRegmapRead 0x100 2 1 0 s) = true
    ∧ stopOf (tRead 1 EX.opcRegmapRead 0x100 2 1 0 (script up [off])) = some (.err .notConnectedDriver) :=
  ⟨by unfold State.admits; decide +kernel, by decide +kernel, by decide +kernel, by decide +kernel,
    ⟨goes (d := ret) rfl rfl, ⟨got [1, 0x42, 0xAA, 0xBB, 0x9F, 0x1F], ⟨rfl, rfl⟩, by decide +kernel⟩, rfl, by decide +kernel,
      fun _ => by decide +kernel⟩, by decide +kernel, by decide +kernel⟩

/-- A read of 3 bytes in pages of 2: both pages go well, or the guard of the first fails. -/
theorem witness_RegisterReadsDeliverTheirPages_pages :
    let a : Bytes := [1, 0x42, 0xAA, 0xBB, 0x9F, 0x1F]
    let s := script up [ret, got a, ret, got [1, 0x42, 0xCC, 0x10, 0xF5]]
    let u := s.afterEvents (mbEvents s 1 ([1, 0x42, 0x03] ++ bigEndian 0x100 ++ hiLo 2) 2 a)
    (s.conn 1).kind = .modbus ∧ (s.descOf 1).mb.page.toNat = 2 ∧ (3 + 2 - 1) / 2 = 2 ∧ min 2 (3 - 1 * 2) = 1
    ∧ readyGuard 1 0 1 s = .ok () s ∧ mbGets s 1 0x42 2 (1 ≠ 0) a
    ∧ readyGuard 1 0 1 u = .ok () u ∧ mbGets u 1 0x42 1 (1 ≠ 0) [1, 0x42, 0xCC, 0x10, 0xF5]
    ∧ stopOf (readyGuard 1 10 1 (script up [off])) = some (.err .notConnectedDriver) :=
  ⟨by decide +kernel, by decide +kernel, rfl, rfl, rfl,
    ⟨goes (d := ret) rfl rfl, ⟨got [1, 0x42, 0xAA, 0xBB, 0x9F, 0x1F], ⟨rfl, rfl⟩, rfl⟩, rfl, rfl, fun _ => by decide +kernel⟩,
    rfl, ⟨goes (d := ret) rfl rfl, ⟨got [1, 0x42, 0xCC, 0x10, 0xF5], ⟨rfl, rfl⟩, rfl⟩, rfl, rfl, fun _ => by decide +kernel⟩,
    by decide +kernel⟩

/-- The state before poll `j` of an ISREADY from `s`. -/
def pollState (s : State) : Nat → State
  | 0 => s
  | j + 1 => (stateOf (getStatus 0 1 (pollState s j))).afterEvents [.sleep 10]

/-- An ISREADY with a budget of two sleeps whose first two polls are busy. -/
def polling (last : Draw) : State :=
  args (script up [ret, got [1, 0x50, 0x8E], ret, got [1, 0x50, 0x8E], ret, last]) 20 0 1 0

/-- The third poll is ready, or busy, or fails. -/
theorem witness_ReadyPollsReadTheBusyBit :
    let ready := got [0, 0x90, 0x4F]
    let busy := got [1, 0x50, 0x8E]
    let poll := fun (d : Draw) (j : Nat) => getStatus 0 1 (pollState (polling d) j)
    (polling ready).admits 0 suitsRegister true ∧ (20 = (polling ready).arg0.toNat ∧ 1 = (polling ready).arg2.toNat)
    ∧ 2 = (20 + 9) / 10
    ∧ (∀ j, pollState (polling ready) (j + 1) = (stateOf (poll ready j)).afterEvents [.sleep 10])
    ∧ (∃ x t, poll ready 0 = .ok x t ∧ x.getLsbD 0 = true) ∧ (∃ x t, poll ready 1 = .ok x t ∧ x.getLsbD 0 = true)
    ∧ (∃ x t, poll ready 2 = .ok x t ∧ x.getLsbD 0 = false) ∧ (∃ x t, poll busy 2 = .ok x t ∧ x.getLsbD 0 = true)
    ∧ ∃ t, poll off 2 = .error (.err .notConnectedDriver) t :=
  ⟨by unfold State.admits; decide +kernel, by decide +kernel, rfl, fun _ => rfl, ⟨_, _, ok_of (by decide +kernel), by decide +kernel⟩,
    ⟨_, _, ok_of (by decide +kernel), by decide +kernel⟩, ⟨_, _, ok_of (by decide +kernel), by decide +kernel⟩,
    ⟨_, _, ok_of (by decide +kernel), by decide +kernel⟩, ⟨_, error_of (by decide +kernel)⟩⟩

theorem reads_status {s : State} {i n : Nat} {b : Bytes} (h0 : s.draw i = some ret) (h : s.draw (i + 1) = some (got b))
    (hr : b = spiAnswer (s.draws + (i + 1)) 3 (got b)) (hp : n ≠ 0 → b.drop 1 = hiLo (crc16 (spiHead s.cfg.opcReadStatus.wire 0#32 1 ++ b.take 1))) :
    statusRead s i n b := ⟨goes h0 rfl, gets h hr, hp⟩

theorem witness_StatusCommandsReadTheStatusByte :
    let s := fun (b : Bytes) => args (script up [ret, got b]) 0 0 1 0
    let e := fun (b : Bytes) => args (script up [ret, ret, got b]) 0 0 1 0
    (s [0, 0x90, 0x4F]).admits 0 suitsRegister true ∧ ((s [0, 0x90, 0x4F]).conn 0).kind = .spi
    ∧ statusRead (s [0, 0x90, 0x4F]) 0 1 [0, 0x90, 0x4F] ∧ ([0#8, 0x90#8, 0x4F#8].getD 0 0#8).getLsbD 0 = false
    ∧ statusRead (s [1, 0x50, 0x8E]) 0 1 [1, 0x50, 0x8E] ∧ ([1#8, 0x50#8, 0x8E#8].getD 0 0#8).getLsbD 0 = true
    ∧ goesThrough (e [2, 0x51, 0xCE]) 0 ∧ statusRead (e [2, 0x51, 0xCE]) 1 1 [2, 0x51, 0xCE]
    ∧ ([2#8, 0x51#8, 0xCE#8].getD 0 0#8).getLsbD EX.statusWelBit = true
    ∧ ([0#8, 0x90#8, 0x4F#8].getD 0 0#8).getLsbD EX.statusWelBit ≠ true :=
  ⟨by unfold State.admits; decide +kernel, by decide +kernel,
    reads_status rfl rfl (by decide +kernel) fun _ => by decide +kernel, by decide,
    reads_status rfl rfl (by decide +kernel) fun _ => by decide +kernel, by decide, goes (d := ret) rfl rfl,
    reads_status rfl rfl (by decide +kernel) fun _ => by decide +kernel, by decide, by decide⟩

/-- The Modbus answer of an opcode request with a good CRC. -/
def mbOpcodeGood : Draw := got [1, 0x44, 0x00, 0x13]

/-- The Modbus answer of a status read with a good CRC: write enable set, or clear. -/
def mbStatusGood (set : Bool) : Draw := got (if set then [1, 0x42, 2, 0x91, 0x61] else [1, 0x42, 0, 0x10, 0xA0])

/-- On Modbus, and the status read on Universal-over-CAN: the status read ends with a byte or an error; the opcode of the
handshake fails, the status read after it fails, or it answers the bit asked for or the other one. -/
theorem witness_StatusCommandsReadTheStatusByte_any :
    let s := fun (d : List Draw) => args (script up d) 0 0 1 0
    let read := fun (d : List Draw) => tRead 1 EX.opcReadStatus 0 1 1 0 (s d)
    let sent := fun (d : List Draw) => stateOf (tOpcode 1 EX.opcWren 1 (s ([ret, mbOpcodeGood] ++ d)))
    (s []).admits 1 suitsRegister true ∧ (s []).arg2.toNat = 1
    ∧ isOk (read [ret, mbStatusGood true]) = true ∧ stopOf (read [off]) = some (.err .notConnectedDriver)
    ∧ isOk (getStatus 2 1 (s [ret, rx 0x740 [5, 1, 0, 0, 1]])) = true
    ∧ stopOf (tOpcode 1 EX.opcWren 1 (s [off])) = some (.err .notConnectedDriver)
    ∧ isOk (tOpcode 1 EX.opcWren 1 (s [ret, mbOpcodeGood])) = true
    ∧ stopOf (getStatus 1 1 (sent [off])) = some (.err .notConnectedDriver)
    ∧ (∀ e, isOk (getStatus 1 1 (sent [ret, mbStatusGood e])) = true
      ∧ (valueOf (getStatus 1 1 (sent [ret, mbStatusGood e]))).getLsbD EX.statusWelBit = e)
    ∧ isOk (setWriteEnable 1 true 1 (s [ret, mbOpcodeGood, ret, mbStatusGood true])) = true
    ∧ stopOf (setWriteEnable 1 true 1 (s [ret, mbOpcodeGood, ret, mbStatusGood false])) = some (.err .weVerify) :=
  ⟨by unfold State.admits; decide +kernel, by decide +kernel⟩

theorem witness_ResetSendsTheOpcodeOfItsType :
    let s := args (script up [ret]) 1 0 1 0
    s.admits 0 suitsRegister true ∧ (∀ x ∈ s.cfg.resetTypes, x.code ≠ (args up 2 0 1 0).arg0)
    ∧ (s.cfg.resetTypes = [⟨0, ⟨0x66, 0x66⟩, ⟨0x67, 0x67⟩⟩] ++ ⟨1, ⟨0x99, 0x99⟩, ⟨0x9A, 0x9A⟩⟩ :: []
      ∧ ∀ y ∈ [(⟨0, ⟨0x66, 0x66⟩, ⟨0x67, 0x67⟩⟩ : ResetType)], y.code ≠ s.arg0)
    ∧ (∃ t, tOpcode 0 ⟨0x9A, 0x9A⟩ 1 s = .ok () t) ∧ (s.conn 0).kind = .spi ∧ goesThrough s 0
    ∧ stopOf (tOpcode 0 ⟨0x9A, 0x9A⟩ 1 (script up [off])) = some (.err .notConnectedDriver) :=
  ⟨by unfold State.admits; decide +kernel, by decide +kernel, by decide +kernel, ⟨_, ok_of (by decide +kernel)⟩,
    by decide +kernel, goes (d := ret) rfl rfl, by decide +kernel⟩

/-- The opcode transfer on each transport, answered and failed, and the good answer of RESET on Modbus. -/
theorem witness_ResetSendsTheOpcodeOfItsType_any :
    let s := args (script up [ret, mbOpcodeGood]) 1 0 1 0
    let op : Opc := ⟨0x9A, 0x9A⟩
    let exchange := fun (d : List Draw) => withCrcRetry 1 (mbAttempt 0 1 0x44
      ([1, 0x44, 0x9A] ++ loHi (crc16 [1, 0x44, 0x9A])) 0 0 0) (.crcModbus 0 0) (script up d)
    ((up.conn 0).kind = .spi ∧ (script up [ret]).draw 0 = some ret ∧ (script up [off]).draw 0 = some off
      ∧ ret.fate = .returns ∧ driverErr off.fate = some .notConnectedDriver)
    ∧ ((up.conn 1).kind = .modbus ∧ (up.descOf 1).port = 0 ∧ (up.descOf 1).mb.devAddr = 1
      ∧ isOk (exchange [ret, mbOpcodeGood]) = true ∧ stopOf (exchange [off]) = some (.err .notConnectedDriver))
    ∧ ((up.conn 2).kind = .can ∧ isOk (canuExchange 2 (frameOf op.canu 0 []) (script up [ret, rx 0x740 [0x9A]])) = true
      ∧ stopOf (canuExchange 2 (frameOf op.canu 0 []) (script up [off])) = some (.err .notConnectedDriver))
    ∧ s.admits 1 suitsRegister true ∧ mbGets s 1 0x44 0 (s.arg2 ≠ 0) [1, 0x44, 0x00, 0x13] :=
  ⟨⟨by decide +kernel, rfl, rfl, rfl, rfl⟩, by decide +kernel, by decide +kernel, by unfold State.admits; decide +kernel,
    goes (d := ret) rfl rfl, ⟨mbOpcodeGood, ⟨rfl, rfl⟩, rfl⟩, rfl, rfl, fun _ => by decide +kernel⟩

/-- A write sequence on SPI, whose write ends as the second answer says and whose clear as the third. -/
def writing (tx clear : Draw) : State :=
  args (script up [ret, ret, got [2, 0x51, 0xCE], ret, ret, tx, ret, ret, clear]) 0x100 2 1 0

/-- The state before the write of that sequence. -/
def beforeWrite (tx clear : Draw) : State :=
  (stateOf (setWriteEnable 0 true 1 (writing tx clear))).modConn 0 fun k => { k with
    inbuf := bufWrite k.inbuf 0 [0xAA, 0xBB] }

/-- The write of that sequence. -/
def write (tx clear : Draw) : EStateM.Result Stop State Unit :=
  tWrite 0 EX.opcRegmapWrite 0x100 2 1 0 (beforeWrite tx clear)

/-- The set of the write enable succeeds or fails; after a success the write succeeds or fails, and after a failure the
clear succeeds or fails. -/
theorem witness_WriteSequenceClearsTheWriteEnable :
    stopOf (setWriteEnable 0 true 1 (script up [off])) = some (.err .notConnectedDriver)
    ∧ isOk (setWriteEnable 0 true 1 (writing off off)) = true
    ∧ isOk (write (got [0, 0x50, 0x2D]) off) = true
    ∧ stopOf (write off off) = some (.err .notConnectedDriver)
    ∧ isOk (setWriteEnable 0 false 1 (stateOf (write off (got [0, 0x90, 0x4F])))) = true
    ∧ stopOf (setWriteEnable 0 false 1 (stateOf (write off off))) = some (.err .notConnectedDriver) :=
  ⟨by decide +kernel, by decide +kernel, by decide +kernel, by decide +kernel, by decide +kernel, by decide +kernel⟩

/-- WRREG of two bytes of HBUF, whose write sequence succeeds or fails. -/
theorem witness_WriteSequenceClearsTheWriteEnable_wrreg :
    let s := withData (writing (got [0, 0x50, 0x2D]) (got [0, 0x90, 0x4F])) [0xAA, 0xBB]
    s.admits 0 suitsRegister true ∧ s.accessError 0 true s.arg0 s.arg1.toNat = none ∧ [0xAA#8, 0xBB#8].length = s.arg1.toNat
    ∧ (∀ i, i < 2 → mread s.hbuf i = [0xAA#8, 0xBB#8][i]?) ∧ isOk (writeSeq 0 0x100 [0xAA, 0xBB] 1 0 s) = true
    ∧ stopOf (writeSeq 0 0x100 [0xAA, 0xBB] 1 0 (script up [off])) = some (.err .notConnectedDriver) :=
  ⟨by unfold State.admits; decide +kernel, by decide +kernel⟩

/-- Transaction-info answers: a bad CRC, success, CRC-failed, write-disabled, and an unknown code. -/
theorem witness_TransactionInfoIsDecoded :
    let s := fun (b : Bytes) => script up [ret, got b]
    let passes := fun (b : Bytes) => spiPasses 0x03 EX.txinfoAddr 1 b
    EX.wf = true ∧ goesThrough (s [0, 0x50, 0x2C]) 0 ∧ spiGets (s [0, 0x50, 0x2C]) 1 3 [0, 0x50, 0x2C]
    ∧ ¬passes [0, 0x50, 0x2C] ∧ passes [0, 0x50, 0x2D] ∧ passes [5, 0x53, 0xED] ∧ passes [4, 0x93, 0x2C]
    ∧ passes [0x7F, 0xB0, 0x6C]
    ∧ 0x7F#8 ∉ [EX.txCodes.accessViolation, EX.txCodes.invalidAddress, EX.txCodes.commandNotFound, EX.txCodes.writeDisabled,
      EX.txCodes.crcFailed, EX.txCodes.execError] ∧ EX.txCodes.crcFailed = 5 ∧ EX.txCodes.writeDisabled = 4 := by
  refine ⟨test_EX_is_legal, goes (d := ret) rfl rfl, gets (b := [0, 0x50, 0x2C]) rfl (by decide +kernel), ?_⟩
  unfold spiPasses; decide +kernel

/-- The answers of a good SPI write sequence of one page. -/
def goodWrite : List Draw :=
  [ret, ret, got [2, 0x51, 0xCE], ret, ret, got [0, 0x50, 0x2D], ret, ret, got [0, 0x90, 0x4F]]

theorem good_write {s : State} {i n : Nat} (hc : s.cfg = EX) (h0 : s.draw i = some ret) (h1 : s.draw (i + 1) = some ret)
    (h2 : s.draw (i + 2) = some (got [2, 0x51, 0xCE])) (h3 : s.draw (i + 3) = some ret) (h4 : s.draw (i + 4) = some ret)
    (h5 : s.draw (i + 5) = some (got [0, 0x50, 0x2D])) (h6 : s.draw (i + 6) = some ret) (h7 : s.draw (i + 7) = some ret)
    (h8 : s.draw (i + 8) = some (got [0, 0x90, 0x4F])) :
    spiWriteGood s i n [2, 0x51, 0xCE] [0, 0x50, 0x2D] [0, 0x90, 0x4F] := by
  refine ⟨goes h0 rfl, ⟨goes h1 rfl, gets (b := [2, 0x51, 0xCE]) h2 rfl, fun _ => ?_⟩, ?_, goes h3 rfl, goes h4 rfl,
    gets (b := [0, 0x50, 0x2D]) h5 rfl, rfl, fun _ => ?_, goes h6 rfl,
    ⟨goes h7 rfl, gets (b := [0, 0x90, 0x4F]) h8 rfl, fun _ => ?_⟩, ?_⟩ <;> rw [hc] <;> (try unfold spiPasses) <;>
    decide +kernel

theorem witness_WritesSendTheirFrames :
    let s := withData (args (script up goodWrite) 0x100 2 2 0) [0xAA, 0xBB]
    s.admits 0 suitsRegister true ∧ (s.conn 0).kind = .spi ∧ s.accessError 0 true s.arg0 s.arg1.toNat = none
    ∧ s.arg1.toNat ≤ 512 ∧ (∀ i, i < 2 → mread s.hbuf i = [0xAA#8, 0xBB#8][i]?)
    ∧ spiWriteGood s 0 s.arg2.toNat [2, 0x51, 0xCE] [0, 0x50, 0x2D] [0, 0x90, 0x4F] :=
  ⟨by unfold State.admits; decide +kernel, by decide +kernel, by decide +kernel, by decide +kernel, by decide +kernel,
    good_write rfl rfl rfl rfl rfl rfl rfl rfl rfl rfl⟩

/-- The block with data in every `inbuf`. -/
def loaded (d : List Draw) (b : Bytes) : State :=
  let fill := fun (k : Conn) => { k with inbuf := bufWrite k.inbuf 0 b }
  (((script up d).modConn 0 fill).modConn 1 fill).modConn 2 fill

theorem holds_of {s : State} {c : Slot} {b : Bytes} (h : mreadBytes (s.conn c).inbuf.mem 0 b.length = some b) :
    inbufHolds s c b := fun i hi => by
  have := (mreadBytes_eq_some.1 h).2 i hi
  rwa [Nat.zero_add] at this

/-- An SPI page with 10 ms of ready timeout: guard, frame, guard, transaction info; a guard that fails before the frame and
one after it. -/
theorem witness_WritesSendTheirFrames_spi :
    let ok := [ret, got [0, 0x90, 0x4F]]
    let s := loaded (ok ++ [ret] ++ ok ++ [ret, got [0, 0x50, 0x2D]]) [0xAA, 0xBB]
    let sent := fun (g : State) => g.afterEvents
      [.port (.spiWrite 0 (withCrc (spiHead 0x02 0x100 2 ++ [0xAA, 0xBB])) true) .done]
    let g := s.afterEvents (spiStatusEvents s 0 [0, 0x90, 0x4F])
    let h := (sent g).afterEvents (spiStatusEvents s 0 [0, 0x90, 0x4F])
    inbufHolds s 0 [0xAA, 0xBB] ∧ (s.conn 0).kind = .spi ∧ (2 + 511) / 512 = 1 ∧ goesThrough g 0
    ∧ readyGuard 0 10 1 s = .ok () g ∧ readyGuard 0 10 1 (sent g) = .ok () h
    ∧ (∃ t, txInfo 0 true 0x100 2 h = .ok (.ok []) t)
    ∧ stopOf (readyGuard 0 10 1 (loaded [off] [0xAA, 0xBB])) = some (.err .notConnectedDriver)
    ∧ stopOf (readyGuard 0 10 1 (sent { g with oracle := [some ret, some off] })) = some (.err .notConnectedDriver) := by
  intro ok s sent g h
  refine ⟨holds_of (by decide +kernel), by decide +kernel, rfl, goes (d := ret) (by decide +kernel) rfl,
    ran_of (by decide +kernel) (by decide +kernel), ran_of (by decide +kernel) (by decide +kernel), ?_, by decide +kernel,
    by decide +kernel⟩
  exact ⟨_, (ok_of (by decide +kernel)).trans (congrArg (fun a => EStateM.Result.ok a _) (by decide +kernel))⟩

/-- A Modbus write, and two chunks of a write on Universal-over-CAN whose page is cached; each step of a chunk may fail. -/
theorem witness_WritesSendTheirFrames_modbus_can :
    let m := loaded [ret, got [1, 0x43, 0x41, 0xD1]] [0xAA, 0xBB]
    let data : Bytes := [1, 2, 3, 4, 5]
    let s := (loaded [ret, rx 0x740 [2], ret, rx 0x740 [2]] data).modConn 2 fun k => { k with baseCache := some 0 }
    let f := fun (a : Word) (b : Bytes) => frameOf 0x02 (BitVec.ofNat 8 b.length) ([a.extractLsb' 0 8, a.extractLsb' 8 8] ++ b)
    let u := stateOf (canuExchange 2 (f 0x100 [1, 2, 3, 4]) s)
    (inbufHolds m 1 [0xAA, 0xBB] ∧ (m.conn 1).kind = .modbus ∧ readyGuard 1 0 1 m = .ok () m
      ∧ mbGets m 1 0x43 0 (1 ≠ 0) [1, 0x43, 0x41, 0xD1])
    ∧ (inbufHolds s 2 data ∧ (s.conn 2).kind = .can ∧ (5 + 3) / 4 = 2)
    ∧ (readyGuard 2 0 1 s = .ok () s ∧ baseCheck 2 0x100 s = .ok () s ∧ isOk (canuExchange 2 (f 0x100 [1, 2, 3, 4]) s) = true)
    ∧ (readyGuard 2 0 1 u = .ok () u ∧ baseCheck 2 0x104 u = .ok () u ∧ isOk (canuExchange 2 (f 0x104 [5]) u) = true)
    ∧ stopOf (readyGuard 2 10 1 (loaded [off] data)) = some (.err .notConnectedDriver)
    ∧ stopOf (baseCheck 2 0x100 (loaded [off] data)) = some (.err .notConnectedDriver)
    ∧ stopOf (canuExchange 2 (f 0x100 [1, 2, 3, 4]) (loaded [off] data)) = some (.err .notConnectedDriver) := by
  intro m data s f u
  exact ⟨⟨holds_of (by decide +kernel), by decide +kernel, rfl, goes (d := ret) rfl rfl,
      ⟨got [1, 0x43, 0x41, 0xD1], ⟨rfl, rfl⟩, rfl⟩, rfl, rfl, fun _ => by decide +kernel⟩,
    ⟨holds_of (by decide +kernel), by decide +kernel, rfl⟩,
    ⟨rfl, ran_of (by decide +kernel) (by decide +kernel), by decide +kernel⟩,
    ⟨rfl, ran_of (by decide +kernel) (by decide +kernel), by decide +kernel⟩,
    by decide +kernel, by decide +kernel, by decide +kernel⟩

theorem witness_InitRunsItsFourSteps :
    let s := script up ([ret, got [0x34, 0x12, 0, 0]] ++ goodWrite ++ goodWrite ++ goodWrite)
    s.admits 0 suitsRegister true ∧ (s.conn 0).kind = .spi ∧ (s.descOf 0).gen = .new
    ∧ s.accessError 0 false EX.devtypeAddrNew EX.devtypeSize = none
    ∧ goesThrough s 0 ∧ spiGets s 1 (EX.devtypeSize + 2) [0x34, 0x12, 0, 0]
    ∧ (∀ w ∈ [EX.initSecure, EX.initReadypin, EX.initPartial],
      s.accessError 0 true w.addrNew w.data.length = none ∧ w.data.length ≤ 512)
    ∧ ∀ j, j < 3 → spiWriteGood s (2 + 9 * j) EX.defaultCrcRetries [2, 0x51, 0xCE] [0, 0x50, 0x2D] [0, 0x90, 0x4F] := by
  refine ⟨by unfold State.admits; decide +kernel, by decide +kernel, by decide +kernel, by decide +kernel,
    goes (d := ret) rfl rfl, gets (b := [0x34, 0x12, 0, 0]) rfl (by decide +kernel), by decide +kernel, fun j hj => ?_⟩
  obtain rfl | rfl | rfl : j = 0 ∨ j = 1 ∨ j = 2 := by omega
  · exact good_write rfl rfl rfl rfl rfl rfl rfl rfl rfl rfl
  · exact good_write rfl rfl rfl rfl rfl rfl rfl rfl rfl rfl
  · exact good_write rfl rfl rfl rfl rfl rfl rfl rfl rfl rfl

/-- The answers of a good Modbus write sequence. -/
def mbGoodWrite : List Draw :=
  [ret, mbOpcodeGood, ret, mbStatusGood true, ret, got [1, 0x43, 0x41, 0xD1], ret, mbOpcodeGood, ret, mbStatusGood false]

/-- INIT on Modbus: the read and each of the three writes end well, or with an error; and a size check of an access fails
under a configuration with an empty register or an empty write. -/
theorem witness_InitRunsItsFourSteps_any :
    let s := fun (d : List Draw) => script up d
    let read := fun (d : List Draw) => tRead 1 EX.opcRegmapRead 0 2 0 0 (s d)
    let type := got [1, 0x42, 0x34, 0x12, 0x37, 0x01]
    let x0 := fun (d : List Draw) => { (stateOf (read (ret :: type :: d))).modConn 1 fun k => { k with
      devType := some 0x1234 } with result0 := 0x1234 }
    let write := fun (j : Nat) => writeSeq 1 ((initWriteAt EX j).addr .new) (initWriteAt EX j).data 3 0
    let check := fun (j : Nat) (u : State) => u.accessError 1 true ((initWriteAt EX j).addr .new) (initWriteAt EX j).data.length
    let x := fun (d : List Draw) (j : Nat) => if j = 0 then x0 d else if j = 1 then stateOf (write 0 (x0 d))
      else if j = 2 then stateOf (write 1 (stateOf (write 0 (x0 d))))
      else stateOf (write 2 (stateOf (write 1 (stateOf (write 0 (x0 d))))))
    let good := mbGoodWrite ++ mbGoodWrite ++ mbGoodWrite
    (s good).admits 1 suitsRegister true ∧ (up.descOf 1).gen = .new ∧ (up.conn 1).kind = .modbus
    ∧ (s good).accessError 1 false 0 2 = none
    ∧ isOk (read (ret :: type :: good)) = true ∧ leValue (valueOf (read (ret :: type :: good))) = 0x1234
    ∧ (∀ j, j < 3 → check j (x good j) = none ∧ isOk (write j (x good j)) = true ∧ stateOf (write j (x good j)) = x good (j + 1))
    ∧ stopOf (read [off]) = some (.err .notConnectedDriver)
    ∧ (check 0 (x [off, off, off] 0) = none
      ∧ stopOf (write 0 (x [off, off, off] 0)) = some (.err .notConnectedDriver))
    ∧ { up with cfg := { EX with devtypeSize := 0 } }.accessError 1 false 0 0 = some (.sizeZero 0)
    ∧ up.accessError 1 true 0x20 0 = some (.sizeZero 0x20) :=
  ⟨by unfold State.admits; decide +kernel, by decide +kernel⟩

/-! ### Witnesses: CAN -/

/-- The SetBaseAddress frame of page 1 as R81 writes it. -/
def setBase : Frame := frameOf 0x0B 0 [0, 0, 0x45, 0x23, 0x01, 0x00]

theorem witness_BaseAddressIsSentWhenThePageChanges :
    let s := up.modConn 2 fun k => { k with baseCache := some 0x10000 }
    (s.conn 2).baseCache = some (0x0001FFFF#32 &&& 0xFFFF0000#32)
    ∧ (s.conn 2).baseCache ≠ some (0x00020000#32 &&& 0xFFFF0000#32) ∧ (up.conn 2).baseCache ≠ some (0x12345#32 &&& 0xFFFF0000#32)
    ∧ (∃ a t, canuExchange 2 setBase (script up [ret, rx 0x740 [0x0B]]) = .ok a t)
    ∧ ∃ t, canuExchange 2 setBase (script up [off]) = .error (.err .notConnectedDriver) t :=
  ⟨by decide +kernel, by decide +kernel, by decide +kernel, ⟨_, _, ok_of (by decide +kernel)⟩,
    ⟨_, error_of (by decide +kernel)⟩⟩

theorem witness_ChunksCoverTheTransfer : 0 < 512 ∧ 0 < 4 ∧ 0 < 65535 := by decide

theorem frame_for (s : State) (id : Word) (f : Frame) (hd : (s.domain (s.descOf 2).port).table = upDomains[0].2.table)
    (hg : s.cfg = EX) (hid : 0x740 ≤ id.toNat ∧ id.toNat ≤ 0x749) : frameFor s 2 ⟨id, f, 0⟩ := by
  refine ⟨rfl, fun h => ?_, [], ⟨2, 0x7E0, 0x740⟩, [⟨3, 0x7E1, 0x750⟩], hd, rfl, ?_, fun _ h => (nomatch h)⟩
  · have h' : id = 0#32 := h
    subst h'; simp at hid
  · rw [hg]; exact hid

theorem witness_UniversalCanReadsPollTheirSlot :
    let x : CanRx := ⟨0x749, Frame.ofBytes [1, 4, 0xFC, 0xFF, 1, 2, 3, 4], 0⟩
    let d := rx 0x749 [1, 4, 0xFC, 0xFF, 1, 2, 3, 4]
    let s := args (script (up.modConn 2 fun k => { k with baseCache := some 0x10000 }) [ret, d]) 0x1FFFC 4 0 0
    s.admits 2 suitsRegister true ∧ (s.conn 2).kind = .can ∧ s.accessError 2 false s.arg0 4 = none
    ∧ (s.conn 2).baseCache = some (s.arg0 &&& 0xFFFF0000#32) ∧ goesThrough s 0 ∧ s.returns 1 d ∧ d.frame = some x
    ∧ frameFor s 2 x ∧ x.data.bytes ≠ List.replicate 8 0#8 :=
  ⟨by unfold State.admits; decide +kernel, by decide +kernel, by decide +kernel, by decide +kernel, goes (d := ret) rfl rfl,
    ⟨rfl, rfl⟩, rfl, frame_for _ _ _ (by decide +kernel) rfl (by decide), by decide +kernel⟩

/-- The memory of that state is legal. -/
theorem witness_UniversalCanReadsPollTheirSlot_memory :
    (args (script { up with conns := [(2, { live 2 .can .master 0xFF with baseCache := some 0x10000 })] } []) 0x1FFFC 4 0
      0).MemoryLegal := by
  refine ⟨rfl, fun _ _ => rfl, rfl, ?_, rfl, up_memory_legal.domains⟩
  refine tget_cases fun e he => ?_
  simp only [args, script, List.mem_cons, List.not_mem_nil, or_false] at he
  subst he
  have h := live_legal 2 .can .master 0xFF true
  refine ⟨h.inbuf, h.outbuf, fun b hb => ?_, h.cfgDepth, h.detDepth⟩
  cases hb; decide

theorem slot_of {s : State} {c : Slot} {b : Bytes} (h : mreadBytes (s.conn c).outbuf.mem 0 8 = some b) : slotHolds s c b :=
  ⟨(mreadBytes_eq_some.1 h).1, fun i hi => by
    have := (mreadBytes_eq_some.1 h).2 i hi
    rwa [Nat.zero_add] at this⟩

/-- The block with a response slot that holds bytes. -/
def answered (d : List Draw) (b : Bytes) : State := (script up d).modConn 2 fun k => { k with outbuf := bufWrite k.outbuf 0 b }

/-- The state after `j` polls that find no frame. -/
def slotPolled (s : State) : Nat → State
  | 0 => s
  | j + 1 => (stateOf (routeRead 2 (slotPolled s j))).afterEvents [.sleep 1]

/-- The polls of the slot end with bytes at once, with an error of a read, and with the Timeout after 100 of them. -/
theorem witness_UniversalCanReadsPollTheirSlot_ends :
    let empty := fun (d : List Draw) => answered d (zeros 8)
    slotEnds 2 (answered [] [1, 0, 0, 0, 0, 0, 0, 0]) (.ok [1, 0, 0, 0, 0, 0, 0, 0] (answered [] [1, 0, 0, 0, 0, 0, 0, 0]))
    ∧ slotEnds 2 (empty [off]) (routeRead 2 (empty [off]) |> fun r => .error (.err .notConnectedDriver) (stateOf r))
    ∧ ∃ f, slotEnds 2 (empty (List.replicate 100 ret))
        (.error (.err (.timeoutResponseSlot f)) (slotPolled (empty (List.replicate 100 ret)) 100)) := by
  intro empty
  refine ⟨⟨0, fun _ => answered [] [1, 0, 0, 0, 0, 0, 0, 0], fun _ => up, fun _ => (false, 0), by omega, rfl,
      fun j hj => by omega, .inl ⟨by omega, [1, 0, 0, 0, 0, 0, 0, 0], slot_of (by decide +kernel), by decide, rfl⟩⟩,
    ⟨0, fun _ => empty [off], fun _ => up, fun _ => (false, 0), by omega, rfl, fun j hj => by omega,
      .inr (.inl ⟨by omega, slot_of (by decide +kernel), .err .notConnectedDriver, _, error_of (by decide +kernel), rfl⟩)⟩,
    _, 100, slotPolled (empty (List.replicate 100 ret)), fun j => stateOf (routeRead 2 (slotPolled (empty (List.replicate 100 ret)) j)),
    fun _ => (false, 0), le_refl _, rfl, ?_, .inr (.inr ⟨rfl, rfl⟩)⟩
  have all : ∀ j : Fin 100, mreadBytes ((slotPolled (empty (List.replicate 100 ret)) j.val).conn 2).outbuf.mem 0 8 = some (zeros 8)
      ∧ isOk (routeRead 2 (slotPolled (empty (List.replicate 100 ret)) j.val)) = true
      ∧ valueOf (routeRead 2 (slotPolled (empty (List.replicate 100 ret)) j.val)) = (false, 0) := by decide +kernel
  intro j hj
  obtain ⟨h1, h2, h3⟩ := all ⟨j, hj⟩
  exact ⟨slot_of h1, (ok_of h2).trans (by rw [h3]), rfl⟩

/-- Two chunks of a read whose page is cached; each step of a chunk may fail. -/
theorem witness_UniversalCanReadsPollTheirSlot_chunks :
    let s := (script up [ret, rx 0x740 [1, 4, 0, 1, 9], ret, rx 0x740 [1, 1, 4, 1, 9]]).modConn 2 fun k => { k with
      baseCache := some 0 }
    let f := fun (a : Word) (n : Nat) => frameOf 0x01 (BitVec.ofNat 8 n) [a.extractLsb' 0 8, a.extractLsb' 8 8]
    let u := stateOf (canuExchange 2 (f 0x100 4) s)
    (s.conn 2).kind = .can ∧ (5 + 3) / 4 = 2 ∧ min 4 (5 - 4 * 1) = 1
    ∧ (readyGuard 2 0 1 s = .ok () s ∧ baseCheck 2 0x100 s = .ok () s ∧ isOk (canuExchange 2 (f 0x100 4) s) = true)
    ∧ (readyGuard 2 0 1 u = .ok () u ∧ baseCheck 2 0x104 u = .ok () u ∧ isOk (canuExchange 2 (f 0x104 1) u) = true)
    ∧ stopOf (readyGuard 2 10 1 (script up [off])) = some (.err .notConnectedDriver)
    ∧ stopOf (baseCheck 2 0x100 (script up [off])) = some (.err .notConnectedDriver)
    ∧ stopOf (canuExchange 2 (f 0x100 4) (script up [off])) = some (.err .notConnectedDriver)
    ∧ stopOf (writeAndWait 2 (f 0x100 4) (script up [off])) = some (.err .notConnectedDriver) := by
  intro s f u
  exact ⟨by decide +kernel, rfl, rfl, ⟨rfl, ran_of (by decide +kernel) (by decide +kernel), by decide +kernel⟩,
    ⟨rfl, ran_of (by decide +kernel) (by decide +kernel), by decide +kernel⟩, by decide +kernel, by decide +kernel,
    by decide +kernel, by decide +kernel⟩

/-- Every clause of CANRD: driver errors, no frame, an event, ID 0, an unknown ID, and a frame for a Universal and for a
Direct connection (sensor failure, configuration answer, detection, full FIFOs). -/
theorem witness_CanrdRoutesOneFrame :
    let full := up.modConn 5 fun k => { k with
      cfgFifo := List.replicate 4 (0x710, Frame.ofBytes []), detFifo := List.replicate 4 (0x712, Frame.ofBytes []) }
    let d := (up.descOf 5).can
    up.admits 2 suitsCan true ∧ (script up [off]).draw 0 = some off ∧ driverErr off.fate = some .notConnectedDriver
    ∧ ret.fate = .returns ∧ ret.frame = none ∧ (∀ y ∈ (up.domain 0).table, ¬inRange EX y.txId 0x74A)
    ∧ ((up.domain 0).table = [⟨2, 0x7E0, 0x740⟩] ++ ⟨3, 0x7E1, 0x750⟩ :: [] ∧ inRange EX 0x750 0x759
      ∧ ∀ y ∈ [(⟨2, 0x7E0, 0x740⟩ : RouteEntry)], ¬inRange EX y.txId 0x759)
    ∧ (up.descOf 3).can.proto = .universal ∧ d.proto = .direct
    ∧ (up.domain 1).table = [⟨4, 0x600, 0x700⟩] ++ ⟨5, 0x601, 0x710⟩ :: [] ∧ inRange EX 0x710 0x719
    ∧ allOnes (Frame.ofBytes [1, 2, 0xFF, 0xFF, 0xFF, 0xFF, 0xFF, 0xFF])
    ∧ ¬allOnes (Frame.ofBytes [1, 2, 0xFF, 0xFF, 0xFF, 0xFF, 0xFF, 0xFE])
    ∧ configAnswer d ⟨0x710, Frame.ofBytes [0x12], 0⟩ ∧ configAnswer d ⟨0x711, Frame.ofBytes [0x80], 0⟩
    ∧ ¬configAnswer d ⟨0x711, Frame.ofBytes [0x7F], 0⟩ ∧ ¬configAnswer d ⟨0x712, Frame.ofBytes [0x85], 0⟩
    ∧ EX.fifoDepth ≤ (full.conn 5).cfgFifo.length ∧ EX.fifoDepth ≤ (full.conn 5).detFifo.length
    ∧ (up.conn 5).cfgFifo.length < EX.fifoDepth ∧ (up.conn 5).detFifo.length < EX.fifoDepth := by
  have h0 : (up.domain 0).table = [⟨2, 0x7E0, 0x740⟩, ⟨3, 0x7E1, 0x750⟩] := by decide +kernel
  intro full d
  refine ⟨by unfold State.admits; decide +kernel, rfl, rfl, rfl, rfl, ?_, ⟨h0, ?_, ?_⟩, ?_⟩
  · rw [h0]; unfold inRange; decide +kernel
  · unfold inRange; decide +kernel
  · unfold inRange; decide +kernel
  · unfold inRange allOnes configAnswer; decide +kernel

/-- The frame of the CANSENDW tests. -/
def frame1 : Frame := Frame.ofBytes [1]

theorem sent_of {c : Slot} {f : Frame} {s : State} {d : Draw} (h : s.draw 0 = some d) (hr : d.fate = .returns) :
    sendFrame c f s = .ok () (s.note (.canWrite (s.descOf c).port (s.descOf c).can.baseIdRx f) .done) := by
  have hn : s.nextDraw = some d := by
    unfold State.nextDraw; unfold State.draw at h
    cases ho : s.oracle <;> simp [ho] at h ⊢ <;> exact h
  show portCall _ _ _ s = _
  unfold portCall
  simp only [hn, hr]

/-- The state after the write of one attempt. -/
def wrote (s : State) : State := s.note (.canWrite (s.descOf 2).port (s.descOf 2).can.baseIdRx frame1) .done

/-- The state after a read of a frame with an event. -/
def sawEvent (s : State) : State := s.note (.canRead 0) (.frame (some ⟨0x740, frame1, 1⟩))

/-- V-L2-CAN-3 b: an event, then a hit; and c: three events. -/
theorem witness_WriteAndWaitResendsOnBusEvents :
    let s := script up [ret, rx 0x740 [1] 1, ret, rx 0x740 [1] 1, ret, rx 0x740 [1] 1]
    let a := fun (j : Nat) => Nat.rec (motive := fun _ => State) s (fun _ t => sawEvent (wrote t)) j
    (∀ j, j < 2 → sendFrame 2 frame1 (a j) = .ok () (wrote (a j))
      ∧ waitEnds 2 (wrote (a j)) (.error (.err .busEvent) (a (j + 1))))
    ∧ (sendFrame 2 frame1 (a 2) = .ok () (wrote (a 2)) ∧ waitEnds 2 (wrote (a 2)) (.error (.err .busEvent) (a 3)))
    ∧ (∃ o, waitEnds 2 (wrote (script up [ret, rx 0x740 [1]])) o ∧ ∀ t, o ≠ .error (.err .busEvent) t)
    ∧ ∃ t, sendFrame 2 frame1 (script up [off]) = .error (.err .notConnectedDriver) t := by
  intro s a
  have one : ∀ j, j < 3 → sendFrame 2 frame1 (a j) = .ok () (wrote (a j))
      ∧ waitEnds 2 (wrote (a j)) (.error (.err .busEvent) (a (j + 1))) := by
    intro j hj
    have key : ∀ t : State, t.draw 0 = some ret → t.draw 1 = some (rx 0x740 [1] 1) → (t.descOf 2).port = 0 →
        sendFrame 2 frame1 t = .ok () (wrote t)
          ∧ waitEnds 2 (wrote t) (.error (.err .busEvent) (sawEvent (wrote t))) := by
      intro t h0 h1 hp
      refine ⟨sent_of h0 rfl, 0, fun _ => wrote t, fun _ => wrote t, fun _ => 0, by omega, rfl,
        fun j hj => by omega, .inr (.inl ⟨by omega, .err .busEvent, _, ?_, rfl⟩)⟩
      have hn : (wrote t).nextDraw = some (rx 0x740 [1] 1) := by
        unfold State.nextDraw wrote State.note; unfold State.draw at h1
        cases ho : t.oracle with
        | nil => simp [ho] at h1 ⊢; exact h1
        | cons e r => cases hr : r <;> simp [ho, hr] at h1 ⊢ <;> exact h1
      have hp' : ((wrote t).descOf 2).port = 0 := hp
      have hf : (rx 0x740 [1] 1).fate = .returns := rfl
      simp only [routeRead, bind, EStateM.bind, get, getThe, MonadStateOf.get, EStateM.get, canRead, portCall, hn, hf, hp']
      rfl
    obtain rfl | rfl | rfl : j = 0 ∨ j = 1 ∨ j = 2 := by omega
    · exact key s rfl rfl (by decide +kernel)
    · exact key (sawEvent (wrote s)) rfl rfl (by decide +kernel)
    · exact key (sawEvent (wrote (sawEvent (wrote s)))) rfl rfl (by decide +kernel)
  refine ⟨fun j hj => one j (by omega), one 2 (by omega), ?_, ?_⟩
  · exact ⟨.ok () _, ⟨0, fun _ => wrote (script up [ret, rx 0x740 [1]]), fun _ => up, fun _ => 0, by omega, rfl,
      fun j hj => by omega, .inl ⟨by omega, 0x740, _, ok_of (by decide +kernel), rfl⟩⟩, fun _ h => (nomatch h)⟩
  · exact ⟨_, error_of (by decide +kernel)⟩

theorem witness_CansendWritesOneFrame :
    let s := withData (script up [ret]) [1, 0, 0, 0, 0, 0, 0, 0]
    s.admits 2 suitsCan true ∧ mread up.hbuf 7 = none ∧ hbufHolds s frame1 ∧ s.draw 0 = some ret
    ∧ (script up [late true]).draw 0 = some (late true) := by
  unfold State.admits hbufHolds; decide +kernel

theorem witness_CansendwWaitsForItsFrame :
    let s := withData (script up [ret, rx 0x740 [9]]) [1, 0, 0, 0, 0, 0, 0, 0]
    s.admits 2 suitsCan true ∧ hbufHolds s frame1 ∧ (∃ u, writeAndWait 2 frame1 s = .ok () u)
    ∧ (∃ u, writeAndWait 2 frame1 (script up [off]) = .error (.err .notConnectedDriver) u)
    ∧ (s.descOf 2).can.proto = .universal ∧ goesThrough s 0 ∧ s.returns 1 (rx 0x740 [9])
    ∧ frameFor s 2 ⟨0x740, Frame.ofBytes [9], 0⟩ :=
  ⟨by unfold State.admits; decide +kernel, by unfold hbufHolds; decide +kernel, ⟨_, ok_of (by decide +kernel)⟩,
    ⟨_, error_of (by decide +kernel)⟩, by decide +kernel, goes (d := ret) rfl rfl, ⟨rfl, rfl⟩,
    frame_for _ _ _ (by decide +kernel) rfl (by decide)⟩

theorem witness_RequestsPopOneConfigAnswer :
    let f := frameOf 4 7 []
    let s := fun (x : Draw) => args (script up [ret, x]) 4 7 0 0
    (s off).admits 4 suitsDirect true ∧ requests (s off) 4 (.getval 4) f
    ∧ requests (withData up [1, 0, 0, 0, 0, 0, 0, 0]) 4 (.setval 4) frame1
    ∧ (∃ u, writeAndWait 4 f (s off) = .error (.err .notConnectedDriver) u)
    ∧ (∃ u, writeAndWait 4 f (s (rx 0x702 [4, 7])) = .ok () u ∧ (u.conn 4).cfgFifo = [])
    ∧ (∃ u, writeAndWait 4 f (s (rx 0x700 [4, 9])) = .ok () u
      ∧ (u.conn 4).cfgFifo = (0x700, Frame.ofBytes [4, 9]) :: [] ∧ ¬echoes (s off) 4 f (Frame.ofBytes [4, 9]))
    ∧ ∃ u, writeAndWait 4 f (s (rx 0x700 [4, 7, 1])) = .ok () u
      ∧ (u.conn 4).cfgFifo = (0x700, Frame.ofBytes [4, 7, 1]) :: [] ∧ echoes (s off) 4 f (Frame.ofBytes [4, 7, 1]) :=
  ⟨by unfold State.admits; decide +kernel, .inl ⟨rfl, by decide +kernel, by decide +kernel, by decide +kernel⟩,
    .inr ⟨rfl, by unfold hbufHolds; decide +kernel⟩, ⟨_, error_of (by decide +kernel)⟩,
    ⟨_, ok_of (by decide +kernel), by decide +kernel⟩,
    ⟨_, ok_of (by decide +kernel), by decide +kernel, by unfold echoes; decide +kernel⟩,
    ⟨_, ok_of (by decide +kernel), by decide +kernel, by unfold echoes; decide +kernel⟩⟩

theorem witness_RequestsShowTheirAnswer :
    let x : CanRx := ⟨0x710, Frame.ofBytes [0x81, 0, 3], 0⟩
    let s := withData (script up [ret, rx 0x710 [0x81, 0, 3]]) [1, 0, 0, 0, 0, 0, 0, 0]
    s.admits 5 suitsDirect true ∧ requests s 5 (.setval 5) frame1 ∧ goesThrough s 0 ∧ s.returns 1 (rx 0x710 [0x81, 0, 3])
    ∧ frameFor s 5 x ∧ ¬allOnes x.data ∧ configAnswer (s.descOf 5).can x ∧ (s.conn 5).cfgFifo.length < s.cfg.fifoDepth
    ∧ (s.conn 5).cfgFifo ++ [(x.id, x.data)] = (0x710, x.data) :: [] ∧ echoes s 5 frame1 x.data :=
  ⟨by unfold State.admits; decide +kernel, .inr ⟨rfl, by unfold hbufHolds; decide +kernel⟩, goes (d := ret) rfl rfl,
    ⟨rfl, rfl⟩, ⟨rfl, by decide +kernel, [⟨4, 0x600, 0x700⟩], ⟨5, 0x601, 0x710⟩, [], by decide +kernel, rfl,
      by unfold inRange; decide +kernel, by unfold inRange; decide +kernel⟩, by unfold allOnes; decide +kernel,
    by unfold configAnswer; decide +kernel, by decide +kernel, by decide +kernel, by unfold echoes; decide +kernel⟩

/-- The request of a family-A STREAM. -/
def streamOn : Frame := frameOf 0x30 0x01 [0, 0, 0, 0]

/-- Whether a computation stopped short by the answer-wait Timeout. -/
def timedOut (r : EStateM.Result Stop State Unit) : Bool :=
  match r with
  | .error (.err e) _ => isAnswerWait e
  | .error (.fault _) _ => false
  | .error .stuck _ => false
  | .ok _ _ => false

/-- A family-A STREAM whose first attempt ends as one CAN read, or as a wait without a frame, says. -/
theorem witness_StreamSettlesAndSetsTheState :
    (up.admits 4 suitsDirect true ∧ (up.descOf 4).can.family = .a)
    ∧ (up.admits 5 suitsDirect true ∧ (up.descOf 5).can.family = .b)
    ∧ (script up [ret]).draw 0 = some ret ∧ (script up [off]).draw 0 = some off
    ∧ isOk (writeAndWait 4 streamOn (script up [ret, rx 0x700 [0x30, 1]])) = true
    ∧ stopOf (writeAndWait 4 streamOn (script up [off])) = some (.err .notConnectedDriver)
    ∧ timedOut (writeAndWait 4 streamOn (script up (List.replicate 1001 ret))) = true :=
  ⟨by unfold State.admits; decide +kernel, by unfold State.admits; decide +kernel, rfl, rfl, by decide +kernel,
    by decide +kernel, by decide +kernel⟩

theorem witness_FifoCommands :
    let e : Word × Frame := (0x700, Frame.ofBytes [1])
    up.admits 4 suitsDirect true ∧ up.admits 4 suitsDirect false ∧ (up.conn 4).cfgFifo = [] ∧ (up.conn 4).detFifo = []
    ∧ ((up.modConn 4 fun k => { k with cfgFifo := [e] }).conn 4).cfgFifo = e :: []
    ∧ ((up.modConn 4 fun k => { k with detFifo := [e] }).conn 4).detFifo = e :: []
    ∧ (∃ r u, routeRead 4 (script up [rx 0x702 [9]]) = .ok r u)
    ∧ ∃ u, routeRead 4 (script up [off]) = .error (.err .notConnectedDriver) u :=
  ⟨by unfold State.admits; decide +kernel, by unfold State.admits; decide +kernel, by decide +kernel, by decide +kernel,
    by decide +kernel, by decide +kernel, ⟨_, _, ok_of (by decide +kernel)⟩, ⟨_, error_of (by decide +kernel)⟩⟩

theorem witness_ModbusFramesRunTheirExchange :
    let s := fun (b : Bytes) => { args (script up [ret, got b]) 0 0 1 0 with cmd := 0x100 }
    let a : Bytes := [1, 0x42, 0xAA, 0xBB, 0x9F, 0x1F]
    cmdConn (s a).cmd = 1 ∧ (s a).admits 1 suitsModbus true ∧ (s a).accessError 1 false 0x100 2 = none
    ∧ mbGets (s a) 1 0x42 2 ((s a).arg2 ≠ 0#32) a
    ∧ (s a).accessError 1 true 0x100 [0xAA#8, 0xBB#8].length = none
    ∧ mbGets (s [1, 0x43, 0x41, 0xD1]) 1 0x43 0 ((s a).arg2 ≠ 0#32) [1, 0x43, 0x41, 0xD1]
    ∧ mbGets (s [1, 0x44, 0, 0x13]) 1 0x44 0 ((s a).arg2 ≠ 0#32) [1, 0x44, 0, 0x13] :=
  ⟨by decide +kernel, by unfold State.admits; decide +kernel, by decide +kernel,
    ⟨goes (d := ret) rfl rfl, ⟨got [1, 0x42, 0xAA, 0xBB, 0x9F, 0x1F], ⟨rfl, rfl⟩, rfl⟩, rfl, rfl, fun _ => by decide +kernel⟩,
    by decide +kernel,
    ⟨goes (d := ret) rfl rfl, ⟨got [1, 0x43, 0x41, 0xD1], ⟨rfl, rfl⟩, rfl⟩, rfl, rfl, fun _ => by decide +kernel⟩,
    goes (d := ret) rfl rfl, ⟨got [1, 0x44, 0, 0x13], ⟨rfl, rfl⟩, rfl⟩, rfl, rfl, fun _ => by decide +kernel⟩

end Sys2Proof.Tests
end

section
/-! PROOF. What a host access, a step and a command can do, each said once: the case analyses the invariants go by. -/

namespace Sys2Proof.Machine

/-! ### What a host access and a step can do -/

/-- What a host access with a move leaves (R18 to R24): a started command, a register the host may write or its own record
of a read, or one HBUF byte. -/
inductive Accessed (s t : State) : Prop where
  | started (v : Word) (idle : s.busy = false) (eq : t = s.start v)
  | registers (eq : t = { s with
      arg0 := t.arg0, arg1 := t.arg1, arg2 := t.arg2, arg3 := t.arg3, readData := t.readData })
  | stored (i : Nat) (v : Byte) (inside : i < s.cfg.hbufSize) (eq : t = { s with hbuf := mwrite s.hbuf i (some v) })

theorem hostWrite32_next {off : Nat} {v : Word} {s t : State} (h : hostWrite32 off v s = .next t) : Accessed s t := by
  unfold hostWrite32 at h
  split at h
  · cases h
  · rename_i hb
    split at h
    · cases h; exact .started v (by simpa using hb) rfl
    · split_ifs at h <;> cases h <;> exact .registers rfl

theorem hostWrite8_next {off : Nat} {v : Byte} {s t : State} (h : hostWrite8 off v s = .next t) : Accessed s t := by
  unfold hostWrite8 at h
  split at h
  · cases h
  · split at h
    · cases h; exact .stored (off - hbufBase) v (by omega) rfl
    · cases h

theorem hostRead32_next {off : Nat} {s t : State} (h : hostRead32 off s = .next t) : Accessed s t := by
  unfold hostRead32 at h
  split at h
  · cases h; exact .registers rfl
  · split at h
    · cases h
    · split at h <;> cases h
      exact .registers rfl

theorem hostRead8_next {off : Nat} {s t : State} (h : hostRead8 off s = .next t) : Accessed s t := by
  unfold hostRead8 at h
  split at h
  · cases h
  · split at h
    · split at h <;> cases h
      exact .registers rfl
    · cases h

theorem hostAccess_next {a : HostAccess} {s t : State} (h : hostAccess a s = .next t) : Accessed s t := by
  cases a with
  | write32 off v => exact hostWrite32_next h
  | write8 off v => exact hostWrite8_next h
  | read32 off => exact hostRead32_next h
  | read8 off => exact hostRead8_next h
  | otherWidth off => cases h

/-- Every next state of a step: nothing changed (an idle host, or a command stuck in its port call), a host access, the
block after a reset (R172), a rejected code (R66, R67), or a run of the decoded command. -/
inductive Stepped (s t : State) : Prop where
  | same (eq : t = s)
  | accessed (access : Accessed s.nextHostItem t)
  | reset (eq : t = { State.resetWith s.cfg with
      hostq := t.hostq, readData := t.readData, oracle := t.oracle, draws := t.draws, trace := t.trace })
  | rejected (e : Err) (busy : s.busy = true) (runs : s.stuck = false) (eq : t = s.fetched.endErr e)
  | ran (i : Instr) (busy : s.busy = true) (runs : s.stuck = false) (exec : exec i s.fetched = .next t)

/-- A command that is not stuck is rejected by its code, or runs. -/
theorem runCommand_cases {s t : State} (hs : s.stuck = false) (h : runCommand s = .next t) :
    (∃ e, t = s.fetched.endErr e) ∨ ∃ i, exec i s.fetched = .next t := by
  unfold runCommand at h
  rw [if_neg (by simp [hs])] at h
  split at h
  · exact .inr ⟨_, h⟩
  · cases h; exact .inl ⟨_, rfl⟩

theorem runCommand_next {s t : State} (hb : s.busy = true) (h : runCommand s = .next t) : Stepped s t := by
  by_cases hs : s.stuck = true
  · rw [runCommand, if_pos hs] at h
    cases h; exact .same rfl
  · have hs : s.stuck = false := by simpa using hs
    rcases runCommand_cases hs h with ⟨e, he⟩ | ⟨i, hi⟩
    · exact .rejected e hb hs he
    · exact .ran i hb hs hi

theorem runAborted_next {k : Nat} {s t : State} (h : runAborted k s.nextHostItem = .next t) : Stepped s t := by
  unfold runAborted at h
  split at h <;> cases h
  · exact .reset rfl
  · exact .reset rfl

/-- The only ways a step can have a next state. -/
theorem step_next {s t : State} (h : step s = .next t) : Stepped s t := by
  unfold step at h
  split at h
  · rename_i hb
    split at h
    · exact .accessed (hostAccess_next h)
    · exact runAborted_next h
    · exact runCommand_next hb h
    · exact runCommand_next hb h
  · split at h
    · exact .accessed (hostAccess_next h)
    · exact .accessed (hostAccess_next h)
    · cases h; exact .reset rfl
    · cases h; exact .same rfl

/-- With no item of the host that acts first, a step of a running command that is not stuck runs it. -/
theorem step_of_hostWaits {s : State} (hb : s.busy = true) (hw : hostWaits s) : step s = runCommand s := by
  unfold step
  rw [if_pos hb]
  unfold hostWaits at hw
  cases hq : s.hostq with
  | nil => rfl
  | cons x r =>
    rw [hq] at hw
    have hx := hw x rfl
    cases x with
    | waiting a => rfl
    | eager a => cases hx
    | reset k => cases hx

/-- While no command runs, the host's next access is performed. -/
theorem step_waiting {s : State} {a : HostAccess} {r : List HostItem} (hb : s.busy = false)
    (hq : s.hostq = .waiting a :: r) : step s = hostAccess a { s with hostq := r } := by
  unfold step
  rw [if_neg (by simp [hb]), hq]
  show hostAccess a { s with hostq := s.hostq.tail } = _
  rw [hq]
  rfl

/-- While no command runs, a reset is the block reset. -/
theorem step_reset {s : State} {k : Nat} {r : List HostItem} (hb : s.busy = false) (hq : s.hostq = .reset k :: r) :
    step s = .next { s with hostq := r }.blockReset := by
  unfold step
  rw [if_neg (by simp [hb]), hq]
  show Host.Outcome.next { s with hostq := s.hostq.tail }.blockReset = _
  rw [hq]
  rfl

/-! ### What a command can do -/

/-- The commands by the law that says how they end: OPEN, CLOSE and SETADDR have their own, every other has a `Shape`. -/
inductive Executed : Instr → State → State → Prop where
  | opened {c : Slot} {e : Bool} {s t : State} (run : execOpen c e s = .next t) : Executed (.openConn c e) s t
  | closed {c : Slot} {s t : State} (run : execClose c s = .next t) : Executed (.closeConn c) s t
  | addressed {c : Slot} {s t : State} (run : execSetaddr c s = .next t) : Executed (.setaddr c) s t
  | shaped {i : Instr} {s t : State} (shape : Shape i s t) : Executed i s t

theorem exec_next {i : Instr} {s t : State} (h : exec i s = .next t) : Executed i s t := by
  by_cases ho : ∃ c e, i = .openConn c e
  · obtain ⟨c, e, rfl⟩ := ho; exact .opened h
  · by_cases hc : ∃ c, i = .closeConn c
    · obtain ⟨c, rfl⟩ := hc; exact .closed h
    · by_cases ha : ∃ c, i = .setaddr c
      · obtain ⟨c, rfl⟩ := ha; exact .addressed h
      · exact .shaped (exec_shape h (fun c e he => ho ⟨c, e, he⟩) (fun c he => hc ⟨c, he⟩) fun c he => ha ⟨c, he⟩)

theorem execSetaddr_next {c : Slot} {s t : State} (h : execSetaddr c s = .next t) :
    (∃ e, t = s.endErr e)
      ∨ ∃ k, s.conn? c = some k ∧ t = (s.modDesc k.desc (setAddress (op8 s.arg0) k.kind)).endOk false := by
  rw [execSetaddr_run] at h
  split at h
  · cases h; exact .inl ⟨_, rfl⟩
  · rename_i hn
    obtain ⟨k, hk, hk', -⟩ := commandError_none hn
    cases h
    exact .inr ⟨k, hk, by rw [hk']⟩

/-- From `s` to `u` only what a command may write changed: RESULT0, HBUF, the tables, and the trace with the answers. -/
structure Written (s u : State) : Prop where
  rest : u = { s with
    result0 := u.result0, hbuf := u.hbuf, conns := u.conns, descs := u.descs, domains := u.domains
    oracle := u.oracle, draws := u.draws, trace := u.trace }
  traffic : Traffic s u

theorem Within.written {R : ConnRel} {s u : State} (h : Within R s u) (m : Memory) (v : Word) :
    Written s { u with hbuf := m, result0 := v } :=
  ⟨by rw [h.rest], h.traffic⟩

theorem Kept.written {s u : State} (h : Kept s u) : Written s u := ⟨by rw [h.rest], h.traffic⟩

theorem written_setConn {s u : State} (h : Written s u) (c : Slot) (k : Conn) : Written s (u.setConn c k) :=
  ⟨by rw [h.rest]; rfl, h.traffic⟩

theorem written_modDesc {s u : State} (h : Written s u) (d : Byte) (f : Desc → Desc) : Written s (u.modDesc d f) :=
  ⟨by rw [h.rest]; rfl, h.traffic⟩

theorem written_dropConn {s u : State} (h : Written s u) (c : Slot) : Written s (u.dropConn c) :=
  ⟨by rw [h.rest]; rfl, h.traffic⟩

theorem written_closed {s u : State} (h : Written s u) (c : Slot) (k : Conn) : Written s (u.closed c k) := by
  unfold State.closed
  split
  · exact written_dropConn (written_modDesc h _ _) c
  · exact written_dropConn h c

/-- Every command works on what it may write, and then ends or is stuck. -/
theorem exec_written {i : Instr} {s t : State} (h : exec i s = .next t) : ∃ u, Written s u ∧ Ended u t := by
  cases exec_next h with
  | opened run =>
    rcases execOpen_kept run with ⟨x, rfl⟩ | ⟨r, u, -, hu, -, rfl⟩
    · exact ⟨s, (Kept.refl s).written, endErr_ended s x⟩
    · exact ⟨_, written_setConn hu.written _ _, .inl ⟨false, rfl⟩⟩
  | closed run =>
    rcases execClose_kept run with ⟨x, rfl⟩ | ⟨u, hu, rfl⟩ | ⟨k, u, -, hu, rfl⟩
    · exact ⟨s, (Kept.refl s).written, endErr_ended s x⟩
    · exact ⟨u, hu.written, .inr (.inr rfl)⟩
    · exact ⟨_, written_closed hu.written _ _, .inl ⟨false, rfl⟩⟩
  | addressed run =>
    rcases execSetaddr_next run with ⟨x, rfl⟩ | ⟨k, -, rfl⟩
    · exact ⟨s, (Kept.refl s).written, endErr_ended s x⟩
    · exact ⟨_, written_modDesc (Kept.refl s).written _ _, .inl ⟨false, rfl⟩⟩
  | shaped shape =>
    obtain ⟨u, m, v, hu, -, -, -, ⟨rfl, hb⟩ | ⟨r, rfl⟩⟩ := shape
    · refine ⟨_, ?_, .inr hb⟩
      have := hu.written u.hbuf v
      exact this
    · exact ⟨_, hu.written m v, .inl ⟨r, rfl⟩⟩

end Sys2Proof.Machine
end

section
/-! PROOF. The obligations on the running command, the host window, the reset and the frame of every command,
and the legality of STATUS. -/

namespace Sys2Proof.Machine

/-! ### The running command, the host window and the reset -/

/-- Settles O6: with nothing of the host first and no port call it is stuck in, the step is the decoded command's. -/
theorem stepRunsTheDecodedCommand : Obligations.StepRunsTheDecodedCommand := by
  unfold Obligations.StepRunsTheDecodedCommand
  intro s i hb hs hw hd
  constructor
  · rw [step_of_hostWaits hb hw, runCommand, hd]
    simp [hs]
  · intro hn
    constructor
    · rw [State.code, hn]
    · rw [State.fetched, ← hn]

/-- An end clears BUSY and sets DONE (R160, R161); a command that does not end is stuck. -/
theorem Ended.done {u t : State} (h : Ended u t) : (t.busy = false ∧ stDone t.status = true) ∨ t.stuck = true := by
  rcases h with ⟨r, rfl⟩ | ⟨e, rfl⟩ | rfl
  · exact .inl ⟨(statusOk_flags r).1, (statusOk_flags r).2.1⟩
  · exact .inl ⟨(statusError_flags e).1, (statusError_flags e).2.1⟩
  · exact .inr rfl

/-- Settles O7: the write of CMD is `State.start`, and a command that is not left stuck has ended by R160 or R161. -/
theorem writingCmdStartsTheCommand : Obligations.WritingCmdStartsTheCommand := by
  unfold Obligations.WritingCmdStartsTheCommand
  constructor
  · intro s v r hb hq
    have hb' : ({ s with hostq := r } : State).busy = false := hb
    rw [step_waiting hb hq, hostAccess, hostWrite32, hb', State.start, statusBusy_eq]
    rfl
  · intro s t hb hs hw h ht
    rw [step_of_hostWaits hb hw] at h
    have hd : (t.busy = false ∧ stDone t.status = true) ∨ t.stuck = true := by
      rcases runCommand_cases hs h with ⟨e, rfl⟩ | ⟨i, hi⟩
      · exact (endErr_ended s.fetched e).done
      · obtain ⟨u, -, hu⟩ := exec_written hi
        exact hu.done
    exact hd.resolve_right (by simp [ht])

/-- The offset of an HBUF byte is inside HBUF, and names it (R18). -/
theorem hbufBase_offset {i n : Nat} (h : i < n) :
    (hbufBase ≤ 0x100 + i ∧ 0x100 + i < hbufBase + n) ∧ 0x100 + i - hbufBase = i := by
  unfold hbufBase
  omega

theorem hostWrite8_inside {s : State} (hb : s.busy = false) {i : Nat} (hi : i < s.cfg.hbufSize) (v : Byte) :
    hostWrite8 (0x100 + i) v s = .next { s with hbuf := mwrite s.hbuf i (some v) } := by
  obtain ⟨hin, hoff⟩ := hbufBase_offset hi
  rw [hostWrite8, if_neg (by simp [hb]), if_pos hin, hoff]

theorem hostRead8_inside {s : State} (hb : s.busy = false) {i : Nat} {b : Byte} (hi : i < s.cfg.hbufSize)
    (hm : mread s.hbuf i = some b) : hostRead8 (0x100 + i) s = .next { s with readData := b.setWidth 32 } := by
  obtain ⟨hin, hoff⟩ := hbufBase_offset hi
  rw [hostRead8, if_neg (by simp [hb]), if_pos hin, hoff]
  simp only [hm]

/-- Settles O8: the step is the access the host waits to make, and each register has its own branch of the access. -/
theorem hostAccessesReachTheirRegisters : Obligations.HostAccessesReachTheirRegisters := by
  unfold Obligations.HostAccessesReachTheirRegisters
  intro s r hb
  have hb' : ({ s with hostq := r } : State).busy = false := hb
  refine ⟨fun v hq => ?_, fun v hq => ?_, fun v hq => ?_, fun v hq => ?_, fun i v hi hq => ?_, fun off v hm hq => ?_,
    fun i b hi hm hq => ?_⟩
  · rw [step_waiting hb hq, hostAccess, hostWrite32, hb']; rfl
  · rw [step_waiting hb hq, hostAccess, hostWrite32, hb']; rfl
  · rw [step_waiting hb hq, hostAccess, hostWrite32, hb']; rfl
  · rw [step_waiting hb hq, hostAccess, hostWrite32, hb']; rfl
  · refine ⟨mwrite s.hbuf i (some v), ?_, fun x => ?_⟩
    · rw [step_waiting hb hq]
      exact hostWrite8_inside (s := { s with hostq := r }) hb hi v
    · rw [mread_mwrite]
      simp only [eq_comm]
  · rw [step_waiting hb hq, hostAccess, hostRead32, hb']
    simp only [List.mem_cons, Prod.mk.injEq, List.not_mem_nil, or_false] at hm
    rcases hm with ⟨rfl, rfl⟩ | ⟨rfl, rfl⟩ | ⟨rfl, rfl⟩ | ⟨rfl, rfl⟩ | ⟨rfl, rfl⟩ | ⟨rfl, rfl⟩ | ⟨rfl, rfl⟩ | ⟨rfl, rfl⟩
      | ⟨rfl, rfl⟩ | ⟨rfl, rfl⟩ | ⟨rfl, rfl⟩ <;> rfl
  · rw [step_waiting hb hq]
    exact hostRead8_inside (s := { s with hostq := r }) hb hi hm

/-- Settles O21: the step is `State.blockReset`, whose fields are those of `State.resetWith`. -/
theorem resetGivesTheResetValues : Obligations.ResetGivesTheResetValues := by
  unfold Obligations.ResetGivesTheResetValues
  refine ⟨fun s t k r hb hq h => ?_, fun s k r hb hq => ⟨_, step_reset hb hq⟩, rfl⟩
  rw [step_reset hb hq] at h
  cases h
  exact ⟨⟨rfl, rfl, rfl, rfl, rfl, rfl, rfl, rfl, rfl, rfl, rfl, rfl⟩, fun _ => rfl, fun _ => rfl, fun _ => ⟨rfl, rfl⟩,
    rfl, rfl, rfl, rfl⟩

/-- Settles O11: a command changes only what it may write, and its end only STATUS and the error registers. -/
theorem operandRegistersAreNeverWritten : Obligations.OperandRegistersAreNeverWritten := by
  unfold Obligations.OperandRegistersAreNeverWritten
  intro i s t h
  obtain ⟨u, ⟨hu, -⟩, he⟩ := exec_written h
  rw [hu] at he
  rcases he with ⟨r, rfl⟩ | ⟨e, rfl⟩ | rfl <;>
    exact ⟨rfl, rfl, rfl, rfl, rfl, rfl, rfl, rfl, rfl, rfl⟩

theorem Ended.traffic {s u t : State} (h : Ended u t) (ht : Traffic s u) : Traffic s t := by
  rcases h with ⟨r, rfl⟩ | ⟨e, rfl⟩ | rfl <;> exact ht

/-- Settles O14: the work of a command is `Traffic`, and its end makes no event. -/
theorem eventsAreAppendedInOrder : Obligations.EventsAreAppendedInOrder := by
  unfold Obligations.EventsAreAppendedInOrder
  intro i s t h
  obtain ⟨u, hu, he⟩ := exec_written h
  exact he.traffic hu.traffic

/-! ### STATUS stays legal -/

/-- A legal STATUS is about STATUS, the error registers and the stuck flag alone. -/
theorem State.StatusLegal.congr {s t : State} (h : s.StatusLegal) (hst : t.status = s.status)
    (ha : t.errAddr = s.errAddr) (hz : t.errSize = s.errSize) (hi : t.errInfo = s.errInfo) (hk : t.stuck = s.stuck) :
    t.StatusLegal where
  high := by rw [hst]; exact h.high
  low := by rw [hst]; exact h.low
  busy hb := by rw [hst]; exact h.busy (by rw [State.busy, ← hst]; exact hb)
  noErr := by rw [hst, ha, hz, hi]; exact h.noErr
  err := by rw [hst]; exact h.err
  info := by rw [hi]; exact h.info
  stuck hs := by rw [State.busy, hst]; exact h.stuck (hk ▸ hs)

theorem statusLegal_resetWith (g : Config) : (State.resetWith g).StatusLegal where
  high := by rw [State.resetWith_status]; decide
  low := by rw [State.resetWith_status]; decide
  busy hb := absurd (show stBusy 0#32 = true from hb) (by decide)
  noErr _ := by
    rw [State.resetWith_status]
    exact ⟨by decide, by decide, rfl, rfl, rfl⟩
  err he := absurd (show stErr 0#32 = true from he) (by decide)
  info := by rw [State.resetWith_errInfo]; decide
  stuck hs := by cases hs

theorem statusLegal_start (s : State) (v : Word) : (s.start v).StatusLegal where
  high := by rw [State.start_status, statusBusy_eq]; rfl
  low := by rw [State.start_status, statusBusy_eq]; rfl
  busy _ := statusBusy_eq
  noErr _ := by
    rw [State.start_status, statusBusy_eq]
    exact ⟨by decide, by decide, rfl, rfl, rfl⟩
  err he := by rw [State.start_status, statusBusy_eq] at he; cases he
  info := by rw [State.start_errInfo]; decide
  stuck hs := by cases hs

theorem statusLegal_endErr {s : State} (hs : s.stuck = false) (e : Err) : (s.endErr e).StatusLegal where
  high := (statusWord_parts e.sub e.code false true true false).1
  low := (statusWord_parts e.sub e.code false true true false).2.1
  busy hb := by
    have := (statusError_flags e).1
    rw [State.busy, State.endErr_status, this] at hb; cases hb
  noErr he := by
    obtain ⟨-, -, h, -⟩ := statusError_flags e
    rw [State.endErr_status, h] at he; cases he
  err _ := by
    obtain ⟨-, hd, -, hr, hc, hu⟩ := statusError_flags e
    rw [State.endErr_status]
    exact ⟨hd, hr, hc ▸ (err_codes e).1, hu ▸ (err_codes e).2⟩
  info := by rw [State.endErr_errInfo, errInfoWord]; cases e.flag <;> rfl
  stuck h := by rw [State.endErr_stuck, hs] at h; cases h

theorem statusLegal_endOk {s : State} (hs : s.stuck = false) (ha : s.errAddr = 0#32) (hz : s.errSize = 0#32)
    (hi : s.errInfo = 0#32) (r : Bool) : (s.endOk r).StatusLegal := by
  obtain ⟨hhigh, hlow, hbusy, herr, -, -, hcode, hsub⟩ := statusWord_parts 0#8 0#8 r false true false
  exact {
    high := hhigh
    low := hlow
    busy := fun hb => by rw [State.busy, State.endOk_status, statusOk, hbusy] at hb; cases hb
    noErr := fun _ => ⟨hcode, hsub, ha, hz, hi⟩
    err := fun he => by rw [State.endOk_status, statusOk, herr] at he; cases he
    info := by rw [State.endOk_errInfo, hi]; rfl
    stuck := fun h => by rw [State.endOk_stuck, hs] at h; cases h }

/-- A running command keeps STATUS legal: it starts with no error reported, and writes STATUS only when it ends. -/
theorem exec_statusLegal {i : Instr} {s t : State} (hl : s.StatusLegal) (hb : s.busy = true) (hs : s.stuck = false)
    (h : exec i s = .next t) : t.StatusLegal := by
  obtain ⟨u, ⟨hu, -⟩, he⟩ := exec_written h
  have hno : stErr s.status = false := by rw [hl.busy hb]; rfl
  obtain ⟨-, -, ha, hz, hi⟩ := hl.noErr hno
  have hus : u.stuck = false := by rw [hu]; exact hs
  rcases he with ⟨r, rfl⟩ | ⟨e, rfl⟩ | rfl
  · exact statusLegal_endOk hus (by rw [hu]; exact ha) (by rw [hu]; exact hz) (by rw [hu]; exact hi) r
  · exact statusLegal_endErr hus e
  · have hul : u.StatusLegal := hl.congr (by rw [hu]) (by rw [hu]) (by rw [hu]) (by rw [hu]) (by rw [hu])
    exact { hul with stuck := fun _ => by rw [hu]; exact hb }

/-- Settles O17: by the cases of a step, `exec_statusLegal` for the running command. -/
theorem statusStaysLegal : Obligations.StatusStaysLegal := by
  unfold Obligations.StatusStaysLegal
  intro s t hl h
  cases step_next h with
  | same eq => rw [eq]; exact hl
  | accessed access =>
    cases access with
    | started v idle eq => rw [eq]; exact statusLegal_start _ v
    | registers eq => rw [eq]; exact hl.congr rfl rfl rfl rfl rfl
    | stored i v inside eq => rw [eq]; exact hl.congr rfl rfl rfl rfl rfl
  | reset eq => rw [eq]; exact (statusLegal_resetWith s.cfg).congr rfl rfl rfl rfl rfl
  | rejected e busy runs eq => rw [eq]; exact statusLegal_endErr (s := s.fetched) runs e
  | ran i busy runs exec => exact exec_statusLegal (s := s.fetched) (hl.congr rfl rfl rfl rfl rfl) busy runs exec

end Sys2Proof.Machine
end

section
/-! PROOF. The memories and tables stay canonical and of legal sizes: one lemma per operation on the state, then
every command. -/

namespace Sys2Proof.Machine

/-! ### What a legal configuration says -/

theorem config_wf_hbuf {g : Config} (h : g.wf = true) : 8 ≤ g.hbufSize := by
  simp only [Config.wf, Bool.and_eq_true, decide_eq_true_eq] at h
  omega

theorem config_wf_nConn {g : Config} (h : g.wf = true) : g.nConn ≤ 255 := by
  simp only [Config.wf, Bool.and_eq_true, decide_eq_true_eq] at h
  omega

theorem config_wf_buffers {g : Config} (h : g.wf = true) (k : Kind) :
    (minBuf k ≤ g.buf0In.of k ∧ g.buf0In.of k ≤ g.bufMax) ∧ minBuf k ≤ g.buf0Out.of k ∧ g.buf0Out.of k ≤ g.bufMax := by
  have hb : g.buffersWf = true := by
    simp only [Config.wf, Bool.and_eq_true] at h
    tauto
  simp only [Config.buffersWf, List.all_cons, List.all_nil, Bool.and_eq_true, decide_eq_true_eq] at hb
  cases k <;> tauto

/-! ### Memories stay legal -/

/-- Legal memories are about HBUF, the connection and domain tables and the configuration alone. -/
theorem State.MemoryLegal.congr {s t : State} (h : s.MemoryLegal) (hb : t.hbuf = s.hbuf) (hc : t.conns = s.conns)
    (hd : t.domains = s.domains) (hg : t.cfg = s.cfg) : t.MemoryLegal where
  hbufWf := by rw [hb]; exact h.hbufWf
  hbufInside := by rw [hb, hg]; exact h.hbufInside
  connsWf := by rw [hc]; exact h.connsWf
  conns := by rw [hc, hg]; exact h.conns
  domainsWf := by rw [hd]; exact h.domainsWf
  domains := by rw [hd]; exact h.domains

theorem memoryLegal_resetWith (g : Config) : (State.resetWith g).MemoryLegal where
  hbufWf := rfl
  hbufInside _ _ := rfl
  connsWf := rfl
  conns x k hk := by cases hk
  domainsWf := rfl
  domains x d hd := by cases hd

theorem Ended.memoryLegal {u t : State} (h : Ended u t) (hu : u.MemoryLegal) : t.MemoryLegal := by
  rcases h with ⟨r, rfl⟩ | ⟨e, rfl⟩ | rfl <;> exact hu.congr rfl rfl rfl rfl

theorem Broken.memoryLegal {u t : State} (h : Broken u t) (hu : u.MemoryLegal) : t.MemoryLegal :=
  Ended.memoryLegal (.inr h) hu

theorem memoryLegal_setHbuf {s : State} (h : s.MemoryLegal) {m : Memory} (hw : m.wf = true)
    (hi : ∀ x, s.cfg.hbufSize ≤ x → mread m x = none) : ({ s with hbuf := m } : State).MemoryLegal where
  hbufWf := hw
  hbufInside := hi
  connsWf := h.connsWf
  conns := h.conns
  domainsWf := h.domainsWf
  domains := h.domains

theorem memoryLegal_setDomain {s : State} (h : s.MemoryLegal) (q : Byte) (d : Domain) : (s.setDomain q d).MemoryLegal where
  hbufWf := h.hbufWf
  hbufInside := h.hbufInside
  connsWf := h.connsWf
  conns := h.conns
  domainsWf := by
    rw [State.setDomain_domains]
    split
    · exact twf_terase _ h.domainsWf
    · exact twf_tset _ _ h.domainsWf
  domains x e he := by
    rw [State.setDomain_domains] at he
    split at he
    · rw [tget_terase] at he
      split at he
      · cases he
      · exact h.domains x e he
    · rename_i hne
      rw [tget_tset] at he
      split at he
      · cases he; exact hne
      · exact h.domains x e he

theorem memoryLegal_setConn {s : State} (h : s.MemoryLegal) (c : Slot) {k : Conn} (hk : k.Legal s.cfg) :
    (s.setConn c k).MemoryLegal where
  hbufWf := h.hbufWf
  hbufInside := h.hbufInside
  connsWf := twf_tset _ _ h.connsWf
  conns x k' hk' := by
    rw [State.setConn_conns, tget_tset] at hk'
    split at hk'
    · cases hk'; exact hk
    · exact h.conns x k' hk'
  domainsWf := h.domainsWf
  domains := h.domains

theorem memoryLegal_modConn {s : State} (h : s.MemoryLegal) (c : Slot) {f : Conn → Conn}
    (hf : ∀ k, k.Legal s.cfg → (f k).Legal s.cfg) : (s.modConn c f).MemoryLegal where
  hbufWf := h.hbufWf
  hbufInside := h.hbufInside
  connsWf := twf_tmodify _ _ h.connsWf
  conns x k' hk' := by
    rw [State.modConn_conns, tget_tmodify] at hk'
    split at hk'
    · obtain ⟨k, hk, rfl⟩ := Option.map_eq_some_iff.1 hk'
      exact hf k (h.conns _ k hk)
    · exact h.conns x k' hk'
  domainsWf := h.domainsWf
  domains := h.domains

theorem memoryLegal_dropConn {s : State} (h : s.MemoryLegal) (c : Slot) : (s.dropConn c).MemoryLegal where
  hbufWf := h.hbufWf
  hbufInside := h.hbufInside
  connsWf := twf_terase _ h.connsWf
  conns x k hk := by
    rw [State.dropConn_conns, tget_terase] at hk
    split at hk
    · cases hk
    · exact h.conns x k hk
  domainsWf := h.domainsWf
  domains := h.domains

theorem memoryLegal_modDesc {s : State} (h : s.MemoryLegal) (d : Byte) (f : Desc → Desc) : (s.modDesc d f).MemoryLegal :=
  h.congr rfl rfl rfl rfl

theorem memoryLegal_closed {s : State} (h : s.MemoryLegal) (c : Slot) (k : Conn) : (s.closed c k).MemoryLegal := by
  unfold State.closed
  split
  · exact memoryLegal_dropConn (memoryLegal_modDesc h _ _) c
  · exact memoryLegal_dropConn h c

theorem memoryLegal_pointTo (n : Slot) (l : List RouteEntry) {s : State} (h : s.MemoryLegal) :
    (s.pointTo n l).MemoryLegal := by
  induction l generalizing s with
  | nil => exact h
  | cons e es ih =>
    exact ih (memoryLegal_modConn h _ fun k l => ⟨l.inbuf, l.outbuf, l.base, l.cfgDepth, l.detDepth⟩)

theorem memoryLegal_reelect {s : State} (h : s.MemoryLegal) (q : Byte) (old : Slot) : (s.reelect q old).MemoryLegal := by
  unfold State.reelect
  split
  · exact h
  · refine memoryLegal_pointTo _ _ (memoryLegal_setDomain (memoryLegal_modConn h _ fun k l => ?_) _ _)
    exact ⟨l.inbuf, l.outbuf, l.base, l.cfgDepth, l.detDepth⟩

theorem memoryLegal_unregistered {s : State} (h : s.MemoryLegal) (q : Byte) (c : Slot) :
    (s.unregistered q c).MemoryLegal := memoryLegal_setDomain h _ _

theorem memoryLegal_note {s : State} (h : s.MemoryLegal) (c : PortCall) (a : PortAnswer) : (s.note c a).MemoryLegal :=
  h.congr rfl rfl rfl rfl

theorem Within.memoryLegal {R : ConnRel} (hR : ∀ g k k', R g k k' → k.Legal g → k'.Legal g) {s u : State}
    (h : Within R s u) (hs : s.MemoryLegal) : u.MemoryLegal where
  hbufWf := by rw [h.hbuf]; exact hs.hbufWf
  hbufInside := by rw [h.hbuf, h.cfg]; exact hs.hbufInside
  connsWf := h.wf hs.connsWf
  conns x k' hk' := by
    cases hx : tget s.conns x with
    | none => rw [h.unused x hx] at hk'; cases hk'
    | some k =>
      obtain ⟨k'', hk'', hr⟩ := h.used x k hx
      rw [hk'] at hk''
      cases hk''
      rw [h.cfg]
      exact hR _ _ _ hr (hs.conns x k hx)
  domainsWf := by rw [h.domains]; exact hs.domainsWf
  domains := by rw [h.domains]; exact hs.domains

theorem newBuf_legal {g : Config} {k : Kind} {n : Nat} (h : minBuf k ≤ n ∧ n ≤ g.bufMax) : (newBuf n).Legal g k :=
  ⟨rfl, fun _ _ => rfl, h.1, h.2⟩

theorem openedConn_legal {g : Config} (h : g.wf = true) (d : Byte) (k : Kind) (o : Bool) (r : Role) (m : Slot) :
    (openedConn g d k o r m).Legal g where
  inbuf := newBuf_legal (config_wf_buffers h k).1
  outbuf := newBuf_legal (config_wf_buffers h k).2
  base b hb := by cases hb
  cfgDepth := Nat.zero_le _
  detDepth := Nat.zero_le _

/-- What OPEN's routing part did before it answered the role: nothing for a connection that is not CAN; a registration of
a Slave with the peer's Master, or of a Master with itself (R90, R135). -/
theorem openRole_ok {c : Slot} {d : Desc} {p : Slot} {s u : State} {r : Role × Slot} (h : openRole c d p s = .ok r u) :
    (d.kind ≠ .can ∧ r = (.none, noSlot) ∧ u = s)
    ∨ (d.kind = .can ∧ overlapError s.cfg (s.domain d.port).table d.can.baseIdRx d.can.baseIdTx = none
      ∧ ((s.peerError c p d.port = none ∧ r = (.slave, s.masterOf p) ∧ u = s.register (s.masterOf p) c d)
        ∨ ((s.domain d.port).dmaster = noSlot ∧ r = (.master, noSlot) ∧ u = s.register c c d))) := by
  rw [openRole_run] at h
  split at h
  · rename_i hk; cases h; exact .inl ⟨hk, rfl, rfl⟩
  · rename_i hk
    refine .inr ⟨by simpa using hk, ?_⟩
    split at h
    · split at h
      · cases h
      · rename_i hp
        split at h <;> cases h
        rename_i ho; exact ⟨ho, .inl ⟨hp, rfl, rfl⟩⟩
    · split at h
      · cases h
      · rename_i hm
        split at h <;> cases h
        rename_i ho; exact ⟨ho, .inr ⟨by simpa using hm, rfl, rfl⟩⟩

theorem execOpen_memoryLegal {c : Slot} {e : Bool} {s t : State} (hg : s.cfg.wf = true) (hs : s.MemoryLegal)
    (h : execOpen c e s = .next t) : t.MemoryLegal := by
  rcases execOpen_kept h with ⟨x, rfl⟩ | ⟨r, u, hr, hk, -, rfl⟩
  · exact (endErr_ended s x).memoryLegal hs
  · have hu : u.MemoryLegal := by
      rcases openRole_ok hr with ⟨-, -, rfl⟩ | ⟨-, -, ⟨-, -, rfl⟩ | ⟨-, -, rfl⟩⟩
      · exact hs
      · exact memoryLegal_setDomain hs _ _
      · exact memoryLegal_setDomain hs _ _
    have hc : u.cfg = s.cfg := by rw [hk.rest]
    refine Ended.memoryLegal (.inl ⟨false, rfl⟩) (memoryLegal_setConn hu c ?_)
    rw [hc]
    exact openedConn_legal hg _ _ _ _ _

theorem execClose_memoryLegal {c : Slot} {s t : State} (hs : s.MemoryLegal) (h : execClose c s = .next t) :
    t.MemoryLegal := by
  have hun := memoryLegal_unregistered hs (s.descOf c).port c
  rcases execClose_end h with ⟨e, rfl⟩ | ⟨u, call, hu, rfl⟩ | ⟨k, u, -, -, rfl, hu⟩
  · exact (endErr_ended s e).memoryLegal hs
  · refine Broken.memoryLegal (.inr rfl) (memoryLegal_note ?_ call _)
    rcases hu with rfl | rfl
    · exact hs
    · exact hun
  · refine Ended.memoryLegal (.inl ⟨false, rfl⟩) (memoryLegal_closed ?_ c k)
    rcases hu with ⟨-, rfl | ⟨_, _, rfl⟩⟩ | ⟨-, -, rfl⟩ | ⟨-, -, -, v, hv, rfl⟩ | ⟨-, -, -, rfl⟩
    · exact hs
    · exact memoryLegal_note hs _ _
    · exact hun
    · refine memoryLegal_setDomain ?_ _ _
      rcases hv with rfl | ⟨_, _, rfl⟩
      · exact hun
      · exact memoryLegal_note hun _ _
    · exact memoryLegal_reelect hun _ _

/-- A command that stores bytes in HBUF stores them inside it: RDREG and BUFPEEK check the size, an answer frame has 8
bytes, and HBUF has at least 8 (R52, R96). -/
theorem exec_hbufStored_le {i : Instr} {s t : State} (hg : s.cfg.wf = true) (h : exec i s = .next t) :
    t.hbuf = s.hbuf ∨ hbufStored i s ≤ s.cfg.hbufSize := by
  cases i
  case rdreg c =>
    rcases execRdreg_end h with ⟨u, hu, ⟨e, rfl⟩ | rfl⟩ | ⟨data, u, ha, -, -, -, -⟩
    · exact .inl hu.hbuf
    · exact .inl hu.hbuf
    · refine .inr ?_
      show s.arg1.toNat ≤ s.cfg.hbufSize
      by_contra hlt
      have hbig : s.tooLarge (s.conn c) (s.descOf c) false s.arg1.toNat = true := by
        simp [State.tooLarge, Nat.lt_of_not_le hlt]
      rw [State.accessError, if_neg (by omega), if_pos hbig] at ha
      cases ha
  case bufpeek c e =>
    simp only [exec, execBufpeek_run] at h
    split at h
    · cases h; exact .inl rfl
    · split at h
      · cases h; exact .inl rfl
      · rename_i hp
        refine .inr ?_
        show s.arg1.toNat ≤ s.cfg.hbufSize
        by_contra hlt
        rw [State.peekError] at hp
        split at hp
        · cases hp
        · rw [if_pos (.inl (Nat.lt_of_not_le hlt))] at hp
          cases hp
  case getval | setval | popcfg | popdet => exact .inr (config_wf_hbuf hg)
  all_goals exact .inr (Nat.zero_le _)

theorem shape_memoryLegal {i : Instr} {s t : State} (hs : s.MemoryLegal) (h : Shape i s t)
    (hb : t.hbuf = s.hbuf ∨ hbufStored i s ≤ s.cfg.hbufSize) : t.MemoryLegal := by
  obtain ⟨u, m, v, hu, hrest, hwf, -, hend⟩ := h
  have hul : u.MemoryLegal := hu.memoryLegal (fun _ _ _ r => r.legal) hs
  rcases hend with ⟨-, hend⟩ | ⟨r, rfl⟩
  · exact hend.memoryLegal (hul.congr rfl rfl rfl rfl)
  · refine Ended.memoryLegal (.inl ⟨r, rfl⟩) ?_
    have hm : ({ u with hbuf := m } : State).MemoryLegal := by
      refine memoryLegal_setHbuf hul (hwf hs.hbufWf) fun x hx => ?_
      rw [hu.cfg] at hx
      rcases hb with hb | hb
      · have hb : m = s.hbuf := hb
        rw [hb]; exact hs.hbufInside x hx
      · rw [hrest x (hb.trans hx)]; exact hs.hbufInside x hx
    exact hm.congr rfl rfl rfl rfl

theorem exec_memoryLegal {i : Instr} {s t : State} (hg : s.cfg.wf = true) (hs : s.MemoryLegal)
    (h : exec i s = .next t) : t.MemoryLegal := by
  cases exec_next h with
  | opened run => exact execOpen_memoryLegal hg hs run
  | closed run => exact execClose_memoryLegal hs run
  | addressed run =>
    rcases execSetaddr_next run with ⟨x, rfl⟩ | ⟨k, -, rfl⟩ <;> exact hs.congr rfl rfl rfl rfl
  | shaped shape => exact shape_memoryLegal hs shape (exec_hbufStored_le hg h)

theorem accessed_memoryLegal {s t : State} (hs : s.MemoryLegal) (h : Accessed s t) : t.MemoryLegal := by
  cases h with
  | started v idle eq => rw [eq]; exact hs.congr rfl rfl rfl rfl
  | registers eq => rw [eq]; exact hs.congr rfl rfl rfl rfl
  | stored i v inside eq =>
    rw [eq]
    refine memoryLegal_setHbuf hs (mwrite_wf _ _ hs.hbufWf) fun x hx => ?_
    rw [mread_mwrite, if_neg (by omega)]
    exact hs.hbufInside x hx

theorem accessed_cfg {s t : State} (h : Accessed s t) : t.cfg = s.cfg := by
  cases h with
  | started v idle eq => rw [eq]; rfl
  | registers eq => rw [eq]
  | stored i v inside eq => rw [eq]

/-- No step changes the configuration (R8). -/
theorem step_cfg {s t : State} (h : step s = .next t) : t.cfg = s.cfg := by
  cases step_next h with
  | same eq => rw [eq]
  | accessed access => exact accessed_cfg (s := s.nextHostItem) access
  | reset eq => rw [eq]; rfl
  | rejected e busy runs eq => rw [eq]; rfl
  | ran i busy runs exec =>
    obtain ⟨-, -, -, -, -, -, hc, -⟩ := operandRegistersAreNeverWritten i s.fetched t exec
    exact hc

/-- Settles O18: by the cases of a step; every operation on a table keeps its canonical form, and every byte stored in
HBUF is inside it. -/
theorem memoriesStayLegal : Obligations.MemoriesStayLegal := by
  unfold Obligations.MemoriesStayLegal
  intro s t hg hs h
  refine ⟨?_, step_cfg h⟩
  cases step_next h with
  | same eq => rw [eq]; exact hs
  | accessed access => exact accessed_memoryLegal (s := s.nextHostItem) (hs.congr rfl rfl rfl rfl) access
  | reset eq => rw [eq]; exact (memoryLegal_resetWith s.cfg).congr rfl rfl rfl rfl
  | rejected e busy runs eq => rw [eq]; exact hs.congr rfl rfl rfl rfl
  | ran i busy runs exec => exact exec_memoryLegal (s := s.fetched) hg (hs.congr rfl rfl rfl rfl) exec

end Sys2Proof.Machine
end

section
/-! PROOF. Which commands change the tables: descriptors only as `DescEdited`, connections only as `Conn.Changed`. -/

namespace Sys2Proof.Machine

/-! ### Descriptors change in three fields only -/

/-- From `d` to `d'` only the fields that CLOSE and SETADDR write changed (R32). -/
def DescEdited (d d' : Desc) : Prop :=
  ∃ b x y, d' = { d with valid := b, spi := { d.spi with chipAddress := x }, mb := { d.mb with devAddr := y } }

theorem DescEdited.refl (d : Desc) : DescEdited d d := ⟨d.valid, d.spi.chipAddress, d.mb.devAddr, rfl⟩

theorem DescEdited.kind {d d' : Desc} (h : DescEdited d d') : d'.kind = d.kind := by
  obtain ⟨_, _, _, rfl⟩ := h; rfl

theorem DescEdited.port {d d' : Desc} (h : DescEdited d d') : d'.port = d.port := by
  obtain ⟨_, _, _, rfl⟩ := h; rfl

theorem descEdited_invalid (d : Desc) : DescEdited d { d with valid := false } :=
  ⟨false, d.spi.chipAddress, d.mb.devAddr, rfl⟩

theorem descEdited_setAddress (v : Byte) (k : Kind) (d : Desc) : DescEdited d (setAddress v k d) := by
  cases k with
  | spi => exact ⟨d.valid, v, d.mb.devAddr, rfl⟩
  | modbus => exact ⟨d.valid, d.spi.chipAddress, v, rfl⟩
  | can => exact DescEdited.refl d

/-- From `s` to `t` the descriptor table kept its length, and each descriptor all but the fields of R32. -/
structure DescsEdited (s t : State) : Prop where
  length : t.descs.length = s.descs.length
  each : ∀ d, DescEdited (s.descAt d) (t.descAt d)

theorem descsEdited_of_eq {s t : State} (h : t.descs = s.descs) : DescsEdited s t :=
  ⟨by rw [h], fun d => by rw [State.descAt, State.descAt, h]; exact DescEdited.refl _⟩

/-- The relation is about the descriptor tables alone. -/
theorem DescsEdited.congr {s t s' t' : State} (h : DescsEdited s t) (hs : s'.descs = s.descs) (ht : t'.descs = t.descs) :
    DescsEdited s' t' :=
  ⟨by rw [hs, ht]; exact h.length, fun d => by rw [State.descAt, State.descAt, hs, ht]; exact h.each d⟩

theorem descsEdited_modDesc (s : State) (d : Byte) {f : Desc → Desc} (hf : ∀ x, DescEdited x (f x)) :
    DescsEdited s (s.modDesc d f) where
  length := by simp
  each x := by
    simp only [State.descAt, State.modDesc_descs, List.getD_eq_getElem?_getD, List.getElem?_modify]
    cases s.descs[x.toNat]? with
    | none => exact DescEdited.refl _
    | some e =>
      by_cases h : d.toNat = x.toNat
      · simpa [h] using hf e
      · simpa [h] using DescEdited.refl e

theorem descsEdited_closed (s : State) (c : Slot) (k : Conn) : DescsEdited s (s.closed c k) := by
  unfold State.closed
  split
  · exact (descsEdited_modDesc s k.desc descEdited_invalid).congr rfl rfl
  · exact descsEdited_of_eq rfl

@[simp] theorem State.closed_conns (s : State) (c : Slot) (k : Conn) : (s.closed c k).conns = terase s.conns c.toNat := by
  unfold State.closed; split <;> rfl

@[simp] theorem State.closed_domains (s : State) (c : Slot) (k : Conn) : (s.closed c k).domains = s.domains := by
  unfold State.closed; split <;> rfl

@[simp] theorem State.closed_cfg (s : State) (c : Slot) (k : Conn) : (s.closed c k).cfg = s.cfg := by
  unfold State.closed; split <;> rfl

/-- An end changes no table. -/
theorem Ended.tables {u t : State} (h : Ended u t) :
    t.conns = u.conns ∧ t.domains = u.domains ∧ t.descs = u.descs ∧ t.cfg = u.cfg := by
  rcases h with ⟨r, rfl⟩ | ⟨e, rfl⟩ | rfl <;> exact ⟨rfl, rfl, rfl, rfl⟩

/-- The tables at the end of every command but OPEN, CLOSE and SETADDR. -/
theorem Shape.tables {i : Instr} {s t : State} (h : Shape i s t) :
    ∃ u, Within (ConnStep i) s u ∧ t.conns = u.conns ∧ t.domains = s.domains ∧ t.descs = s.descs ∧ t.cfg = s.cfg := by
  obtain ⟨u, m, v, hu, -, -, -, hend⟩ := h
  refine ⟨u, hu, ?_⟩
  rw [← hu.domains, ← hu.descs, ← hu.cfg]
  rcases hend with ⟨-, hb⟩ | ⟨r, rfl⟩
  · exact Ended.tables (u := { u with result0 := v }) (.inr hb)
  · exact ⟨rfl, rfl, rfl, rfl⟩

/-- Work on the connections opens and closes no slot. -/
theorem Within.isSome {R : ConnRel} {s u : State} (h : Within R s u) (x : Nat) :
    (tget u.conns x).isSome = (tget s.conns x).isSome := by
  cases hx : tget s.conns x with
  | none => rw [h.unused x hx]
  | some k =>
    obtain ⟨k', hk', -⟩ := h.used x k hx
    rw [hk']; rfl

/-! ### Re-election changes the role, the Master and the flag only -/

/-- From `k` to `k'` only the fields re-election writes changed (R138). -/
def Conn.Elected (k k' : Conn) : Prop := k' = { k with connected := k'.connected, role := k'.role, master := k'.master }

/-- Every used slot of `u` is one of `s`, with a connection `R` relates to it. -/
def ConnsFrom (R : Conn → Conn → Prop) (s u : State) : Prop :=
  ∀ x k', tget u.conns x = some k' → ∃ k, tget s.conns x = some k ∧ R k k'

theorem connsFrom_of_eq {s u : State} (h : u.conns = s.conns) : ConnsFrom Conn.Elected s u :=
  fun _ k' hk' => ⟨k', h ▸ hk', rfl⟩

theorem ConnsFrom.trans {s t u : State} (h : ConnsFrom Conn.Elected s t) (h' : ConnsFrom Conn.Elected t u) :
    ConnsFrom Conn.Elected s u := by
  intro x k'' hk''
  obtain ⟨k', hk', e'⟩ := h' x k'' hk''
  obtain ⟨k, hk, e⟩ := h x k' hk'
  refine ⟨k, hk, ?_⟩
  rw [e] at e'
  exact e'

theorem connsFrom_modConn (s : State) (c : Slot) {f : Conn → Conn} (hf : ∀ k, Conn.Elected k (f k)) :
    ConnsFrom Conn.Elected s (s.modConn c f) := by
  intro x k' hk'
  rw [State.modConn_conns, tget_tmodify] at hk'
  split at hk'
  · rename_i hx
    obtain ⟨k, hk, rfl⟩ := Option.map_eq_some_iff.1 hk'
    exact ⟨k, hx ▸ hk, hf k⟩
  · exact ⟨k', hk', rfl⟩

theorem connsFrom_pointTo (n : Slot) (l : List RouteEntry) (s : State) : ConnsFrom Conn.Elected s (s.pointTo n l) := by
  induction l generalizing s with
  | nil => exact connsFrom_of_eq rfl
  | cons e es ih => exact (connsFrom_modConn s e.slot fun _ => by rw [Conn.Elected]).trans (ih _)

theorem connsFrom_reelect (s : State) (q : Byte) (old : Slot) : ConnsFrom Conn.Elected s (s.reelect q old) := by
  unfold State.reelect
  split
  · exact connsFrom_of_eq rfl
  · exact (connsFrom_modConn s _ fun _ => by rw [Conn.Elected]).trans (connsFrom_pointTo _ _ _)

theorem connsFrom_closed (s : State) (c : Slot) (k : Conn) : ConnsFrom Conn.Elected s (s.closed c k) := by
  intro x k' hk'
  rw [State.closed_conns, tget_terase] at hk'
  split at hk'
  · cases hk'
  · exact ⟨k', hk', rfl⟩

/-- CLOSE opens no slot, and changes of the connections that stay only what re-election writes. -/
theorem execClose_connsFrom {c : Slot} {s t : State} (h : execClose c s = .next t) : ConnsFrom Conn.Elected s t := by
  rcases execClose_end h with ⟨e, rfl⟩ | ⟨u, call, rfl | rfl, rfl⟩ | ⟨k, u, -, -, rfl, hu⟩
  · exact connsFrom_of_eq rfl
  · exact connsFrom_of_eq rfl
  · exact connsFrom_of_eq rfl
  · have hsu : ConnsFrom Conn.Elected s u := by
      rcases hu with ⟨-, rfl | ⟨_, _, rfl⟩⟩ | ⟨-, -, rfl⟩ | ⟨-, -, -, v, rfl | ⟨_, _, rfl⟩, rfl⟩ | ⟨-, -, -, rfl⟩
      · exact connsFrom_of_eq rfl
      · exact connsFrom_of_eq rfl
      · exact connsFrom_of_eq rfl
      · exact connsFrom_of_eq rfl
      · exact connsFrom_of_eq rfl
      · exact (connsFrom_of_eq rfl).trans (connsFrom_reelect (s.unregistered _ c) _ c)
    exact hsu.trans (connsFrom_closed u c k)

/-! ### Which commands change the tables -/

/-- What O15 says of one connection before and after a command. -/
structure Conn.Changed (i : Instr) (k k' : Conn) : Prop where
  desc : k'.desc = k.desc
  kind : k'.kind = k.kind
  owner : k'.owner = k.owner
  devType : (∀ c, i ≠ .init c) → (∀ c, i ≠ .setdt c) → k'.devType = k.devType
  dstate : (∀ c e, i ≠ .stream c e) → k'.dstate = k.dstate
  flags : (∀ c, i ≠ .connect c) → (∀ c, i ≠ .disconnect c) → (∀ c, i ≠ .closeConn c) →
    k'.connected = k.connected ∧ k'.role = k.role ∧ k'.master = k.master

theorem Conn.Changed.refl (i : Instr) (k : Conn) : Conn.Changed i k k :=
  ⟨rfl, rfl, rfl, fun _ _ => rfl, fun _ => rfl, fun _ _ _ => ⟨rfl, rfl, rfl⟩⟩

theorem ConnStep.changed {i : Instr} {g : Config} {k k' : Conn} (h : ConnStep i g k k') : Conn.Changed i k k' :=
  ⟨h.desc, h.kind, h.owner, h.devType, h.dstate, fun a b _ => ⟨h.connected a b, h.role, h.master⟩⟩

theorem Conn.Elected.changed {c : Slot} {k k' : Conn} (h : k.Elected k') : Conn.Changed (.closeConn c) k k' := by
  rw [h]
  exact ⟨rfl, rfl, rfl, fun _ _ => rfl, fun _ => rfl, fun _ _ a => absurd rfl (a c)⟩

theorem openRole_conns {c : Slot} {d : Desc} {p : Slot} {s u : State} {r : Role × Slot}
    (h : openRole c d p s = .ok r u) : u.conns = s.conns := by
  rcases openRole_ok h with ⟨-, -, rfl⟩ | ⟨-, -, ⟨-, -, rfl⟩ | ⟨-, -, rfl⟩⟩ <;> rfl

theorem openError_unused {s : State} {c : Slot} {d : Byte} {p : Slot} (h : s.openError c d p = none) :
    s.conn? c = none := by
  unfold State.openError at h
  split at h
  · cases h
  · rename_i hn
    simpa using fun e => hn (.inr e)

/-- A slot used before and after a command keeps its connection but for the fields the command is named for. -/
theorem exec_changed {i : Instr} {s t : State} (h : exec i s = .next t) {x : Slot} {k k' : Conn}
    (hk : s.conn? x = some k) (hk' : t.conn? x = some k') : Conn.Changed i k k' := by
  have same : t.conns = s.conns → Conn.Changed i k k' := by
    intro hc
    rw [State.conn?, hc, ← State.conn?, hk] at hk'
    cases hk'
    exact Conn.Changed.refl i k
  cases exec_next h with
  | opened run =>
    rcases execOpen_kept run with ⟨e, rfl⟩ | ⟨r, u, hr, -, hn, rfl⟩
    · exact same rfl
    · rename_i c e
      have hx : c ≠ x := by
        rintro rfl
        rw [openError_unused hn] at hk; cases hk
      have hk₁ : (u.setConn c _).conn? x = some k' := hk'
      rw [State.conn?_setConn, if_neg hx, State.conn?, openRole_conns hr, ← State.conn?, hk] at hk₁
      cases hk₁
      exact Conn.Changed.refl _ k
  | closed run =>
    obtain ⟨k₀, hk₀, he⟩ := execClose_connsFrom run x.toNat k' hk'
    have : k₀ = k := Option.some.inj (hk₀.symm.trans hk)
    exact this ▸ he.changed
  | addressed run =>
    rcases execSetaddr_next run with ⟨e, rfl⟩ | ⟨k, -, rfl⟩
    · exact same rfl
    · exact same rfl
  | shaped shape =>
    obtain ⟨u, hu, hc, -⟩ := shape.tables
    obtain ⟨k₁, hk₁, hr⟩ := hu.used x.toNat k hk
    have : k₁ = k' := Option.some.inj (hk₁.symm.trans (hc ▸ hk'))
    exact this ▸ hr.changed

theorem exec_descsEdited {i : Instr} {s t : State} (h : exec i s = .next t) : DescsEdited s t := by
  cases exec_next h with
  | opened run =>
    rcases execOpen_kept run with ⟨e, rfl⟩ | ⟨r, u, -, hu, -, rfl⟩
    · exact descsEdited_of_eq rfl
    · exact descsEdited_of_eq (by rw [hu.rest]; rfl)
  | closed run =>
    rcases execClose_kept run with ⟨x, rfl⟩ | ⟨u, hu, rfl⟩ | ⟨k, u, -, hu, rfl⟩
    · exact descsEdited_of_eq rfl
    · exact descsEdited_of_eq (by rw [hu.rest]; rfl)
    · rename_i c
      exact (descsEdited_closed u c k).congr (by rw [hu.rest]) rfl
  | addressed run =>
    rcases execSetaddr_next run with ⟨x, rfl⟩ | ⟨k, -, rfl⟩
    · exact descsEdited_of_eq rfl
    · exact (descsEdited_modDesc s _ (descEdited_setAddress _ _)).congr rfl rfl
  | shaped shape =>
    obtain ⟨u, -, -, -, hd, -⟩ := shape.tables
    exact descsEdited_of_eq hd

/-- Settles O15: every command but OPEN, CLOSE and SETADDR works `Within` the connections; OPEN changes no used slot, CLOSE
only what re-election writes, and descriptors are only `Desc.Edited`. -/
theorem onlyNamedCommandsChangeTheTables : Obligations.OnlyNamedCommandsChangeTheTables := by
  unfold Obligations.OnlyNamedCommandsChangeTheTables
  intro i s t h
  obtain ⟨hlen, hed⟩ := exec_descsEdited h
  refine ⟨fun ho hc => ?_, fun hc ha => ?_, ⟨hlen, hed⟩, fun x k k' hk hk' => ?_⟩
  · cases exec_next h with
    | opened run => exact absurd rfl (ho _ _)
    | closed run => exact absurd rfl (hc _)
    | addressed run =>
      rcases execSetaddr_next run with ⟨e, rfl⟩ | ⟨k, -, rfl⟩
      · exact ⟨rfl, fun _ => rfl⟩
      · exact ⟨rfl, fun _ => rfl⟩
    | shaped shape =>
      obtain ⟨u, hu, hcs, hd, -⟩ := shape.tables
      exact ⟨hd, fun x => by rw [State.conn?, hcs]; exact hu.isSome x.toNat⟩
  · cases exec_next h with
    | opened run =>
      rcases execOpen_kept run with ⟨e, rfl⟩ | ⟨r, u, -, hu, -, rfl⟩
      · rfl
      · rw [hu.rest]; rfl
    | closed run => exact absurd rfl (hc _)
    | addressed run => exact absurd rfl (ha _)
    | shaped shape =>
      obtain ⟨u, -, -, -, hd, -⟩ := shape.tables
      exact hd
  · obtain ⟨a, b, c, d, e, f⟩ := exec_changed h hk hk'
    exact ⟨a, b, c, d, e, f⟩

end Sys2Proof.Machine
end

section
/-! PROOF. The routing invariants of R36 as facts about tables, ports and ranks, and what each change of a domain does
to them. -/

namespace Sys2Proof.Machine

/-! ### The routing invariants, said of ports, ranks and tables

`State.canPort` and `State.rank` are all that R36 reads of the connections. (c) and (d) are then `Entered`, about tables and
ports, and (a) and (b) are `Headed`, about one domain and the ranks; each change of a domain is one lemma about each. -/

/-- The port in whose domain a slot has its entry: that of its descriptor, if the slot is a used CAN slot. -/
def State.canPort (s : State) (x : Slot) : Option Byte :=
  (s.conn? x).bind fun k => if k.kind = .can then some (s.descAt k.desc).port else none

/-- The role and the Master of a slot. -/
def State.rank (s : State) (x : Slot) : Role × Slot := ((s.conn x).role, (s.conn x).master)

/-- (c) and (d) of R36: no two entries of a table overlap, each CAN slot has one entry in its port's table, and every entry
is of such a slot. -/
structure Entered (g : Config) (port : Slot → Option Byte) (table : Byte → List RouteEntry) : Prop where
  disjoint : ∀ q, (table q).Pairwise fun e f => overlaps g f.rxId f.txId e = false
  once : ∀ x q, port x = some q → ((table q).filter fun e => e.slot == x).length = 1
  used : ∀ q, ∀ e ∈ table q, port e.slot = some q

/-- (a) and (b) of R36 of one domain. -/
structure Headed (rank : Slot → Role × Slot) (d : Domain) : Prop where
  empty : d.dmaster = noSlot ↔ d.table = []
  first : ∀ e es, d.table = e :: es →
    e.slot = d.dmaster ∧ (rank e.slot).1 = .master ∧ ∀ f ∈ es, rank f.slot = (.slave, d.dmaster)

theorem canPort_eq_some {s : State} {x : Slot} {q : Byte} :
    s.canPort x = some q ↔ ∃ k, s.conn? x = some k ∧ k.kind = .can ∧ (s.descAt k.desc).port = q := by
  unfold State.canPort
  simp only [Option.bind_eq_some_iff, Option.ite_none_right_eq_some, Option.some.injEq]

theorem routingLegal_iff (s : State) : s.RoutingLegal ↔
    (∀ q, Headed s.rank (s.domain q)) ∧ Entered s.cfg s.canPort (fun q => (s.domain q).table) := by
  constructor
  · intro h
    refine ⟨fun q => ⟨h.a q, fun e es he => ?_⟩, h.c, fun x q hx => ?_, fun q e he => canPort_eq_some.2 (h.used q e he)⟩
    · obtain ⟨h1, h2, h3⟩ := h.b q e es he
      exact ⟨h1, h2, fun f hf => Prod.ext (h3 f hf).1 (h3 f hf).2⟩
    · obtain ⟨k, hk, hc, rfl⟩ := canPort_eq_some.1 hx
      exact h.d x k hk hc
  · rintro ⟨hh, he⟩
    refine ⟨fun q => (hh q).empty, fun q e es hq => ?_, he.disjoint, fun x k hk hc => ?_,
      fun q e h => canPort_eq_some.1 (he.used q e h)⟩
    · obtain ⟨h1, h2, h3⟩ := (hh q).first e es hq
      exact ⟨h1, h2, fun f hf => ⟨congrArg Prod.fst (h3 f hf), congrArg Prod.snd (h3 f hf)⟩⟩
    · exact he.once x _ (canPort_eq_some.2 ⟨k, hk, hc, rfl⟩)

/-! ### Tables -/

section
variable {g : Config} {port : Slot → Option Byte} {table : Byte → List RouteEntry}

/-- A CAN slot has an entry in the table of its port. -/
theorem Entered.exists_entry (h : Entered g port table) {x : Slot} {q : Byte} (hx : port x = some q) :
    ∃ e ∈ table q, e.slot = x := by
  have hl := h.once x q hx
  obtain ⟨e, he⟩ := List.exists_mem_of_length_pos (by omega : 0 < ((table q).filter fun e => e.slot == x).length)
  obtain ⟨hm, hs⟩ := List.mem_filter.1 he
  exact ⟨e, hm, by simpa using hs⟩

/-- No slot has two entries in a table. -/
theorem Entered.nodup (h : Entered g port table) (q : Byte) : ((table q).map RouteEntry.slot).Nodup := by
  rw [List.nodup_iff_count_le_one]
  intro x
  rw [List.count_eq_countP, List.countP_map, List.countP_eq_length_filter]
  by_cases hx : port x = some q
  · exact (h.once x q hx).le
  · rw [List.filter_eq_nil_iff.2]
    · exact Nat.zero_le _
    · intro e he hs
      have hs : e.slot = x := by simpa using hs
      exact hx (hs ▸ h.used q e he)

/-- The entries of a slot are taken out of every table, and the slot is closed (R136, R91). -/
theorem Entered.closed (h : Entered g port table) (c : Slot) :
    Entered g (fun x => if x = c then none else port x) (fun q => (table q).filter fun e => e.slot != c) where
  disjoint q := (h.disjoint q).filter _
  once x q hx := by
    split at hx
    · cases hx
    · rename_i hxc
      rw [List.filter_filter, ← h.once x q hx]
      congr 1
      refine List.filter_congr fun e _ => ?_
      by_cases he : e.slot = x
      · simp [he, hxc]
      · simp [he]
  used q e he := by
    obtain ⟨hm, hs⟩ := List.mem_filter.1 he
    rw [if_neg (by simpa using hs)]
    exact h.used q e hm

/-- A slot in use in no domain loses nothing by `Entered.closed`. -/
theorem Entered.filter_eq (h : Entered g port table) {c : Slot} {q : Byte} (hc : port c ≠ some q) :
    (table q).filter (fun e => e.slot != c) = table q := by
  refine List.filter_eq_self.2 fun e he => ?_
  have : e.slot ≠ c := by rintro rfl; exact hc (h.used q e he)
  simpa using this

/-- An unused slot is opened with one entry, which passed the check of R134. -/
theorem Entered.opened (h : Entered g port table) {c : Slot} (hc : port c = none) {q : Byte} {rx tx : Word}
    (ho : overlapError g (table q) rx tx = none) :
    Entered g (fun x => if x = c then some q else port x)
      (fun p => if p = q then table q ++ [{ slot := c, rxId := rx, txId := tx }] else table p) where
  disjoint p := by
    split
    · refine List.pairwise_append.2 ⟨h.disjoint q, List.pairwise_singleton _ _, fun e he f hf => ?_⟩
      rw [List.mem_singleton.1 hf]
      have hn : (table q).find? (overlaps g rx tx) = none := by
        unfold overlapError at ho
        split at ho
        · cases ho
        · split at ho
          · cases ho
          · assumption
      simpa using List.find?_eq_none.1 hn e he
    · exact h.disjoint p
  once x p hx := by
    have hfree : (table q).filter (fun e => e.slot == c) = [] := by
      refine List.filter_eq_nil_iff.2 fun e he hs => ?_
      have hs : e.slot = c := by simpa using hs
      rw [← hs, h.used q e he] at hc
      cases hc
    split at hx
    · rename_i hxc
      cases hx
      rw [if_pos rfl, hxc, List.filter_append, hfree]
      simp
    · rename_i hxc
      split
      · rename_i hp
        have hcx : c ≠ x := fun e => hxc e.symm
        rw [List.filter_append, ← h.once x p hx, hp]
        simp [hcx]
      · exact h.once x p hx
  used p e he := by
    split at he
    · rename_i hp
      rcases List.mem_append.1 he with he | he
      · have hec : e.slot ≠ c := by
          intro hec
          rw [← hec, h.used q e he] at hc
          cases hc
        rw [if_neg hec, hp]
        exact h.used q e he
      · rw [List.mem_singleton.1 he, if_pos rfl, hp]
    · have hec : e.slot ≠ c := by
        intro hec
        rw [← hec, h.used p e he] at hc
        cases hc
      rw [if_neg hec]
      exact h.used p e he

end

/-! ### Heads -/

section
variable {rank rank' : Slot → Role × Slot} {d : Domain}

theorem Headed.congr (h : Headed rank d) (hr : ∀ e ∈ d.table, rank' e.slot = rank e.slot) : Headed rank' d where
  empty := h.empty
  first e es he := by
    obtain ⟨h1, h2, h3⟩ := h.first e es he
    rw [he] at hr
    refine ⟨h1, by rw [hr e (by simp)]; exact h2, fun f hf => ?_⟩
    rw [hr f (by simp [hf])]
    exact h3 f hf

theorem headed_empty (rank : Slot → Role × Slot) : Headed rank { dmaster := noSlot, table := [] } :=
  ⟨by simp, fun e es he => by cases he⟩

/-- A Master with its own entry first and its Slaves' after it heads its domain. -/
theorem headed_cons {e : RouteEntry} {es : List RouteEntry} (hn : e.slot ≠ noSlot) (hm : (rank e.slot).1 = .master)
    (hs : ∀ f ∈ es, rank f.slot = (.slave, e.slot)) : Headed rank { dmaster := e.slot, table := e :: es } where
  empty := by simp [hn]
  first e' es' he := by
    cases he
    exact ⟨rfl, hm, hs⟩

/-- The entry of a Master is the domain's first, and every other slot of the domain is its Slave. -/
theorem Headed.slave_of_ne (h : Headed rank d) {m : RouteEntry} (hm : m ∈ d.table) (hr : (rank m.slot).1 = .master) :
    m.slot = d.dmaster ∧ ∀ f ∈ d.table, f.slot ≠ m.slot → rank f.slot = (.slave, m.slot) := by
  cases ht : d.table with
  | nil => rw [ht] at hm; cases hm
  | cons e es =>
    obtain ⟨h1, -, h3⟩ := h.first e es ht
    rw [ht] at hm
    have hme : m.slot = e.slot := by
      rcases List.mem_cons.1 hm with rfl | hm
      · rfl
      · rw [h3 m hm] at hr; cases hr
    refine ⟨hme.trans h1, fun f hf hne => ?_⟩
    rcases List.mem_cons.1 hf with rfl | hf
    · exact absurd hme.symm hne
    · rw [hme, h1]; exact h3 f hf

/-- Taking out the entries of a Slave leaves the head of a domain. -/
theorem Headed.removeSlave (h : Headed rank d) {c : Slot} (hc : (rank c).1 = .slave) :
    Headed rank { d with table := d.table.filter fun e => e.slot != c } := by
  cases ht : d.table with
  | nil =>
    have : d = { dmaster := noSlot, table := [] } := by rw [← h.empty.2 ht, ← ht]
    rw [this]
    exact headed_empty rank
  | cons e es =>
    obtain ⟨h1, h2, h3⟩ := h.first e es ht
    have hec : e.slot ≠ c := by rintro rfl; rw [hc] at h2; cases h2
    have hn : d.dmaster ≠ noSlot := by
      intro hn
      rw [h.empty.1 hn] at ht; cases ht
    rw [List.filter_cons_of_pos (by simpa using hec), ← h1]
    refine headed_cons (h1 ▸ hn) h2 fun f hf => ?_
    rw [h1]
    exact h3 f (List.mem_filter.1 hf).1

/-- A Slave of the Master is appended to a domain in use. -/
theorem Headed.append (h : Headed rank d) (ht : d.table ≠ []) {n : RouteEntry}
    (hn : rank n.slot = (.slave, d.dmaster)) : Headed rank { d with table := d.table ++ [n] } where
  empty := by simpa [ht] using h.empty
  first e es he := by
    obtain ⟨e', es', ht'⟩ := List.exists_cons_of_ne_nil ht
    rw [ht'] at he
    cases he
    obtain ⟨h1, h2, h3⟩ := h.first e es' ht'
    refine ⟨h1, h2, fun f hf => ?_⟩
    rcases List.mem_append.1 hf with hf | hf
    · exact h3 f hf
    · rw [List.mem_singleton.1 hf]; exact hn

/-- The Master a registered slot stands for has the first entry (R90). -/
theorem Headed.master_entry (h : Headed rank d) {e : RouteEntry} (he : e ∈ d.table) :
    (if (rank e.slot).1 = .master then e.slot else (rank e.slot).2) = d.dmaster ∧ ∃ m ∈ d.table, m.slot = d.dmaster := by
  obtain ⟨m, es, ht⟩ := List.exists_cons_of_ne_nil (List.ne_nil_of_mem he)
  obtain ⟨h1, -, h3⟩ := h.first m es ht
  refine ⟨?_, m, by simp [ht], h1⟩
  split
  · rename_i hr
    exact (h.slave_of_ne he hr).1
  · rename_i hr
    rw [ht] at he
    rcases List.mem_cons.1 he with rfl | he
    · exact absurd (h.first e es ht).2.1 hr
    · rw [h3 e he]

end

end Sys2Proof.Machine
end

section
/-! PROOF. Links and routing under every command but CLOSE. -/

namespace Sys2Proof.Machine

/-! ### The links of slots, descriptors and roles -/

/-- A connection keeps its descriptor and kind, and its role and Master go together as R29 says if they did before. -/
structure Conn.Relinked (k k' : Conn) : Prop where
  desc : k'.desc = k.desc
  kind : k'.kind = k.kind
  role : k'.role = .none ↔ k.role = .none
  master : (k.role ≠ .slave → k.master = noSlot) → k'.role ≠ .slave → k'.master = noSlot

theorem Conn.Relinked.refl (k : Conn) : Conn.Relinked k k := ⟨rfl, rfl, Iff.rfl, id⟩

theorem linksLegal_of_connsFrom {s t : State} (h : s.LinksLegal) (hg : t.cfg = s.cfg) (hd : DescsEdited s t)
    (hc : ConnsFrom Conn.Relinked s t) : t.LinksLegal where
  slot x k' hk' := by
    obtain ⟨k, hk, -⟩ := hc x k' hk'
    rw [hg]
    exact h.slot x k hk
  desc x k' hk' := by
    obtain ⟨k, hk, hr⟩ := hc x k' hk'
    rw [hr.desc, hr.kind, hd.length, (hd.each k.desc).kind]
    exact h.desc x k hk
  role x k' hk' := by
    obtain ⟨k, hk, hr⟩ := hc x k' hk'
    rw [hr.role, hr.kind]
    exact h.role x k hk
  master x k' hk' := by
    obtain ⟨k, hk, hr⟩ := hc x k' hk'
    exact hr.master (h.master x k hk)

/-- A slot below N_CONN is one of the 255 that have an index (R28). -/
theorem ne_noSlot_of_lt {g : Config} (hg : g.wf = true) {c : Slot} (h : c.toNat < g.nConn) : c ≠ noSlot := by
  rintro rfl
  have h255 : noSlot.toNat = 255 := rfl
  have := config_wf_nConn hg
  omega

/-- An entry of a used slot is keyed by a slot index. -/
theorem State.LinksLegal.exists_slot {s : State} (h : s.LinksLegal) (hg : s.cfg.wf = true) {x : Nat} {k : Conn}
    (hk : tget s.conns x = some k) : ∃ c : Slot, c.toNat = x ∧ s.conn? c = some k := by
  have h1 := h.slot x k hk
  have := config_wf_nConn hg
  have hx : (BitVec.ofNat 8 x).toNat = x := by rw [BitVec.toNat_ofNat, Nat.mod_eq_of_lt (by omega)]
  exact ⟨BitVec.ofNat 8 x, hx, by rw [State.conn?, hx]; exact hk⟩

/-! ### Changes that leave the routing as it is -/

/-- What the routing invariants read of a connection. -/
def Conn.links (k : Conn) : Byte × Kind × Role × Slot := (k.desc, k.kind, k.role, k.master)

/-- From `s` to `t` the domains, and what links and routing read of each connection, are the same. -/
structure SameRouting (s t : State) : Prop where
  cfg : t.cfg = s.cfg
  descs : DescsEdited s t
  domains : t.domains = s.domains
  conns : ∀ x, (tget t.conns x).map Conn.links = (tget s.conns x).map Conn.links

theorem sameRouting_of_tables {s t : State} (hg : t.cfg = s.cfg) (hd : t.descs = s.descs) (hm : t.domains = s.domains)
    (hc : t.conns = s.conns) : SameRouting s t :=
  ⟨hg, descsEdited_of_eq hd, hm, fun x => by rw [hc]⟩

/-- Where the entry of a connection has to be, if it is CAN. -/
def Conn.site (k : Conn) : Byte × Kind := (k.desc, k.kind)

theorem canPort_congr {s t : State} (hd : DescsEdited s t) {x : Slot}
    (hc : (t.conn? x).map Conn.site = (s.conn? x).map Conn.site) : t.canPort x = s.canPort x := by
  unfold State.canPort
  cases hs : s.conn? x with
  | none =>
    rw [hs] at hc
    rw [Option.map_eq_none_iff.1 hc]
    rfl
  | some k =>
    rw [hs] at hc
    obtain ⟨k', hk', hl⟩ := Option.map_eq_some_iff.1 hc
    simp only [Conn.site, Prod.mk.injEq] at hl
    obtain ⟨h1, h2⟩ := hl
    rw [hk']
    simp only [Option.bind_some, h1, h2, (hd.each k.desc).port]

theorem rank_eq_links (s : State) (x : Slot) : s.rank x = (((s.conn? x).map Conn.links).getD blankConn.links).2.2 := by
  unfold State.rank State.conn
  cases s.conn? x <;> rfl

theorem rank_congr {s t : State} {x : Slot} (hc : (t.conn? x).map Conn.links = (s.conn? x).map Conn.links) :
    t.rank x = s.rank x := by
  rw [rank_eq_links, rank_eq_links, hc]

theorem rank_of_some {s : State} {x : Slot} {k : Conn} (h : s.conn? x = some k) : s.rank x = (k.role, k.master) := by
  rw [State.rank, State.conn_of_some h]

theorem SameRouting.site {s t : State} (h : SameRouting s t) (x : Slot) :
    (t.conn? x).map Conn.site = (s.conn? x).map Conn.site := by
  have := congrArg (Option.map fun l : Byte × Kind × Role × Slot => (l.1, l.2.1)) (h.conns x.toNat)
  rw [Option.map_map, Option.map_map] at this
  exact this

theorem SameRouting.routing {s t : State} (h : SameRouting s t) (hs : s.RoutingLegal) : t.RoutingLegal := by
  obtain ⟨hh, he⟩ := (routingLegal_iff s).1 hs
  have hdom : t.domain = s.domain := by funext q; rw [State.domain, State.domain, h.domains]
  have hport : t.canPort = s.canPort := by funext x; exact canPort_congr h.descs (h.site x)
  have hrank : t.rank = s.rank := by funext x; exact rank_congr (h.conns x.toNat)
  rw [routingLegal_iff, hdom, hport, hrank, h.cfg]
  exact ⟨hh, he⟩

theorem SameRouting.links {s t : State} (h : SameRouting s t) (hs : s.LinksLegal) : t.LinksLegal := by
  refine linksLegal_of_connsFrom hs h.cfg h.descs fun x k' hk' => ?_
  have hm := h.conns x
  rw [hk'] at hm
  obtain ⟨k, hk, hl⟩ := Option.map_eq_some_iff.1 hm.symm
  simp only [Conn.links, Prod.mk.injEq] at hl
  obtain ⟨h1, h2, h3, h4⟩ := hl
  exact ⟨k, hk, h1.symm, h2.symm, by rw [h3], by rw [h3, h4]; exact id⟩

theorem shape_sameRouting {i : Instr} {s t : State} (h : Shape i s t) : SameRouting s t := by
  obtain ⟨u, hu, hc, hd, hs, hg⟩ := h.tables
  refine ⟨hg, descsEdited_of_eq hs, hd, fun x => ?_⟩
  rw [hc]
  cases hx : tget s.conns x with
  | none => rw [hu.unused x hx]
  | some k =>
    obtain ⟨k', hk', hr⟩ := hu.used x k hx
    rw [hk', Option.map_some, Option.map_some, Conn.links, hr.desc, hr.kind, hr.role, hr.master]
    rfl

/-! ### OPEN -/

/-- The state OPEN constructs: its descriptor is of the table, of the connection's kind, and its slot is a new one below
N_CONN (R90). -/
theorem openError_none {s : State} {c : Slot} {d : Byte} {p : Slot} (h : s.openError c d p = none) :
    c.toNat < s.cfg.nConn ∧ s.conn? c = none ∧ d.toNat < s.descs.length := by
  refine ⟨?_, openError_unused h, ?_⟩
  · unfold State.openError at h
    split at h
    · cases h
    · rename_i hn; exact Nat.lt_of_not_le fun e => hn (.inl e)
  · unfold State.openError at h
    split at h
    · cases h
    · split at h
      · cases h
      · rename_i hn; exact Nat.lt_of_not_le fun e => hn (.inl e)

/-- The Master a peer stands for is the Master of the domain of the port, which is in use (R90). -/
theorem masterOf_peer {s : State} (hs : s.RoutingLegal) {c p : Slot} {q : Byte} (h : s.peerError c p q = none) :
    s.masterOf p = (s.domain q).dmaster ∧ ∃ m ∈ (s.domain q).table, m.slot = (s.domain q).dmaster := by
  obtain ⟨hh, he⟩ := (routingLegal_iff s).1 hs
  unfold State.peerError at h
  split at h
  · cases h
  · rename_i k hk
    split at h
    · cases h
    · rename_i hn
      have hkind : k.kind = .can := by
        by_contra hne
        exact hn (.inr (.inr hne))
      split at h
      · cases h
      · rename_i hport
        have hport : (s.descOf (s.masterOf p)).port = q := by simpa using hport
        obtain ⟨e, hem, hes⟩ := he.exists_entry (canPort_eq_some.2 ⟨k, hk, hkind, rfl⟩)
        obtain ⟨hm, m, hmm, hms⟩ := (hh (s.descAt k.desc).port).master_entry hem
        rw [hes] at hm
        have hmaster : s.masterOf p = (s.domain (s.descAt k.desc).port).dmaster := hm
        obtain ⟨km, hkm, -, hpm⟩ := canPort_eq_some.1 (he.used _ m hmm)
        have : (s.descAt k.desc).port = q := by
          rw [← hport, hmaster, ← hms, State.descOf, State.conn_of_some hkm, hpm]
        rw [this] at hmaster hmm hms
        exact ⟨hmaster, m, hmm, hms⟩

theorem domain_register (s : State) (m c : Slot) (d : Desc) (q : Byte) :
    (s.register m c d).domain q = if d.port = q then
      { dmaster := if m = c then c else (s.domain d.port).dmaster
        table := (s.domain d.port).table ++ [{ slot := c, rxId := d.can.baseIdRx, txId := d.can.baseIdTx }] }
      else s.domain q :=
  State.domain_setDomain s d.port q _

/-- The state before the end of an OPEN without error: `u` is what the routing part left, `r` the role it gave (R90). -/
def State.constructed (s u : State) (c : Slot) (e : Bool) (b : Byte) (r : Role × Slot) : State :=
  u.setConn c (openedConn s.cfg b (s.descAt b).kind e r.1 r.2)

section
variable {s u : State} {c p : Slot} {e : Bool} {b : Byte} {r : Role × Slot}

/-- The connection OPEN constructs is linked as R29 and R32 say, for the role its routing part gave. -/
theorem linksLegal_constructed (hs : s.LinksLegal) (hn : s.openError c b p = none)
    (hr : openRole c (s.descAt b) p s = .ok r u) (hk : Kept s u) : (s.constructed u c e b r).LinksLegal := by
  obtain ⟨hc, -, hb⟩ := openError_none hn
  have hg : (s.constructed u c e b r).cfg = s.cfg := by rw [hk.rest]; rfl
  have hd : (s.constructed u c e b r).descs = s.descs := by rw [hk.rest]; rfl
  have hat : (s.constructed u c e b r).descAt = s.descAt := by funext x; rw [State.descAt, State.descAt, hd]
  have hrole : (r.1 = .none ↔ (s.descAt b).kind ≠ .can) ∧ (r.1 ≠ .slave → r.2 = noSlot) := by
    rcases openRole_ok hr with ⟨hkd, rfl, -⟩ | ⟨hkd, -, ⟨-, rfl, -⟩ | ⟨-, rfl, -⟩⟩ <;> simp [hkd]
  have hconn : ∀ {x k}, tget (s.constructed u c e b r).conns x = some k →
      (x = c.toNat ∧ k = openedConn s.cfg b (s.descAt b).kind e r.1 r.2) ∨ tget s.conns x = some k := by
    intro x k hx
    rw [State.constructed, State.setConn_conns, tget_tset, openRole_conns hr] at hx
    split at hx
    · rename_i hxc; cases hx; exact .inl ⟨hxc.symm, rfl⟩
    · exact .inr hx
  refine ⟨fun x k hx => ?_, fun x k hx => ?_, fun x k hx => ?_, fun x k hx => ?_⟩
  · rw [hg]
    rcases hconn hx with ⟨rfl, -⟩ | hx
    · exact hc
    · exact hs.slot x k hx
  · rw [hd, hat]
    rcases hconn hx with ⟨-, rfl⟩ | hx
    · exact ⟨hb, rfl⟩
    · exact hs.desc x k hx
  · rcases hconn hx with ⟨-, rfl⟩ | hx
    · exact hrole.1
    · exact hs.role x k hx
  · rcases hconn hx with ⟨-, rfl⟩ | hx
    · exact hrole.2
    · exact hs.master x k hx

theorem conn?_constructed (hc : u.conns = s.conns) (x : Slot) : (s.constructed u c e b r).conn? x
    = if x = c then some (openedConn s.cfg b (s.descAt b).kind e r.1 r.2) else s.conn? x := by
  rw [State.constructed, State.conn?_setConn, State.conn?, hc, ← State.conn?]
  simp only [eq_comm]

/-- Only the new slot gets a port, that of its descriptor. -/
theorem canPort_constructed (hc : u.conns = s.conns) (hd : u.descs = s.descs) (x : Slot) :
    (s.constructed u c e b r).canPort x
      = if x = c then (if (s.descAt b).kind = .can then some (s.descAt b).port else none) else s.canPort x := by
  have hat : (s.constructed u c e b r).descAt = s.descAt := by
    funext x
    rw [State.descAt, State.descAt, State.constructed, State.setConn_descs, hd]
  simp only [State.canPort, conn?_constructed hc, hat]
  split <;> rfl

/-- Only the new slot gets a rank, the one the routing part gave. -/
theorem rank_constructed (hc : u.conns = s.conns) (x : Slot) :
    (s.constructed u c e b r).rank x = if x = c then r else s.rank x := by
  simp only [State.rank, State.conn, conn?_constructed hc]
  split <;> rfl

/-- No entry of a domain is of an unused slot (R36 (d)). -/
theorem entry_ne_unused (hs : s.RoutingLegal) (hc : s.conn? c = none) {q : Byte} {f : RouteEntry}
    (hf : f ∈ (s.domain q).table) : f.slot ≠ c := by
  rintro rfl
  obtain ⟨k, hk, -, -⟩ := hs.used q f hf
  rw [hc] at hk
  cases hk

theorem headed_constructed (hs : s.RoutingLegal) (hfree : s.conn? c = none) (hc : u.conns = s.conns) (q : Byte) :
    Headed (s.constructed u c e b r).rank (s.domain q) :=
  (((routingLegal_iff s).1 hs).1 q).congr fun _ hf => by
    rw [rank_constructed hc, if_neg (entry_ne_unused hs hfree hf)]

/-- The domain of the port with the new entry has a head: the Master the new Slave names, or the new slot itself (R135). -/
theorem headed_registered (hg : s.cfg.wf = true) (hs : s.RoutingLegal) (hn : s.openError c b p = none)
    (hkind : (s.descAt b).kind = .can) (hr : openRole c (s.descAt b) p s = .ok r u) :
    ∃ m, u = s.register m c (s.descAt b)
      ∧ Headed (s.constructed u c e b r).rank ((s.register m c (s.descAt b)).domain (s.descAt b).port) := by
  obtain ⟨hlt, hfree, -⟩ := openError_none hn
  have hold := headed_constructed (e := e) (b := b) (r := r) hs hfree (openRole_conns hr) (s.descAt b).port
  have hnew := rank_constructed (e := e) (b := b) (r := r) (c := c) (openRole_conns hr) c
  rw [if_pos rfl] at hnew
  rcases openRole_ok hr with ⟨hne, -, -⟩ | ⟨-, -, ⟨hp, hrole, hu⟩ | ⟨hd, hrole, hu⟩⟩
  · exact absurd hkind hne
  · refine ⟨s.masterOf p, hu, ?_⟩
    obtain ⟨hmaster, m, hm, hms⟩ := masterOf_peer hs hp
    have hmc : s.masterOf p ≠ c := by
      rw [hmaster, ← hms]
      exact entry_ne_unused hs hfree hm
    rw [domain_register, if_pos rfl, if_neg hmc]
    exact hold.append (List.ne_nil_of_mem hm) (by rw [hnew, hrole, hmaster])
  · refine ⟨c, hu, ?_⟩
    rw [domain_register, if_pos rfl, if_pos rfl, hold.empty.1 hd]
    exact headed_cons (e := { slot := c, rxId := _, txId := _ }) (es := []) (ne_noSlot_of_lt hg hlt)
      (by rw [hnew, hrole]) (by simp)

/-- The new slot is entered in the domain of its port if it is CAN, and nowhere else. -/
theorem entered_constructed (hs : s.RoutingLegal) (hn : s.openError c b p = none)
    (hr : openRole c (s.descAt b) p s = .ok r u) (hk : Kept s u) :
    Entered s.cfg (s.constructed u c e b r).canPort fun q => (u.domain q).table := by
  obtain ⟨-, he⟩ := (routingLegal_iff s).1 hs
  have hfree : s.canPort c = none := by rw [State.canPort, openError_unused hn]; rfl
  have hport := canPort_constructed (c := c) (e := e) (b := b) (r := r) (openRole_conns hr) (by rw [hk.rest])
  rcases openRole_ok hr with ⟨hkind, -, rfl⟩ | ⟨hkind, hov, hcase⟩
  · have hsame : (u.constructed u c e b r).canPort = u.canPort := by
      funext x
      rw [hport, if_neg hkind]
      split
      · rename_i hx; rw [hx, hfree]
      · rfl
    rw [hsame]
    exact he
  · obtain ⟨m, rfl⟩ : ∃ m, u = s.register m c (s.descAt b) := by
      rcases hcase with ⟨-, -, hu⟩ | ⟨-, -, hu⟩
      · exact ⟨_, hu⟩
      · exact ⟨_, hu⟩
    convert he.opened hfree hov using 1
    · funext x
      rw [hport, if_pos hkind]
    · funext q
      rw [domain_register]
      by_cases hq : (s.descAt b).port = q
      · rw [if_pos hq, if_pos hq.symm]
      · rw [if_neg hq, if_neg fun h => hq h.symm]

theorem routingLegal_constructed (hg : s.cfg.wf = true) (hs : s.RoutingLegal) (hn : s.openError c b p = none)
    (hr : openRole c (s.descAt b) p s = .ok r u) (hk : Kept s u) : (s.constructed u c e b r).RoutingLegal := by
  have hcfg : (s.constructed u c e b r).cfg = s.cfg := by rw [hk.rest]; rfl
  rw [routingLegal_iff, hcfg]
  refine ⟨fun q => ?_, entered_constructed hs hn hr hk⟩
  have hold := headed_constructed (e := e) (b := b) (r := r) hs (openError_unused hn) (openRole_conns hr) q
  by_cases hkind : (s.descAt b).kind = .can
  · obtain ⟨m, hu, hm⟩ := headed_registered (e := e) hg hs hn hkind hr
    have hdom : (s.constructed u c e b r).domain q = (s.register m c (s.descAt b)).domain q := by rw [hu]; rfl
    rw [hdom]
    by_cases hq : (s.descAt b).port = q
    · rw [← hq]; exact hm
    · rw [domain_register, if_neg hq]; exact hold
  · rcases openRole_ok hr with ⟨-, -, hu⟩ | ⟨hcan, -⟩
    · have hdom : (s.constructed u c e b r).domain q = s.domain q := by rw [hu]; rfl
      rw [hdom]
      exact hold
    · exact absurd hcan hkind

end

theorem Ended.sameRouting {u t : State} (h : Ended u t) : SameRouting u t := by
  obtain ⟨hc, hm, hd, hg⟩ := h.tables
  exact sameRouting_of_tables hg hd hm hc

theorem sameRouting_endOk (u : State) (r : Bool) : SameRouting u (u.endOk r) := Ended.sameRouting (.inl ⟨r, rfl⟩)

theorem execOpen_routing {c : Slot} {e : Bool} {s t : State} (hg : s.cfg.wf = true) (hl : s.LinksLegal)
    (hs : s.RoutingLegal) (h : execOpen c e s = .next t) : t.LinksLegal ∧ t.RoutingLegal := by
  rcases execOpen_kept h with ⟨x, rfl⟩ | ⟨r, u, hr, hk, hn, rfl⟩
  · have hsame := (endErr_ended s x).sameRouting
    exact ⟨hsame.links hl, hsame.routing hs⟩
  · have hsame := sameRouting_endOk (s.constructed u c e (op8 s.arg0) r) false
    exact ⟨hsame.links (linksLegal_constructed hl hn hr hk), hsame.routing (routingLegal_constructed hg hs hn hr hk)⟩

end Sys2Proof.Machine
end

section
/-! PROOF. Links and routing under CLOSE, and along every step. -/

namespace Sys2Proof.Machine

/-! ### CLOSE -/

theorem pointTo_domains (n : Slot) (l : List RouteEntry) (s : State) : (s.pointTo n l).domains = s.domains := by
  induction l generalizing s with
  | nil => rfl
  | cons e es ih => exact ih _

theorem conn?_pointTo (n : Slot) (l : List RouteEntry) (s : State) (x : Slot) :
    (s.pointTo n l).conn? x
      = (s.conn? x).map fun k => if x ∈ l.map RouteEntry.slot then { k with master := n } else k := by
  induction l generalizing s with
  | nil => simp [State.pointTo]
  | cons e es ih =>
    rw [State.pointTo, ih, State.conn?_modConn]
    by_cases hx : e.slot = x
    · subst hx
      rw [if_pos rfl, Option.map_map]
      congr 1
      funext k
      simp
    · rw [if_neg hx]
      congr 1
      funext k
      have : x ≠ e.slot := fun h => hx h.symm
      simp [this]

/-- What re-election writes into the connection of slot `x` when `e` is the new Master's entry and `es` are its Slaves'. -/
def electedConn (e : RouteEntry) (es : List RouteEntry) (oldUp : Bool) (x : Slot) (k : Conn) : Conn :=
  if x = e.slot then { k with role := .master, master := noSlot, connected := k.connected && oldUp }
  else if x ∈ es.map RouteEntry.slot then { k with master := e.slot } else k

theorem reelect_cons {s : State} {q : Byte} {e : RouteEntry} {es : List RouteEntry} (h : (s.domain q).table = e :: es)
    (hne : e.slot ∉ es.map RouteEntry.slot) (old : Slot) :
    (∀ x, (s.reelect q old).conn? x = (s.conn? x).map (electedConn e es (s.conn old).connected x))
      ∧ ∀ p, (s.reelect q old).domain p = if q = p then { dmaster := e.slot, table := e :: es } else s.domain p := by
  unfold State.reelect
  rw [h]
  constructor
  · intro x
    dsimp only
    rw [conn?_pointTo]
    change ((s.modConn e.slot _).conn? x).map _ = _
    rw [State.conn?_modConn]
    by_cases hx : e.slot = x
    · subst hx
      rw [if_pos rfl, Option.map_map]
      congr 1
      funext k
      simp [electedConn, hne]
    · rw [if_neg hx]
      congr 1
      funext k
      have : x ≠ e.slot := fun h => hx h.symm
      simp [electedConn, this]
  · intro p
    have hd : ∀ u : State, (u.pointTo e.slot es).domain p = u.domain p := fun u => by
      rw [State.domain, State.domain, pointTo_domains]
    rw [hd, State.domain_setDomain]
    rfl

theorem electedConn_site (e : RouteEntry) (es : List RouteEntry) (o : Bool) (x : Slot) (k : Conn) :
    (electedConn e es o x k).site = k.site := by
  unfold electedConn
  split_ifs <;> rfl

theorem electedConn_first (e : RouteEntry) (es : List RouteEntry) (o : Bool) (k : Conn) :
    electedConn e es o e.slot k = { k with role := .master, master := noSlot, connected := k.connected && o } :=
  if_pos rfl

theorem electedConn_rest {e f : RouteEntry} {es : List RouteEntry} (hf : f ∈ es)
    (hne : e.slot ∉ es.map RouteEntry.slot) (o : Bool) (k : Conn) :
    electedConn e es o f.slot k = { k with master := e.slot } := by
  have hm : f.slot ∈ es.map RouteEntry.slot := List.mem_map_of_mem hf
  have hfe : f.slot ≠ e.slot := fun h => hne (by rw [← h]; exact hm)
  rw [electedConn, if_neg hfe, if_pos hm]

theorem electedConn_other {e : RouteEntry} {es : List RouteEntry} {x : Slot}
    (hx : x ∉ (e :: es).map RouteEntry.slot) (o : Bool) (k : Conn) : electedConn e es o x k = k := by
  rw [List.map_cons, List.mem_cons, not_or] at hx
  rw [electedConn, if_neg hx.1, if_neg hx.2]

/-- Re-election keeps the links of a connection if the slots it writes are of Slaves. -/
theorem relinked_electedConn {e : RouteEntry} {es : List RouteEntry} {x : Slot} {k : Conn}
    (hne : e.slot ∉ es.map RouteEntry.slot) (h : x ∈ (e :: es).map RouteEntry.slot → k.role = .slave) (o : Bool) :
    Conn.Relinked k (electedConn e es o x k) := by
  by_cases hx : x ∈ (e :: es).map RouteEntry.slot
  · have hr := h hx
    obtain ⟨f, hf, rfl⟩ := List.mem_map.1 hx
    rcases List.mem_cons.1 hf with rfl | hf
    · rw [electedConn_first]
      exact ⟨rfl, rfl, by simp [hr], fun _ _ => rfl⟩
    · rw [electedConn_rest hf hne]
      exact ⟨rfl, rfl, Iff.rfl, fun _ hns => absurd hr hns⟩
  · rw [electedConn_other hx]
    exact Conn.Relinked.refl k

/-- `u` is `s` with the entries of `c` taken out of every domain, each domain with a head again. -/
structure Detached (s u : State) (c : Slot) : Prop where
  kept : Kept s u
  site : ∀ x, (u.conn? x).map Conn.site = (s.conn? x).map Conn.site
  tables : ∀ q, (u.domain q).table = (s.domain q).table.filter fun e => e.slot != c
  heads : ∀ q, Headed u.rank (u.domain q)
  links : ConnsFrom Conn.Relinked s u

theorem State.conn?_closed (s : State) (c x : Slot) (k : Conn) :
    (s.closed c k).conn? x = if x = c then none else s.conn? x := by
  rw [State.conn?, State.closed_conns, tget_terase]
  by_cases h : x = c
  · rw [if_pos (by rw [h]), if_pos h]
  · rw [if_neg fun e => h (BitVec.eq_of_toNat_eq e.symm), if_neg h]
    rfl

/-- The last act of CLOSE on a detached slot leaves links and routing legal (R91). -/
theorem Detached.closed {s u : State} {c : Slot} (h : Detached s u c) (hl : s.LinksLegal) (hs : s.RoutingLegal)
    (k : Conn) : (u.closed c k).LinksLegal ∧ (u.closed c k).RoutingLegal := by
  have hcfg : (u.closed c k).cfg = s.cfg := by rw [State.closed_cfg, h.kept.rest]
  have hdescs : DescsEdited s (u.closed c k) := (descsEdited_closed u c k).congr (by rw [h.kept.rest]) rfl
  constructor
  · refine linksLegal_of_connsFrom hl hcfg hdescs fun x k' hk' => ?_
    rw [State.closed_conns, tget_terase] at hk'
    split at hk'
    · cases hk'
    · exact h.links x k' hk'
  · obtain ⟨-, he⟩ := (routingLegal_iff s).1 hs
    have hdom : ∀ q, (u.closed c k).domain q = u.domain q := fun q => by
      rw [State.domain, State.domain, State.closed_domains]
    have hport : (u.closed c k).canPort = fun x => if x = c then none else s.canPort x := by
      funext x
      split
      · rename_i hx
        rw [State.canPort, State.conn?_closed, if_pos hx]
        rfl
      · rename_i hx
        refine canPort_congr hdescs ?_
        rw [State.conn?_closed, if_neg hx, h.site x]
    rw [routingLegal_iff, hcfg, hport]
    refine ⟨fun q => ?_, ?_⟩
    · rw [hdom]
      refine (h.heads q).congr fun e hm => ?_
      rw [h.tables q] at hm
      have hec : e.slot ≠ c := by simpa using (List.mem_filter.1 hm).2
      rw [State.rank, State.conn, State.conn?_closed, if_neg hec]
      rfl
    · simp only [hdom, h.tables]
      exact he.closed c

section
variable {s : State} {c : Slot} {k : Conn}

theorem connsFrom_relinked_of_eq {s u : State} (h : u.conns = s.conns) : ConnsFrom Conn.Relinked s u :=
  fun _ k' hk' => ⟨k', h ▸ hk', Conn.Relinked.refl k'⟩

/-- Detached in the tables alone. -/
theorem detached_of_conns {u : State} (hk : Kept s u) (hc : u.conns = s.conns)
    (ht : ∀ q, (u.domain q).table = (s.domain q).table.filter fun e => e.slot != c)
    (hh : ∀ q, Headed s.rank (u.domain q)) : Detached s u c := by
  have hconn : ∀ x, u.conn? x = s.conn? x := fun x => by rw [State.conn?, State.conn?, hc]
  refine ⟨hk, fun x => by rw [hconn], ht, fun q => ?_, connsFrom_relinked_of_eq hc⟩
  have : u.rank = s.rank := by
    funext x
    rw [State.rank, State.rank, State.conn, State.conn, hconn]
  rw [this]
  exact hh q

/-- A connection that is not CAN has no entry (R36 (d)). -/
theorem detached_of_not_can {u : State} (hs : s.RoutingLegal) (hk : s.conn? c = some k) (hkind : k.kind ≠ .can)
    (hu : Kept s u) (hc : u.conns = s.conns) (hd : u.domains = s.domains) : Detached s u c := by
  obtain ⟨hh, he⟩ := (routingLegal_iff s).1 hs
  have hnone : s.canPort c = none := by simp [State.canPort, hk, hkind]
  have hdom : ∀ q, u.domain q = s.domain q := fun q => by rw [State.domain, State.domain, hd]
  refine detached_of_conns hu hc (fun q => ?_) fun q => by rw [hdom]; exact hh q
  rw [hdom]
  exact (he.filter_eq (by rw [hnone]; simp)).symm

theorem canPort_of_can (hk : s.conn? c = some k) (hkind : k.kind = .can) : s.canPort c = some (s.descOf c).port :=
  canPort_eq_some.2 ⟨k, hk, hkind, by rw [State.descOf, State.conn_of_some hk]⟩

theorem domain_unregistered (s : State) (q : Byte) (c : Slot) (p : Byte) : (s.unregistered q c).domain p
    = if q = p then { s.domain q with table := (s.domain q).table.filter fun e => e.slot != c } else s.domain p :=
  State.domain_setDomain s q p _

/-- Taking a CAN slot out of the table of its port takes it out of every table. -/
theorem tables_unregistered (hs : s.RoutingLegal) (hk : s.conn? c = some k) (hkind : k.kind = .can) (q : Byte) :
    ((s.unregistered (s.descOf c).port c).domain q).table = (s.domain q).table.filter fun e => e.slot != c := by
  obtain ⟨-, he⟩ := (routingLegal_iff s).1 hs
  rw [domain_unregistered]
  split
  · rename_i hq; rw [hq]
  · rename_i hq
    refine (he.filter_eq ?_).symm
    rw [canPort_of_can hk hkind]
    exact fun e => hq (Option.some.inj e)

/-- A Slave leaves its domain (R136). -/
theorem detached_of_slave (hs : s.RoutingLegal) (hk : s.conn? c = some k) (hkind : k.kind = .can)
    (hr : k.role = .slave) : Detached s (s.unregistered (s.descOf c).port c) c := by
  obtain ⟨hh, -⟩ := (routingLegal_iff s).1 hs
  refine detached_of_conns (kept_unregistered s _ c) rfl (tables_unregistered hs hk hkind) fun q => ?_
  rw [domain_unregistered]
  split
  · exact (hh _).removeSlave (by rw [State.rank, State.conn_of_some hk]; exact hr)
  · exact hh q

/-- The last connection of a domain leaves it empty (R137). -/
theorem detached_of_last {v : State} (hs : s.RoutingLegal) (hk : s.conn? c = some k) (hkind : k.kind = .can)
    (ht : ((s.unregistered (s.descOf c).port c).domain (s.descOf c).port).table = []) (hv : Kept s v)
    (hc : v.conns = s.conns) (hd : v.domains = (s.unregistered (s.descOf c).port c).domains) :
    Detached s (v.setDomain (s.descOf c).port { v.domain (s.descOf c).port with dmaster := noSlot }) c := by
  obtain ⟨hh, -⟩ := (routingLegal_iff s).1 hs
  have hdom : ∀ q, v.domain q = (s.unregistered (s.descOf c).port c).domain q := fun q => by
    rw [State.domain, State.domain, hd]
  have htab := tables_unregistered hs hk hkind
  refine detached_of_conns (hv.trans (kept_setDomain v _ _)) hc (fun q => ?_) fun q => ?_
  · rw [State.domain_setDomain]
    split
    · rename_i hq; rw [← hq, ← htab, hdom]
    · rw [hdom, htab]
  · rw [State.domain_setDomain]
    split
    · show Headed s.rank { dmaster := noSlot, table := (v.domain (s.descOf c).port).table }
      rw [hdom, ht]
      exact headed_empty _
    · rename_i hq
      rw [hdom, domain_unregistered, if_neg hq]
      exact hh q

/-- The slots that stay in the domain of a Master are its Slaves. -/
theorem slaves_of_master (hs : s.RoutingLegal) (hk : s.conn? c = some k) (hkind : k.kind = .can) (hr : k.role = .master)
    {f : RouteEntry} (hf : f ∈ (s.domain (s.descOf c).port).table.filter fun e => e.slot != c) :
    ∃ k', s.conn? f.slot = some k' ∧ k'.role = .slave := by
  obtain ⟨hh, he⟩ := (routingLegal_iff s).1 hs
  obtain ⟨hm, hfc⟩ := List.mem_filter.1 hf
  obtain ⟨m, hmm, rfl⟩ := he.exists_entry (canPort_of_can hk hkind)
  obtain ⟨k', hk', -, -⟩ := canPort_eq_some.1 (he.used _ f hm)
  have hslave := ((hh _).slave_of_ne hmm (by rw [rank_of_some hk]; exact hr)).2 f hm (by simpa using hfc)
  rw [rank_of_some hk'] at hslave
  exact ⟨k', hk', congrArg Prod.fst hslave⟩

/-- A Master leaves its domain to the first of its Slaves (R138). -/
theorem detached_of_master (hg : s.cfg.wf = true) (hl : s.LinksLegal) (hs : s.RoutingLegal) (hk : s.conn? c = some k)
    (hkind : k.kind = .can) (hr : k.role = .master)
    (ht : ((s.unregistered (s.descOf c).port c).domain (s.descOf c).port).table ≠ []) :
    Detached s ((s.unregistered (s.descOf c).port c).reelect (s.descOf c).port c) c := by
  obtain ⟨hh, he⟩ := (routingLegal_iff s).1 hs
  have htab := tables_unregistered hs hk hkind
  obtain ⟨e, es, hes⟩ := List.exists_cons_of_ne_nil ht
  have hfil : ((s.domain (s.descOf c).port).table.filter fun e => e.slot != c) = e :: es := by rw [← htab, hes]
  have hnd := (he.closed c).nodup (s.descOf c).port
  rw [hfil, List.map_cons, List.nodup_cons] at hnd
  obtain ⟨hne, -⟩ := hnd
  have hslave : ∀ f ∈ e :: es, ∃ k', s.conn? f.slot = some k' ∧ k'.role = .slave := fun f hf =>
    slaves_of_master hs hk hkind hr (hfil ▸ hf)
  obtain ⟨hconn, hdom⟩ := reelect_cons hes hne c
  have hkept := (kept_unregistered s (s.descOf c).port c).trans (kept_reelect _ (s.descOf c).port c)
  have hfrom : ConnsFrom Conn.Elected s _ := connsFrom_reelect (s.unregistered (s.descOf c).port c) (s.descOf c).port c
  generalize (s.unregistered (s.descOf c).port c).reelect (s.descOf c).port c = u at *
  generalize ((s.unregistered (s.descOf c).port c).conn c).connected = up at *
  have hconn : ∀ x, u.conn? x = (s.conn? x).map (electedConn e es up x) := hconn
  have hsome : ∀ {x k}, s.conn? x = some k → u.conn? x = some (electedConn e es up x k) := fun {x k} h => by
    rw [hconn, h]; rfl
  refine ⟨hkept, fun x => ?_, fun q => ?_, fun q => ?_, fun x k' hk' => ?_⟩
  · rw [hconn, Option.map_map]
    congr 1
    funext k
    exact electedConn_site e es up x k
  · rw [hdom, ← htab]
    split
    · rename_i hq; rw [← hq, hes]
    · rfl
  · rw [hdom]
    split
    · obtain ⟨ke, hke, -⟩ := hslave e (by simp)
      refine headed_cons (ne_noSlot_of_lt hg (hl.slot _ ke hke)) ?_ fun f hf => ?_
      · rw [rank_of_some (hsome hke), electedConn_first]
      · obtain ⟨kf, hkf, hrf⟩ := hslave f (by simp [hf])
        rw [rank_of_some (hsome hkf), electedConn_rest hf hne, hrf]
    · rename_i hq
      have hdq : (s.unregistered (s.descOf c).port c).domain q = s.domain q := by rw [domain_unregistered, if_neg hq]
      rw [hdq]
      refine (hh q).congr fun f hf => ?_
      have hp := he.used q f hf
      obtain ⟨kf, hkf, -, -⟩ := canPort_eq_some.1 hp
      have hout : f.slot ∉ (e :: es).map RouteEntry.slot := by
        intro hin
        obtain ⟨f', hf', hff⟩ := List.mem_map.1 hin
        rw [← hfil] at hf'
        rw [← hff, he.used _ f' (List.mem_filter.1 hf').1] at hp
        exact hq (Option.some.inj hp)
      rw [rank_of_some (hsome hkf), electedConn_other hout, rank_of_some hkf]
  · obtain ⟨k₀, hk₀, -⟩ := hfrom x k' hk'
    obtain ⟨y, rfl, hy⟩ := hl.exists_slot hg hk₀
    have hk' : u.conn? y = some k' := hk'
    rw [hsome hy] at hk'
    cases hk'
    refine ⟨k₀, hk₀, relinked_electedConn hne (fun hin => ?_) up⟩
    obtain ⟨f, hf, rfl⟩ := List.mem_map.1 hin
    obtain ⟨kf, hkf, hrf⟩ := hslave f hf
    rw [hy] at hkf
    cases hkf
    exact hrf

end

/-- CLOSE keeps the links, and the routing unless it is left stuck in its disconnect (log 6). -/
theorem execClose_routing {c : Slot} {s t : State} (hg : s.cfg.wf = true) (hl : s.LinksLegal) (hs : s.RoutingLegal)
    (h : execClose c s = .next t) : t.LinksLegal ∧ (t.stuck = false → t.RoutingLegal) := by
  rcases execClose_end h with ⟨e, rfl⟩ | ⟨u, call, hu, rfl⟩ | ⟨k, u, hk, -, rfl, hu⟩
  · have hsame := (endErr_ended s e).sameRouting
    exact ⟨hsame.links hl, fun _ => hsame.routing hs⟩
  · refine ⟨?_, fun hstuck => by cases hstuck⟩
    rcases hu with rfl | rfl
    · exact linksLegal_of_connsFrom hl rfl (descsEdited_of_eq rfl) (connsFrom_relinked_of_eq rfl)
    · exact linksLegal_of_connsFrom hl rfl (descsEdited_of_eq rfl) (connsFrom_relinked_of_eq rfl)
  · have hdet : Detached s u c := by
      rcases hu with ⟨hkind, rfl | ⟨_, _, rfl⟩⟩ | ⟨hkind, hr, rfl⟩ | ⟨hkind, -, ht, v, rfl | ⟨_, _, rfl⟩, rfl⟩
        | ⟨hkind, hr, ht, rfl⟩
      · exact detached_of_not_can hs hk hkind (Kept.refl _) rfl rfl
      · exact detached_of_not_can hs hk hkind (kept_note _ _ _) rfl rfl
      · exact detached_of_slave hs hk hkind hr
      · exact detached_of_last hs hk hkind ht (kept_unregistered _ _ _) rfl rfl
      · exact detached_of_last hs hk hkind ht ((kept_unregistered _ _ _).trans (kept_note _ _ _)) rfl rfl
      · exact detached_of_master hg hl hs hk hkind hr ht
    obtain ⟨hl', hs'⟩ := hdet.closed hl hs k
    have hsame := sameRouting_endOk (u.closed c k) false
    exact ⟨hsame.links hl', fun _ => hsame.routing hs'⟩

/-! ### Every command and every step -/

theorem exec_routing {i : Instr} {s t : State} (hg : s.cfg.wf = true) (hl : s.LinksLegal) (hs : s.RoutingLegal)
    (h : exec i s = .next t) : t.LinksLegal ∧ (t.stuck = false → t.RoutingLegal) := by
  have same : SameRouting s t → t.LinksLegal ∧ (t.stuck = false → t.RoutingLegal) := fun hsame =>
    ⟨hsame.links hl, fun _ => hsame.routing hs⟩
  cases exec_next h with
  | opened run =>
    obtain ⟨hl', hs'⟩ := execOpen_routing hg hl hs run
    exact ⟨hl', fun _ => hs'⟩
  | closed run => exact execClose_routing hg hl hs run
  | addressed run =>
    rcases execSetaddr_next run with ⟨e, rfl⟩ | ⟨k, -, rfl⟩
    · exact same (endErr_ended s e).sameRouting
    · exact same ⟨rfl, (descsEdited_modDesc s _ (descEdited_setAddress _ _)).congr rfl rfl, rfl, fun _ => rfl⟩
  | shaped shape => exact same (shape_sameRouting shape)

theorem linksLegal_resetWith (g : Config) : (State.resetWith g).LinksLegal where
  slot x k hk := by cases hk
  desc x k hk := by cases hk
  role x k hk := by cases hk
  master x k hk := by cases hk

theorem routingLegal_resetWith (g : Config) : (State.resetWith g).RoutingLegal where
  a q := ⟨fun _ => rfl, fun _ => rfl⟩
  b q e es he := by cases he
  c q := List.Pairwise.nil
  d x k hk := by cases hk
  used q e he := by cases he

/-- Settles O20: each invariant holds of the state after reset, whose tables are empty. -/
theorem resetStateIsLegal : Obligations.ResetStateIsLegal := by
  unfold Obligations.ResetStateIsLegal
  exact fun g => ⟨statusLegal_resetWith g, memoryLegal_resetWith g, linksLegal_resetWith g, routingLegal_resetWith g⟩

theorem accessed_sameRouting {s t : State} (h : Accessed s t) : SameRouting s t := by
  cases h with
  | started v idle eq => rw [eq]; exact sameRouting_of_tables rfl rfl rfl rfl
  | registers eq => rw [eq]; exact sameRouting_of_tables rfl rfl rfl rfl
  | stored i v inside eq => rw [eq]; exact sameRouting_of_tables rfl rfl rfl rfl

/-- A host access leaves a stuck command stuck: only the start of a command clears the flag, and it waits for BUSY 0. -/
theorem accessed_stuck {s t : State} (hst : s.StatusLegal) (h : Accessed s t) (ht : t.stuck = false) :
    s.stuck = false := by
  cases h with
  | started v idle eq =>
    by_contra hne
    have := hst.stuck (by simpa using hne)
    rw [idle] at this; cases this
  | registers eq => rw [eq] at ht; exact ht
  | stored i v inside eq => rw [eq] at ht; exact ht

/-- Settles O19: by the cases of a step. OPEN and CLOSE change one domain each as `Entered` and `Headed` allow, and nothing
else changes what they read. -/
theorem routingStaysLegal : Obligations.RoutingStaysLegal := by
  unfold Obligations.RoutingStaysLegal
  intro s t hg hst hl hs h
  cases step_next h with
  | same eq => rw [eq]; exact ⟨hl, hs⟩
  | accessed access =>
    have hnext : SameRouting s s.nextHostItem := sameRouting_of_tables rfl rfl rfl rfl
    have hsame := accessed_sameRouting access
    have hstuck : t.stuck = false → s.stuck = false :=
      accessed_stuck (s := s.nextHostItem) (hst.congr rfl rfl rfl rfl rfl) access
    exact ⟨hsame.links (hnext.links hl), fun ht => hsame.routing (hnext.routing (hs (hstuck ht)))⟩
  | reset eq =>
    have hsame : SameRouting (State.resetWith s.cfg) t := by rw [eq]; exact sameRouting_of_tables rfl rfl rfl rfl
    exact ⟨hsame.links (linksLegal_resetWith _), fun _ => hsame.routing (routingLegal_resetWith _)⟩
  | rejected e busy runs eq =>
    have hsame : SameRouting s t := by rw [eq]; exact sameRouting_of_tables rfl rfl rfl rfl
    exact ⟨hsame.links hl, fun _ => hsame.routing (hs runs)⟩
  | ran i busy runs exec =>
    have hsame : SameRouting s s.fetched := sameRouting_of_tables rfl rfl rfl rfl
    exact exec_routing (s := s.fetched) hg (hsame.links hl) (hsame.routing (hs runs)) exec

end Sys2Proof.Machine
end

section
/-! PROOF. The obligations of 20_memory.md on register accesses: their size and reach checks, and the chunks of a
transfer. -/

namespace Sys2Proof.Machine

/-! ### The size and reach checks of a register access -/

theorem sizeWord_toNat (w : Word) : sizeWord w.toNat = w := by simp [sizeWord]

theorem reachTop_eq (k : Kind) : reachTop k = if k = .spi then 0xFFFFFF else 0xFFFFFFFF := by cases k <;> rfl

/-- The limits of R52 and R53: HBUF, the connection's buffers, the SPI length field, and the page of a Modbus write. -/
theorem tooLarge_iff {s : State} {k : Conn} {d : Desc} {w : Bool} {n : Nat} :
    s.tooLarge k d w n = true ↔
      (s.cfg.hbufSize < n ∨ (w = true ∧ k.inbuf.len < n) ∨ (¬w = true ∧ k.kind ≠ .can ∧ k.outbuf.len < n)
        ∨ (¬w = true ∧ k.kind = .spi ∧ 0xFFFF < n))
      ∨ (w = true ∧ k.kind = .modbus ∧ d.mb.page.toNat < n) := by
  simp [State.tooLarge, or_assoc, and_assoc]

section

variable {s : State} {c : Slot} {w : Bool} {a : Word} {n : Nat}

theorem accessError_zero : s.accessError c w a 0 = some (.sizeZero a) := rfl

theorem accessError_tooLarge (hn : n ≠ 0) (hl : s.tooLarge (s.conn c) (s.descOf c) w n = true) :
    s.accessError c w a n = some (.sizeTooLarge a (sizeWord n)) := by
  rw [State.accessError, if_neg hn, if_pos hl]

theorem accessError_beyond (hn : n ≠ 0) (hl : ¬s.tooLarge (s.conn c) (s.descOf c) w n = true)
    (hb : reachTop (s.conn c).kind < a.toNat + n - 1) :
    s.accessError c w a n = some (.addressRange a (sizeWord n)) := by
  rw [State.accessError, if_neg hn, if_neg hl, if_pos hb]

/-- A command behind the common checks and those of a register access ends with the error of the latter. -/
theorem endCmd_checkAccess_error {f : Conn → Desc → Bool} {tr : Bool} {g : Unit → Cmd Bool} {e : Err}
    (hs : s.admits c f tr) (he : s.accessError c w a n = some e) :
    endCmd (do enter true c f tr; checkAccess c w a n >>= g) s = .next (s.endErr e) := by
  have hcheck : checkAccess c w a n s = .error (.err e) s := by rw [checkAccess, he, check_some]
  rw [endCmd_enter_none (commandError_of_admits hs), endCmd_err (cmd_bind_error hcheck)]

theorem exec_rdreg_accessError {e : Err} (hs : s.admits c suitsRegister true)
    (he : s.accessError c false s.arg0 s.arg1.toNat = some e) : exec (.rdreg c) s = .next (s.endErr e) :=
  endCmd_checkAccess_error hs he

theorem exec_wrreg_accessError {e : Err} (hs : s.admits c suitsRegister true)
    (he : s.accessError c true s.arg0 s.arg1.toNat = some e) : exec (.wrreg c) s = .next (s.endErr e) :=
  endCmd_checkAccess_error hs he

end

/-- Settles O37: both commands end with the error of `State.accessError`, whose order the clauses follow. -/
theorem registerAccessesAreChecked : Obligations.RegisterAccessesAreChecked := by
  unfold Obligations.RegisterAccessesAreChecked
  intro s c hs r hr
  have hexec : ∀ e, s.accessError c r.2 s.arg0 s.arg1.toNat = some e → exec r.1 s = .next (s.endErr e) := by
    simp only [List.mem_cons, List.not_mem_nil, or_false] at hr
    rcases hr with rfl | rfl
    · exact fun e => exec_rdreg_accessError hs
    · exact fun e => exec_wrreg_accessError hs
  have hlarge : s.arg1.toNat ≠ 0 → s.tooLarge (s.conn c) (s.descOf c) r.2 s.arg1.toNat = true →
      exec r.1 s = .next (s.endErr (.sizeTooLarge s.arg0 s.arg1)) := fun hn hl =>
    hexec _ (by rw [accessError_tooLarge hn hl, sizeWord_toNat])
  refine ⟨fun hn => ?zero, fun hn hl => ?size, fun hn _ hp _ => ?page, fun hn hl hp hb => ?reach⟩
  case zero => exact hexec _ (by rw [hn, accessError_zero])
  case size => exact hlarge hn (tooLarge_iff.2 (.inl hl))
  case page => exact hlarge hn (tooLarge_iff.2 (.inr hp))
  case reach =>
    have hfits : ¬s.tooLarge (s.conn c) (s.descOf c) r.2 s.arg1.toNat = true := fun h =>
      (tooLarge_iff.1 h).elim hl hp
    have hbeyond : reachTop (s.conn c).kind < s.arg0.toNat + s.arg1.toNat - 1 := by rw [reachTop_eq]; exact hb
    exact hexec _ (by rw [accessError_beyond hn hfits hbeyond, sizeWord_toNat])

/-! ### The chunks of a transfer -/

/-- `m` bytes take one chunk more than what is left of them after the first. -/
theorem chunkCount_succ {p m : Nat} (hp : 0 < p) (hm : 0 < m) : (m + p - 1) / p = (m - p + p - 1) / p + 1 := by
  rw [show m + p - 1 = m - 1 + p by omega, Nat.add_div_right _ hp]
  rcases Nat.le_total p m with h | h
  · rw [Nat.sub_add_cancel h]
  · rw [Nat.div_eq_of_lt (by omega), Nat.div_eq_of_lt (by omega)]

theorem chunksFrom_eq {p fuel off n : Nat} (hp : 0 < p) (hf : n - off ≤ fuel) :
    chunksFrom p fuel off n =
      (List.range ((n - off + p - 1) / p)).map fun k => (off + k * p, min (off + (k + 1) * p) n - (off + k * p)) := by
  induction fuel generalizing off with
  | zero =>
    have hcount : (n - off + p - 1) / p = 0 := Nat.div_eq_of_lt (by omega)
    rw [hcount]; rfl
  | succ fuel ih =>
    rw [chunksFrom]
    split
    case isTrue hend =>
      have hcount : (n - off + p - 1) / p = 0 := Nat.div_eq_of_lt (by omega)
      rw [hcount]; rfl
    case isFalse hmore =>
      have hhead : min p (n - off) = min (off + p) n - off := by omega
      rw [ih (by omega), chunkCount_succ hp (m := n - off) (by omega), Nat.sub_add_eq, List.range_succ_eq_map,
        List.map_cons, List.map_map]
      congr 1
      · simp [hhead]
      · refine List.map_congr_left fun k _ => ?_
        have hoff : off + p + k * p = off + (k + 1) * p := by rw [Nat.succ_mul]; omega
        have htop : off + p + (k + 1) * p = off + (k + 1 + 1) * p := by rw [Nat.succ_mul (k + 1)]; omega
        simp only [Function.comp, Nat.succ_eq_add_one, hoff, htop]

/-- Settles O50: the chunks from offset 0 on, by induction on their bound. -/
theorem chunksCoverTheTransfer : Obligations.ChunksCoverTheTransfer := by
  unfold Obligations.ChunksCoverTheTransfer
  intro p n hp
  rw [chunks, chunksFrom_eq hp (Nat.sub_le n 0)]
  simp only [Nat.zero_add, Nat.sub_zero]

end Sys2Proof.Machine
end

section
/-! PROOF. The encodings: decoding and encoding are inverse on the well-formed instructions, what the command map answers
for each OP, and how a code that is no instruction ends its command. -/

namespace Sys2Proof.Laws

open Sys2Proof.Machine

/-! ### The command map as a table -/

/-- The row of an OP in a list of rows, the first that stands under it. -/
def rowOf (op : Byte) : List (Byte × CmdRow) → Option CmdRow
  | [] => none
  | (k, r) :: rest => if op = k then some r else rowOf op rest

/-- The command map of 30_encoding.md section 3 (R69), row by row. -/
def commandMap (c : Slot) (e b : Bool) : List (Byte × CmdRow) :=
  [(0x01#8, rowCE (.openConn c e)), (0x02#8, rowC (.closeConn c)), (0x03#8, rowC (.connect c)),
    (0x04#8, rowC (.disconnect c)), (0x05#8, rowC (.isconn c)), (0x06#8, rowCE (.resize c e)),
    (0x07#8, rowC (.setaddr c)), (0x08#8, rowC (.getdt c)), (0x09#8, rowC (.setdt c)),
    (0x0A#8, rowCE (.bufpeek c e)), (0x10#8, rowC (.init c)), (0x11#8, rowC (.rdreg c)), (0x12#8, rowC (.wrreg c)),
    (0x13#8, rowC (.isready c)), (0x14#8, rowCE (.setwe c e)), (0x15#8, rowC (.getsr c)),
    (0x16#8, ⟨.reset c b, true, false, true⟩), (0x20#8, ⟨.crc16, false, false, false⟩),
    (0x21#8, ⟨.crcchk, false, false, false⟩), (0x30#8, rowC (.canrd c)), (0x31#8, rowC (.cansend c)),
    (0x32#8, rowC (.cansendw c)), (0x40#8, rowC (.getval c)), (0x41#8, rowC (.setval c)),
    (0x42#8, rowCE (.stream c e)), (0x43#8, rowC (.rdcfg c)), (0x44#8, rowC (.rddet c)), (0x45#8, rowC (.popcfg c)),
    (0x46#8, rowC (.popdet c))]

theorem cmdRow_eq_rowOf (op : Byte) (c : Slot) (e b : Bool) : cmdRow op c e b = rowOf op (commandMap c e b) := rfl

theorem mem_of_rowOf {op : Byte} {rows : List (Byte × CmdRow)} {r : CmdRow} (h : rowOf op rows = some r) :
    (op, r) ∈ rows := by
  induction rows with
  | nil => cases h
  | cons p rest ih =>
    rw [rowOf] at h
    split at h
    case isTrue hop => cases h; exact hop ▸ List.mem_cons_self
    case isFalse => exact List.mem_cons_of_mem _ (ih h)

theorem rowOf_isSome (op : Byte) (rows : List (Byte × CmdRow)) :
    (rowOf op rows).isSome = true ↔ op ∈ rows.map Prod.fst := by
  induction rows with
  | nil => simp [rowOf]
  | cons p rest ih =>
    rw [rowOf, List.map_cons, List.mem_cons, ← ih]
    split
    case isTrue hop => simp [hop]
    case isFalse hop => simp [hop]

/-- The command map has a row for the listed OPs and for no other. -/
theorem cmdRow_isSome (op : Byte) (c : Slot) (e b : Bool) : (cmdRow op c e b).isSome = true ↔ op ∈ listedOpcodes := by
  rw [cmdRow_eq_rowOf, rowOf_isSome]
  exact Iff.rfl

/-- What a row says of the OP it stands under (R69): its instruction is well-formed and has that OP and the fields the
row uses for its code, and which OPs use which field. -/
structure Faithful (op : Byte) (c : Slot) (e b : Bool) (r : CmdRow) : Prop where
  wf : r.instr.wf = true
  code : encode r.instr = .cmd (cmdWord op (if r.usesConn then c else 0#8) (r.usesE && e) (r.usesB && b))
  conn : r.usesConn = decide (op ∉ [0x20#8, 0x21#8])
  flagE : r.usesE = decide (op ∈ [0x01#8, 0x06#8, 0x0A#8, 0x14#8, 0x42#8])
  flagB : r.usesB = decide (op = 0x16#8)

theorem commandMap_faithful (c : Slot) (e b : Bool) : ∀ p ∈ commandMap c e b, Faithful p.1 c e b p.2 := by
  simp only [commandMap, List.forall_mem_cons, List.not_mem_nil, false_implies, implies_true, and_true]
  repeat' apply And.intro
  all_goals exact ⟨rfl, rfl, rfl, rfl, rfl⟩

theorem cmdRow_faithful {op : Byte} {c : Slot} {e b : Bool} {r : CmdRow} (h : cmdRow op c e b = some r) :
    Faithful op c e b r :=
  commandMap_faithful c e b _ (mem_of_rowOf h)

/-! ### The fields of a CMD word put together -/

/-- A bit of a word is its field of width 1. -/
theorem ofBool_getLsbD {n : Nat} (w : BitVec n) (i : Nat) : BitVec.ofBool (w.getLsbD i) = w.extractLsb' i 1 := by
  rw [BitVec.getLsbD_eq_extractLsb']
  rcases BitVec.eq_zero_or_eq_one (w.extractLsb' i 1) with hb | hb
  · rw [hb]; rfl
  · rw [hb]; rfl

/-- A CMD word without reserved bits is the word of its fields (R19, R65). -/
theorem cmdWord_fields {w : Word} (h : cmdReserved w = 0#14) :
    cmdWord (cmdOp w) (cmdConn w) (cmdE w) (cmdB w) = w := by
  have hreserved : (0#14 : BitVec 14) = w.extractLsb' 18 14 := h.symm
  rw [cmdWord, cmdB, cmdE, cmdConn, cmdOp, ofBool_getLsbD, ofBool_getLsbD, hreserved,
    BitVec.extractLsb'_append_extractLsb'_eq_extractLsb' (show 18 = 17 + 1 from rfl),
    BitVec.extractLsb'_append_extractLsb'_eq_extractLsb' (show 17 = 16 + 1 from rfl),
    BitVec.extractLsb'_append_extractLsb'_eq_extractLsb' (show 16 = 8 + 8 from rfl),
    BitVec.extractLsb'_append_extractLsb'_eq_extractLsb' (show 8 = 0 + 8 from rfl), BitVec.extractLsb'_eq_self]

/-- A word that decodes: no reserved bit, a row of the command map, and no field that row does not use. -/
theorem decodeCmd_eq_ok {w : Word} {i : Instr} (h : decodeCmd w = .ok i) :
    cmdReserved w = 0#14 ∧ ∃ r, cmdRow (cmdOp w) (cmdConn w) (cmdE w) (cmdB w) = some r ∧ r.unusedZero w = true
      ∧ r.instr = i := by
  unfold decodeCmd at h
  split at h
  case isTrue => cases h
  case isFalse hres =>
    refine ⟨not_not.1 hres, ?_⟩
    split at h
    case h_1 => cases h
    case h_2 r hrow =>
      split at h
      case isTrue hzero => cases h; exact ⟨r, hrow, hzero, rfl⟩
      case isFalse => cases h

/-- A field the row does not use is 0, so the word has only the fields the row uses. -/
theorem cmdWord_usedFields {r : CmdRow} {w : Word} (h : r.unusedZero w = true) :
    cmdWord (cmdOp w) (if r.usesConn then cmdConn w else 0#8) (r.usesE && cmdE w) (r.usesB && cmdB w) =
      cmdWord (cmdOp w) (cmdConn w) (cmdE w) (cmdB w) := by
  simp only [CmdRow.unusedZero, Bool.and_eq_true, Bool.or_eq_true, beq_iff_eq, Bool.not_eq_true'] at h
  obtain ⟨⟨hconn, he⟩, hb⟩ := h
  congr 1
  · split
    case isTrue => rfl
    case isFalse hn => exact (hconn.resolve_left hn).symm
  · rcases he with he | he <;> simp [he]
  · rcases hb with hb | hb <;> simp [hb]

theorem encode_of_decodeCmd {w : Word} {i : Instr} (h : decodeCmd w = .ok i) : i.wf = true ∧ encode i = .cmd w := by
  obtain ⟨hres, r, hrow, hzero, rfl⟩ := decodeCmd_eq_ok h
  have hf := cmdRow_faithful hrow
  refine ⟨hf.wf, ?_⟩
  rw [hf.code, cmdWord_usedFields hzero, cmdWord_fields hres]

/-! ### Modbus frames taken apart and put together -/

theorem byteOf_zero (b : Byte) : byteOf b 0 = b := BitVec.extractLsb'_eq_self

theorem byteOf_append_zero {n : Nat} (x : BitVec n) (b : Byte) : byteOf (x ++ b) 0 = b := by
  apply BitVec.eq_of_getLsbD_eq
  intro i hi
  simp [byteOf, BitVec.getLsbD_append, hi]

theorem byteOf_append_succ {n : Nat} (x : BitVec n) (b : Byte) (i : Nat) : byteOf (x ++ b) (i + 1) = byteOf x i := by
  apply BitVec.eq_of_getLsbD_eq
  intro j hj
  have hhigh : ¬8 * (i + 1) + j < 8 := by omega
  have hplace : 8 * (i + 1) + j - 8 = 8 * i + j := by omega
  simp only [byteOf, BitVec.getLsbD_extractLsb', BitVec.getLsbD_append, hhigh, hplace, if_false]

theorem be16_word16 (b1 b0 : Byte) : be16 (word16 b1 b0) = [b1, b0] := by
  have h1 : byteOf (word16 b1 b0) 1 = b1 := (byteOf_append_succ b1 b0 0).trans (byteOf_zero b1)
  have h0 : byteOf (word16 b1 b0) 0 = b0 := byteOf_append_zero b1 b0
  rw [be16, h1, h0]

theorem be32_word32 (b3 b2 b1 b0 : Byte) : be32 (word32 b3 b2 b1 b0) = [b3, b2, b1, b0] := by
  have hlow : byteOf (word32 b3 b2 b1 b0) 0 = b0 := byteOf_append_zero (b3 ++ b2 ++ b1) b0
  have hnext : ∀ i, byteOf (word32 b3 b2 b1 b0) (i + 1) = byteOf (b3 ++ b2 ++ b1) i :=
    byteOf_append_succ (b3 ++ b2 ++ b1) b0
  rw [be32, hlow, hnext 2, hnext 1, hnext 0, byteOf_append_succ, byteOf_append_succ, byteOf_append_succ, byteOf_zero,
    byteOf_append_zero, byteOf_append_zero]

/-- A size field that is the length of the payload: the payload has a 16-bit length, and the field is that of R78. -/
theorem word16_of_length {p : Bytes} {b1 b0 : Byte} (h : p.length = (word16 b1 b0).toNat) :
    p.length < 65536 ∧ BitVec.ofNat 16 p.length = word16 b1 b0 :=
  ⟨h ▸ (word16 b1 b0).isLt, by rw [h, BitVec.ofNat_toNat, BitVec.setWidth_eq]⟩

theorem encode_of_decodeMbBody {body : Bytes} {i : Instr} (h : decodeMbBody body = .ok i) :
    i.wf = true ∧ encode i = .wire (mbFrame body) := by
  unfold decodeMbBody at h
  split at h
  case h_1 dev fc op =>
    split at h
    case isTrue hfc => cases h; exact ⟨rfl, hfc ▸ rfl⟩
    case isFalse => cases h
  case h_2 dev fc op a3 a2 a1 a0 n1 n0 payload =>
    split at h
    case isTrue hfc =>
      split at h
      case isTrue hempty =>
        cases h
        refine ⟨rfl, ?_⟩
        rw [encode, mbReadBody, be32_word32, be16_word16, hfc, hempty]
        rfl
      case isFalse => cases h
    case isFalse =>
      split at h
      case isTrue hfc =>
        split at h
        case isTrue hlen =>
          cases h
          obtain ⟨hlt, hsize⟩ := word16_of_length hlen
          refine ⟨by simpa [Instr.wf] using hlt, ?_⟩
          rw [encode, mbWriteBody, be32_word32, hsize, be16_word16, hfc]
          rfl
        case isFalse => cases h
      case isFalse => cases h
  case h_3 => cases h

theorem encode_of_decodeMbFrame {b : Bytes} {i : Instr} (h : decodeMbFrame b = .ok i) :
    i.wf = true ∧ encode i = .wire b := by
  simp only [decodeMbFrame] at h
  split at h
  case isTrue hframe =>
    rw [hframe]
    exact encode_of_decodeMbBody h
  case isFalse => cases h

/-! ### The obligations on decoding and encoding -/

/-- Settles O2: by the instruction, one round trip per constructor. -/
theorem decodingAnEncodingGivesItBack : Obligations.DecodingAnEncodingGivesItBack := by
  unfold Obligations.DecodingAnEncodingGivesItBack
  intro i
  cases i with
  | openConn c e => exact RoundTrip.openConn c e
  | closeConn c => exact RoundTrip.closeConn c
  | connect c => exact RoundTrip.connect c
  | disconnect c => exact RoundTrip.disconnect c
  | isconn c => exact RoundTrip.isconn c
  | resize c e => exact RoundTrip.resize c e
  | setaddr c => exact RoundTrip.setaddr c
  | getdt c => exact RoundTrip.getdt c
  | setdt c => exact RoundTrip.setdt c
  | bufpeek c e => exact RoundTrip.bufpeek c e
  | init c => exact RoundTrip.init c
  | rdreg c => exact RoundTrip.rdreg c
  | wrreg c => exact RoundTrip.wrreg c
  | isready c => exact RoundTrip.isready c
  | setwe c e => exact RoundTrip.setwe c e
  | getsr c => exact RoundTrip.getsr c
  | reset c b => exact RoundTrip.reset c b
  | crc16 => exact RoundTrip.crc16
  | crcchk => exact RoundTrip.crcchk
  | canrd c => exact RoundTrip.canrd c
  | cansend c => exact RoundTrip.cansend c
  | cansendw c => exact RoundTrip.cansendw c
  | getval c => exact RoundTrip.getval c
  | setval c => exact RoundTrip.setval c
  | stream c e => exact RoundTrip.stream c e
  | rdcfg c => exact RoundTrip.rdcfg c
  | rddet c => exact RoundTrip.rddet c
  | popcfg c => exact RoundTrip.popcfg c
  | popdet c => exact RoundTrip.popdet c
  | mbReadData dev op addr size => exact RoundTrip.mbReadData dev op addr size
  | mbWriteData dev op addr payload => exact RoundTrip.mbWriteData dev op addr payload
  | mbSendOpcode dev op => exact RoundTrip.mbSendOpcode dev op

/-- Settles O3: a CMD word is the word of the fields its row uses, a Modbus frame its body with its CRC. -/
theorem encodingADecodedCodeGivesItBack : Obligations.EncodingADecodedCodeGivesItBack := by
  unfold Obligations.EncodingADecodedCodeGivesItBack
  intro b i h
  cases b with
  | cmd w => exact encode_of_decodeCmd h
  | wire f => exact encode_of_decodeMbFrame h

/-- Settles O1: the decoder computes each answer; the frame is that of the instruction, its CRC worked out. -/
theorem commandWordsDecodeAsTheMapSays : Obligations.CommandWordsDecodeAsTheMapSays := by
  unfold Obligations.CommandWordsDecodeAsTheMapSays
  have hframe : encode (.mbSendOpcode 0x05#8 0x06#8) = .wire [0x05#8, 0x44#8, 0x06#8, 0xD2#8, 0xC3#8] := by
    decide +kernel
  exact ⟨rfl, rfl, rfl, rfl, rfl, rfl, hframe ▸ RoundTrip.mbSendOpcode 0x05#8 0x06#8 rfl, rfl, rfl⟩

/-! ### Codes that are no instruction -/

/-- A started host command whose word is no instruction ends in the next step, with the error of its rejection. -/
theorem step_start_rejected {s : State} {v : Word} {x : Reject} (hw : s.wire = none) (hh : hostWaits s)
    (hd : decodeCmd v = .error x) : step (s.start v) = .next ((s.start v).endErr (rejectErr x)) := by
  have hbusy : (s.start v).busy = true := by rw [State.busy, State.start_status, statusBusy_eq]; rfl
  have hcode : (s.start v).code = .cmd v := by rw [State.code, State.start_wire, hw]; rfl
  have hfetched : (s.start v).fetched = s.start v := by
    have : (s.start v).wire = none := hw
    rw [State.fetched, ← this]
  have hdecode : decode (s.start v).code = .error x := by rw [hcode]; exact hd
  rw [step_of_hostWaits hbusy hh, runCommand, hdecode, hfetched]
  rfl

theorem decodeCmd_unlisted {v : Word} (hr : cmdReserved v = 0#14) (ho : cmdOp v ∉ listedOpcodes) :
    decodeCmd v = .error .unsupportedOpcode := by
  have hnone : cmdRow (cmdOp v) (cmdConn v) (cmdE v) (cmdB v) = none := by
    rw [← Option.not_isSome_iff_eq_none, cmdRow_isSome]
    exact ho
  rw [decodeCmd, if_neg (not_not.2 hr), hnone]

theorem decodeCmd_reserved {v : Word} (hr : cmdReserved v ≠ 0#14) : decodeCmd v = .error .reservedBits := by
  rw [decodeCmd, if_pos hr]

/-- A listed command with a field set that its row does not use is rejected for it. -/
theorem decodeCmd_unusedField {v : Word} (ho : cmdOp v ∈ listedOpcodes)
    (hu : ∀ r, cmdRow (cmdOp v) (cmdConn v) (cmdE v) (cmdB v) = some r → r.unusedZero v = false) :
    decodeCmd v = .error .reservedBits := by
  obtain ⟨r, hrow⟩ := Option.isSome_iff_exists.1 ((cmdRow_isSome _ (cmdConn v) (cmdE v) (cmdB v)).2 ho)
  by_cases hr : cmdReserved v = 0#14
  · rw [decodeCmd, if_neg (not_not.2 hr), hrow]
    simp [hu r hrow]
  · exact decodeCmd_reserved hr

/-- Settles O4: an unlisted OP has no row, and UNSUPPORTED_OPCODE has no context. -/
theorem unlistedOpcodeEndsUnsupported : Obligations.UnlistedOpcodeEndsUnsupported := by
  unfold Obligations.UnlistedOpcodeEndsUnsupported
  intro s v hw hh hr ho
  rw [step_start_rejected hw hh (decodeCmd_unlisted hr ho)]
  rfl

/-- Settles O5: in each case the decoder answers RESERVED_BITS, by the row's use of the field that is set. -/
theorem reservedFieldsEndReservedBits : Obligations.ReservedFieldsEndReservedBits := by
  unfold Obligations.ReservedFieldsEndReservedBits
  intro s v hw hh hv
  have hd : decodeCmd v = .error .reservedBits := by
    rcases hv with hr | ⟨ho, he, hunused⟩ | ⟨ho, hb, hunused⟩ | ⟨hc, hcrc⟩
    case inl => exact decodeCmd_reserved hr
    case inr.inl =>
      refine decodeCmd_unusedField ho fun r hrow => ?_
      have huse : r.usesE = false := by rw [(cmdRow_faithful hrow).flagE, decide_eq_false hunused]
      simp [CmdRow.unusedZero, huse, he]
    case inr.inr.inl =>
      refine decodeCmd_unusedField ho fun r hrow => ?_
      have huse : r.usesB = false := by rw [(cmdRow_faithful hrow).flagB, decide_eq_false hunused]
      simp [CmdRow.unusedZero, huse, hb]
    case inr.inr.inr =>
      have ho : cmdOp v ∈ listedOpcodes := (show [0x20#8, 0x21#8] ⊆ listedOpcodes by decide) hcrc
      refine decodeCmd_unusedField ho fun r hrow => ?_
      have huse : r.usesConn = false := by rw [(cmdRow_faithful hrow).conn, decide_eq_false (not_not.2 hcrc)]
      simp [CmdRow.unusedZero, huse, hc]
  rw [step_start_rejected hw hh hd]
  rfl

end Sys2Proof.Laws
end

section
/-! PROOF. The common checks of the commands with a CONN operand, and what a command stores in HBUF and RESULT0. -/

namespace Sys2Proof.Machine

/-! ### The common checks in their order -/

/-- The check of steps 3 to 6 of R158 is the first error of their list. -/
theorem commandError_eq_firstError (s : State) (w : Bool) (c : Slot) (suits : Conn → Desc → Bool) (tr : Bool) :
    s.commandError w c suits tr = firstError [(!w, .reservedBits),
      (decide (s.cfg.nConn ≤ c.toNat ∨ s.conn? c = none), .badConn),
      (!suits (s.conn c) (s.descOf c), .wrongKind),
      (tr && !((s.conn c).connected
        && ((s.conn c).role != .slave || (s.conn (s.conn c).master).connected)), .notConnectedBlock)] := by
  unfold State.commandError
  cases hc : s.conn? c with
  | none => simp [firstError]
  | some k =>
    rw [State.descOf, State.conn_of_some hc]
    by_cases hn : s.cfg.nConn ≤ c.toNat <;> simp [firstError, hn, State.reaches]

theorem suitsRegister_eq : suitsRegister = fun k d => decide (k.kind ≠ .can ∨ d.can.proto = .universal) := by
  funext k d; exact Bool.eq_iff_iff.2 (by simp [suitsRegister])

theorem suitsCan_eq : suitsCan = fun k _ => decide (k.kind = .can) := rfl

theorem suitsDirect_eq : suitsDirect = fun k d => decide (k.kind = .can ∧ d.can.proto = .direct) := by
  funext k d; exact Bool.eq_iff_iff.2 (by simp [suitsDirect])

theorem suitsAddressed_eq : suitsAddressed = fun k _ => decide (k.kind ≠ .can) := by
  funext k d; exact Bool.eq_iff_iff.2 (by simp [suitsAddressed])

/-- The instruction of a row runs behind the common checks of that row. -/
def Checked (s : State) (c : Slot) (r : Instr × Bool × (Conn → Desc → Bool) × Bool) : Prop :=
  ∀ x, s.commandError r.2.1 c r.2.2.1 r.2.2.2 = some x → exec r.1 s = .next (s.endErr x)

theorem connRows_checked (s : State) (c : Slot) (e : Bool) : ∀ r ∈ connRows s c e, Checked s c r := by
  unfold connRows
  simp only [← suitsRegister_eq, ← suitsCan_eq, ← suitsDirect_eq, ← suitsAddressed_eq]
  simp only [List.forall_mem_append, List.forall_mem_cons, List.not_mem_nil, false_implies, implies_true, and_true]
  refine ⟨⟨?close, ?connect, ?disconnect, ?isconn, ?resize, ?setaddr, ?getdt, ?setdt, ?bufpeek, ?init, ?rdreg, ?wrreg,
    ?isready⟩, ?setwe, ?getsr, ?reset, ?canrd, ?cansend, ?cansendw, ?getval, ?setval, ?stream, ?rdcfg, ?rddet, ?popcfg,
    ?popdet⟩
  case isconn | resize | setaddr | getdt | setdt | bufpeek | popcfg | popdet => exact fun _ => endLocal_enter_error
  all_goals exact fun _ => endCmd_enter_error

/-- Settles O36: the first failing check is the error `State.commandError` finds, behind which every row's command runs. -/
theorem commonChecksComeInOrder : Obligations.CommonChecksComeInOrder := by
  unfold Obligations.CommonChecksComeInOrder
  intro s c e r hr x hx
  rw [← commandError_eq_firstError] at hx
  exact connRows_checked s c e r hr x hx

/-! ### HBUF and RESULT0 -/

/-- What O16 says of a command's end, on the fields it is about. -/
structure Stored (i : Instr) (s t : State) : Prop where
  onError : stErr t.status = true → t.hbuf = s.hbuf
  outside : ∀ x, hbufStored i s ≤ x → mread t.hbuf x = mread s.hbuf x
  result : writesResult i = false → t.result0 = s.result0

/-- A command that leaves HBUF and RESULT0 stores nothing. -/
theorem stored_of_eq {i : Instr} {s t : State} (hb : t.hbuf = s.hbuf) (hr : t.result0 = s.result0) : Stored i s t :=
  ⟨fun _ => hb, fun _ _ => by rw [hb], fun _ => hr⟩

@[simp] theorem State.closed_hbuf (s : State) (c : Slot) (k : Conn) : (s.closed c k).hbuf = s.hbuf := by
  unfold State.closed; split <;> rfl

@[simp] theorem State.closed_result0 (s : State) (c : Slot) (k : Conn) : (s.closed c k).result0 = s.result0 := by
  unfold State.closed; split <;> rfl

theorem Kept.hbuf {s u : State} (h : Kept s u) : u.hbuf = s.hbuf := by rw [h.rest]

theorem Kept.result0 {s u : State} (h : Kept s u) : u.result0 = s.result0 := by rw [h.rest]

theorem Broken.hbuf {u t : State} (h : Broken u t) : t.hbuf = u.hbuf := by
  rcases h with ⟨e, rfl⟩ | rfl <;> rfl

theorem Broken.result0 {u t : State} (h : Broken u t) : t.result0 = u.result0 := by
  rcases h with ⟨e, rfl⟩ | rfl <;> rfl

/-- Bytes are stored only where the command ends without error. -/
theorem Shape.stored {i : Instr} {s t : State} (h : Shape i s t) : Stored i s t := by
  obtain ⟨u, m, v, hu, hout, -, hv, ⟨rfl, hbroken⟩ | ⟨r, rfl⟩⟩ := h
  · have hb : t.hbuf = s.hbuf := hbroken.hbuf.trans hu.hbuf
    exact ⟨fun _ => hb, fun _ _ => by rw [hb], fun hn => hbroken.result0.trans (hv hn)⟩
  · refine ⟨fun he => ?_, hout, hv⟩
    have hok := (statusOk_flags r).2.2.1
    rw [State.endOk_status, hok] at he
    cases he

theorem exec_stored {i : Instr} {s t : State} (h : exec i s = .next t) : Stored i s t := by
  cases exec_next h with
  | opened run =>
    rcases execOpen_kept run with ⟨x, rfl⟩ | ⟨r, u, -, hu, -, rfl⟩
    · exact stored_of_eq rfl rfl
    · exact stored_of_eq hu.hbuf hu.result0
  | closed run =>
    rcases execClose_kept run with ⟨x, rfl⟩ | ⟨u, hu, rfl⟩ | ⟨k, u, -, hu, rfl⟩
    · exact stored_of_eq rfl rfl
    · exact stored_of_eq hu.hbuf hu.result0
    · exact stored_of_eq (by simp [hu.hbuf]) (by simp [hu.result0])
  | addressed run =>
    rcases execSetaddr_next run with ⟨x, rfl⟩ | ⟨k, -, rfl⟩
    · exact stored_of_eq rfl rfl
    · exact stored_of_eq rfl rfl
  | shaped shape => exact shape.stored

/-- Settles O16: OPEN, CLOSE and SETADDR leave both, and the `Shape` of any other command's end says what it writes. -/
theorem onlyDeliveredBytesOfHbufChange : Obligations.OnlyDeliveredBytesOfHbufChange := by
  unfold Obligations.OnlyDeliveredBytesOfHbufChange
  intro i s t h
  obtain ⟨herr, hout, hres⟩ := exec_stored h
  exact ⟨herr, hout, hres⟩

end Sys2Proof.Machine
end

section
/-! PROOF. One Modbus exchange with a good first answer, and the three request frames run alone. -/

namespace Sys2Proof.Machine

/-! ### A good answer passes the checks -/

theorem byteAt_drop (a : Bytes) (n i : Nat) : byteAt (a.drop n) i = byteAt a (n + i) := by
  simp [byteAt, List.getD_eq_getElem?_getD]

theorem byteAt_take (a : Bytes) {n i : Nat} (h : i < n) : byteAt (a.take n) i = byteAt a i := by
  simp [byteAt, List.getD_eq_getElem?_getD, h]

/-- An answer whose last two bytes are a CRC, low byte first, has that CRC for its received one (R79). -/
theorem mbReceivedCrc_of_drop {a : Bytes} {n : Nat} {v : BitVec 16} (h : a.drop (n + 2) = loHi v) :
    mbReceivedCrc a (n + 4) = v := by
  have hlow : byteAt a (n + 2) = byteOf v 0 := by rw [← Nat.add_zero (n + 2), ← byteAt_drop, h]; rfl
  have hhigh : byteAt a (n + 3) = byteOf v 1 := by rw [show n + 3 = n + 2 + 1 from rfl, ← byteAt_drop, h]; rfl
  calc mbReceivedCrc a (n + 4) = word16 (byteAt a (n + 3)) (byteAt a (n + 2)) := rfl
    _ = v := by rw [hhigh, hlow, Laws.word16_be16]

theorem mbCheckAnswer_good {dev fc : Byte} {len : Nat} {chk : Bool} {a : Bytes} (hlen : a.length = len + 4)
    (hhead : a.take 2 = [dev, fc]) (hcrc : chk = true → a.drop (len + 2) = loHi (crc16 (a.take (len + 2))))
    (ca : Word) (m : Nat) (s : State) :
    mbCheckAnswer dev fc len ca m chk a s = .ok (.ok ((a.drop 2).take len)) s := by
  have hpass : ¬(chk && mbReceivedCrc a (len + 4) != crc16 (a.take (len + 2))) = true := by
    cases chk with
    | false => simp
    | true => simp [mbReceivedCrc_of_drop (hcrc rfl)]
  have hdev : byteAt a 0 = dev := by rw [← byteAt_take a (n := 2) (by omega), hhead]; rfl
  have hfc : byteAt a 1 = fc := by rw [← byteAt_take a (n := 2) (by omega), hhead]; rfl
  rw [mbCheckAnswer, if_neg (not_not.2 hlen), if_neg hpass, if_neg (by simp [hdev, hfc])]
  rfl

/-! ### The exchange -/

/-- Two port calls that return are a send and its answer. -/
theorem mbRound_returns {s : State} {d0 d1 : Draw} (h0 : s.returns 0 d0) (h1 : s.returns 1 d1) (p : Byte) (q : Bytes)
    (l : Nat) : mbRound p q l s = .ok (d1.bytes.take l)
      (s.afterEvents [.port (.mbSend p q) .done, .port (.mbRecv p l) (.bytes (d1.bytes.take l))]) := by
  have hsend : mbSend p q s = .ok () (s.note (.mbSend p q) .done) := portCall_returns h0 _ _ _
  have hnext : (s.note (.mbSend p q) .done).returns 0 d1 := by rw [State.returns, draw_note]; exact h1
  rw [mbRound, cmd_bind_ok hsend]
  exact portCall_returns hnext _ _ _

theorem attempt_ok {α : Type} {m : Cmd α} {s t : State} {a : α} (h : m s = .ok a t) :
    attempt m s = .ok (.ok a) t := by
  rw [attempt, h]

theorem mbAttempt_good {s : State} {dev fc : Byte} {len : Nat} {checked : Prop} {chk : Bool} {A : Bytes}
    (h : mbGets s dev fc len checked A) (hchk : chk = true → checked) (p : Byte) (q : Bytes) (ca : Word) (m : Nat) :
    mbAttempt p dev fc q len ca m chk s = .ok (.ok ((A.drop 2).take len))
      (s.afterEvents [.port (.mbSend p q) .done, .port (.mbRecv p (len + 4)) (.bytes A)]) := by
  obtain ⟨⟨d0, h0⟩, ⟨d1, h1, rfl⟩, hlen, hhead, hcrc⟩ := h
  have hround := mbRound_returns h0 h1 p q (len + 4)
  rw [mbAttempt, cmd_bind_ok (attempt_ok hround)]
  exact mbCheckAnswer_good hlen hhead (fun hc => hcrc (hchk hc)) ca m _

/-- A first attempt that answers a value is the whole transaction; it is unchecked with budget 0 only (R101). -/
theorem withCrcRetry_first {α : Type} {n : Nat} {att : Bool → Cmd (Except Err α)} {s t : State} {v : α}
    (h : att (decide (n ≠ 0)) s = .ok (.ok v) t) (spent : Err) : withCrcRetry n att spent s = .ok v t := by
  cases n with
  | zero =>
    have h : att false s = .ok (.ok v) t := h
    rw [withCrcRetry, if_pos rfl, cmd_bind_ok h]; rfl
  | succ n =>
    have h : att true s = .ok (.ok v) t := by simpa using h
    rw [withCrcRetry, if_neg (Nat.succ_ne_zero n), crcLoop, cmd_bind_ok h]; rfl

/-- The exchange of R122 with a good first answer: its data, and the two events. -/
theorem mbExchange_good {s : State} {dev fc : Byte} {len budget : Nat} {A : Bytes}
    (h : mbGets s dev fc len (budget ≠ 0) A) (p : Byte) (q : Bytes) (ca : Word) (m : Nat) :
    mbExchange p dev fc q len budget ca m s = .ok ((A.drop 2).take len)
      (s.afterEvents [.port (.mbSend p q) .done, .port (.mbRecv p (len + 4)) (.bytes A)]) :=
  withCrcRetry_first (mbAttempt_good h of_decide_eq_true p q ca m) _

/-! ### The request frames run alone -/

/-- A frame on an admitted connection that passes its own checks ends with the answer's data in `outbuf`. -/
theorem wireExchange_good {s : State} {dev fc : Byte} {len : Nat} {A : Bytes} {pre : Slot → Cmd Unit}
    (hs : s.admits (cmdConn s.cmd) suitsModbus true) (hpre : pre (cmdConn s.cmd) s = .ok () s)
    (h : mbGets s dev fc len (s.arg2 ≠ 0#32) A) (body : Bytes) (a : Word) (n : Nat) :
    wireExchange pre dev fc body len a n s =
      .next (((s.afterEvents (mbEvents s (cmdConn s.cmd) body len A)).modConn (cmdConn s.cmd)
        (outbufWrite 0 ((A.drop 2).take len))).endOk false) := by
  have hbudget : s.arg2.toNat ≠ 0 ↔ s.arg2 ≠ 0#32 := by rw [ne_eq, ne_eq, ← BitVec.toNat_inj]; rfl
  have hx := mbExchange_good (budget := s.arg2.toNat) (by rw [hbudget]; exact h) (s.descOf (cmdConn s.cmd)).port
    (mbFrame body) a n
  rw [wireExchange, endCmd_enter_none (commandError_of_admits hs)]
  refine endCmd_ok ?_
  rw [cmd_bind_ok hpre, cmd_bind_ok hx]
  rfl

theorem checkAccess_none {s : State} {c : Slot} {w : Bool} {a : Word} {n : Nat} (h : s.accessError c w a n = none) :
    checkAccess c w a n s = .ok () s := by
  rw [checkAccess, h, check_none]

/-- Settles O60: each frame is one exchange behind its checks, its body the one of R78. -/
theorem modbusFramesRunTheirExchange : Obligations.ModbusFramesRunTheirExchange := by
  unfold Obligations.ModbusFramesRunTheirExchange
  intro s dev op a size payload A c runs hs
  refine ⟨fun ha h => ?read, fun ha h => ?write, fun h => ?opcode⟩
  case read =>
    exact wireExchange_good (pre := fun c => checkAccess c false a size.toNat) hs (checkAccess_none ha) h
      (mbReadBody dev op a size) a size.toNat
  case write =>
    exact wireExchange_good (pre := fun c => checkAccess c true a payload.length) hs (checkAccess_none ha) h
      (mbWriteBody dev op a payload) a payload.length
  case opcode =>
    exact wireExchange_good (pre := fun _ => pure ()) hs rfl h (mbOpcodeBody dev op) 0#32 0

end Sys2Proof.Machine
end

section
/-! PROOF. The CRC: its loop is R84's, no step of it loses information, and what CRC16 and CRCCHK answer. -/

namespace Sys2Proof

/-! ### The loop of R84 -/

theorem crcShifts_eq_iterate (n : Nat) (c : BitVec 16) : crcShifts n c = crcShift^[n] c := by
  induction n generalizing c with
  | zero => rfl
  | succ n ih => rw [crcShifts, ih, Function.iterate_succ_apply]

theorem crc16_append (a b : Bytes) : crc16 (a ++ b) = b.foldl crcByte (crc16 a) := List.foldl_append

theorem crcCheck_iff (h p : Bytes) (c : BitVec 16) : crcCheck h p c = true ↔ crc16 (h ++ p) = c := beq_iff_eq

/-- Settles O33: the CRC is a left fold over the bytes, and its step the eight rounds of the loop body. -/
theorem crc16IsTheLoopOfTheRule : Obligations.Crc16IsTheLoopOfTheRule := by
  unfold Obligations.Crc16IsTheLoopOfTheRule
  refine ⟨rfl, fun b v => ?oneMore, fun a b b' h => ?front, by decide +kernel⟩
  case oneMore =>
    calc crc16 (b ++ [v]) = crcByte (crc16 b) v := crc16_append b [v]
      _ = crcShift^[8] (crc16 b ^^^ v.setWidth 16) := crcShifts_eq_iterate 8 _
  case front => rw [crc16_append, crc16_append, h]

/-! ### No step loses information -/

/-- The bit shifted out comes back as the top bit, by the top bit of the polynomial. -/
theorem crcShift_topBit (c : BitVec 16) : (crcShift c).getLsbD 15 = c.getLsbD 0 := by
  unfold crcShift
  split
  case isTrue hbit => rw [hbit]; simp [crc16Poly]
  case isFalse hbit => rw [Bool.not_eq_true] at hbit; rw [hbit]; simp

theorem crcShift_injective : Function.Injective crcShift := by
  intro c d h
  have hlow : c.getLsbD 0 = d.getLsbD 0 := by rw [← crcShift_topBit c, ← crcShift_topBit d, h]
  have hhigh : c >>> 1 = d >>> 1 := by
    unfold crcShift at h
    rw [hlow] at h
    split at h
    case isTrue => exact (BitVec.xor_left_inj _).1 h
    case isFalse => exact h
  apply BitVec.eq_of_getLsbD_eq
  intro i hi
  cases i with
  | zero => exact hlow
  | succ i => simpa [Nat.add_comm] using congrArg (·.getLsbD i) hhigh

theorem crcShifts_injective (n : Nat) : Function.Injective (crcShifts n) := by
  rw [funext (crcShifts_eq_iterate n)]
  exact crcShift_injective.iterate n

theorem crcByte_register_injective (v : Byte) : Function.Injective fun c => crcByte c v := fun _ _ h =>
  (BitVec.xor_left_inj _).1 (crcShifts_injective 8 h)

theorem crcByte_byte_injective (c : BitVec 16) : Function.Injective (crcByte c) := by
  intro v w h
  have hwide : v.setWidth 16 = w.setWidth 16 := (BitVec.xor_right_inj _).1 (crcShifts_injective 8 h)
  have hback := congrArg (BitVec.setWidth 8) hwide
  simpa only [BitVec.setWidth_setWidth_of_le _ (show 8 ≤ 16 by decide), BitVec.setWidth_eq] using hback

theorem foldl_crcByte_injective (b : Bytes) : Function.Injective fun c => b.foldl crcByte c := by
  induction b with
  | nil => exact fun _ _ h => h
  | cons v b ih => exact ih.comp (crcByte_register_injective v)

/-- Strings that differ in one byte only differ in their CRC. -/
theorem crc16_set_injective {b : Bytes} {i : Nat} (hi : i < b.length) :
    Function.Injective fun v => crc16 (b.set i v) := by
  intro v w h
  simp only [List.set_eq_take_cons_drop _ hi, crc16_append, List.foldl_cons] at h
  exact crcByte_byte_injective _ (foldl_crcByte_injective _ h)

theorem xor_bit_ne_self {n j : Nat} (v : BitVec n) (hj : j < n) : v ^^^ (1#n <<< j) ≠ v := by
  intro h
  have hzero : 1#n <<< j = 0 := xor_left_eq_self_iff.1 h
  simpa [hj] using congrArg (·.getLsbD j) hzero

/-- Settles O34: a flipped bit changes one byte of the string, so by `crc16_set_injective` its CRC. -/
theorem crcCheckFailsOnASingleBitFlip : Obligations.CrcCheckFailsOnASingleBitFlip := by
  unfold Obligations.CrcCheckFailsOnASingleBitFlip
  refine ⟨crcCheck_iff, fun h p h' p' i j v _ hj hv hflip => ?_⟩
  obtain ⟨hi, hbyte⟩ := List.getElem?_eq_some_iff.1 hv
  rw [← Bool.not_eq_true, crcCheck_iff, hflip]
  intro hcrc
  have hsame : crc16 ((h ++ p).set i v) = crc16 (h ++ p) := by rw [← hbyte, List.set_getElem_self]
  exact xor_bit_ne_self v hj (crc16_set_injective hi (hcrc.trans hsame.symm))

end Sys2Proof

namespace Sys2Proof.Machine

/-! ### The two commands -/

theorem mreadBytes_undef {m : Memory} {a n i : Nat} (hi : i < n) (h : mread m (a + i) = none) :
    mreadBytes m a n = none := by
  rw [Option.eq_none_iff_forall_ne_some]
  intro bs hbs
  obtain ⟨hlen, hread⟩ := mreadBytes_eq_some.1 hbs
  have hend : bs.length ≤ i := List.getElem?_eq_none_iff.1 ((hread i hi).symm.trans h)
  omega

theorem hbufData_ok {s : State} {n : Nat} {bs : Bytes} (h : mreadBytes s.hbuf 0 n = some bs) :
    hbufData n s = .ok bs s := by
  rw [hbufData, h]

theorem hbufData_undef {s : State} {n i : Nat} (hi : i < n) (h : mread s.hbuf i = none) :
    hbufData n s = .error (.fault .undefRead) s := by
  rw [hbufData, mreadBytes_undef hi ((Nat.zero_add i).symm ▸ h)]

theorem crcData_tooLong {s : State} {l : Word} (h : s.cfg.hbufSize < l.toNat) :
    crcData l s = .error (.err (.sizeTooLarge 0#32 l)) s := by
  rw [crcData, cmd_bind_ok (cmd_get s), if_pos h]
  exact cmd_bind_error (check_some _ s)

/-- A length that HBUF holds passes the check: what is left is the read. -/
theorem crcData_fits {s : State} {l : Word} (h : ¬s.cfg.hbufSize < l.toNat) : crcData l s = hbufData l.toNat s := by
  rw [crcData, cmd_bind_ok (cmd_get s), if_neg h, cmd_bind_ok (check_none s)]

section

variable {s : State} {bs : Bytes}

/-- CRCCHK without a reserved bit in ARG1 runs on as its read of the data does. -/
theorem execCrcchk_narrow (h : s.arg1.extractLsb' 16 16 = 0#16) :
    execCrcchk s = endCmd (crcData s.arg0 >>= fun bs => pure (crc16 bs == s.arg1.extractLsb' 0 16)) s := by
  have hcheck : check (if fits16 s.arg1 then none else some .reservedBits) s = .ok () s := by
    rw [fits16, h]; rfl
  unfold execCrcchk endCmd
  rw [cmd_bind_ok hcheck]
  rfl

theorem execCrcchk_wide (h : s.arg1.extractLsb' 16 16 ≠ 0#16) : execCrcchk s = .next (s.endErr .reservedBits) := by
  have hcheck : check (if fits16 s.arg1 then none else some .reservedBits) s = .error (.err .reservedBits) s := by
    rw [fits16, beq_false_of_ne h]; rfl
  exact endCmd_err (cmd_bind_error hcheck)

theorem execCrc16_ok (h : crcData s.arg0 s = .ok bs s) :
    execCrc16 s = .next ({ s with result0 := 0#16 ++ crc16 bs }.endOk false) := by
  have hzext : (crc16 bs).setWidth 32 = 0#16 ++ crc16 bs := BitVec.setWidth_eq_append (by decide)
  rw [← hzext]
  exact endCmd_ok (cmd_bind_ok h)

end

/-- Settles O32: both commands end as their read of the data ends, CRCCHK behind its check of ARG1. -/
theorem crcCommandsAnswerTheCrc : Obligations.CrcCommandsAnswerTheCrc := by
  unfold Obligations.CrcCommandsAnswerTheCrc
  intro s tooLong wide
  refine ⟨rfl, rfl, fun hl => ?long16, execCrcchk_wide, fun hw hl => ?longChk, fun hl ⟨i, hi, hu⟩ => ?undef,
    fun bs hl hlen hread => ?ends⟩
  case long16 => exact endCmd_err (cmd_bind_error (crcData_tooLong hl))
  case longChk =>
    exact (execCrcchk_narrow (not_not.1 hw)).trans (endCmd_err (cmd_bind_error (crcData_tooLong hl)))
  case undef =>
    have hdata := (crcData_fits hl).trans (hbufData_undef hi hu)
    exact ⟨endCmd_fault (cmd_bind_error hdata), fun hw =>
      (execCrcchk_narrow (not_not.1 hw)).trans (endCmd_fault (cmd_bind_error hdata))⟩
  case ends =>
    have hbytes : mreadBytes s.hbuf 0 s.arg0.toNat = some bs :=
      mreadBytes_eq_some.2 ⟨hlen, fun i hi => by rw [Nat.zero_add, hread i (hlen ▸ hi)]⟩
    have hdata := (crcData_fits hl).trans (hbufData_ok hbytes)
    exact ⟨execCrc16_ok hdata, fun hw =>
      (execCrcchk_narrow (not_not.1 hw)).trans (endCmd_ok (cmd_bind_ok hdata))⟩

end Sys2Proof.Machine
end

section
/-! PROOF. The connection commands on an admitted slot: CONNECT, DISCONNECT, ISCONN, GETDT, SETDT, RESIZE, BUFPEEK and
SETADDR. -/

namespace Sys2Proof.Machine

open Sys2Proof.Laws

/-! ### CMD words -/

theorem toNat_append_eq_add {m n : Nat} (x : BitVec m) (y : BitVec n) :
    (x ++ y).toNat = x.toNat * 2 ^ n + y.toNat := by
  rw [BitVec.toNat_append, ← Nat.shiftLeft_add_eq_or_of_lt y.isLt, Nat.shiftLeft_eq]

/-- The sum of the fields at their places is the word of the fields side by side (R19, R65). -/
theorem commandWord_eq_cmdWord {op : Nat} (hop : op < 256) (c : Slot) (e b : Bool) :
    commandWord op c e b = cmdWord (BitVec.ofNat 8 op) c e b := by
  have hc := c.isLt
  have he := e.toNat_lt
  have hb := b.toNat_lt
  apply BitVec.eq_of_toNat_eq
  simp only [commandWord, cmdWord, toNat_append_eq_add, BitVec.toNat_ofNat, BitVec.toNat_ofBool]
  omega

/-- A CMD word of the fields an instruction's code has decodes to it. -/
theorem decode_commandWord {i : Instr} {op : Nat} {c : Slot} {e b : Bool} (hop : op < 256) (hwf : i.wf = true)
    (hcode : encode i = .cmd (cmdWord (BitVec.ofNat 8 op) c e b)) : decode (.cmd (commandWord op c e b)) = .ok i := by
  rw [commandWord_eq_cmdWord hop, ← hcode]
  exact decodingAnEncodingGivesItBack i hwf

/-! ### Port calls whose success has no data -/

/-- The driver error a port call ends with, if any (R39). -/
def driverError : Fate → Option Err
  | .returns => none
  | .notConnected => some .notConnectedDriver
  | .timeout f => some (.timeoutTransport f)

section
variable {s : State} {d : Draw}

/-- A call of `Port.Connect` or `Port.Disconnect` that ends is on the trace with its answer, whatever that is. -/
theorem doneCall_run (h : s.draw 0 = some d) (call : PortCall) :
    portCall call (fun _ => .done) (fun _ => ()) s = match driverError d.fate with
      | none => .ok () (s.note call d.shows)
      | some x => .error (.err x) (s.note call d.shows) := by
  rw [portCall_run h, Draw.shows]
  cases d.fate <;> rfl

theorem portConnect_ok (h : s.draw 0 = some d) (hd : driverError d.fate = none) (k : Kind) (p : Byte) (D : Desc) :
    portConnect k p D s = .ok () (s.note (.connect k p D) d.shows) := by
  rw [portConnect, doneCall_run h, hd]

theorem portConnect_error {x : Err} (h : s.draw 0 = some d) (hd : driverError d.fate = some x) (k : Kind) (p : Byte)
    (D : Desc) : portConnect k p D s = .error (.err x) (s.note (.connect k p D) d.shows) := by
  rw [portConnect, doneCall_run h, hd]

theorem portDisconnect_ok (h : s.draw 0 = some d) (hd : driverError d.fate = none) (k : Kind) (p : Byte) :
    portDisconnect k p s = .ok () (s.note (.disconnect k p) d.shows) := by
  rw [portDisconnect, doneCall_run h, hd]

theorem portDisconnect_error {x : Err} (h : s.draw 0 = some d) (hd : driverError d.fate = some x) (k : Kind)
    (p : Byte) : portDisconnect k p s = .error (.err x) (s.note (.disconnect k p) d.shows) := by
  rw [portDisconnect, doneCall_run h, hd]

end

/-! ### The connection of an admitted slot -/

theorem conn?_of_admits {s : State} {c : Slot} {f : Conn → Desc → Bool} {tr : Bool} (h : s.admits c f tr) :
    s.conn? c = some (s.conn c) := by
  obtain ⟨-, hused, -⟩ := h
  obtain ⟨k, hk⟩ := Option.isSome_iff_exists.1 hused
  rw [hk, State.conn_of_some hk]

/-- Two changes of a connection are one if they agree on the connection in the slot. -/
theorem modConn_congr {s : State} {c : Slot} {k : Conn} (hk : s.conn? c = some k) {f g : Conn → Conn}
    (h : f k = g k) : s.modConn c f = s.modConn c g := by
  have hk : tget s.conns c.toNat = some k := hk
  simp only [State.modConn, tmodify, hk, h]

/-! ### CONNECT -/

/-- What CONNECT does behind its checks: a Slave looks at its Master, any other connection calls its port (R92). -/
def connectTransport (s : State) (c : Slot) : Cmd Unit :=
  if (s.conn c).role = .slave then
    check (if (s.conn (s.conn c).master).connected then none else some .notConnectedBlock)
  else portConnect (s.conn c).kind (s.descOf c).port (s.descOf c)

section
variable {s u : State} {c : Slot}

theorem connectTransport_slave (h : (s.conn c).role = .slave) : connectTransport s c =
    check (if (s.conn (s.conn c).master).connected then none else some .notConnectedBlock) := if_pos h

theorem connectTransport_port (h : (s.conn c).role ≠ .slave) :
    connectTransport s c = portConnect (s.conn c).kind (s.descOf c).port (s.descOf c) := if_neg h

theorem execConnect_ok (hs : s.admits c suitsAny false) (h : connectTransport s c s = .ok () u) :
    execConnect c s =
      .next ((u.modConn c fun k => { k with connected := true, baseCache := none }).endOk false) := by
  have hcaught : orInvalidate c (connectTransport s c) s = .ok () u := by rw [orInvalidate, catchErr, h]
  exact (endCmd_enter_none (commandError_of_admits hs)).trans (endCmd_ok (cmd_bind_ok hcaught))

theorem execConnect_error {x : Err} (hs : s.admits c suitsAny false) (h : connectTransport s c s = .error (.err x) u) :
    execConnect c s = .next ((u.modConn c fun k => { k with baseCache := none }).endErr x) := by
  have hcaught : orInvalidate c (connectTransport s c) s =
      .error (.err x) (u.modConn c fun k => { k with baseCache := none }) := by
    rw [orInvalidate, catchErr, h]; rfl
  exact (endCmd_enter_none (commandError_of_admits hs)).trans (endCmd_err (cmd_bind_error hcaught))

end

/-- Settles O26: CONNECT ends as the Slave's look at its Master ends, or as the call of the port ends. -/
theorem connectOpensTheTransport : Obligations.ConnectOpensTheTransport := by
  unfold Obligations.ConnectOpensTheTransport
  intro s c hs k fresh up note
  refine ⟨decode_commandWord (by decide) rfl rfl, fun hr hdown => ?masterDown, fun hr hup => ?masterUp,
    fun hr d hd => ?port⟩
  case masterDown => exact execConnect_error hs (by rw [connectTransport_slave hr, hdown]; rfl)
  case masterUp => exact execConnect_ok hs (by rw [connectTransport_slave hr, hup]; rfl)
  case port =>
    have herror : ∀ {x}, driverError d.fate = some x → exec (.connect c) s = .next ((fresh (note d)).endErr x) :=
      fun hx => execConnect_error hs (by rw [connectTransport_port hr]; exact portConnect_error hd hx _ _ _)
    refine ⟨fun hf => execConnect_ok hs ?_, fun hf => herror (by rw [hf]; rfl), fun f hf => herror (by rw [hf]; rfl)⟩
    rw [connectTransport_port hr]
    exact portConnect_ok hd (by rw [hf]; rfl) _ _ _

/-! ### DISCONNECT -/

/-- The state of DISCONNECT when it calls the port: the flag is already 0 (R93). -/
def State.flagDown (s : State) (c : Slot) : State := s.modConn c fun k => { k with connected := false }

section
variable {s u : State} {c : Slot}

theorem execDisconnect_noCall (hs : s.admits c suitsAny false)
    (h : (s.conn c).role = .slave ∨ (s.conn c).connected = false) :
    execDisconnect c s = .next ((s.flagDown c).endOk false) := by
  have hcall : ¬((s.conn c).role ≠ .slave ∧ (s.conn c).connected = true) := by
    rintro ⟨hr, hup⟩
    rcases h with h | h
    · exact hr h
    · rw [h] at hup; cases hup
  refine (endCmd_enter_none (commandError_of_admits hs)).trans (endCmd_ok ?_)
  rw [cmd_bind_ok (cmd_modify _ s), if_neg hcall]
  rfl

theorem execDisconnect_call (hs : s.admits c suitsAny false) (hr : (s.conn c).role ≠ .slave)
    (hup : (s.conn c).connected = true) :
    execDisconnect c s =
      endCmd (portDisconnect (s.conn c).kind (s.descOf c).port >>= fun _ => pure false) (s.flagDown c) := by
  refine (endCmd_enter_none (commandError_of_admits hs)).trans ?_
  unfold endCmd
  rw [cmd_bind_ok (cmd_modify _ s), if_pos ⟨hr, hup⟩]
  rfl

end

/-- Settles O27: without a call DISCONNECT ends with the flag down, with one as the call ends. -/
theorem disconnectClosesTheTransport : Obligations.DisconnectClosesTheTransport := by
  unfold Obligations.DisconnectClosesTheTransport
  intro s c hs k down note
  refine ⟨decode_commandWord (by decide) rfl rfl, execDisconnect_noCall hs, fun hr hup d hd => ?call⟩
  have hrun : exec (.disconnect c) s = _ := execDisconnect_call hs hr hup
  have hd : (s.flagDown c).draw 0 = some d := hd
  have herror : ∀ {x}, driverError d.fate = some x → exec (.disconnect c) s = .next ((note d).endErr x) :=
    fun hx => hrun.trans (endCmd_err (cmd_bind_error (portDisconnect_error hd hx _ _)))
  refine ⟨fun hf => ?_, fun hf => herror (by rw [hf]; rfl), fun f hf => herror (by rw [hf]; rfl)⟩
  exact hrun.trans (endCmd_ok (cmd_bind_ok (portDisconnect_ok hd (by rw [hf]; rfl) _ _)))

/-! ### ISCONN, GETDT and SETDT -/

/-- Settles O28: each runs, behind the checks, on the block's own record. -/
theorem isconnGetdtSetdtUseTheFlagsAndTheCache : Obligations.IsconnGetdtSetdtUseTheFlagsAndTheCache := by
  unfold Obligations.IsconnGetdtSetdtUseTheFlagsAndTheCache
  intro s c hs k
  have hchecks : s.commandError true c suitsAny false = none := commandError_of_admits hs
  refine ⟨decode_commandWord (by decide) rfl rfl, decode_commandWord (by decide) rfl rfl,
    decode_commandWord (by decide) rfl rfl, ?isconn, fun hunset => ?getdtUnset, fun v hv => ?getdt, ?setdt⟩
  case isconn => rw [exec, execIsconn_run, hchecks]; rfl
  case getdtUnset => rw [exec, execGetdt_run, hchecks, hunset]
  case getdt => rw [exec, execGetdt_run, hchecks, hv]
  case setdt => rw [exec, execSetdt_run, hchecks]

/-! ### RESIZE and BUFPEEK -/

theorem resizeError_eq_firstError (s : State) (c : Slot) (n : Word) :
    s.resizeError c n = firstError [(decide (n.toNat < minBuf (s.conn c).kind), .bufTooSmall n),
      (decide (s.cfg.bufMax < n.toNat), .sizeTooLarge 0#32 n)] := by
  simp only [State.resizeError, firstError, decide_eq_true_eq]

theorem peekError_eq_firstError (s : State) (b : Buf) (o l : Word) :
    s.peekError b o l = firstError [(decide (l = 0#32), .sizeZero o),
      (decide (s.cfg.hbufSize < l.toNat ∨ b.len < o.toNat + l.toNat), .sizeTooLarge o l)] := by
  simp only [State.peekError, firstError, decide_eq_true_eq]

theorem selected_legal {g : Config} {k : Conn} (h : k.Legal g) (e : Bool) : (k.selected e).Legal g k.kind := by
  cases e
  · exact h.inbuf
  · exact h.outbuf

/-- A legal buffer has no byte past its length, so what RESIZE keeps of it are its bytes below both lengths (R95). -/
theorem bufResize_read_legal {g : Config} {kd : Kind} {b : Buf} (h : b.Legal g kd) (n i : Nat) :
    mread (bufResize b n).mem i = if i < min b.len n then mread b.mem i else none := by
  rw [bufResize_read]
  by_cases hlen : i < b.len
  · simp only [lt_min_iff, hlen, true_and]
  · simp only [lt_min_iff, hlen, false_and, h.inside i (Nat.le_of_not_lt hlen), ite_self]

/-- Settles O29: the checks are those of `State.resizeError`, and the buffer RESIZE makes is that of `bufResize`. -/
theorem resizeKeepsTheCommonPrefix : Obligations.ResizeKeepsTheCommonPrefix := by
  unfold Obligations.ResizeKeepsTheCommonPrefix
  intro s c e hm hs old checks
  have hchecks : s.commandError true c suitsAny false = none := commandError_of_admits hs
  have hsize : s.resizeError c s.arg0 = firstError checks := resizeError_eq_firstError s c s.arg0
  have hused : s.conn? c = some (s.conn c) := conn?_of_admits hs
  refine ⟨decode_commandWord (by decide) rfl rfl, fun x hx => ?error, fun hok => ?resized⟩
  case error => rw [exec, execResize_run, hchecks, hsize, hx]
  case resized =>
    have hlegal := selected_legal (hm.conns _ _ hused) e
    have hset : s.modConn c (fun k => setSelected e (bufResize (k.selected e) s.arg0.toNat) k) =
        s.modConn c (setSelected e (bufResize old s.arg0.toNat)) := modConn_congr hused rfl
    refine ⟨bufResize old s.arg0.toNat, rfl, bufResize_read_legal hlegal s.arg0.toNat, ?_⟩
    rw [exec, execResize_run, hchecks, hsize, hok]
    simp only [hset]
    rfl

/-- Settles O30: the checks are those of `State.peekError`, and BUFPEEK is the copy of `mcopy` to index 0. -/
theorem bufpeekCopiesIntoHbuf : Obligations.BufpeekCopiesIntoHbuf := by
  unfold Obligations.BufpeekCopiesIntoHbuf
  intro s c e hs buf checks
  have hchecks : s.commandError true c suitsAny false = none := commandError_of_admits hs
  have hrange : s.peekError buf s.arg0 s.arg1 = firstError checks := peekError_eq_firstError s buf s.arg0 s.arg1
  have hrun : exec (.bufpeek c e) s = match s.peekError buf s.arg0 s.arg1 with
      | some x => .next (s.endErr x)
      | none => .next ({ s with hbuf := mcopy s.hbuf buf.mem 0 s.arg0.toNat s.arg1.toNat }.endOk false) := by
    rw [exec, execBufpeek_run, hchecks]; rfl
  refine ⟨decode_commandWord (by decide) rfl rfl, fun x hx => ?error, fun hok => ?copied⟩
  case error => rw [hrun, hrange, hx]
  case copied =>
    refine ⟨mcopy s.hbuf buf.mem 0 s.arg0.toNat s.arg1.toNat, fun i => ?_, by rw [hrun, hrange, hok]⟩
    simp only [mread_mcopy, Nat.zero_le, true_and, Nat.zero_add, Nat.sub_zero]

/-! ### SETADDR -/

/-- Behind a slot in use, the checks of SETADDR are of the width of ARG0 and of the kind (R97, R71). -/
theorem setaddr_commandError {s : State} {c : Slot} (hs : s.admits c suitsAny false) :
    s.commandError (fits8 s.arg0) c suitsAddressed false =
      if s.arg0.extractLsb' 8 24 ≠ 0#24 then some .reservedBits
      else if (s.conn c).kind = .can then some .wrongKind else none := by
  have hused : s.conn? c ≠ none := by rw [conn?_of_admits hs]; exact Option.some_ne_none _
  obtain ⟨hslot, -⟩ := hs
  have hslot : ¬s.cfg.nConn ≤ c.toNat := Nat.not_le.2 hslot
  rw [commandError_eq_firstError]
  simp [firstError, fits8, suitsAddressed, hused, hslot]

/-- Settles O31: by the width of ARG0 and the kind of the connection. -/
theorem setaddrWritesTheDescriptor : Obligations.SetaddrWritesTheDescriptor := by
  unfold Obligations.SetaddrWritesTheDescriptor
  intro s c hs wide
  have hchecks := setaddr_commandError hs
  refine ⟨decode_commandWord (by decide) rfl rfl, fun hw => ?wide, fun hw hk => ?spi, fun hw hk => ?modbus,
    fun hw hk => ?can⟩
  case wide => rw [exec, execSetaddr_run, hchecks, if_pos hw]
  case spi => rw [exec, execSetaddr_run, hchecks, if_neg hw, hk]; rfl
  case modbus => rw [exec, execSetaddr_run, hchecks, if_neg hw, hk]; rfl
  case can => rw [exec, execSetaddr_run, hchecks, if_neg hw, if_pos hk]

end Sys2Proof.Machine
end

section
/-! PROOF. CLOSE of a connection whose domain needs no new Master: what it does to the transport, and what is left. -/

namespace Sys2Proof.Machine

/-! ### The parts of CLOSE -/

/-- A disconnect whose error is discarded, where it applies (R91, R137). -/
def disconnectIf (b : Bool) (k : Kind) (p : Byte) : Cmd Unit :=
  if b then catchErr (portDisconnect k p) (fun _ => pure ()) else pure ()

/-- What CLOSE does before the slot is unused (R91). -/
def closeTransport (s : State) (c : Slot) : Cmd Unit :=
  if (s.conn c).kind = .can then destroyCan (s.descOf c).port c
  else disconnectIf ((s.conn c).owner && (s.conn c).connected) (s.conn c).kind (s.descOf c).port

/-- The last act of CLOSE: an owner's descriptor is freed and the slot is unused (R91). -/
def closeSlot (c : Slot) (k : Conn) : Cmd Bool := do
  if k.owner then modify (fun s => s.modDesc k.desc fun d => { d with valid := false })
  modify (fun s => s.dropConn c)
  pure false

theorem closeSlot_run (c : Slot) (k : Conn) (s : State) : closeSlot c k s = .ok false (released s c k) := by
  unfold closeSlot released
  cases k.owner <;> rfl

section
variable {s u v : State} {c : Slot} {q : Byte}

theorem execClose_eq (hs : s.admits c suitsAny false) :
    execClose c s = endCmd (closeTransport s c >>= fun _ => closeSlot c (s.conn c)) s := by
  refine (endCmd_enter_none (commandError_of_admits hs)).trans ?_
  unfold closeTransport disconnectIf
  by_cases hkind : (s.conn c).kind = .can
  · simp only [hkind, if_true]; rfl
  · by_cases hcall : ((s.conn c).owner && (s.conn c).connected) = true
    · simp only [hkind, hcall, if_true, if_false]; rfl
    · simp only [hkind, hcall, if_false]; rfl

/-- Once the transport is done with, CLOSE ends without error, the slot released. -/
theorem execClose_ok (hs : s.admits c suitsAny false) (h : closeTransport s c s = .ok () u) :
    execClose c s = .next ((released u c (s.conn c)).endOk false) := by
  rw [execClose_eq hs]
  exact endCmd_ok ((cmd_bind_ok h).trans (closeSlot_run c (s.conn c) u))

theorem disconnectIf_false (k : Kind) (p : Byte) (s : State) : disconnectIf false k p s = .ok () s := rfl

/-- However the call ends, its error is discarded. -/
theorem disconnectIf_true {d : Draw} (h : s.draw 0 = some d) (k : Kind) (p : Byte) :
    disconnectIf true k p s = .ok () (s.note (.disconnect k p) d.shows) := by
  rw [disconnectIf, if_pos rfl, catchErr]
  cases hd : driverError d.fate with
  | none => rw [portDisconnect_ok h hd]
  | some x => rw [portDisconnect_error h hd]; rfl

theorem closeTransport_can (h : (s.conn c).kind = .can) : closeTransport s c = destroyCan (s.descOf c).port c := if_pos h

theorem closeTransport_notCan (h : (s.conn c).kind ≠ .can) : closeTransport s c =
    disconnectIf ((s.conn c).owner && (s.conn c).connected) (s.conn c).kind (s.descOf c).port := if_neg h

theorem destroyCan_slave (hr : (s.conn c).role = .slave)
    (h : unregisterConnection q (s.conn c).master c s = .ok () u) : destroyCan q c s = .ok () u := by
  unfold destroyCan
  rw [cmd_bind_ok (cmd_get s), if_pos hr, h]

/-- The last connection of a domain leaves it without a Master, behind the disconnect (R137). -/
theorem destroyCan_last (hr : (s.conn c).role = .master) (h : unregisterConnection q c c s = .ok () u)
    (hlast : (u.domain q).table = []) (hv : disconnectIf (u.conn c).connected .can q u = .ok () v) :
    destroyCan q c s = .ok () (v.setDomain q { v.domain q with dmaster := noSlot }) := by
  have hslave : (s.conn c).role ≠ .slave := by rw [hr]; decide
  unfold destroyCan
  rw [cmd_bind_ok (cmd_get s), if_neg hslave, cmd_bind_ok h, cmd_bind_ok (cmd_get u), if_pos hlast]
  cases hup : (u.conn c).connected with
  | false => rw [hup] at hv; cases hv; rfl
  | true => rw [hup] at hv; exact cmd_bind_ok hv

/-! ### Domains after the entry is gone -/

theorem terase_tset {α : Type} (t : Table α) (x : Nat) (a : α) : terase (tset t x a) x = terase t x := by
  induction t with
  | nil => simp [tset, terase]
  | cons e r ih =>
    obtain ⟨k, w⟩ := e
    simp only [terase] at ih
    rw [tset]
    split
    · simp [terase]
    · split
      case isTrue _ hxk => simp [terase, hxk]
      case isFalse => simp only [terase, List.filter_cons, ih]

theorem terase_terase {α : Type} (t : Table α) (x : Nat) : terase (terase t x) x = terase t x := by
  simp [terase, List.filter_filter]

/-- Emptying a domain leaves nothing of what stood there. -/
theorem setDomain_emptyDomain (s : State) (q : Byte) (d : Domain) :
    (s.setDomain q d).setDomain q emptyDomain = s.setDomain q emptyDomain := by
  simp only [State.setDomain, if_true]
  split
  · rw [terase_terase]
  · rw [terase_tset]

theorem without_eq_filter (s : State) (q : Byte) (c : Slot) :
    without s q c = (s.domain q).table.filter fun e => e.slot != c :=
  List.filter_congr fun e _ => by by_cases h : e.slot = c <;> simp [h]

theorem unregistered_eq_without (s : State) (q : Byte) (c : Slot) :
    s.unregistered q c = s.setDomain q { dmaster := (s.domain q).dmaster, table := without s q c } := by
  rw [without_eq_filter]; rfl

theorem table_unregistered (s : State) (q : Byte) (c : Slot) :
    ((s.unregistered q c).domain q).table = without s q c := by
  rw [domain_unregistered, if_pos rfl, without_eq_filter]

/-- A domain whose entries are all gone and whose Master is taken out is empty (R137, R36 (a)). -/
theorem setDomain_noMaster (h : (v.domain q).table = []) :
    v.setDomain q { v.domain q with dmaster := noSlot } = v.setDomain q emptyDomain :=
  congrArg (fun t => v.setDomain q { dmaster := noSlot, table := t }) h

/-! ### The entry of a registered connection -/

theorem Headed.dmaster_rank {rank : Slot → Role × Slot} {d : Domain} (h : Headed rank d) (hd : d.table ≠ []) :
    (rank d.dmaster).1 = .master := by
  obtain ⟨e, es, ht⟩ := List.exists_cons_of_ne_nil hd
  obtain ⟨hslot, hrank, -⟩ := h.first e es ht
  exact hslot ▸ hrank

theorem unregisterConnection_ok {m : Slot} (hm : (s.conn m).role = .master)
    (he : ∃ e ∈ (s.domain q).table, e.slot = c) : unregisterConnection q m c s = .ok () (s.unregistered q c) := by
  obtain ⟨e, hmem, hslot⟩ := he
  have hfound : ¬((s.domain q).table.all fun e => e.slot != c) = true := by
    intro hall
    simpa [hslot] using List.all_eq_true.1 hall e hmem
  rw [unregisterConnection_run, if_neg (not_not.2 hm), if_neg hfound]

end

section
variable {s : State} {c : Slot} (hl : s.LinksLegal) (hs : s.RoutingLegal) (ha : s.admits c suitsAny false)
include hl ha

/-- Only a CAN connection has a role (R29). -/
theorem kind_of_role (hr : (s.conn c).role ≠ .none) : (s.conn c).kind = .can := by
  by_contra hkind
  exact hr ((hl.role _ _ (conn?_of_admits ha)).2 hkind)

include hs

/-- A CAN connection has its entry in the domain of its port (R36 (d)). -/
theorem exists_entry_of_role (hr : (s.conn c).role ≠ .none) :
    ∃ e ∈ (s.domain (s.descOf c).port).table, e.slot = c := by
  obtain ⟨-, hentered⟩ := (routingLegal_iff s).1 hs
  exact hentered.exists_entry (canPort_of_can (conn?_of_admits ha) (kind_of_role hl ha hr))

/-- The Master a Slave names is one (R36 (b)). -/
theorem role_master_of_slave (hr : (s.conn c).role = .slave) : (s.conn (s.conn c).master).role = .master := by
  obtain ⟨hheaded, -⟩ := (routingLegal_iff s).1 hs
  obtain ⟨e, hmem, rfl⟩ := exists_entry_of_role hl hs ha (by rw [hr]; decide)
  have hhead := hheaded (s.descOf e.slot).port
  obtain ⟨hmaster, -⟩ := hhead.master_entry hmem
  have hnot : (s.rank e.slot).1 ≠ .master := by simp [State.rank, hr]
  rw [if_neg hnot] at hmaster
  have hmaster : (s.conn e.slot).master = _ := hmaster
  rw [hmaster]
  exact hhead.dmaster_rank (List.ne_nil_of_mem hmem)

theorem execClose_slave (hr : (s.conn c).role = .slave) : execClose c s =
    .next ((released (s.unregistered (s.descOf c).port c) c (s.conn c)).endOk false) := by
  have hrole : (s.conn c).role ≠ .none := by rw [hr]; decide
  refine execClose_ok ha ?_
  rw [closeTransport_can (kind_of_role hl ha hrole)]
  exact destroyCan_slave hr
    (unregisterConnection_ok (role_master_of_slave hl hs ha hr) (exists_entry_of_role hl hs ha hrole))

/-- CLOSE of the last Master of a domain, where `v` is the state behind its disconnect, if there was one. -/
theorem execClose_last {v : State} (hr : (s.conn c).role = .master) (hlast : without s (s.descOf c).port c = [])
    (hv : disconnectIf (s.conn c).connected .can (s.descOf c).port (s.unregistered (s.descOf c).port c) = .ok () v)
    (hdomain : v.domain = (s.unregistered (s.descOf c).port c).domain) : execClose c s =
      .next ((released (v.setDomain (s.descOf c).port emptyDomain) c (s.conn c)).endOk false) := by
  have hrole : (s.conn c).role ≠ .none := by rw [hr]; decide
  have hempty : ((s.unregistered (s.descOf c).port c).domain (s.descOf c).port).table = [] := by
    rw [table_unregistered, hlast]
  have hrun := destroyCan_last hr (unregisterConnection_ok hr (exists_entry_of_role hl hs ha hrole)) hempty hv
  rw [setDomain_noMaster (by rw [hdomain, hempty])] at hrun
  refine execClose_ok ha ?_
  rw [closeTransport_can (kind_of_role hl ha hrole), hrun]

end

/-- Settles O24: by the kind, the role, and whether the port is called. -/
theorem closeReleasesTheConnection : Obligations.CloseReleasesTheConnection := by
  unfold Obligations.CloseReleasesTheConnection
  intro s c hl hs ha k q note
  refine ⟨fun hkind hcall => ?quiet, fun hkind hcall d hd => ?disconnected, fun hr => ?slave,
    fun hr hlast hdown => ?lastDown, fun hr hlast hup d hd => ?lastUp⟩
  case quiet =>
    refine execClose_ok ha ?_
    rw [closeTransport_notCan hkind, hcall, disconnectIf_false]
  case disconnected =>
    refine execClose_ok ha ?_
    rw [closeTransport_notCan hkind, hcall, disconnectIf_true hd]
  case slave =>
    rw [← unregistered_eq_without]
    exact execClose_slave hl hs ha hr
  case lastDown =>
    have hv : disconnectIf k.connected .can q (s.unregistered q c) = .ok () (s.unregistered q c) := by rw [hdown]; rfl
    have hend := execClose_last hl hs ha hr hlast hv rfl
    rw [unregistered_eq_without, setDomain_emptyDomain] at hend
    exact hend
  case lastUp =>
    have hkind : k.kind = .can := kind_of_role hl ha (by rw [hr]; decide)
    have hd : (s.unregistered q c).draw 0 = some d := hd
    have hv : disconnectIf k.connected .can q (s.unregistered q c) = .ok () (note (s.unregistered q c) d) := by
      rw [hup, disconnectIf_true hd, ← hkind]
    have hend := execClose_last hl hs ha hr hlast hv rfl
    have hcommute : (note (s.unregistered q c) d).setDomain q emptyDomain = (note s d).setDomain q emptyDomain :=
      setDomain_emptyDomain (note s d) q _
    rw [hcommute] at hend
    exact hend

end Sys2Proof.Machine
end

section
/-! PROOF. OPEN: its checks as one list, and what it constructs. -/

namespace Sys2Proof.Machine

/-! ### The checks as one list -/

theorem firstError_append (a b : List (Bool × Err)) : firstError (a ++ b) = (firstError a).or (firstError b) := by
  induction a with
  | nil => rfl
  | cons p r ih =>
    obtain ⟨hit, x⟩ := p
    cases hit
    · exact ih
    · rfl

theorem fits8_iff (w : Word) : fits8 w = true ↔ w.extractLsb' 8 24 = 0#24 := beq_iff_eq

/-- The descriptor's IDs do not fit where the end of a range does not (R34). -/
theorem canIdsFit_eq_false (g : Config) (d : CanDesc) : canIdsFit g d = false ↔
    2 ^ (if d.extended then 29 else 11) ≤ d.baseIdTx.toNat + g.canMaxDetections + 1
      ∨ 2 ^ (if d.extended then 29 else 11) ≤ d.baseIdRx.toNat := by
  unfold canIdsFit
  cases d.extended <;> simp only [Bool.and_eq_false_iff, decide_eq_false_iff_not, Nat.not_lt] <;> rfl

/-- The error of a new connection whose Tx range holds its own Rx ID (R134). -/
def selfOverlap (g : Config) (rx tx : Word) : Option Err :=
  if inTxRange g tx rx then some (.idOverlapSelf rx) else none

/-- The error of a new connection against the first registered entry it clashes with (R134). -/
def otherOverlap (g : Config) (table : List RouteEntry) (rx tx : Word) : Option Err :=
  (table.find? (overlaps g rx tx)).map fun e => .idOverlapOther rx e.slot

theorem overlapError_eq_or (g : Config) (table : List RouteEntry) (rx tx : Word) :
    overlapError g table rx tx = (selfOverlap g rx tx).or (otherOverlap g table rx tx) := by
  unfold overlapError selfOverlap otherOverlap
  split
  · rfl
  · cases table.find? (overlaps g rx tx) <;> rfl

section
variable (s : State) (c : Slot)

/-- The checks of OPEN on its operands, the slot and the descriptor (R90, R34). -/
def slotChecks : List (Bool × Err) := (openChecks s c).take 6

/-- The checks of OPEN on the routing, up to that against registered entries (R90, R134). -/
def routeChecks : List (Bool × Err) := (openChecks s c).drop 6

theorem openChecks_firstError :
    firstError (openChecks s c) = (firstError (slotChecks s c)).or (firstError (routeChecks s c)) := by
  rw [← firstError_append, slotChecks, routeChecks, List.take_append_drop]

theorem slotChecks_firstError : firstError (slotChecks s c) =
    if fits8 s.arg0 && fits8 s.arg1 then s.openError c (op8 s.arg0) (op8 s.arg1) else some .reservedBits := by
  by_cases hfit : (fits8 s.arg0 && fits8 s.arg1) = true
  · have hnarrow : ¬(s.arg0.extractLsb' 8 24 ≠ 0#24 ∨ s.arg1.extractLsb' 8 24 ≠ 0#24) := by
      simpa [fits8_iff] using hfit
    rw [if_pos hfit]
    simp only [slotChecks, openChecks, List.take, firstError, decide_eq_true_eq, hnarrow, if_false, State.openError,
      Bool.not_eq_true', canIdsFit_eq_false]
  · have hwide : s.arg0.extractLsb' 8 24 ≠ 0#24 ∨ s.arg1.extractLsb' 8 24 ≠ 0#24 := by
      simpa [fits8_iff, imp_iff_not_or] using hfit
    rw [if_neg hfit]
    simp only [slotChecks, openChecks, List.take, firstError, decide_eq_true_eq, hwide, if_true]

theorem selfOverlap_eq_firstError (g : Config) (rx tx : Word) : selfOverlap g rx tx = firstError
    [(decide (tx.toNat ≤ rx.toNat ∧ rx.toNat ≤ tx.toNat + g.canMaxDetections + 1), .idOverlapSelf rx)] := by
  simp [selfOverlap, inTxRange, firstError]

/-- The checks on a peer as a list (R90). -/
theorem peerError_eq_firstError (p : Slot) (q : Byte) : s.peerError c p q = firstError
    [(decide (s.cfg.nConn ≤ p.toNat ∨ p = c ∨ s.conn? p = none ∨ (s.conn p).kind ≠ .can), .badConn),
      (decide ((s.descOf (peerMaster s p)).port ≠ q), .badDescriptor)] := by
  unfold State.peerError
  cases hp : s.conn? p with
  | none => simp [firstError]
  | some k =>
    have hmaster : peerMaster s p = s.masterOf p := rfl
    rw [State.conn_of_some hp, hmaster]
    simp [firstError]

theorem routeChecks_notCan (hk : (s.descAt (op8 s.arg0)).kind ≠ .can) : firstError (routeChecks s c) = none := by
  simp [routeChecks, openChecks, firstError, hk]

/-- With a peer, OPEN checks the peer and then the new connection's own IDs (R90, R134). -/
theorem routeChecks_slave (hk : (s.descAt (op8 s.arg0)).kind = .can) (hp : op8 s.arg1 ≠ noSlot) :
    firstError (routeChecks s c) = (s.peerError c (op8 s.arg1) (s.descAt (op8 s.arg0)).port).or
      (selfOverlap s.cfg (s.descAt (op8 s.arg0)).can.baseIdRx (s.descAt (op8 s.arg0)).can.baseIdTx) := by
  rw [peerError_eq_firstError, selfOverlap_eq_firstError, ← firstError_append]
  simp [routeChecks, openChecks, firstError, hk, hp]

/-- Without one, that the port is free and then the new connection's own IDs (R90, R134). -/
theorem routeChecks_master (hk : (s.descAt (op8 s.arg0)).kind = .can) (hp : op8 s.arg1 = noSlot) :
    firstError (routeChecks s c) =
      (if (s.domain (s.descAt (op8 s.arg0)).port).dmaster ≠ noSlot then some Err.portBusy else none).or
        (selfOverlap s.cfg (s.descAt (op8 s.arg0)).can.baseIdRx (s.descAt (op8 s.arg0)).can.baseIdTx) := by
  rw [selfOverlap_eq_firstError]
  by_cases hbusy : (s.domain (s.descAt (op8 s.arg0)).port).dmaster = noSlot
  · simp [routeChecks, openChecks, firstError, hk, hp, hbusy]
  · simp [routeChecks, openChecks, firstError, hk, hp, hbusy]

end

/-! ### Registered entries -/

/-- Two Tx ranges of one width meet where neither starts past the end of the other. -/
theorem ranges_meet (a b n : Nat) :
    (∃ id, (a ≤ id ∧ id ≤ a + n + 1) ∧ b ≤ id ∧ id ≤ b + n + 1) ↔ a ≤ b + n + 1 ∧ b ≤ a + n + 1 := by
  constructor
  · rintro ⟨id, ⟨h1, h2⟩, h3, h4⟩
    omega
  · rintro ⟨h1, h2⟩
    exact ⟨max a b, by omega, by omega⟩

theorem clash_iff_overlaps (g : Config) (rx tx : Word) (e : RouteEntry) :
    clash g rx tx e ↔ overlaps g rx tx e = true := by
  simp only [clash, inRange, ranges_meet, overlaps, inTxRange, Bool.or_eq_true, Bool.and_eq_true, decide_eq_true_eq,
    beq_iff_eq, or_assoc]

section
variable {g : Config} {rx tx : Word} {table : List RouteEntry}

theorem otherOverlap_none (h : ∀ y ∈ table, ¬clash g rx tx y) : otherOverlap g table rx tx = none := by
  have hfind : table.find? (overlaps g rx tx) = none :=
    List.find?_eq_none.2 fun y hy => (clash_iff_overlaps g rx tx y).not.1 (h y hy)
  rw [otherOverlap, hfind]; rfl

/-- The entry that is reported is the first of the table that clashes. -/
theorem otherOverlap_first {l r : List RouteEntry} {x : RouteEntry} (ht : table = l ++ x :: r)
    (hl : ∀ y ∈ l, ¬clash g rx tx y) (hx : clash g rx tx x) :
    otherOverlap g table rx tx = some (.idOverlapOther rx x.slot) := by
  have hfind : table.find? (overlaps g rx tx) = some x := by
    rw [ht]
    exact List.find?_eq_some_iff_append.2 ⟨(clash_iff_overlaps g rx tx x).1 hx, l, r, rfl,
      fun y hy => by simpa using (clash_iff_overlaps g rx tx y).not.1 (hl y hy)⟩
  rw [otherOverlap, hfind]; rfl

end

/-! ### The routing part of OPEN -/

section
variable (s : State) (c : Slot)

/-- The role and Master OPEN gives a CAN connection (R90). -/
def openedRole : Role × Slot :=
  if op8 s.arg1 = noSlot then (.master, noSlot) else (.slave, peerMaster s (op8 s.arg1))

/-- The slot OPEN registers a CAN connection with (R90, R135). -/
def openedMaster : Slot := if op8 s.arg1 = noSlot then c else peerMaster s (op8 s.arg1)

/-- The error of the routing part of OPEN of a CAN connection (R90, R134). -/
def routeError : Option Err :=
  let d := s.descAt (op8 s.arg0)
  (firstError (routeChecks s c)).or (otherOverlap s.cfg (s.domain d.port).table d.can.baseIdRx d.can.baseIdTx)

theorem openRole_can (hk : (s.descAt (op8 s.arg0)).kind = .can) :
    openRole c (s.descAt (op8 s.arg0)) (op8 s.arg1) s = match routeError s c with
      | some x => .error x s
      | none => .ok (openedRole s) (s.register (openedMaster s c) c (s.descAt (op8 s.arg0))) := by
  rw [openRole_run, if_neg (not_not.2 hk), routeError, openedRole, openedMaster]
  by_cases hp : op8 s.arg1 = noSlot
  · rw [if_neg (not_not.2 hp), if_pos hp, if_pos hp, routeChecks_master s c hk hp, Option.or_assoc,
      ← overlapError_eq_or]
    by_cases hbusy : (s.domain (s.descAt (op8 s.arg0)).port).dmaster ≠ noSlot
    · rw [if_pos hbusy, if_pos hbusy]; rfl
    · rw [if_neg hbusy, if_neg hbusy]; rfl
  · rw [if_pos hp, if_neg hp, if_neg hp, routeChecks_slave s c hk hp, Option.or_assoc, ← overlapError_eq_or]
    cases s.peerError c (op8 s.arg1) (s.descAt (op8 s.arg0)).port <;> rfl

/-! ### OPEN -/

theorem execOpen_eq (e : Bool) : execOpen c e s = match firstError (slotChecks s c) with
    | some x => .next (s.endErr x)
    | none => match openRole c (s.descAt (op8 s.arg0)) (op8 s.arg1) s with
      | .error x u => .next (u.endErr x)
      | .ok r u => .next ((u.setConn c (freshConn s e r.1 r.2)).endOk false) := by
  rw [execOpen_run, slotChecks_firstError]
  by_cases hfit : (fits8 s.arg0 && fits8 s.arg1) = true
  · rw [if_pos hfit, if_pos hfit]; rfl
  · rw [if_neg hfit, if_neg hfit]

end

section
variable {s : State} {c : Slot} {x : Err}

theorem execOpen_error (h : firstError (openChecks s c) = some x) (e : Bool) :
    execOpen c e s = .next (s.endErr x) := by
  rw [openChecks_firstError, Option.or_eq_some_iff] at h
  rcases h with hslot | ⟨hslot, hroute⟩
  · rw [execOpen_eq, hslot]
  · have hk : (s.descAt (op8 s.arg0)).kind = .can := by
      by_contra hk
      rw [routeChecks_notCan s c hk] at hroute
      cases hroute
    rw [execOpen_eq, hslot, openRole_can s c hk, routeError, hroute]
    rfl

/-- Past its checks, OPEN of a CAN connection ends by what the table of its port holds. -/
theorem execOpen_can (h : firstError (openChecks s c) = none) (hk : (s.descAt (op8 s.arg0)).kind = .can) (e : Bool) :
    execOpen c e s = match otherOverlap s.cfg (s.domain (s.descAt (op8 s.arg0)).port).table
        (s.descAt (op8 s.arg0)).can.baseIdRx (s.descAt (op8 s.arg0)).can.baseIdTx with
      | some x => .next (s.endErr x)
      | none => .next (((s.register (openedMaster s c) c (s.descAt (op8 s.arg0))).setConn c
          (freshConn s e (openedRole s).1 (openedRole s).2)).endOk false) := by
  rw [openChecks_firstError, Option.or_eq_none_iff] at h
  obtain ⟨hslot, hroute⟩ := h
  rw [execOpen_eq, hslot, openRole_can s c hk, routeError, hroute, Option.none_or]
  cases otherOverlap s.cfg (s.domain (s.descAt (op8 s.arg0)).port).table (s.descAt (op8 s.arg0)).can.baseIdRx
    (s.descAt (op8 s.arg0)).can.baseIdTx <;> rfl

theorem execOpen_notCan (h : firstError (openChecks s c) = none) (hk : (s.descAt (op8 s.arg0)).kind ≠ .can) (e : Bool) :
    execOpen c e s = .next ((s.setConn c (freshConn s e .none noSlot)).endOk false) := by
  rw [openChecks_firstError, Option.or_eq_none_iff] at h
  obtain ⟨hslot, -⟩ := h
  rw [execOpen_eq, hslot, openRole_run, if_pos hk]

end

/-- Settles O23: the checks up to the routing table come first, then the table decides, by its first entry that
clashes. -/
theorem openChecksThenConstructs : Obligations.OpenChecksThenConstructs := by
  unfold Obligations.OpenChecksThenConstructs
  intro s c e p d dom m
  refine ⟨decode_commandWord (by decide) rfl rfl, fun x hx => execOpen_error hx e,
    fun hpass hk l x r ht hl hx => ?clashes, fun hpass hk hfree => ?registered,
    fun hpass hk => execOpen_notCan hpass hk e⟩
  case clashes =>
    rw [exec, execOpen_can hpass hk, otherOverlap_first ht hl hx]
  case registered =>
    have hconn : freshConn s e (openedRole s).1 (openedRole s).2 =
        if p = 0xFF#8 then freshConn s e .master 0xFF#8 else freshConn s e .slave m := by
      by_cases hp : p = 0xFF#8
      · rw [openedRole, if_pos hp, if_pos hp]
      · rw [openedRole, if_neg hp, if_neg hp, show m = peerMaster s p from if_neg hp]
    rw [exec, execOpen_can hpass hk, otherOverlap_none hfree, hconn]
    rfl

end Sys2Proof.Machine
end

section
/-! PROOF. The loops of the register engine, each by what one turn of it does: the attempts within a CRC budget (R101), the
polls of the busy bit (R107), and the write sequence around a write (R109). -/

namespace Sys2Proof.Machine

/-! ### The attempts within a CRC budget -/

theorem sleep_run (ms : Nat) (s : State) : sleep ms s = .ok () (s.afterEvents [.sleep ms]) := rfl

section
variable {α : Type} {s t : State}

theorem crcLoop_ok {att : Cmd (Except Err α)} {a : α} (h : att s = .ok (.ok a) t) (spent : Err) (n : Nat) :
    crcLoop att spent (n + 1) s = .ok a t := by
  rw [crcLoop, cmd_bind_ok h]; rfl

theorem crcLoop_error {att : Cmd (Except Err α)} {x : Stop} (h : att s = .error x t) (spent : Err) (n : Nat) :
    crcLoop att spent (n + 1) s = .error x t := by
  rw [crcLoop, cmd_bind_error h]

theorem crcLoop_failed_last {att : Cmd (Except Err α)} {e : Err} (h : att s = .ok (.error e) t) (spent : Err) :
    crcLoop att spent 1 s = .error (.err e) t := by
  rw [crcLoop, cmd_bind_ok h]; rfl

/-- A failed attempt that is not the last is followed by 1 ms of sleep and the attempts left. -/
theorem crcLoop_failed {att : Cmd (Except Err α)} {e : Err} (h : att s = .ok (.error e) t) (spent : Err) (n : Nat) :
    crcLoop att spent (n + 2) s = crcLoop att spent (n + 1) (t.afterEvents [.sleep 1]) := by
  rw [crcLoop, cmd_bind_ok h]
  show (if n + 1 = 0 then raise e else _) t = _
  rw [if_neg (Nat.succ_ne_zero n), cmd_bind_ok (sleep_run _ t)]
  rfl

/-- After `k` failed attempts the loop is where attempt `k` starts. -/
theorem crcLoop_after_failures {att : Cmd (Except Err α)} {u v : Nat → State} {e : Nat → Err} {k : Nat}
    (hfail : ∀ j, j < k → att (u j) = .ok (.error (e j)) (v j) ∧ u (j + 1) = (v j).afterEvents [.sleep 1])
    (spent : Err) (n : Nat) : crcLoop att spent (n + 1 + k) (u 0) = crcLoop att spent (n + 1) (u k) := by
  induction k generalizing n with
  | zero => rfl
  | succ k ih =>
    obtain ⟨hatt, hnext⟩ := hfail k (Nat.lt_succ_self k)
    calc crcLoop att spent (n + 1 + (k + 1)) (u 0)
        = crcLoop att spent (n + 1 + 1 + k) (u 0) := by rw [show n + 1 + (k + 1) = n + 1 + 1 + k by omega]
      _ = crcLoop att spent (n + 2) (u k) := ih (fun j hj => hfail j (Nat.lt_succ_of_lt hj)) (n + 1)
      _ = crcLoop att spent (n + 1) (u (k + 1)) := by rw [crcLoop_failed hatt, hnext]

variable {att : Bool → Cmd (Except Err α)}

theorem withCrcRetry_eq_crcLoop {N : Nat} (hN : N ≠ 0) (spent : Err) :
    withCrcRetry N att spent = crcLoop (att true) spent N := if_neg hN

/-- A transaction whose first `k` attempts fail, within its budget, goes on with attempt `k`. -/
theorem withCrcRetry_after_failures {u v : Nat → State} {e : Nat → Err} {N k : Nat}
    (hfail : ∀ j, j < k → att true (u j) = .ok (.error (e j)) (v j) ∧ u (j + 1) = (v j).afterEvents [.sleep 1])
    (hk : k < N) (spent : Err) : withCrcRetry N att spent (u 0) = crcLoop (att true) spent (N - k) (u k) := by
  obtain ⟨n, rfl⟩ : ∃ n, N = n + 1 + k := ⟨N - 1 - k, by omega⟩
  rw [withCrcRetry_eq_crcLoop (by omega), crcLoop_after_failures hfail, Nat.add_sub_cancel]

/-- A first attempt that stops with an error stops the transaction; it is unchecked with budget 0 only. -/
theorem withCrcRetry_first_error {n : Nat} {x : Stop} (h : att (decide (n ≠ 0)) s = .error x t) (spent : Err) :
    withCrcRetry n att spent s = .error x t := by
  cases n with
  | zero => exact cmd_bind_error h
  | succ n =>
    have h : att true s = .error x t := by simpa using h
    rw [withCrcRetry_eq_crcLoop (Nat.succ_ne_zero n), crcLoop_error h]

end

/-- Settles O38: the loop by its failed attempts, then by how the next attempt ends. -/
theorem crcBudgetBoundsTheAttempts : Obligations.CrcBudgetBoundsTheAttempts := by
  unfold Obligations.CrcBudgetBoundsTheAttempts
  intro N k att spent u v e hfail
  refine ⟨fun d t hk h => ?passes, fun x t hk h => ?stops, fun t hk h => ?spent, fun d t h => withCrcRetry_first h spent,
    fun x t h => withCrcRetry_first_error h spent⟩
  case passes =>
    obtain ⟨n, hn⟩ : ∃ n, N - k = n + 1 := ⟨N - k - 1, by omega⟩
    rw [withCrcRetry_after_failures hfail hk, hn, crcLoop_ok h]
  case stops =>
    obtain ⟨n, hn⟩ : ∃ n, N - k = n + 1 := ⟨N - k - 1, by omega⟩
    rw [withCrcRetry_after_failures hfail hk, hn, crcLoop_error h]
  case spent =>
    rw [withCrcRetry_after_failures hfail (by omega), show N - k = 1 by omega, crcLoop_failed_last h]

/-! ### The polls of the busy bit -/

section
variable {s t : State} {c : Slot} {N : Nat}

theorem readyLoop_error {x : Stop} (h : getStatus c N s = .error x t) (n : Nat) : readyLoop c N n s = .error x t := by
  cases n <;> exact cmd_bind_error h

theorem readyLoop_ready {st : Byte} (h : getStatus c N s = .ok st t) (hst : st.getLsbD 0 = false) (n : Nat) :
    readyLoop c N n s = .ok true t := by
  cases n with
  | zero => rw [readyLoop, cmd_bind_ok h, statusBusyBit, hst]; rfl
  | succ n => rw [readyLoop, cmd_bind_ok h, statusBusyBit, hst]; rfl

theorem readyLoop_spent {st : Byte} (h : getStatus c N s = .ok st t) (hst : st.getLsbD 0 = true) :
    readyLoop c N 0 s = .ok false t := by
  rw [readyLoop, cmd_bind_ok h, statusBusyBit, hst]; rfl

/-- A poll that finds the bit set, with budget left, is followed by 10 ms of sleep and the polls left. -/
theorem readyLoop_busy {st : Byte} (h : getStatus c N s = .ok st t) (hst : st.getLsbD 0 = true) (n : Nat) :
    readyLoop c N (n + 1) s = readyLoop c N n (t.afterEvents [.sleep 10]) := by
  rw [readyLoop, cmd_bind_ok h, statusBusyBit, hst]; rfl

/-- After `k` polls that find the bit set the loop is where poll `k` starts. -/
theorem readyLoop_after_busy {u v : Nat → State} {st : Nat → Byte} {k : Nat}
    (hbusy : ∀ j, j < k → getStatus c N (u j) = .ok (st j) (v j) ∧ (st j).getLsbD 0 = true
      ∧ u (j + 1) = (v j).afterEvents [.sleep 10])
    (n : Nat) : readyLoop c N (n + k) (u 0) = readyLoop c N n (u k) := by
  induction k generalizing n with
  | zero => rfl
  | succ k ih =>
    obtain ⟨hread, hst, hnext⟩ := hbusy k (Nat.lt_succ_self k)
    calc readyLoop c N (n + (k + 1)) (u 0)
        = readyLoop c N (n + 1 + k) (u 0) := by rw [show n + (k + 1) = n + 1 + k by omega]
      _ = readyLoop c N (n + 1) (u k) := ih (fun j hj => hbusy j (Nat.lt_succ_of_lt hj)) (n + 1)
      _ = readyLoop c N n (u (k + 1)) := by rw [readyLoop_busy hread hst, hnext]

theorem readyPoll_after_busy {u v : Nat → State} {st : Nat → Byte} {T k : Nat} (hk : k ≤ (T + 9) / 10)
    (hbusy : ∀ j, j < k → getStatus c N (u j) = .ok (st j) (v j) ∧ (st j).getLsbD 0 = true
      ∧ u (j + 1) = (v j).afterEvents [.sleep 10]) :
    readyPoll c T N (u 0) = readyLoop c N ((T + 9) / 10 - k) (u k) := by
  rw [← readyLoop_after_busy hbusy, Nat.sub_add_cancel hk]; rfl

theorem readyGuard_zero (c : Slot) (N : Nat) : readyGuard c 0 N = pure () := rfl

variable {T : Nat}

theorem readyGuard_ready (hT : T ≠ 0) (h : readyPoll c T N s = .ok true t) : readyGuard c T N s = .ok () t := by
  rw [readyGuard, if_neg hT, cmd_bind_ok h]; rfl

theorem readyGuard_spent (hT : T ≠ 0) (h : readyPoll c T N s = .ok false t) :
    readyGuard c T N s = .error (.err .timeoutReady) t := by
  rw [readyGuard, if_neg hT, cmd_bind_ok h]; rfl

theorem readyGuard_error {x : Stop} (hT : T ≠ 0) (h : readyPoll c T N s = .error x t) :
    readyGuard c T N s = .error x t := by
  rw [readyGuard, if_neg hT, cmd_bind_error h]

/-- ISREADY on an admitted connection is its poll (R113). -/
theorem execIsready_eq (hs : s.admits c suitsRegister true) :
    execIsready c s = endCmd (readyPoll c s.arg0.toNat s.arg2.toNat) s :=
  endCmd_enter_none (commandError_of_admits hs)

end

/-- Settles O42: the polls by those that find the bit set, then by how the next one ends; the guard and ISREADY end as
they end. -/
theorem readyPollsReadTheBusyBit : Obligations.ReadyPollsReadTheBusyBit := by
  unfold Obligations.ReadyPollsReadTheBusyBit
  refine ⟨fun c => decode_commandWord (by decide) rfl rfl, ?_⟩
  rintro s c T N k u v st rfl hk hbusy ready spent
  have hpoll := readyPoll_after_busy hk hbusy
  have hready : ∀ t, ready t → readyPoll c T N (u 0) = .ok true t := by
    rintro t ⟨x, hread, hx⟩
    rw [hpoll, readyLoop_ready hread hx]
  have hspent : ∀ t, spent t → readyPoll c T N (u 0) = .ok false t := by
    rintro t ⟨x, hread, hx, hlast⟩
    rw [hpoll, ← hlast, Nat.sub_self, readyLoop_spent hread hx]
  have herror : ∀ e t, getStatus c N (u k) = .error e t → readyPoll c T N (u 0) = .error e t := fun e t hread => by
    rw [hpoll, readyLoop_error hread]
  refine ⟨fun hT => ?none, fun hT => ?guard, fun hs hT hN => ?isready⟩
  case none => subst hT; rfl
  case guard =>
    exact ⟨fun t h => readyGuard_ready hT (hready t h), fun t h => readyGuard_spent hT (hspent t h),
      fun e t h => readyGuard_error hT (herror e t h)⟩
  case isready =>
    subst hT hN
    rw [exec, execIsready_eq hs]
    exact ⟨fun t h => endCmd_ok (hready t h), fun t h => endCmd_ok (hspent t h), fun e t h => endCmd_err (herror _ t h)⟩

/-! ### The write sequence -/

theorem catchErr_ok {α : Type} {m : Cmd α} {s t : State} {a : α} (h : m s = .ok a t) (f : Err → Cmd α) :
    catchErr m f s = .ok a t := by
  rw [catchErr, h]

theorem catchErr_err {α : Type} {m : Cmd α} {s t : State} {e : Err} (h : m s = .error (.err e) t) (f : Err → Cmd α) :
    catchErr m f s = f e t := by
  rw [catchErr, h]

/-- The bytes a command writes go to `inbuf` first (R109). -/
def State.filled (s : State) (c : Slot) (data : Bytes) : State :=
  s.modConn c fun k => { k with inbuf := bufWrite k.inbuf 0 data }

section
variable {s t v w : State} {c : Slot} {a : Word} {data : Bytes} {N T : Nat}

theorem writeSeq_unset {x : Stop} (h : setWriteEnable c true N s = .error x t) : writeSeq c a data N T s = .error x t :=
  cmd_bind_error h

/-- Past the set of the write enable: the write, then the clear, which a failed write's error outlives. -/
theorem writeSeq_set (h : setWriteEnable c true N s = .ok () t) : writeSeq c a data N T s =
    (do catchErr (tWrite c t.cfg.opcRegmapWrite a data.length N T) (fun e => do
          setWriteEnable c false N
          raise e)
        setWriteEnable c false N : Cmd Unit) (t.filled c data) := by
  rw [writeSeq, cmd_bind_ok h]; rfl

theorem writeSeq_written (h : setWriteEnable c true N s = .ok () t)
    (hw : tWrite c t.cfg.opcRegmapWrite a data.length N T (t.filled c data) = .ok () v) :
    writeSeq c a data N T s = setWriteEnable c false N v := by
  rw [writeSeq_set h]
  exact cmd_bind_ok (catchErr_ok hw _)

/-- After an error of the write the clear runs too, and the sequence ends with the write's error. -/
theorem writeSeq_failed_cleared {e : Err} (h : setWriteEnable c true N s = .ok () t)
    (hw : tWrite c t.cfg.opcRegmapWrite a data.length N T (t.filled c data) = .error (.err e) v)
    (hclear : setWriteEnable c false N v = .ok () w) : writeSeq c a data N T s = .error (.err e) w := by
  rw [writeSeq_set h]
  exact cmd_bind_error ((catchErr_err hw _).trans (cmd_bind_ok hclear))

theorem writeSeq_failed_notCleared {e : Err} {x : Stop} (h : setWriteEnable c true N s = .ok () t)
    (hw : tWrite c t.cfg.opcRegmapWrite a data.length N T (t.filled c data) = .error (.err e) v)
    (hclear : setWriteEnable c false N v = .error x w) : writeSeq c a data N T s = .error x w := by
  rw [writeSeq_set h]
  exact cmd_bind_error ((catchErr_err hw _).trans (cmd_bind_error hclear))

/-- WRREG past its checks is the write sequence of the bytes of HBUF (R112). -/
theorem execWrreg_eq (hs : s.admits c suitsRegister true) (hacc : s.accessError c true s.arg0 s.arg1.toNat = none)
    (hlen : data.length = s.arg1.toNat) (hdata : ∀ i, i < data.length → mread s.hbuf i = data[i]?) :
    execWrreg c s = endCmd (do writeSeq c s.arg0 data s.arg2.toNat s.arg3.toNat; pure false) s := by
  have hread : hbufData s.arg1.toNat s = .ok data s :=
    hbufData_ok (mreadBytes_eq_some.2 ⟨hlen, fun i hi => by rw [Nat.zero_add]; exact hdata i (by omega)⟩)
  refine (endCmd_enter_none (commandError_of_admits hs)).trans ?_
  rw [endCmd, cmd_bind_ok (checkAccess_none hacc), cmd_bind_ok hread]
  rfl

end

/-- Settles O45: the sequence by how the set and the write end; WRREG is the sequence of HBUF's bytes. -/
theorem writeSequenceClearsTheWriteEnable : Obligations.WriteSequenceClearsTheWriteEnable := by
  unfold Obligations.WriteSequenceClearsTheWriteEnable
  refine ⟨fun s c a data N T => ⟨fun x t => writeSeq_unset, fun t hset => ?sequence⟩, ?wrreg⟩
  case sequence =>
    exact ⟨fun v => writeSeq_written hset, fun e v w => writeSeq_failed_cleared hset,
      fun e v x w => writeSeq_failed_notCleared hset⟩
  case wrreg =>
    intro s c data hs hacc hlen hdata sequence
    rw [exec, execWrreg_eq hs hacc hlen hdata]
    exact ⟨fun t h => endCmd_ok (cmd_bind_ok h), fun e t h => endCmd_err (cmd_bind_error h)⟩

end Sys2Proof.Machine
end

section
/-! PROOF. The parts of a transaction: the operation a transport runs, its frames, and the exchange of SPI. -/

namespace Sys2Proof.Machine

open Sys2Proof.Laws

/-! ### What frames are made from -/

/-- Two states in which a slot's connection sends the same frames to the same device. -/
structure SameLink (c : Slot) (s t : State) : Prop where
  cfg : t.cfg = s.cfg
  kind : (t.conn c).kind = (s.conn c).kind
  descOf : t.descOf c = s.descOf c

theorem SameLink.trans {c : Slot} {s t u : State} (h : SameLink c s t) (h' : SameLink c t u) : SameLink c s u :=
  ⟨h'.cfg.trans h.cfg, h'.kind.trans h.kind, h'.descOf.trans h.descOf⟩

theorem sameLink_afterEvents (c : Slot) (s : State) (es : List Event) : SameLink c s (s.afterEvents es) :=
  ⟨afterEvents_cfg s es, by rw [afterEvents_conn], afterEvents_descOf s es c⟩

/-- A transport operation leaves a used connection's fields of `ConnQuiet`, and an unused slot unused. -/
theorem quiet_conn {s t : State} (h : Quiet s t) (c : Slot) : ConnQuiet s.cfg (s.conn c) (t.conn c) := by
  cases hs : s.conn? c with
  | none =>
    have ht : t.conn? c = none := h.unused c.toNat hs
    rw [State.conn, State.conn, hs, ht]
    exact ConnQuiet.steps.refl _ _
  | some k =>
    obtain ⟨k', hk', hkk⟩ := h.used c.toNat k hs
    rw [State.conn_of_some hs, State.conn_of_some hk']
    exact hkk

theorem sameLink_of_quiet {s t : State} (h : Quiet s t) (c : Slot) : SameLink c s t :=
  ⟨h.cfg, (quiet_conn h c).kind, by rw [State.descOf, State.descOf, State.descAt, State.descAt, h.descs,
    (quiet_conn h c).desc]⟩

theorem spiReadEvents_congr {c : Slot} {s t : State} (h : SameLink c s t) (op : Byte) (a : Word) (n : Nat) (r : Bytes) :
    spiReadEvents t c op a n r = spiReadEvents s c op a n r := by
  rw [spiReadEvents, spiReadEvents, h.cfg, h.descOf]

theorem spiStatusEvents_congr {c : Slot} {s t : State} (h : SameLink c s t) (r : Bytes) :
    spiStatusEvents t c r = spiStatusEvents s c r := by
  rw [spiStatusEvents, spiStatusEvents, spiReadEvents_congr h, h.cfg]

theorem spiOpcodeEvent_congr {c : Slot} {s t : State} (h : SameLink c s t) (op : Opc) :
    spiOpcodeEvent t c op = spiOpcodeEvent s c op := by
  rw [spiOpcodeEvent, spiOpcodeEvent, h.descOf]

/-! ### The operation of each transport -/

section
variable {s : State} {c : Slot}

theorem tReadWith_spi (h : (s.conn c).kind = .spi) (guard : Cmd Unit) (op : Opc) (a : Word) (n N : Nat) :
    tReadWith guard c op a n N s = spiTRead guard (s.descOf c).port op a n N s := by
  rw [tReadWith, cmd_bind_ok (cmd_get s)]; simp only [h]

theorem tReadWith_modbus (h : (s.conn c).kind = .modbus) (guard : Cmd Unit) (op : Opc) (a : Word) (n N : Nat) :
    tReadWith guard c op a n N s = mbTRead guard (s.descOf c) op a n N s := by
  rw [tReadWith, cmd_bind_ok (cmd_get s)]; simp only [h]

theorem tOpcode_spi (h : (s.conn c).kind = .spi) (op : Opc) (N : Nat) :
    tOpcode c op N s = spiTOpcode (s.descOf c).port op s := by
  rw [tOpcode, cmd_bind_ok (cmd_get s)]; simp only [h]

theorem tOpcode_modbus (h : (s.conn c).kind = .modbus) (op : Opc) (N : Nat) :
    tOpcode c op N s = mbTOpcode (s.descOf c) op N s := by
  rw [tOpcode, cmd_bind_ok (cmd_get s)]; simp only [h]

theorem tOpcode_can (h : (s.conn c).kind = .can) (op : Opc) (N : Nat) : tOpcode c op N s = canuTOpcode c op s := by
  rw [tOpcode, cmd_bind_ok (cmd_get s)]; simp only [h]

theorem tWrite_spi (h : (s.conn c).kind = .spi) (op : Opc) (a : Word) (n N T : Nat) :
    tWrite c op a n N T s = spiTWrite (readyGuard c T N) c (s.descOf c).port op a n N s := by
  rw [tWrite, cmd_bind_ok (cmd_get s)]; simp only [h]

theorem tWrite_modbus (h : (s.conn c).kind = .modbus) (op : Opc) (a : Word) (n N T : Nat) :
    tWrite c op a n N T s = mbTWrite (readyGuard c T N) c (s.descOf c) op a n N s := by
  rw [tWrite, cmd_bind_ok (cmd_get s)]; simp only [h]

theorem tWrite_can (h : (s.conn c).kind = .can) (op : Opc) (a : Word) (n N T : Nat) :
    tWrite c op a n N T s = canuTWrite (readyGuard c T N) c op a n s := by
  rw [tWrite, cmd_bind_ok (cmd_get s)]; simp only [h]

end

/-! ### Port calls after some events -/

theorem goesThrough_iff_draw {s t : State} {i j : Nat} (h : t.draw j = s.draw i) : goesThrough t j ↔ goesThrough s i := by
  simp only [goesThrough, State.returns, h]

@[simp] theorem goesThrough_afterEvents (s : State) (es : List Event) (i : Nat) :
    goesThrough (s.afterEvents es) i ↔ goesThrough s (portEvents es + i) :=
  goesThrough_iff_draw (draw_afterEvents s es i)

@[simp] theorem spiGets_afterEvents (s : State) (es : List Event) (i n : Nat) (r : Bytes) :
    spiGets (s.afterEvents es) i n r ↔ spiGets s (portEvents es + i) n r := by
  simp only [spiGets, State.returns, draw_afterEvents, afterEvents_draws, Nat.add_assoc]

theorem spiGets_length {s : State} {i n : Nat} {r : Bytes} (h : spiGets s i n r) : r.length = n := by
  obtain ⟨d, -, rfl⟩ := h
  simp [spiAnswer]

theorem spiWrite_goes {s : State} (h : goesThrough s 0) (p : Byte) (bs : Bytes) (e : Bool) :
    spiWrite p bs e s = .ok () (s.afterEvents [.port (.spiWrite p bs e) .done]) := by
  obtain ⟨d, hd⟩ := h
  exact portCall_returns hd _ _ _

theorem spiRead_gets {s : State} {n : Nat} {r : Bytes} (h : spiGets s 0 n r) (p : Byte) (e : Bool) :
    spiRead p n e s = .ok r (s.afterEvents [.port (.spiRead p n e) (.bytes r)]) := by
  obtain ⟨d, hd, rfl⟩ := h
  exact portCall_returns hd _ _ _

/-! ### The read exchange of SPI -/

/-- The CRC check of an answer is that its last two bytes are the CRC, high byte first (R77, R86). -/
theorem crcCheck_iff_spiPasses {n : Nat} {r : Bytes} (hr : r.length = n + 2) (op : Byte) (a : Word) :
    crcCheck (spiHeader op a n) (r.take n) (spiReceivedCrc r n) = true ↔ spiPasses op a n r := by
  have htail : r.drop n = [byteAt r n, byteAt r (n + 1)] := by
    refine List.ext_getElem (by simp [hr]) fun i hi hi' => ?_
    have hi : i = 0 ∨ i = 1 := by simp at hi'; omega
    rcases hi with rfl | rfl <;> simp [byteAt, hr]
  have hcrc : crcCheck (spiHeader op a n) (r.take n) (spiReceivedCrc r n) = true ↔
      crc16 (spiHead op a n ++ r.take n) = word16 (byteAt r n) (byteAt r (n + 1)) := crcCheck_iff _ _ _
  have hword : ∀ v : BitVec 16, v = word16 (byteAt r n) (byteAt r (n + 1)) ↔
      [byteAt r n, byteAt r (n + 1)] = hiLo v := fun v => by
    constructor
    · rintro rfl; exact (be16_word16 _ _).symm
    · intro h
      obtain ⟨hhi, hlo⟩ : byteAt r n = byteOf v 1 ∧ byteAt r (n + 1) = byteOf v 0 := by
        simpa [hiLo, byteOf] using h
      rw [hhi, hlo, word16_be16]
  rw [hcrc, hword, spiPasses, htail]

section
variable {s : State} {n : Nat} {r : Bytes} {chk : Bool} {a : Word}

/-- The request and the answer of an SPI read are both on the trace before the check. -/
theorem spiReadAttempt_run (h0 : goesThrough s 0) (h1 : spiGets s 1 (n + 2) r) (c : Slot) (op : Byte) (a : Word)
    (chk : Bool) : spiReadAttempt (s.descOf c).port op a n chk s =
      .ok (if chk && !crcCheck (spiHeader op a n) (r.take n) (spiReceivedCrc r n) then .error (.crcSpi a (sizeWord n))
        else .ok (r.take n)) (s.afterEvents (spiReadEvents s c op a n r)) := by
  have hread := spiRead_gets (s := s.afterEvents [.port (.spiWrite (s.descOf c).port
    (spiReadRequest s.cfg.spiReadReqCrc op a n) false) .done]) ((spiGets_afterEvents s _ 0 _ r).2 h1) (s.descOf c).port true
  rw [spiReadAttempt, cmd_bind_ok (cmd_get s), cmd_bind_ok (spiWrite_goes h0 _ _ _), cmd_bind_ok hread]
  split <;> rfl

theorem spiReadAttempt_good (h0 : goesThrough s 0) (h1 : spiGets s 1 (n + 2) r) {op : Byte}
    (hpass : chk = true → spiPasses op a n r) (c : Slot) : spiReadAttempt (s.descOf c).port op a n chk s =
      .ok (.ok (r.take n)) (s.afterEvents (spiReadEvents s c op a n r)) := by
  have hcheck : ¬(chk && !crcCheck (spiHeader op a n) (r.take n) (spiReceivedCrc r n)) = true := by
    cases chk with
    | false => simp
    | true => simp [(crcCheck_iff_spiPasses (spiGets_length h1) op a).2 (hpass rfl)]
  rw [spiReadAttempt_run h0 h1, if_neg hcheck]

theorem spiReadAttempt_bad (h0 : goesThrough s 0) (h1 : spiGets s 1 (n + 2) r) {op : Byte}
    (hfail : ¬spiPasses op a n r) (c : Slot) : spiReadAttempt (s.descOf c).port op a n true s =
      .ok (.error (.crcSpi a (sizeWord n))) (s.afterEvents (spiReadEvents s c op a n r)) := by
  have hcheck : (true && !crcCheck (spiHeader op a n) (r.take n) (spiReceivedCrc r n)) = true := by
    simpa [← crcCheck_iff_spiPasses (spiGets_length h1) op a] using hfail
  rw [spiReadAttempt_run h0 h1, if_pos hcheck]

end

/-! ### RDREG -/

section
variable {s u : State} {c : Slot}

theorem execRdreg_ok {data : Bytes} (hs : s.admits c suitsRegister true)
    (hacc : s.accessError c false s.arg0 s.arg1.toNat = none)
    (h : tRead c s.cfg.opcRegmapRead s.arg0 s.arg1.toNat s.arg2.toNat s.arg3.toNat s = .ok data u) :
    execRdreg c s = .next ((delivered u c data).endOk false) := by
  refine (endCmd_enter_none (commandError_of_admits hs)).trans (endCmd_ok ?_)
  rw [cmd_bind_ok (checkAccess_none hacc), cmd_bind_ok h, cmd_bind_ok (cmd_modify _ u), ite_not]
  rfl

theorem execRdreg_error {e : Err} (hs : s.admits c suitsRegister true)
    (hacc : s.accessError c false s.arg0 s.arg1.toNat = none)
    (h : tRead c s.cfg.opcRegmapRead s.arg0 s.arg1.toNat s.arg2.toNat s.arg3.toNat s = .error (.err e) u) :
    execRdreg c s = .next (u.endErr e) := by
  refine (endCmd_enter_none (commandError_of_admits hs)).trans (endCmd_err ?_)
  rw [cmd_bind_ok (checkAccess_none hacc), cmd_bind_error h]

end

/-! ### RDREG on SPI -/

section
variable {s g : State} {c : Slot} {op : Opc} {a : Word} {n N T : Nat}

theorem tRead_spi_guardError {x : Stop} (hk : (s.conn c).kind = .spi) (h : readyGuard c T N s = .error x g) :
    tRead c op a n N T s = .error x g := by
  rw [tRead, tReadWith_spi hk, spiTRead, cmd_bind_error h]

theorem tRead_spi_guarded (hk : (s.conn c).kind = .spi) (h : readyGuard c T N s = .ok () g) : tRead c op a n N T s =
    withCrcRetry N (spiReadAttempt (s.descOf c).port op.wire a n) (.crcSpi a (sizeWord n)) g := by
  rw [tRead, tReadWith_spi hk, spiTRead, cmd_bind_ok h]

end

theorem flatMap_range_succ {α : Type} (f : Nat → List α) (k : Nat) :
    (List.range (k + 1)).flatMap f = (List.range k).flatMap f ++ f k := by
  rw [List.range_succ, List.flatMap_append, List.flatMap_singleton]

theorem portEvents_flatMap_range {f : Nat → List Event} {n : Nat} (h : ∀ j, portEvents (f j) = n) (k : Nat) :
    portEvents ((List.range k).flatMap f) = n * k := by
  induction k with
  | zero => rfl
  | succ k ih => rw [flatMap_range_succ, portEvents_append, ih, h, Nat.mul_succ]

/-- The events of `k` failed rounds of an SPI read, each followed by 1 ms of sleep. -/
def failedRounds (round : Nat → List Event) (k : Nat) : List Event :=
  (List.range k).flatMap fun j => round j ++ [.sleep 1]

theorem failedRounds_succ (round : Nat → List Event) (k : Nat) :
    failedRounds round (k + 1) = failedRounds round k ++ (round k ++ [.sleep 1]) := flatMap_range_succ _ k

theorem portEvents_failedRounds {round : Nat → List Event} (h : ∀ j, portEvents (round j) = 2) (k : Nat) :
    portEvents (failedRounds round k) = 2 * k :=
  portEvents_flatMap_range (fun j => by rw [portEvents_append, h]; rfl) k

/-- Settles O39: the guard comes first, then the rounds of `crcBudgetBoundsTheAttempts`, whose attempts are read exchanges. -/
theorem spiReadIsOneFrameAnAttempt : Obligations.SpiReadIsOneFrameAnAttempt := by
  unfold Obligations.SpiReadIsOneFrameAnAttempt
  intro s c n N op guard hs hk hacc
  refine ⟨fun e g hg => execRdreg_error hs hacc (tRead_spi_guardError hk hg), ?_⟩
  intro g k r passes round rounds hg hgets hfail
  have hlink : SameLink c s g := sameLink_of_quiet ((quiet_readyGuard c _ _).ok hg) c
  have hread := tRead_spi_guarded (op := s.cfg.opcRegmapRead) (a := s.arg0) (n := n) hk hg
  let u := fun j => g.afterEvents (failedRounds round j)
  have hcalls : ∀ j, j ≤ k → goesThrough (u j) 0 ∧ spiGets (u j) 1 (n + 2) (r j) := fun j hj => by
    simpa only [u, goesThrough_afterEvents, spiGets_afterEvents, portEvents_failedRounds (round := round) fun _ => rfl,
      Nat.add_zero] using hgets j hj
  have hevents : ∀ j, spiReadEvents (u j) c op s.arg0 n (r j) = round j := fun j =>
    spiReadEvents_congr (hlink.trans (sameLink_afterEvents c g _)) _ _ _ _
  have hport : ∀ j, ((u j).descOf c).port = (s.descOf c).port := fun j => by rw [afterEvents_descOf, hlink.descOf]
  have hgood : ∀ chk j, j ≤ k → (chk = true → passes j) → spiReadAttempt (s.descOf c).port op s.arg0 n chk (u j) =
      .ok (.ok ((r j).take n)) ((u j).afterEvents (round j)) := fun chk j hj hpass => by
    rw [← hport j, spiReadAttempt_good (hcalls j hj).1 (hcalls j hj).2 hpass, hevents]
  have hbad : ∀ j, j ≤ k → ¬passes j → spiReadAttempt (s.descOf c).port op s.arg0 n true (u j) =
      .ok (.error (.crcSpi s.arg0 s.arg1)) ((u j).afterEvents (round j)) := fun j hj hnot => by
    rw [← hport j, spiReadAttempt_bad (hcalls j hj).1 (hcalls j hj).2 hnot, hevents, sizeWord_toNat]
  obtain ⟨hpasses, -, hspent, hunchecked, -⟩ := crcBudgetBoundsTheAttempts N k
    (spiReadAttempt (s.descOf c).port op s.arg0 n) (.crcSpi s.arg0 (sizeWord n)) u
    (fun j => (u j).afterEvents (round j)) (fun _ => .crcSpi s.arg0 s.arg1)
    fun j hj => ⟨hbad j (Nat.le_of_lt hj) (hfail j hj), by
      simp only [u]; rw [failedRounds_succ, afterEvents_append, afterEvents_append]⟩
  have hrounds : g.afterEvents rounds = (u k).afterEvents (round k) := afterEvents_append _ _ _
  refine ⟨fun hlt hpass => ?passed, fun hlast hnot => ?spent, fun hN hk0 => ?unchecked⟩
  case passed =>
    refine execRdreg_ok hs hacc (hread.trans ?_)
    rw [hrounds]
    exact hpasses _ _ hlt (hgood true k le_rfl fun _ => hpass)
  case spent =>
    refine execRdreg_error hs hacc (hread.trans ?_)
    rw [hrounds]
    exact hspent _ hlast (hbad k le_rfl hnot)
  case unchecked =>
    subst hk0
    refine execRdreg_ok hs hacc (hread.trans ?_)
    rw [hN]
    exact hunchecked _ _ (hgood false 0 le_rfl fun h => nomatch h)

end Sys2Proof.Machine
end

section
/-! PROOF. The status read, the write-enable handshake and the opcode transfer: GETSR, ISREADY, SETWE and RESET. -/

namespace Sys2Proof.Machine

/-! ### The status read -/

section
variable {s u : State} {c : Slot} {N : Nat}

/-- The status read is the first byte of one `TRead` without ready timeout (R106). -/
theorem getStatus_eq (s : State) (c : Slot) (N : Nat) : getStatus c N s =
    (tRead c s.cfg.opcReadStatus 0#32 1 N 0 >>= fun r => pure (byteAt r 0) : Cmd Byte) s := rfl

theorem getStatus_ok {data : Bytes} (h : tRead c s.cfg.opcReadStatus 0#32 1 N 0 s = .ok data u) :
    getStatus c N s = .ok (data.getD 0 0#8) u := by
  rw [getStatus_eq, cmd_bind_ok h]; rfl

theorem getStatus_error {x : Stop} (h : tRead c s.cfg.opcReadStatus 0#32 1 N 0 s = .error x u) :
    getStatus c N s = .error x u := by
  rw [getStatus_eq, cmd_bind_error h]

/-- One read exchange of SPI whose first answer is good where it is checked. -/
theorem tRead_spi_first {n : Nat} {op : Opc} {a : Word} {r : Bytes} (hk : (s.conn c).kind = .spi)
    (h0 : goesThrough s 0) (h1 : spiGets s 1 (n + 2) r) (hpass : N ≠ 0 → spiPasses op.wire a n r) :
    tRead c op a n N 0 s = .ok (r.take n) (s.afterEvents (spiReadEvents s c op.wire a n r)) :=
  (tRead_spi_guarded hk (by rw [readyGuard_zero, cmd_pure])).trans
    (withCrcRetry_first (spiReadAttempt_good h0 h1 (fun hc => hpass (of_decide_eq_true hc)) c) _)

theorem getStatus_spi {r : Bytes} (hk : (s.conn c).kind = .spi) (h : statusRead s 0 N r) :
    getStatus c N s = .ok (r.getD 0 0#8) (s.afterEvents (spiStatusEvents s c r)) := by
  obtain ⟨h0, h1, hpass⟩ := h
  have hbyte : (r.take 1).getD 0 0#8 = r.getD 0 0#8 := byteAt_take r Nat.zero_lt_one
  rw [getStatus_ok (tRead_spi_first hk h0 h1 hpass), hbyte]; rfl

theorem statusRead_afterEvents {i : Nat} {r : Bytes} (es : List Event) :
    statusRead (s.afterEvents es) i N r ↔ statusRead s (portEvents es + i) N r := by
  simp only [statusRead, goesThrough_afterEvents, spiGets_afterEvents, afterEvents_cfg, Nat.add_assoc]

end

/-! ### The write-enable handshake -/

section
variable {s u v : State} {c : Slot} {e : Bool} {N : Nat}

theorem setWriteEnable_notSent {x : Stop}
    (h : tOpcode c (if e then s.cfg.opcWren else s.cfg.opcWrdis) N s = .error x u) :
    setWriteEnable c e N s = .error x u := by
  rw [setWriteEnable, cmd_bind_ok (cmd_get s), cmd_bind_error h]

theorem setWriteEnable_notRead {x : Stop}
    (h : tOpcode c (if e then s.cfg.opcWren else s.cfg.opcWrdis) N s = .ok () u) (hr : getStatus c N u = .error x v) :
    setWriteEnable c e N s = .error x v := by
  rw [setWriteEnable, cmd_bind_ok (cmd_get s), cmd_bind_ok h, cmd_bind_error hr]

theorem setWriteEnable_read {st : Byte}
    (h : tOpcode c (if e then s.cfg.opcWren else s.cfg.opcWrdis) N s = .ok () u) (hr : getStatus c N u = .ok st v) :
    setWriteEnable c e N s =
      if st.getLsbD s.cfg.statusWelBit = e then .ok () v else .error (.err .weVerify) v := by
  rw [setWriteEnable, cmd_bind_ok (cmd_get s), cmd_bind_ok h, cmd_bind_ok hr]
  split <;> rfl

/-- The opcode frame of SPI goes out in one call (R121). -/
theorem tOpcode_spi_goes (hk : (s.conn c).kind = .spi) (h : goesThrough s 0) (op : Opc) (N : Nat) :
    tOpcode c op N s = .ok () (s.afterEvents [spiOpcodeEvent s c op]) :=
  (tOpcode_spi hk op N).trans (spiWrite_goes h _ _ _)

/-- The events of a handshake on SPI (R108, R121). -/
def spiEnableEvents (s : State) (c : Slot) (e : Bool) (r : Bytes) : List Event :=
  spiOpcodeEvent s c (if e then s.cfg.opcWren else s.cfg.opcWrdis) :: spiStatusEvents s c r

theorem setWriteEnable_spi {r : Bytes} (hk : (s.conn c).kind = .spi) (h0 : goesThrough s 0) (hr : statusRead s 1 N r) :
    setWriteEnable c e N s = if (r.getD 0 0#8).getLsbD s.cfg.statusWelBit = e
      then .ok () (s.afterEvents (spiEnableEvents s c e r))
      else .error (.err .weVerify) (s.afterEvents (spiEnableEvents s c e r)) := by
  let op := if e then s.cfg.opcWren else s.cfg.opcWrdis
  let sent := s.afterEvents [spiOpcodeEvent s c op]
  have hlink : SameLink c s sent := sameLink_afterEvents c s _
  have hread : getStatus c N sent = .ok (r.getD 0 0#8) (s.afterEvents (spiEnableEvents s c e r)) := by
    rw [getStatus_spi (hlink.kind.trans hk) ((statusRead_afterEvents _).2 hr), spiStatusEvents_congr hlink,
      ← afterEvents_append]
    rfl
  rw [setWriteEnable_read (tOpcode_spi_goes hk h0 op N) hread]

end

/-! ### GETSR and SETWE -/

section
variable {s u : State} {c : Slot}

theorem setWidth_eq_zero_append (st : Byte) : st.setWidth 32 = 0#24 ++ st := by
  apply BitVec.eq_of_toNat_eq
  have h := st.isLt
  rw [toNat_append_eq_add, BitVec.toNat_setWidth, BitVec.toNat_ofNat]
  omega

theorem execGetsr_ok {st : Byte} (hs : s.admits c suitsRegister true) (h : getStatus c s.arg2.toNat s = .ok st u) :
    execGetsr c s = .next ({ u with result0 := 0#24 ++ st }.endOk false) := by
  rw [← setWidth_eq_zero_append]
  exact (endCmd_enter_none (commandError_of_admits hs)).trans (endCmd_ok (cmd_bind_ok h))

theorem execGetsr_error {x : Err} (hs : s.admits c suitsRegister true)
    (h : getStatus c s.arg2.toNat s = .error (.err x) u) : execGetsr c s = .next (u.endErr x) :=
  (endCmd_enter_none (commandError_of_admits hs)).trans (endCmd_err (cmd_bind_error h))

theorem execSetwe_ok {e : Bool} (hs : s.admits c suitsRegister true)
    (h : setWriteEnable c e s.arg2.toNat s = .ok () u) : execSetwe c e s = .next (u.endOk false) :=
  (endCmd_enter_none (commandError_of_admits hs)).trans (endCmd_ok (cmd_bind_ok h))

theorem execSetwe_error {e : Bool} {x : Err} (hs : s.admits c suitsRegister true)
    (h : setWriteEnable c e s.arg2.toNat s = .error (.err x) u) : execSetwe c e s = .next (u.endErr x) :=
  (endCmd_enter_none (commandError_of_admits hs)).trans (endCmd_err (cmd_bind_error h))

end

/-- Settles O43: each part by how the part before it ends; on SPI the parts are `getStatus_spi` and
`setWriteEnable_spi`. -/
theorem statusCommandsReadTheStatusByte : Obligations.StatusCommandsReadTheStatusByte := by
  unfold Obligations.StatusCommandsReadTheStatusByte
  refine ⟨fun s c N => ?status, fun s c e N => ?handshake, fun s c e hs => ?commands, fun s c e r hs hk => ?spi⟩
  case status => exact ⟨fun data u => getStatus_ok, fun x u => getStatus_error⟩
  case handshake =>
    exact ⟨fun x u => setWriteEnable_notSent,
      fun u hsent => ⟨fun x v => setWriteEnable_notRead hsent, fun st v => setWriteEnable_read hsent⟩⟩
  case commands =>
    exact ⟨decode_commandWord (by decide) rfl rfl, decode_commandWord (by decide) rfl rfl, fun st u => execGetsr_ok hs,
      fun x u => execGetsr_error hs, fun u => execSetwe_ok hs, fun x u => execSetwe_error hs⟩
  case spi =>
    refine ⟨fun hr => ⟨execGetsr_ok hs (getStatus_spi hk hr), fun hready => ?_, fun hbusy hT => ?_⟩,
      fun h0 hr => ⟨fun hwel => ?_, fun hwel => ?_⟩⟩
    · rw [exec, execIsready_eq hs]
      exact endCmd_ok (readyLoop_ready (getStatus_spi hk hr) hready _)
    · rw [exec, execIsready_eq hs, hT]
      exact endCmd_ok (readyLoop_spent (getStatus_spi hk hr) hbusy)
    · exact execSetwe_ok hs ((setWriteEnable_spi hk h0 hr).trans (if_pos hwel))
    · exact execSetwe_error hs ((setWriteEnable_spi hk h0 hr).trans (if_neg hwel))

/-! ### The opcode transfer -/

theorem driverErr_eq_driverError (f : Fate) : driverErr f = driverError f := by cases f <;> rfl

/-- A composite whose value is dropped ends as its part ends. -/
theorem discard_ends {α : Type} {m : Cmd α} {s : State} :
    (∀ a u, m s = .ok a u → (do let _ ← m; pure () : Cmd Unit) s = .ok () u)
    ∧ ∀ x u, m s = .error x u → (do let _ ← m; pure () : Cmd Unit) s = .error x u :=
  ⟨fun _ _ h => cmd_bind_ok h, fun _ _ h => cmd_bind_error h⟩

theorem canuOpcodeFrame_eq (op : Opc) : canuOpcodeFrame op = frameOf op.canu 0#8 [] := rfl

section
variable {s : State} {c : Slot} (op : Opc) (N : Nat)

/-- The opcode frame of SPI, whatever its call ends with (R121). -/
theorem tOpcode_spi_run {d : Draw} (hk : (s.conn c).kind = .spi) (hd : s.draw 0 = some d) :
    tOpcode c op N s = match driverErr d.fate with
      | none => .ok () (s.note (.spiWrite (s.descOf c).port (withCrc (spiHead op.wire 0#32 0)) true) d.shows)
      | some x =>
        .error (.err x) (s.note (.spiWrite (s.descOf c).port (withCrc (spiHead op.wire 0#32 0)) true) d.shows) := by
  rw [tOpcode_spi hk, driverErr_eq_driverError]
  exact doneCall_run hd _

theorem tOpcode_modbus_good {A : Bytes} (hk : (s.conn c).kind = .modbus)
    (h : mbGets s (s.descOf c).mb.devAddr 0x44#8 0 (N ≠ 0) A) : tOpcode c op N s =
      .ok () (s.afterEvents (mbEvents s c [(s.descOf c).mb.devAddr, 0x44#8, op.wire] 0 A)) :=
  (tOpcode_modbus hk op N).trans (cmd_bind_ok (mbExchange_good h _ _ _ _))

end

/-! ### RESET -/

section
variable {s u : State} {c : Slot} {b : Bool}

theorem execReset_ok (hs : s.admits c suitsRegister true) (h : resetOpcode c b s.arg0 s.arg2.toNat s = .ok () u) :
    execReset c b s = .next ((u.setBase c none).endOk false) :=
  (endCmd_enter_none (commandError_of_admits hs)).trans (endCmd_ok (cmd_bind_ok (catchErr_ok h _)))

theorem execReset_error {e : Err} (hs : s.admits c suitsRegister true)
    (h : resetOpcode c b s.arg0 s.arg2.toNat s = .error (.err e) u) :
    execReset c b s = .next ((u.setBase c none).endErr e) :=
  (endCmd_enter_none (commandError_of_admits hs)).trans (endCmd_err (cmd_bind_error (catchErr_err h _)))

theorem resetOpcode_illegal {t : Word} (h : ∀ x ∈ s.cfg.resetTypes, x.code ≠ t) (N : Nat) :
    resetOpcode c b t N s = .error (.err (.invalidResetType t)) s := by
  have hnone : resetTypeOf s.cfg t = none := List.find?_eq_none.2 fun x hx => by simpa using h x hx
  rw [resetOpcode, cmd_bind_ok (cmd_get s), hnone]; rfl

/-- A legal reset type is the first one of its code. -/
theorem resetOpcode_legal {t : Word} {l r : List ResetType} {x : ResetType} (hl : s.cfg.resetTypes = l ++ x :: r)
    (hfirst : ∀ y ∈ l, y.code ≠ t) (hx : x.code = t) (N : Nat) :
    resetOpcode c b t N s = tOpcode c (if b then x.boot else x.opc) N s := by
  have hsome : resetTypeOf s.cfg t = some x := by
    rw [resetTypeOf, hl]
    exact List.find?_eq_some_iff_append.2
      ⟨by simpa using hx, l, r, rfl, fun y hy => by simpa using hfirst y hy⟩
  rw [resetOpcode, cmd_bind_ok (cmd_get s), hsome]

end

theorem toNat_ne_zero_iff {n : Nat} (w : BitVec n) : w.toNat ≠ 0 ↔ w ≠ 0#n := by
  rw [ne_eq, ne_eq, ← BitVec.toNat_inj, BitVec.toNat_ofNat, Nat.zero_mod]

/-- Settles O44: the transfer by the transport, RESET by whether its type is legal. -/
theorem resetSendsTheOpcodeOfItsType : Obligations.ResetSendsTheOpcodeOfItsType := by
  unfold Obligations.ResetSendsTheOpcodeOfItsType
  refine ⟨?transfer, ?reset⟩
  case transfer =>
    intro s c op N send port dev body endsAs
    refine ⟨fun hk d hd => ⟨fun hf => ?_, fun e he => ?_⟩, fun hk => ?_, fun hk => ?_⟩
    · exact (tOpcode_spi_run op N hk hd).trans (by rw [hf]; rfl)
    · exact (tOpcode_spi_run op N hk hd).trans (by rw [he])
    · simp only [endsAs, send, tOpcode_modbus hk]
      exact discard_ends
    · simp only [endsAs, send, tOpcode_can hk, ← canuOpcodeFrame_eq]
      exact discard_ends
  case reset =>
    intro s c b hs fresh
    refine ⟨decode_commandWord (by decide) rfl rfl, fun hnone => execReset_error hs (resetOpcode_illegal hnone _), ?_⟩
    intro l x r hl hfirst hx op dev
    have hsend := resetOpcode_legal (b := b) (c := c) hl hfirst hx s.arg2.toNat
    refine ⟨fun u h => execReset_ok hs (hsend.trans h), fun e u h => execReset_error hs (hsend.trans h),
      fun hk h0 => execReset_ok hs (hsend.trans (tOpcode_spi_goes hk h0 _ _)), fun hk A hA => ?_⟩
    rw [← toNat_ne_zero_iff] at hA
    exact execReset_ok hs (hsend.trans (tOpcode_modbus_good _ _ hk hA))

end Sys2Proof.Machine
end

section
/-! PROOF. The pages of a transfer: a chunk operation over the chunks of R53, and the reads of Modbus, page by page. -/

namespace Sys2Proof.Machine

/-! ### A chunk operation over the chunks -/

section
variable {f : Nat → Nat → Cmd Bytes} {e : Nat → Nat × Nat} {x : Nat → State} {d : Nat → Bytes}

theorem overChunks_nil (f : Nat → Nat → Cmd Bytes) (s : State) : overChunks f [] s = .ok [] s := rfl

/-- After `k` chunks that went well the operation goes on with the rest, behind the data so far. -/
theorem overChunks_after {k : Nat} (h : ∀ j, j < k → f (e j).1 (e j).2 (x j) = .ok (d j) (x (j + 1)))
    (rest : List (Nat × Nat)) : overChunks f ((List.range k).map e ++ rest) (x 0) =
      (overChunks f rest >>= fun b => pure ((List.range k).flatMap d ++ b) : Cmd Bytes) (x k) := by
  induction k generalizing rest with
  | zero => exact congrFun (bind_pure (overChunks f rest)).symm (x 0)
  | succ k ih =>
    have hk := h k (Nat.lt_succ_self k)
    rw [List.range_succ, List.map_append, List.append_assoc, ih (fun j hj => h j (Nat.lt_succ_of_lt hj)),
      List.map_singleton, List.singleton_append, cmd_bind, overChunks, cmd_bind_ok hk, cmd_bind, cmd_bind]
    cases overChunks f rest (x (k + 1)) with
    | ok b t => simp [cmd_pure]
    | error y t => rfl

theorem overChunks_all {K : Nat} (h : ∀ j, j < K → f (e j).1 (e j).2 (x j) = .ok (d j) (x (j + 1))) :
    overChunks f ((List.range K).map e) (x 0) = .ok ((List.range K).flatMap d) (x K) := by
  have hall := overChunks_after h []
  rw [List.append_nil] at hall
  rw [hall, cmd_bind_ok (overChunks_nil f (x K)), List.append_nil, cmd_pure]

/-- The first chunk that stops stops the transfer. -/
theorem overChunks_stops {k K : Nat} (hk : k < K)
    (h : ∀ j, j < k → f (e j).1 (e j).2 (x j) = .ok (d j) (x (j + 1))) {y : Stop} {t : State}
    (hstop : f (e k).1 (e k).2 (x k) = .error y t) : overChunks f ((List.range K).map e) (x 0) = .error y t := by
  obtain ⟨rest, hrest⟩ : ∃ rest, (List.range K).map e = (List.range k).map e ++ e k :: rest := by
    obtain ⟨m, rfl⟩ : ∃ m, K = k + (m + 1) := ⟨K - k - 1, by omega⟩
    exact ⟨_, by rw [List.range_add, List.range_succ_eq_map]; simp; rfl⟩
  rw [hrest, overChunks_after h, cmd_bind_error]
  rw [overChunks, cmd_bind_error hstop]

theorem overChunks_single {off m : Nat} {s t : State} {b : Bytes} (h : f off m s = .ok b t) :
    overChunks f [(off, m)] s = .ok b t := by
  rw [overChunks, cmd_bind_ok h, cmd_bind_ok (overChunks_nil f t), List.append_nil, cmd_pure]

end

/-- The chunks of R53 by their lengths. -/
theorem chunks_eq_map {p : Nat} (hp : 0 < p) (n : Nat) :
    chunks p n = (List.range ((n + p - 1) / p)).map fun j => (j * p, min p (n - j * p)) := by
  rw [chunksCoverTheTransfer p n hp]
  refine List.map_congr_left fun j _ => ?_
  have hlen : min ((j + 1) * p) n - j * p = min p (n - j * p) := by rw [Nat.succ_mul]; omega
  rw [hlen]

theorem chunks_single {p n : Nat} (hn : 0 < n) (hp : n ≤ p) : chunks p n = [(0, n)] := by
  have hcount : (n + p - 1) / p = 1 := by
    rw [chunkCount_succ (by omega) hn, Nat.div_eq_of_lt (by omega)]
  rw [chunks_eq_map (by omega), hcount]
  simp [Nat.min_eq_right hp]

theorem chunkAddr_zero (a : Word) : chunkAddr a 0 = a := by simp [chunkAddr]

/-! ### The pages of a Modbus read -/

section
variable {s t g : State} {c : Slot} {T N m off : Nat} {op : Opc} {a : Word} {A : Bytes}

/-- One page of a Modbus read: the ready guard, then the exchange of the page's frame (R123). -/
def mbReadPage (guard : Cmd Unit) (d : Desc) (op : Opc) (a : Word) (budget off m : Nat) : Cmd Bytes := do
  guard
  mbExchange d.port d.mb.devAddr fcRead
    (mbFrame (mbReadBody d.mb.devAddr op.wire (chunkAddr a off) (BitVec.ofNat 16 m))) m budget (chunkAddr a off) m

theorem mbTRead_eq (guard : Cmd Unit) (d : Desc) (op : Opc) (a : Word) (n budget : Nat) :
    mbTRead guard d op a n budget = overChunks (mbReadPage guard d op a budget) (chunks d.mb.page.toNat n) := rfl

/-- The body of the request for a page (R78). -/
theorem mbReadBody_eq (dev op : Byte) (a : Word) (n : BitVec 16) :
    mbReadBody dev op a n = [dev, 0x42#8, op] ++ bigEndian a ++ hiLo n := rfl

theorem mbReadPage_good {guard : Cmd Unit} (hg : guard t = .ok () g)
    (h : mbGets g (s.descOf c).mb.devAddr 0x42#8 m (N ≠ 0) A) :
    mbReadPage guard (s.descOf c) op a N off m t = .ok ((A.drop 2).take m) (g.afterEvents
      (mbEvents s c (mbReadBody (s.descOf c).mb.devAddr op.wire (chunkAddr a off) (BitVec.ofNat 16 m)) m A)) :=
  (cmd_bind_ok hg).trans (mbExchange_good h _ _ _ _)

theorem accessError_ne_zero {w : Bool} {n : Nat} (h : s.accessError c w a n = none) : 0 < n := by
  refine Nat.pos_of_ne_zero fun hn => ?_
  rw [hn, accessError_zero] at h
  cases h

end

/-- Settles O41: RDREG by its read, the read on Modbus page by page. -/
theorem registerReadsDeliverTheirPages : Obligations.RegisterReadsDeliverTheirPages := by
  unfold Obligations.RegisterReadsDeliverTheirPages
  refine ⟨fun s c hs hacc => ⟨fun data u => execRdreg_ok hs hacc, fun e u => execRdreg_error hs hacc⟩, ?pages, ?one⟩
  case pages =>
    rintro s c op a n N T k x g A P K len dev body hk hP rfl hkK hpages
    have hrun : tRead c op a n N T (x 0) =
        overChunks (mbReadPage (readyGuard c T N) ((x 0).descOf c) op a N) (chunks P n) (x 0) := by
      rw [tRead, tReadWith_modbus hk, mbTRead_eq]
    have hpage : ∀ j, j < k → mbReadPage (readyGuard c T N) ((x 0).descOf c) op a N (j * P) (len j) (x j) =
        .ok (((A j).drop 2).take (len j)) (x (j + 1)) := fun j hj => by
      obtain ⟨hguard, hgets, hnext⟩ := hpages j hj
      rw [mbReadPage_good hguard hgets, hnext]; rfl
    rw [hrun, chunks_eq_map hP]
    refine ⟨fun hall => ?_, fun hlt e u hguard => ?_⟩
    · subst hall
      exact overChunks_all hpage
    · exact overChunks_stops hlt hpage (cmd_bind_error hguard)
  case one =>
    intro s c A n dev body hs hk hacc hn hT hA
    have hpos : 0 < n := accessError_ne_zero hacc
    have hguard : readyGuard c s.arg3.toNat s.arg2.toNat s = .ok () s := by rw [hT]; rfl
    rw [← toNat_ne_zero_iff] at hA
    refine execRdreg_ok hs hacc ?_
    rw [tRead, tReadWith_modbus hk, mbTRead_eq, chunks_single hpos hn]
    refine overChunks_single ((mbReadPage_good hguard hA).trans ?_)
    rw [chunkAddr_zero, mbReadBody_eq]

end Sys2Proof.Machine
end

section
/-! PROOF. The writes: a page on SPI, the exchange on Modbus, a chunk on Universal-over-CAN, each over the chunks of the
data in `inbuf`; and the write sequence of one page on SPI. -/

namespace Sys2Proof.Machine

/-! ### The pieces of the data -/

/-- Piece `j` of data cut into pieces of at most `p` bytes (R53). -/
def piece (p : Nat) (data : Bytes) (j : Nat) : Bytes := (data.drop (p * j)).take p

theorem piece_length (p : Nat) (data : Bytes) (j : Nat) :
    (piece p data j).length = min p (data.length - j * p) := by
  rw [piece, List.length_take, List.length_drop, Nat.mul_comm]

theorem piece_length_le (p : Nat) (data : Bytes) (j : Nat) : (piece p data j).length ≤ p := List.length_take_le _ _

theorem chunks_eq_pieces {p : Nat} (hp : 0 < p) (data : Bytes) : chunks p data.length =
    (List.range ((data.length + p - 1) / p)).map fun j => (p * j, (piece p data j).length) := by
  rw [chunks_eq_map hp]
  exact List.map_congr_left fun j _ => by rw [piece_length, Nat.mul_comm]

/-- A transfer of pieces whose chunks answer nothing, after `k` of them that went well: it is over, or it ends with the
error of the next one. -/
theorem discardedPieces_end {f : Nat → Nat → Cmd Bytes} {p : Nat} (hp : 0 < p) {data : Bytes} {x : Nat → State} {k : Nat}
    (h : ∀ j, j < k → f (p * j) (piece p data j).length (x j) = .ok [] (x (j + 1))) :
    (k = (data.length + p - 1) / p →
      (do let _ ← overChunks f (chunks p data.length); pure () : Cmd Unit) (x 0) = .ok () (x k))
    ∧ ∀ y t, k < (data.length + p - 1) / p → f (p * k) (piece p data k).length (x k) = .error y t →
      (do let _ ← overChunks f (chunks p data.length); pure () : Cmd Unit) (x 0) = .error y t := by
  rw [chunks_eq_pieces hp]
  refine ⟨fun hk => ?_, fun y t hk hstop => discard_ends.2 _ _ (overChunks_stops hk h hstop)⟩
  subst hk
  exact discard_ends.1 _ _ (overChunks_all h)

/-- Along a chain of quiet steps every state is quiet from the first. -/
theorem quiet_chain {x : Nat → State} {k : Nat} (h : ∀ j, j < k → Quiet (x j) (x (j + 1))) :
    ∀ j, j ≤ k → Quiet (x 0) (x j)
  | 0, _ => Quiet.steps.refl _
  | j + 1, hj => Quiet.steps.trans (quiet_chain h j (Nat.le_of_lt hj)) (h j hj)

section
variable {s t : State} {c : Slot} {data : Bytes}

theorem inbufHolds_of_quiet (h : inbufHolds s c data) (hq : Quiet s t) : inbufHolds t c data := fun i hi => by
  rw [(quiet_conn hq c).inbuf]; exact h i hi

/-- What a piece of the data reads as in `inbuf` (R103). -/
theorem inbufData_piece (h : inbufHolds s c data) (p j : Nat) :
    inbufData c (p * j) (piece p data j).length s = .ok (piece p data j) s := by
  have hread : mreadBytes (s.conn c).inbuf.mem (p * j) (piece p data j).length = some (piece p data j) :=
    mreadBytes_eq_some.2 ⟨rfl, fun i hi => by
      rw [piece, List.length_take, List.length_drop] at hi
      rw [h (p * j + i) (by omega), piece, List.getElem?_take_of_lt (by omega), List.getElem?_drop]⟩
  rw [inbufData, hread]

theorem inbufData_all (h : inbufHolds s c data) : inbufData c 0 data.length s = .ok data s := by
  simpa [piece] using inbufData_piece h data.length 0

end

/-! ### A page on SPI -/

/-- One page of an SPI write: the ready guard, then the attempts of the page's frame (R119). -/
def spiWritePageRun (guard : Cmd Unit) (c : Slot) (p op : Byte) (a : Word) (budget off m : Nat) : Cmd Bytes := do
  guard
  let data ← inbufData c off m
  withCrcRetry budget (spiWriteAttempt guard p op (chunkAddr a off) data) (.crcSpi (chunkAddr a off) (sizeWord m))

theorem spiTWrite_eq (guard : Cmd Unit) (c : Slot) (p : Byte) (op : Opc) (a : Word) (n budget : Nat) :
    spiTWrite guard c p op a n budget = (do
      let _ ← overChunks (spiWritePageRun guard c p op.wire a budget) (chunks 512 n)
      pure ()) := rfl

/-- The event of a page's frame (R75, R119). -/
def spiFrameEvent (p op : Byte) (ca : Word) (data : Bytes) : Event :=
  .port (.spiWrite p (withCrc (spiHead op ca data.length ++ data)) true) .done

section
variable {guard : Cmd Unit} {t g h u : State} {p op : Byte} {ca : Word} {data : Bytes}

theorem spiWriteAttempt_sent (h0 : goesThrough g 0) (chk : Bool) : spiWriteAttempt guard p op ca data chk g =
    (guard >>= fun _ => txInfo p chk ca data.length) (g.afterEvents [spiFrameEvent p op ca data]) :=
  cmd_bind_ok (spiWrite_goes h0 _ _ _)

/-- What a page does up to its transaction info is quiet. -/
theorem quiet_page (hq : Keeps Quiet guard) (hg : guard t = .ok () g) (h0 : goesThrough g 0)
    (hg' : guard (g.afterEvents [spiFrameEvent p op ca data]) = .ok () h) {chk : Bool} {m : Nat} {r : Except Err Bytes}
    (hinfo : txInfo p chk ca m h = .ok r u) : Quiet t u :=
  Quiet.steps.trans (Quiet.steps.trans (hq.ok hg) ((quiet_spiWrite _ _ _).ok (spiWrite_goes h0 _ _ _)))
    (Quiet.steps.trans (hq.ok hg') ((quiet_txInfo _ _ _ _).ok hinfo))

variable {c : Slot} {a : Word} {N off m : Nat}

theorem spiWritePageRun_guarded (hg : guard t = .ok () g) (hd : inbufData c off m g = .ok data g) :
    spiWritePageRun guard c p op a N off m t =
      withCrcRetry N (spiWriteAttempt guard p op (chunkAddr a off) data) (.crcSpi (chunkAddr a off) (sizeWord m)) g := by
  rw [spiWritePageRun, cmd_bind_ok hg, cmd_bind_ok hd]

theorem spiWritePageRun_good (hg : guard t = .ok () g) (hd : inbufData c off m g = .ok data g) (h0 : goesThrough g 0)
    (hg' : guard (g.afterEvents [spiFrameEvent p op (chunkAddr a off) data]) = .ok () h)
    (hinfo : txInfo p (decide (N ≠ 0)) (chunkAddr a off) data.length h = .ok (.ok []) u) :
    spiWritePageRun guard c p op a N off m t = .ok [] u := by
  rw [spiWritePageRun_guarded hg hd]
  refine withCrcRetry_first ?_ _
  rw [spiWriteAttempt_sent h0, cmd_bind_ok hg', hinfo]

theorem spiWritePageRun_secondGuard {x : Stop} (hg : guard t = .ok () g) (hd : inbufData c off m g = .ok data g)
    (h0 : goesThrough g 0) (hg' : guard (g.afterEvents [spiFrameEvent p op (chunkAddr a off) data]) = .error x u) :
    spiWritePageRun guard c p op a N off m t = .error x u := by
  rw [spiWritePageRun_guarded hg hd]
  refine withCrcRetry_first_error ?_ _
  rw [spiWriteAttempt_sent h0, cmd_bind_error hg']

end

/-! ### A chunk on Universal-over-CAN -/

/-- One chunk of a Universal-over-CAN write of the register opcode, the guards around it (R105, R131). -/
def canuWriteChunk (guard : Cmd Unit) (c : Slot) (op : Opc) (a : Word) (off m : Nat) : Cmd Bytes := do
  guard
  let s ← get
  baseCheckIf (op == s.cfg.opcRegmapWrite) c (chunkAddr a off)
  let data ← inbufData c off m
  let _ ← canuExchange c (canuWriteFrame op (chunkAddr a off) data)
  guard
  pure []

theorem canuTWrite_eq (guard : Cmd Unit) (c : Slot) (op : Opc) (a : Word) (n : Nat) :
    canuTWrite guard c op a n = (do
      let _ ← overChunks (canuWriteChunk guard c op a) (chunks 4 n)
      pure ()) := rfl

/-- The write frame of R81 has its data from byte 4 on. -/
theorem canuWriteFrame_eq {data : Bytes} (h : data.length ≤ 4) (op : Opc) (a : Word) : canuWriteFrame op a data =
    frameOf op.canu (BitVec.ofNat 8 data.length) ([a.extractLsb' 0 8, a.extractLsb' 8 8] ++ data) := by
  have hlow : byteOf (a.setWidth 16) 0 = a.extractLsb' 0 8 := by
    refine BitVec.eq_of_getLsbD_eq fun i hi => ?_
    simp [byteOf, hi]; omega
  have hhigh : byteOf (a.setWidth 16) 1 = a.extractLsb' 8 8 := by
    refine BitVec.eq_of_getLsbD_eq fun i hi => ?_
    simp [byteOf, hi]; omega
  rw [canuWriteFrame, le16, hlow, hhigh]
  match data, h with
  | [], _ | [_], _ | [_, _], _ | [_, _, _], _ | [_, _, _, _], _ => rfl

section
variable {guard : Cmd Unit} {t g h w u : State} {c : Slot} {op : Opc} {a : Word} {off m : Nat} {x : Stop}

/-- What a chunk does, its guards, its base check and its exchange, is quiet. -/
theorem quiet_chunk (hq : Keeps Quiet guard) (hg : guard t = .ok () g) {ca : Word} (hb : baseCheck c ca g = .ok () h)
    {f : Frame} {r : Bytes} (hx : canuExchange c f h = .ok r w) (hg' : guard w = .ok () u) : Quiet t u :=
  Quiet.steps.trans (Quiet.steps.trans (hq.ok hg) ((quiet_baseCheck _ _).ok hb))
    (Quiet.steps.trans ((quiet_canuExchange _ _).ok hx) (hq.ok hg'))

theorem canuWriteChunk_guarded (hg : guard t = .ok () g) (hop : g.cfg.opcRegmapWrite = op) :
    canuWriteChunk guard c op a off m t = (do
      baseCheck c (chunkAddr a off)
      let data ← inbufData c off m
      let _ ← canuExchange c (canuWriteFrame op (chunkAddr a off) data)
      guard
      pure [] : Cmd Bytes) g := by
  subst hop
  rw [canuWriteChunk, cmd_bind_ok hg, cmd_bind_ok (cmd_get g), beq_self_eq_true]
  rfl

theorem canuWriteChunk_baseError (hg : guard t = .ok () g) (hop : g.cfg.opcRegmapWrite = op)
    (hb : baseCheck c (chunkAddr a off) g = .error x u) : canuWriteChunk guard c op a off m t = .error x u := by
  rw [canuWriteChunk_guarded hg hop, cmd_bind_error hb]

variable {data : Bytes}

theorem canuWriteChunk_based (hg : guard t = .ok () g) (hop : g.cfg.opcRegmapWrite = op)
    (hb : baseCheck c (chunkAddr a off) g = .ok () h) (hd : inbufData c off m h = .ok data h) :
    canuWriteChunk guard c op a off m t = (do
      let _ ← canuExchange c (canuWriteFrame op (chunkAddr a off) data)
      guard
      pure [] : Cmd Bytes) h := by
  rw [canuWriteChunk_guarded hg hop, cmd_bind_ok hb, cmd_bind_ok hd]

end

end Sys2Proof.Machine
end

section
/-! PROOF. The writes of the three transports, chunk by chunk, and the write sequence of one page on SPI. -/

namespace Sys2Proof.Machine

/-! ### A connection whose record is changed -/

theorem conn_modConn_same {s : State} {c : Slot} (h : s.conn? c = some (s.conn c)) (f : Conn → Conn) :
    (s.modConn c f).conn c = f (s.conn c) :=
  State.conn_of_some (by rw [State.conn?_modConn, if_pos rfl, h]; rfl)

/-- A change that keeps the kind and the descriptor of a connection keeps its frames. -/
theorem sameLink_modConn {s : State} {c : Slot} (h : s.conn? c = some (s.conn c)) {f : Conn → Conn}
    (hkind : (f (s.conn c)).kind = (s.conn c).kind) (hdesc : (f (s.conn c)).desc = (s.conn c).desc) :
    SameLink c s (s.modConn c f) :=
  ⟨rfl, by rw [conn_modConn_same h, hkind], by rw [State.descOf, conn_modConn_same h, hdesc]; rfl⟩

/-- Bytes that fit into `inbuf` stand there after the fill (R109). -/
theorem inbufHolds_filled {s : State} {c : Slot} {data : Bytes} (h : s.conn? c = some (s.conn c))
    (hlen : data.length ≤ (s.conn c).inbuf.len) : inbufHolds (s.filled c data) c data := fun i hi => by
  rw [State.filled, conn_modConn_same h, bufWrite_read, if_pos (by omega), if_pos (by omega), Nat.sub_zero]

theorem inbufHolds_afterEvents {s : State} {c : Slot} {data : Bytes} (h : inbufHolds s c data) (es : List Event) :
    inbufHolds (s.afterEvents es) c data := fun i hi => by
  rw [afterEvents_conn]; exact h i hi

/-! ### The transaction info of a good write -/

theorem txInfoResult_zero (t : TxCodes) (chk : Bool) (ca : Word) (m : Nat) :
    txInfoResult t chk 0#8 ca m = pure (.ok []) := if_pos rfl

/-- The transaction-info read whose answer is code 0 with a CRC that is good where it is checked (R120). -/
theorem txInfo_good {s : State} {r : Bytes} {chk : Bool} (h0 : goesThrough s 0) (h1 : spiGets s 1 3 r)
    (hcode : r.getD 0 0#8 = 0#8)
    (hpass : chk = true → spiPasses s.cfg.opcRegmapRead.wire s.cfg.txinfoAddr 1 r) (c : Slot) (ca : Word) (m : Nat) :
    txInfo (s.descOf c).port chk ca m s = .ok (.ok [])
      (s.afterEvents (spiReadEvents s c s.cfg.opcRegmapRead.wire s.cfg.txinfoAddr 1 r)) := by
  have hread := spiRead_gets (n := txinfoSize + 2) (s := s.afterEvents [.port (.spiWrite (s.descOf c).port
    (spiReadRequest s.cfg.spiReadReqCrc s.cfg.opcRegmapRead.wire s.cfg.txinfoAddr txinfoSize) false) .done])
    ((spiGets_afterEvents s _ 0 _ r).2 h1) (s.descOf c).port true
  have hcheck : ¬(chk && !crcCheck (spiHeader s.cfg.opcRegmapRead.wire s.cfg.txinfoAddr txinfoSize)
      (r.take txinfoSize) (spiReceivedCrc r txinfoSize)) = true := by
    cases chk with
    | false => simp
    | true => simp [txinfoSize, (crcCheck_iff_spiPasses (spiGets_length h1) _ _).2 (hpass rfl)]
  have hbyte : byteAt r 0 = 0#8 := hcode
  rw [txInfo, cmd_bind_ok (cmd_get s), cmd_bind_ok (spiWrite_goes h0 _ _ _), cmd_bind_ok hread, if_neg hcheck, hbyte,
    txInfoResult_zero]
  rfl

/-! ### The write sequence of one page on SPI -/

section
variable {s : State} {c : Slot} {data r1 r2 r3 : Bytes} {N : Nat}

theorem spiEnableEvents_congr {t : State} (h : SameLink c s t) (e : Bool) (r : Bytes) :
    spiEnableEvents t c e r = spiEnableEvents s c e r := by
  rw [spiEnableEvents, spiEnableEvents, spiOpcodeEvent_congr h, spiStatusEvents_congr h, h.cfg]

/-- The events of a write of one page on SPI: the frame, then the transaction info (R119, R120). -/
def spiPageEvents (s : State) (c : Slot) (a : Word) (data r : Bytes) : List Event :=
  spiFrameEvent (s.descOf c).port s.cfg.opcRegmapWrite.wire a data ::
    spiReadEvents s c s.cfg.opcRegmapRead.wire s.cfg.txinfoAddr 1 r

theorem spiPageEvents_congr {t : State} (h : SameLink c s t) (a : Word) (data r : Bytes) :
    spiPageEvents t c a data r = spiPageEvents s c a data r := by
  rw [spiPageEvents, spiPageEvents, spiReadEvents_congr h, h.cfg, h.descOf]

theorem spiWriteEvents_eq (s : State) (c : Slot) (a : Word) (data r1 r2 r3 : Bytes) :
    spiWriteEvents s c a data r1 r2 r3 =
      spiEnableEvents s c true r1 ++ spiPageEvents s c a data r2 ++ spiEnableEvents s c false r3 := rfl

theorem spiWriteEvents_congr {t : State} (h : SameLink c s t) (a : Word) (data r1 r2 r3 : Bytes) :
    spiWriteEvents t c a data r1 r2 r3 = spiWriteEvents s c a data r1 r2 r3 := by
  simp only [spiWriteEvents_eq, spiEnableEvents_congr h, spiPageEvents_congr h]

/-- The write of one page on SPI without ready timeout, its first attempt good. -/
theorem tWrite_spi_page (hk : (s.conn c).kind = .spi) (hd : inbufHolds s c data) (hpos : 0 < data.length)
    (hpage : data.length ≤ 512) (h0 : goesThrough s 0) (h1 : goesThrough s 1) (h2 : spiGets s 2 3 r2)
    (hcode : r2.getD 0 0#8 = 0#8)
    (hpass : N ≠ 0 → spiPasses s.cfg.opcRegmapRead.wire s.cfg.txinfoAddr 1 r2) (a : Word) :
    tWrite c s.cfg.opcRegmapWrite a data.length N 0 s = .ok () (s.afterEvents (spiPageEvents s c a data r2)) := by
  let sent := s.afterEvents [spiFrameEvent (s.descOf c).port s.cfg.opcRegmapWrite.wire a data]
  have hlink : SameLink c s sent := sameLink_afterEvents c s _
  have hsent1 : goesThrough sent 0 := (goesThrough_afterEvents s _ 0).2 h1
  have hsent2 : spiGets sent 1 3 r2 := (spiGets_afterEvents s _ 1 3 r2).2 h2
  have hinfo : txInfo (s.descOf c).port (decide (N ≠ 0)) a data.length sent =
      .ok (.ok []) (s.afterEvents (spiPageEvents s c a data r2)) := by
    rw [← hlink.descOf, txInfo_good hsent1 hsent2 hcode
      (fun hc => by rw [hlink.cfg]; exact hpass (of_decide_eq_true hc)), spiReadEvents_congr hlink, hlink.cfg,
      ← afterEvents_append]
    rfl
  rw [tWrite_spi hk, spiTWrite_eq, chunks_single hpos hpage]
  refine discard_ends.1 [] _ (overChunks_single ?_)
  have haddr : chunkAddr a 0 = a := chunkAddr_zero a
  exact spiWritePageRun_good (cmd_pure () s) (inbufData_all hd) h0 (by rw [haddr]; exact cmd_pure () sent)
    (by rw [haddr]; exact hinfo)

/-- The write sequence of one page on SPI with good first answers (R109, R119). -/
theorem writeSeq_spi_page (hused : s.conn? c = some (s.conn c)) (hk : (s.conn c).kind = .spi) (hpos : 0 < data.length)
    (hpage : data.length ≤ 512) (hlen : data.length ≤ (s.conn c).inbuf.len) (h : spiWriteGood s 0 N r1 r2 r3)
    (a : Word) : writeSeq c a data N 0 s =
      .ok () ((s.filled c data).afterEvents (spiWriteEvents s c a data r1 r2 r3)) := by
  obtain ⟨h0, hr1, hset, h3, h4, h5, hcode, hpass, h6, hr3, hclear⟩ := h
  let set := spiEnableEvents s c true r1
  let page := spiPageEvents s c a data r2
  let filled := (s.filled c data).afterEvents set
  let written := (s.filled c data).afterEvents (set ++ page)
  have hlinkFilled : SameLink c s filled :=
    (sameLink_modConn hused rfl rfl).trans (sameLink_afterEvents c _ _)
  have hlinkWritten : SameLink c s written :=
    (sameLink_modConn hused rfl rfl).trans (sameLink_afterEvents c _ _)
  have henable : setWriteEnable c true N s = .ok () (s.afterEvents set) :=
    (setWriteEnable_spi hk h0 hr1).trans (if_pos hset)
  have hfill : (s.afterEvents set).filled c data = filled := (afterEvents_modConn s set c _).symm
  have hwrite : tWrite c s.cfg.opcRegmapWrite a data.length N 0 filled = .ok () written := by
    rw [← hlinkFilled.cfg, tWrite_spi_page (hlinkFilled.kind.trans hk)
      (inbufHolds_afterEvents (inbufHolds_filled hused hlen) _) hpos hpage ((goesThrough_afterEvents _ _ 0).2 h3)
      ((goesThrough_afterEvents _ _ 1).2 h4) ((spiGets_afterEvents _ _ 2 _ _).2 h5) hcode
      (by rw [hlinkFilled.cfg]; exact hpass), spiPageEvents_congr hlinkFilled, ← afterEvents_append]
  have hdisable : setWriteEnable c false N written =
      .ok () (written.afterEvents (spiEnableEvents s c false r3)) := by
    rw [setWriteEnable_spi (hlinkWritten.kind.trans hk) ((goesThrough_afterEvents _ _ 0).2 h6)
      ((statusRead_afterEvents _).2 hr3), hlinkWritten.cfg, if_pos hclear, spiEnableEvents_congr hlinkWritten]
  rw [writeSeq_written henable (by rw [hfill, afterEvents_cfg]; exact hwrite), hdisable, ← afterEvents_append,
    spiWriteEvents_eq]

end

/-! ### The exchange of a Modbus write -/

theorem mbTWrite_good {s g : State} {c : Slot} {guard : Cmd Unit} {data A : Bytes} {N : Nat} (hg : guard s = .ok () g)
    (hd : inbufData c 0 data.length g = .ok data g)
    (hA : mbGets g (s.descOf c).mb.devAddr 0x43#8 0 (N ≠ 0) A) (op : Opc) (a : Word) :
    mbTWrite guard c (s.descOf c) op a data.length N s =
      guard (g.afterEvents (mbEvents s c (mbWriteBody (s.descOf c).mb.devAddr op.wire a data) 0 A)) := by
  rw [mbTWrite, cmd_bind_ok hg, cmd_bind_ok hd]
  exact cmd_bind_ok (mbExchange_good hA _ _ _ _)

/-- What a register write may take to `inbuf` (R52, R53). -/
theorem accessError_inbuf {s : State} {c : Slot} {a : Word} {n : Nat} (h : s.accessError c true a n = none) :
    n ≤ (s.conn c).inbuf.len := by
  by_contra hlt
  have hlarge : s.tooLarge (s.conn c) (s.descOf c) true n = true := tooLarge_iff.2 (.inl (.inr (.inl ⟨rfl, by omega⟩)))
  rw [accessError_tooLarge (Nat.pos_iff_ne_zero.1 (accessError_ne_zero h)) hlarge] at h
  cases h

/-- Settles O47: WRREG of one page on SPI is `writeSeq_spi_page`; the writes of the transports by the chunk that is next. -/
theorem writesSendTheirFrames : Obligations.WritesSendTheirFrames := by
  unfold Obligations.WritesSendTheirFrames
  refine ⟨?wrreg, ?writes⟩
  case wrreg =>
    intro s c data r1 r2 r3 hs hk hacc hpage hT hlen hdata hgood
    have hpos : 0 < data.length := by rw [hlen]; exact accessError_ne_zero hacc
    have hfits : data.length ≤ (s.conn c).inbuf.len := by rw [hlen]; exact accessError_inbuf hacc
    have hseq := writeSeq_spi_page (conn?_of_admits hs) hk hpos (by omega) hfits hgood s.arg0
    rw [exec, execWrreg_eq hs hacc hlen hdata, hT]
    exact endCmd_ok (cmd_bind_ok hseq)
  case writes =>
    intro s c a data N T hd op guard write port
    refine ⟨?spi, ?modbus, ?can⟩
    case spi =>
      rintro hk k x g h K page addr sent rfl hkK hpages
      have hguard : Keeps Quiet guard := quiet_readyGuard c T N
      have hchain := quiet_chain (x := x) (k := k) fun j hj => by
        obtain ⟨hg, h0, hg', hinfo⟩ := hpages j hj
        exact quiet_page hguard hg h0 hg' hinfo
      have hdata : ∀ j, j ≤ k → guard (x j) = .ok () (g j) →
          inbufData c (512 * j) (piece 512 data j).length (g j) = .ok (piece 512 data j) (g j) := fun j hj hg =>
        inbufData_piece (inbufHolds_of_quiet hd (Quiet.steps.trans (hchain j hj) (hguard.ok hg))) 512 j
      have hpage : ∀ j, j < k → spiWritePageRun guard c port op.wire a N (512 * j) (piece 512 data j).length (x j) =
          .ok [] (x (j + 1)) := fun j hj => by
        obtain ⟨hg, h0, hg', hinfo⟩ := hpages j hj
        exact spiWritePageRun_good hg (hdata j (Nat.le_of_lt hj) hg) h0 hg' hinfo
      obtain ⟨hend, hstop⟩ := discardedPieces_end (p := 512) (by decide) hpage
      simp only [write]
      rw [tWrite_spi hk, spiTWrite_eq]
      refine ⟨fun hall => hall ▸ hend hall, fun hlt => ⟨fun e u hg => ?_, fun hg h0 e u hg' => ?_⟩⟩
      · exact hstop e u hlt (cmd_bind_error hg)
      · exact hstop e u hlt (spiWritePageRun_secondGuard hg (hdata k le_rfl hg) h0 hg')
    case modbus =>
      intro hk g A dev body
      simp only [write]
      rw [tWrite_modbus hk]
      refine ⟨fun e u hg => cmd_bind_error hg, fun hg hA => ?_⟩
      have hdata := inbufData_all (inbufHolds_of_quiet hd ((quiet_readyGuard c T N).ok hg))
      exact mbTWrite_good hg hdata hA op a
    case can =>
      rintro hk k x g h w r K chunk addr F rfl hkK hchunks
      have hguard : Keeps Quiet guard := quiet_readyGuard c T N
      have hchain := quiet_chain (x := x) (k := k) fun j hj => by
        obtain ⟨hg, hb, hx, hg'⟩ := hchunks j hj
        exact quiet_chunk hguard hg hb hx hg'
      have hop : ∀ j, j ≤ k → guard (x j) = .ok () (g j) → (g j).cfg.opcRegmapWrite = op := fun j hj hg => by
        rw [(Quiet.steps.trans (hchain j hj) (hguard.ok hg)).cfg]
      have hbased : ∀ j, j ≤ k → guard (x j) = .ok () (g j) → baseCheck c (addr j) (g j) = .ok () (h j) →
          canuWriteChunk guard c op a (4 * j) (piece 4 data j).length (x j) =
            (do let _ ← canuExchange c (F j)
                guard
                pure [] : Cmd Bytes) (h j) := fun j hj hg hb => by
        have hq := Quiet.steps.trans (Quiet.steps.trans (hchain j hj) (hguard.ok hg)) ((quiet_baseCheck _ _).ok hb)
        rw [canuWriteChunk_based hg (hop j hj hg) hb (inbufData_piece (inbufHolds_of_quiet hd hq) 4 j),
          canuWriteFrame_eq (piece_length_le 4 data j)]
        rfl
      have hchunk : ∀ j, j < k → canuWriteChunk guard c op a (4 * j) (piece 4 data j).length (x j) =
          .ok [] (x (j + 1)) := fun j hj => by
        obtain ⟨hg, hb, hx, hg'⟩ := hchunks j hj
        rw [hbased j (Nat.le_of_lt hj) hg hb, cmd_bind_ok hx, cmd_bind_ok hg', cmd_pure]
      obtain ⟨hend, hstop⟩ := discardedPieces_end (p := 4) (by decide) hchunk
      simp only [write]
      rw [tWrite_can hk, canuTWrite_eq]
      refine ⟨fun hall => hall ▸ hend hall, fun hlt => ⟨fun e u hg => ?_, fun hg => ⟨fun e u hb => ?_,
        fun hb => ⟨fun e u hx => ?_, fun hx e u hg' => ?_⟩⟩⟩⟩
      · exact hstop e u hlt (cmd_bind_error hg)
      · exact hstop e u hlt (canuWriteChunk_baseError hg (hop k le_rfl hg) hb)
      · exact hstop e u hlt ((hbased k le_rfl hg hb).trans (cmd_bind_error hx))
      · exact hstop e u hlt ((hbased k le_rfl hg hb).trans ((cmd_bind_ok hx).trans (cmd_bind_error hg')))

end Sys2Proof.Machine
end

section
/-! PROOF. INIT: its four steps in order on any transport, and their events on SPI. -/

namespace Sys2Proof.Machine

/-! ### The four steps -/

theorem devtypeAddr_eq (g : Config) (x : Gen) :
    g.devtypeAddr x = if x = .old then g.devtypeAddrOld else g.devtypeAddrNew := by cases x <;> rfl

theorem initWrite_addr_eq (w : InitWrite) (x : Gen) : w.addr x = if x = .old then w.addrOld else w.addrNew := by
  cases x <;> rfl

/-- The device type a register value stands for goes to the connection and to RESULT0 (R117 step 1). -/
def State.typed (s : State) (c : Slot) (type : Word) : State :=
  { s.modConn c fun k => { k with devType := some type } with result0 := type }

/-- The writes of INIT, steps 2 to 4 (R117). -/
def initWrites (c : Slot) (x : Gen) (g : Config) : Cmd Bool := do
  initWrite c x (initWriteAt g 0) g.defaultCrcRetries
  initWrite c x (initWriteAt g 1) g.defaultCrcRetries
  initWrite c x (initWriteAt g 2) g.defaultCrcRetries
  pure false

section
variable {s u : State} {c : Slot} {a : Word}

theorem execInit_checked {e : Err} (hs : s.admits c suitsRegister true) (ha : s.cfg.devtypeAddr (s.descOf c).gen = a)
    (h : s.accessError c false a s.cfg.devtypeSize = some e) : execInit c s = .next (s.endErr e) := by
  subst ha
  exact endCmd_checkAccess_error hs h

theorem execInit_notRead {e : Err} (hs : s.admits c suitsRegister true) (ha : s.cfg.devtypeAddr (s.descOf c).gen = a)
    (hacc : s.accessError c false a s.cfg.devtypeSize = none)
    (h : tRead c s.cfg.opcRegmapRead a s.cfg.devtypeSize 0 0 s = .error (.err e) u) :
    execInit c s = .next (u.endErr e) := by
  subst ha
  refine (endCmd_enter_none (commandError_of_admits hs)).trans (endCmd_err ?_)
  rw [cmd_bind_ok (checkAccess_none hacc), cmd_bind_error h]

/-- Past the read of the device type INIT is its three writes. -/
theorem execInit_read {v : Bytes} (hs : s.admits c suitsRegister true) (ha : s.cfg.devtypeAddr (s.descOf c).gen = a)
    (hacc : s.accessError c false a s.cfg.devtypeSize = none)
    (h : tRead c s.cfg.opcRegmapRead a s.cfg.devtypeSize 0 0 s = .ok v u) : execInit c s =
      endCmd (initWrites c (s.descOf c).gen s.cfg) (u.typed c (BitVec.ofNat 32 (leValue v))) := by
  subst ha
  refine (endCmd_enter_none (commandError_of_admits hs)).trans ?_
  unfold endCmd
  rw [cmd_bind_ok (checkAccess_none hacc), cmd_bind_ok h]
  rfl

variable {x : Gen} {w : InitWrite} {N : Nat}

/-- An access of INIT that passes its checks ends as its write sequence ends. -/
theorem initWrite_sequence (ha : w.addr x = a) (hacc : s.accessError c true a w.data.length = none) :
    initWrite c x w N s = writeSeq c a w.data N 0 s := by
  subst ha
  exact cmd_bind_ok (checkAccess_none hacc)

theorem initWrite_checked {e : Err} (ha : w.addr x = a) (hacc : s.accessError c true a w.data.length = some e) :
    initWrite c x w N s = .error (.err e) s := by
  subst ha
  have hcheck : checkAccess c true (w.addr x) w.data.length s = .error (.err e) s := by
    rw [checkAccess, hacc, check_some]
  exact cmd_bind_error hcheck

end

section
variable {c : Slot} {g : Config} {x : Gen} {y : Nat → State}

theorem initWrites_ok (h : ∀ j, j < 3 → initWrite c x (initWriteAt g j) g.defaultCrcRetries (y j) = .ok () (y (j + 1))) :
    initWrites c x g (y 0) = .ok false (y 3) := by
  rw [initWrites, cmd_bind_ok (h 0 (by decide)), cmd_bind_ok (h 1 (by decide)), cmd_bind_ok (h 2 (by decide)), cmd_pure]

/-- The first write that stops stops INIT. -/
theorem initWrites_stops {k : Nat} {e : Stop} {u : State} (hk : k < 3)
    (h : ∀ j, j < k → initWrite c x (initWriteAt g j) g.defaultCrcRetries (y j) = .ok () (y (j + 1)))
    (hstop : initWrite c x (initWriteAt g k) g.defaultCrcRetries (y k) = .error e u) :
    initWrites c x g (y 0) = .error e u := by
  match k, hk with
  | 0, _ => rw [initWrites, cmd_bind_error hstop]
  | 1, _ => rw [initWrites, cmd_bind_ok (h 0 (by decide)), cmd_bind_error hstop]
  | 2, _ => rw [initWrites, cmd_bind_ok (h 0 (by decide)), cmd_bind_ok (h 1 (by decide)), cmd_bind_error hstop]

end

/-! ### The states between the writes on SPI -/

theorem tset_tset {α : Type} (t : Table α) (x : Nat) (a b : α) : tset (tset t x a) x b = tset t x b := by
  induction t with
  | nil => simp [tset]
  | cons e r ih =>
    obtain ⟨k, v⟩ := e
    rw [tset]
    split
    · simp [tset, *]
    · split
      · simp [tset, *]
      · simp [tset, *]

theorem modConn_modConn (s : State) (c : Slot) (f g : Conn → Conn) :
    (s.modConn c f).modConn c g = s.modConn c fun k => g (f k) := by
  simp only [State.modConn, tmodify]
  cases h : tget s.conns c.toNat with
  | none => simp [h]
  | some k => simp [tset_tset]

/-- The connection after the device type and `j` of the writes of INIT. -/
def initConn (w : Nat → InitWrite) (type : Word) (k : Conn) : Nat → Conn
  | 0 => { k with devType := some type }
  | j + 1 => { initConn w type k j with inbuf := bufWrite (initConn w type k j).inbuf 0 (w j).data }

theorem initConn_same (w : Nat → InitWrite) (type : Word) (k : Conn) (j : Nat) :
    (initConn w type k j).kind = k.kind ∧ (initConn w type k j).desc = k.desc
      ∧ (initConn w type k j).inbuf.len = k.inbuf.len := by
  induction j with
  | zero => exact ⟨rfl, rfl, rfl⟩
  | succ j ih => exact ih

/-- The events of the read and of `j` of the writes of INIT. -/
def initEvents (read : List Event) (events : Nat → List Event) (j : Nat) : List Event :=
  read ++ (List.range j).flatMap events

theorem initEvents_succ (read : List Event) (events : Nat → List Event) (j : Nat) :
    initEvents read events (j + 1) = initEvents read events j ++ events j := by
  rw [initEvents, flatMap_range_succ, ← List.append_assoc]; rfl

theorem initEvents_zero (read : List Event) (events : Nat → List Event) : initEvents read events 0 = read :=
  List.append_nil read

theorem portEvents_initEvents {read : List Event} {events : Nat → List Event} (hread : portEvents read = 2)
    (h : ∀ j, portEvents (events j) = 9) (j : Nat) : portEvents (initEvents read events j) = 2 + 9 * j := by
  rw [initEvents, portEvents_append, hread, portEvents_flatMap_range h]

/-- The state of INIT on SPI after `j` of its writes: the events, the device type in RESULT0, and the connection. -/
def initState (s : State) (c : Slot) (w : Nat → InitWrite) (type : Word) (es : List Event) (j : Nat) : State :=
  ({ s with result0 := type }.afterEvents es).modConn c fun k => initConn w type k j

section
variable {s : State} {c : Slot} {w : Nat → InitWrite} {type : Word} {es : List Event} {j : Nat}

theorem typed_afterEvents (s : State) (c : Slot) (w : Nat → InitWrite) (type : Word) (es : List Event) :
    (s.afterEvents es).typed c type = initState s c w type es 0 := by
  rw [initState, afterEvents_eq, afterEvents_eq]; rfl

theorem initState_written (s : State) (c : Slot) (w : Nat → InitWrite) (type : Word) (es fs : List Event) (j : Nat) :
    ((initState s c w type es j).filled c (w j).data).afterEvents fs = initState s c w type (es ++ fs) (j + 1) := by
  rw [State.filled, initState, modConn_modConn, afterEvents_modConn, ← afterEvents_append]; rfl

theorem initState_conn? (hused : s.conn? c = some (s.conn c)) (y : Slot) : (initState s c w type es j).conn? y =
    if y = c then some (initConn w type (s.conn c) j) else s.conn? y := by
  have hsame : ∀ y, ({ s with result0 := type }.afterEvents es).conn? y = s.conn? y := fun y => by
    rw [afterEvents_conn?]; rfl
  rw [initState, State.conn?_modConn, hsame, hsame, hused]
  exact if_congr eq_comm rfl rfl

theorem initState_conn (hused : s.conn? c = some (s.conn c)) :
    (initState s c w type es j).conn c = initConn w type (s.conn c) j :=
  State.conn_of_some ((initState_conn? hused c).trans (if_pos rfl))

theorem initState_used (hused : s.conn? c = some (s.conn c)) :
    (initState s c w type es j).conn? c = some ((initState s c w type es j).conn c) := by
  rw [initState_conn hused, initState_conn? hused, if_pos rfl]

theorem initState_link (hused : s.conn? c = some (s.conn c)) : SameLink c s (initState s c w type es j) := by
  obtain ⟨hkind, hdesc, -⟩ := initConn_same w type (s.conn c) j
  refine ⟨?_, by rw [initState_conn hused, hkind], ?_⟩
  · rw [initState, State.modConn_cfg, afterEvents_cfg]
  · rw [State.descOf, initState_conn hused, hdesc, State.descAt, initState, State.modConn_descs, afterEvents_descs]; rfl

theorem spiWriteGood_afterEvents {N : Nat} {r1 r2 r3 : Bytes} :
    spiWriteGood (s.afterEvents es) 0 N r1 r2 r3 ↔ spiWriteGood s (portEvents es) N r1 r2 r3 := by
  simp only [spiWriteGood, goesThrough_afterEvents, spiGets_afterEvents, statusRead_afterEvents, afterEvents_cfg,
    Nat.zero_add, Nat.add_zero]

/-- The answers still to come are those after the events so far. -/
theorem initState_spiWriteGood {N : Nat} {r1 r2 r3 : Bytes} (h : spiWriteGood s (portEvents es) N r1 r2 r3) :
    spiWriteGood (initState s c w type es j) 0 N r1 r2 r3 :=
  (spiWriteGood_afterEvents (s := { s with result0 := type })).2 h

theorem initState_rest (s : State) (c : Slot) (w : Nat → InitWrite) (type : Word) (es : List Event) (j : Nat) :
    initState s c w type es j =
      { s.afterEvents es with result0 := type, conns := (initState s c w type es j).conns } := by
  rw [initState, afterEvents_eq, afterEvents_eq]; rfl

end

/-- The checks of a register write read the configuration, the link, and the length of `inbuf`. -/
theorem accessError_write_congr {c : Slot} {s t : State} (h : SameLink c s t)
    (hlen : (t.conn c).inbuf.len = (s.conn c).inbuf.len) (a : Word) (n : Nat) :
    t.accessError c true a n = s.accessError c true a n := by
  simp only [State.accessError, State.tooLarge, h.cfg, h.kind, h.descOf, hlen, Bool.not_true, Bool.false_and]

/-- Settles O48: by how the steps end; on SPI each write is `writeSeq_spi_page`, from one `initState` to the next. -/
theorem initRunsItsFourSteps : Obligations.InitRunsItsFourSteps := by
  unfold Obligations.InitRunsItsFourSteps
  refine ⟨?any, ?spi⟩
  case any =>
    intro s c hs g w addr typeAddr typeCheck read check write fails
    have htype : s.cfg.devtypeAddr g = typeAddr := devtypeAddr_eq _ _
    have haddr : ∀ j, (w j).addr g = addr j := fun j => initWrite_addr_eq _ _
    refine ⟨decode_commandWord (by decide) rfl rfl, fun e => execInit_checked hs htype,
      fun hacc e u => execInit_notRead hs htype hacc, fun hacc v u hread => ?_⟩
    intro type k x hk hx hgood
    have hrun : exec (.init c) s = endCmd (initWrites c g s.cfg) (x 0) := by
      rw [hx]; exact execInit_read hs htype hacc hread
    have hwrites : ∀ j, j < k → initWrite c g (w j) s.cfg.defaultCrcRetries (x j) = .ok () (x (j + 1)) :=
      fun j hj => (initWrite_sequence (haddr j) (hgood j hj).1).trans (hgood j hj).2
    refine ⟨fun hall => ?_, fun hlt => ⟨fun e he => ?_, fun hcheck e t he => ?_⟩⟩
    · subst hall
      exact hrun.trans (endCmd_ok (initWrites_ok hwrites))
    · exact hrun.trans (endCmd_err (initWrites_stops hlt hwrites (initWrite_checked (haddr k) he)))
    · exact hrun.trans (endCmd_err (initWrites_stops hlt hwrites ((initWrite_sequence (haddr k) hcheck).trans he)))
  case spi =>
    intro s c r0 r hs hk g w addr typeAddr type fill events hacc h0 h1 hgood
    have hused := conn?_of_admits hs
    let first := spiReadEvents s c s.cfg.opcRegmapRead.wire typeAddr s.cfg.devtypeSize r0
    let es := initEvents first events
    let x := fun j => initState s c w type (es j) j
    have hread := tRead_spi_first (N := 0) (op := s.cfg.opcRegmapRead) (a := typeAddr) hk h0 h1 fun h => absurd rfl h
    have hstart : x 0 = (s.afterEvents first).typed c type := by
      simp only [x, es]
      rw [initEvents_zero, typed_afterEvents s c w]
    have hrun : exec (.init c) s = endCmd (initWrites c g s.cfg) (x 0) := by
      rw [hstart]; exact execInit_read hs (devtypeAddr_eq _ _) hacc hread
    have hwrites : ∀ j, j < 3 → initWrite c g (w j) s.cfg.defaultCrcRetries (x j) = .ok () (x (j + 1)) :=
      fun j hj => by
        obtain ⟨hcheck, hpage, hcalls⟩ := hgood j hj
        have hlink : SameLink c s (x j) := initState_link hused
        have hlen : ((x j).conn c).inbuf.len = (s.conn c).inbuf.len := by
          rw [initState_conn hused]; exact (initConn_same w type (s.conn c) j).2.2
        have hanswers : spiWriteGood (x j) 0 s.cfg.defaultCrcRetries (r j 0) (r j 1) (r j 2) :=
          initState_spiWriteGood (by rw [portEvents_initEvents rfl fun _ => rfl]; exact hcalls)
        rw [initWrite_sequence (initWrite_addr_eq _ _) ((accessError_write_congr hlink hlen _ _).trans hcheck),
          writeSeq_spi_page (initState_used hused) (hlink.kind.trans hk) (accessError_ne_zero hcheck) hpage
            (by rw [hlen]; exact accessError_inbuf hcheck) hanswers,
          spiWriteEvents_congr hlink, initState_written, ← initEvents_succ]
    have hes : es 3 = first ++ events 0 ++ events 1 ++ events 2 := by
      simp only [es, initEvents_succ, initEvents_zero]
    refine ⟨x 3, hrun.trans (endCmd_ok (initWrites_ok hwrites)), ?_, initState_conn? hused⟩
    rw [← hes]
    exact initState_rest _ _ _ _ _ _

end Sys2Proof.Machine
end

section
/-! PROOF. One attempt of a Modbus exchange, by how its two port calls end and what the check of an answer finds; and
the transaction-info read of SPI, by its CRC check and its code. -/

namespace Sys2Proof.Machine

open Sys2Proof.Laws

/-! ### Port calls that fail -/

/-- A port call whose driver fails ends with the driver's error, the failure on the trace (R39). -/
theorem portCall_fails {α : Type} {s : State} {d : Draw} {e : Err} (h : s.draw 0 = some d)
    (he : driverErr d.fate = some e) (call : PortCall) (ans : Draw → PortAnswer) (val : Draw → α) :
    portCall call ans val s = .error (.err e) (s.note call d.shows) := by
  rw [portCall_run h, Draw.shows]
  cases hf : d.fate with
  | returns => rw [hf] at he; cases he
  | notConnected => rw [hf] at he; cases he; rfl
  | timeout f => rw [hf] at he; cases he; rfl

section
variable {s : State} {d0 d1 : Draw} {e : Err}

theorem mbRound_notSent (h0 : s.draw 0 = some d0) (he : driverErr d0.fate = some e) (p : Byte) (q : Bytes) (l : Nat) :
    mbRound p q l s = .error (.err e) (s.note (.mbSend p q) d0.shows) := by
  rw [mbRound]
  exact cmd_bind_error (portCall_fails h0 he _ _ _)

theorem mbRound_notReceived (h0 : s.returns 0 d0) (h1 : s.draw 1 = some d1) (he : driverErr d1.fate = some e) (p : Byte)
    (q : Bytes) (l : Nat) :
    mbRound p q l s = .error (.err e) ((s.note (.mbSend p q) d0.shows).note (.mbRecv p l) d1.shows) := by
  have hsend : mbSend p q s = .ok () (s.note (.mbSend p q) d0.shows) := by
    rw [Draw.shows, h0.2]; exact portCall_returns h0 _ _ _
  rw [mbRound, cmd_bind_ok hsend]
  exact portCall_fails (by rw [draw_note]; exact h1) he _ _ _

end

/-! ### The check of a Modbus answer -/

section
variable {dev fc : Byte} {len : Nat} {chk : Bool} {a : Bytes}

/-- The received CRC of an answer is a value exactly where its last two bytes are that value, low byte first (R79). -/
theorem mbReceivedCrc_eq_iff {n : Nat} (hlen : a.length = n + 4) (v : BitVec 16) :
    mbReceivedCrc a (n + 4) = v ↔ a.drop (n + 2) = loHi v := by
  refine ⟨?_, mbReceivedCrc_of_drop⟩
  rintro rfl
  have htail : a.drop (n + 2) = [byteAt a (n + 2), byteAt a (n + 3)] := by
    refine List.ext_getElem (by simp [hlen]) fun i hi hi' => ?_
    have hi : i = 0 ∨ i = 1 := by simp at hi'; omega
    rcases hi with rfl | rfl <;> simp [byteAt, hlen]
  have hbytes : be16 (mbReceivedCrc a (n + 4)) = [byteAt a (n + 3), byteAt a (n + 2)] := be16_word16 _ _
  obtain ⟨hhigh, hlow⟩ : byteOf (mbReceivedCrc a (n + 4)) 1 = byteAt a (n + 3)
      ∧ byteOf (mbReceivedCrc a (n + 4)) 0 = byteAt a (n + 2) := by simpa [be16] using hbytes
  rw [htail, ← hhigh, ← hlow]
  rfl

/-- Whether the check of an answer of the right length finds a bad CRC. -/
theorem mbCrcBad_iff (hlen : a.length = len + 4) :
    (chk && mbReceivedCrc a (len + 4) != crc16 (a.take (len + 2))) = true ↔
      chk = true ∧ a.drop (len + 2) ≠ loHi (crc16 (a.take (len + 2))) := by
  rw [Bool.and_eq_true, bne_iff_ne, ne_eq, mbReceivedCrc_eq_iff hlen]

variable (ca : Word) (m : Nat) (s : State)

theorem mbCheckAnswer_length (hlen : a.length ≠ len + 4) : mbCheckAnswer dev fc len ca m chk a s =
    if chk then .ok (.error (.crcModbus ca (sizeWord m))) s
    else .error (.err (.unexpectedAnswer ca (sizeWord m))) s := by
  rw [mbCheckAnswer, if_pos hlen]
  cases chk <;> rfl

theorem mbCheckAnswer_badCrc (hlen : a.length = len + 4)
    (hbad : chk = true ∧ a.drop (len + 2) ≠ loHi (crc16 (a.take (len + 2)))) :
    mbCheckAnswer dev fc len ca m chk a s = .ok (.error (.crcModbus ca (sizeWord m))) s := by
  rw [mbCheckAnswer, if_neg (not_not.2 hlen), if_pos ((mbCrcBad_iff hlen).2 hbad)]
  rfl

theorem mbCheckAnswer_header (hlen : a.length = len + 4)
    (hcrc : ¬(chk = true ∧ a.drop (len + 2) ≠ loHi (crc16 (a.take (len + 2))))) (hhead : a.take 2 ≠ [dev, fc]) :
    mbCheckAnswer dev fc len ca m chk a s = .error (.err (.unexpectedAnswer ca (sizeWord m))) s := by
  have hbytes : a.take 2 = [byteAt a 0, byteAt a 1] := by
    match a, hlen with
    | x :: y :: _, _ => rfl
  have hwrong : byteAt a 0 ≠ dev ∨ byteAt a 1 ≠ fc := by
    by_contra h
    obtain ⟨hdev, hfc⟩ : byteAt a 0 = dev ∧ byteAt a 1 = fc := by simpa [not_or] using h
    exact hhead (by rw [hbytes, hdev, hfc])
  rw [mbCheckAnswer, if_neg (not_not.2 hlen), if_neg ((mbCrcBad_iff hlen).not.2 hcrc), if_pos hwrong]
  rfl

end

/-! ### The attempt -/

theorem attempt_err {α : Type} {m : Cmd α} {s t : State} {e : Err} (h : m s = .error (.err e) t) :
    attempt m s = .ok (.error e) t := by
  rw [attempt, h]

section
variable {s t : State} {p dev fc : Byte} {q : Bytes} {len : Nat}

/-- A driver error is a failed attempt while the CRC is checked (R122). -/
theorem mbAttempt_driver {e : Err} (h : mbRound p q (len + 4) s = .error (.err e) t) (ca : Word) (m : Nat)
    (chk : Bool) : mbAttempt p dev fc q len ca m chk s = if chk then .ok (.error e) t else .error (.err e) t := by
  rw [mbAttempt, cmd_bind_ok (attempt_err h)]
  cases chk <;> rfl

theorem mbAttempt_answer {a : Bytes} (h : mbRound p q (len + 4) s = .ok a t) (ca : Word) (m : Nat) (chk : Bool) :
    mbAttempt p dev fc q len ca m chk s = mbCheckAnswer dev fc len ca m chk a t := by
  rw [mbAttempt, cmd_bind_ok (attempt_ok h)]

end

/-- Settles O40: the attempt by how its calls end, then by the first check of the answer that fails. -/
theorem modbusAttemptChecksItsAnswer : Obligations.ModbusAttemptChecksItsAnswer := by
  unfold Obligations.ModbusAttemptChecksItsAnswer
  intro s p dev fc q len m ca chk d0 d1 h0 h1 A n sent failed u attempt badCrc
  refine ⟨fun e he => ?send, fun e hf0 he => ?receive, fun hf0 hf1 => ?answer⟩
  case send => exact mbAttempt_driver (mbRound_notSent h0 he p q _) ca m chk
  case receive => exact mbAttempt_driver (mbRound_notReceived ⟨h0, hf0⟩ h1 he p q _) ca m chk
  case answer =>
    have hcheck : attempt = mbCheckAnswer dev fc len ca m chk A u :=
      mbAttempt_answer (mbRound_returns ⟨h0, hf0⟩ ⟨h1, hf1⟩ p q _) ca m chk
    rw [hcheck]
    refine ⟨fun hlen => mbCheckAnswer_length ca m u hlen,
      fun hlen hchk hbad => mbCheckAnswer_badCrc ca m u hlen ⟨hchk, hbad⟩,
      fun hlen hcrc hhead => mbCheckAnswer_header ca m u hlen hcrc hhead,
      fun hlen hcrc hhead => mbCheckAnswer_good hlen hhead (fun hchk => ?_) ca m u⟩
    exact not_not.1 fun hbad => hcrc ⟨hchk, hbad⟩

/-! ### The transaction info -/

/-- The transaction-info codes are distinct and none is 0 (R8, R120). -/
theorem config_wf_txCodes {g : Config} (h : g.wf = true) : (0#8 :: g.txCodes.all).Nodup := by
  simp only [Config.wf, Bool.and_eq_true, decide_eq_true_eq] at h
  tauto

/-- Whether the check of a transaction-info answer finds a bad CRC. -/
theorem txInfoCrcBad_iff {r : Bytes} {chk : Bool} (hr : r.length = 3) (op : Byte) (a : Word) :
    (chk && !crcCheck (spiHeader op a txinfoSize) (r.take txinfoSize) (spiReceivedCrc r txinfoSize)) = true ↔
      chk = true ∧ ¬spiPasses op a 1 r := by
  rw [Bool.and_eq_true, Bool.not_eq_true', ← Bool.not_eq_true, txinfoSize, crcCheck_iff_spiPasses hr]

section
variable {s : State} {p : Byte} {chk : Bool} {r : Bytes}

/-- The events of the transaction-info read (R120). -/
def txInfoEvents (s : State) (p : Byte) (r : Bytes) : List Event :=
  [.port (.spiWrite p (spiReadRequest s.cfg.spiReadReqCrc s.cfg.opcRegmapRead.wire s.cfg.txinfoAddr 1) false) .done,
    .port (.spiRead p 3 true) (.bytes r)]

/-- Past its read the transaction info is a failed attempt or the decoding of its code. -/
theorem txInfo_run (h0 : goesThrough s 0) (h1 : spiGets s 1 3 r) (p : Byte) (chk : Bool) (ca : Word) (m : Nat) :
    txInfo p chk ca m s =
      (if chk && !crcCheck (spiHeader s.cfg.opcRegmapRead.wire s.cfg.txinfoAddr txinfoSize) (r.take txinfoSize)
          (spiReceivedCrc r txinfoSize) then
        pure (.error (.crcSpi ca (sizeWord m)))
      else txInfoResult s.cfg.txCodes chk (byteAt r 0) ca m : Cmd (Except Err Bytes))
        (s.afterEvents (txInfoEvents s p r)) := by
  have hread := spiRead_gets (n := txinfoSize + 2) (s := s.afterEvents [.port (.spiWrite p
    (spiReadRequest s.cfg.spiReadReqCrc s.cfg.opcRegmapRead.wire s.cfg.txinfoAddr txinfoSize) false) .done])
    ((spiGets_afterEvents s _ 0 _ r).2 h1) p true
  rw [txInfo, cmd_bind_ok (cmd_get s), cmd_bind_ok (spiWrite_goes h0 _ _ _), cmd_bind_ok hread]
  rfl

theorem txInfo_badCrc (h0 : goesThrough s 0) (h1 : spiGets s 1 3 r)
    (hbad : chk = true ∧ ¬spiPasses s.cfg.opcRegmapRead.wire s.cfg.txinfoAddr 1 r) (p : Byte) (ca : Word) (m : Nat) :
    txInfo p chk ca m s = .ok (.error (.crcSpi ca (sizeWord m))) (s.afterEvents (txInfoEvents s p r)) := by
  rw [txInfo_run h0 h1, if_pos ((txInfoCrcBad_iff (spiGets_length h1) _ _).2 hbad)]
  rfl

theorem txInfo_decoded (h0 : goesThrough s 0) (h1 : spiGets s 1 3 r)
    (hgood : ¬(chk = true ∧ ¬spiPasses s.cfg.opcRegmapRead.wire s.cfg.txinfoAddr 1 r)) (p : Byte) (ca : Word)
    (m : Nat) : txInfo p chk ca m s =
      txInfoResult s.cfg.txCodes chk (r.getD 0 0#8) ca m (s.afterEvents (txInfoEvents s p r)) := by
  rw [txInfo_run h0 h1, if_neg ((txInfoCrcBad_iff (spiGets_length h1) _ _).not.2 hgood)]
  rfl

end

/-! ### The code of the transaction info -/

section
variable {t : TxCodes}

/-- A CRC-failed code is a failed attempt while the CRC is checked, else its ProtocolError (R120). -/
theorem txInfoResult_crcFailed (ht : (0#8 :: t.all).Nodup) (chk : Bool) (ca : Word) (m : Nat) :
    txInfoResult t chk t.crcFailed ca m =
      if chk then pure (.error (.crcSpi ca (sizeWord m))) else raise (.txCrcFailed ca (sizeWord m)) := by
  simp only [TxCodes.all, List.nodup_cons, List.mem_cons, not_or] at ht
  cases chk <;> simp [txInfoResult, ht, Ne.symm]

/-- Each of the other listed codes is its ProtocolError, checked or not (R120). -/
theorem txInfoResult_protocolError {code : Byte} {x : Err} (ht : (0#8 :: t.all).Nodup) (chk : Bool) (ca : Word)
    (m : Nat) (hx : (code, x) ∈ [(t.accessViolation, Err.txAccessViolation ca (sizeWord m)),
      (t.invalidAddress, .txInvalidAddress ca (sizeWord m)), (t.commandNotFound, .txCommandNotFound ca (sizeWord m)),
      (t.writeDisabled, .txWriteDisabled ca (sizeWord m)), (t.execError, .txExecError ca (sizeWord m))]) :
    txInfoResult t chk code ca m = raise x := by
  simp only [TxCodes.all, List.nodup_cons, List.mem_cons, not_or] at ht
  simp only [List.mem_cons, Prod.mk.injEq, List.not_mem_nil, or_false] at hx
  rcases hx with ⟨rfl, rfl⟩ | ⟨rfl, rfl⟩ | ⟨rfl, rfl⟩ | ⟨rfl, rfl⟩ | ⟨rfl, rfl⟩
  all_goals simp [txInfoResult, ht, Ne.symm]

theorem txInfoResult_unknown {code : Byte} (hzero : code ≠ 0#8) (hcode : code ∉ t.all) (chk : Bool) (ca : Word)
    (m : Nat) : txInfoResult t chk code ca m = raise (.txUnknown ca (sizeWord m)) := by
  simp only [TxCodes.all, List.mem_cons, List.not_mem_nil, or_false, not_or] at hcode
  simp [txInfoResult, hzero, hcode]

end

/-- Settles O46: the read ends in a bad CRC or in the decoding of its code, whose branches a legal configuration tells
apart. -/
theorem transactionInfoIsDecoded : Obligations.TransactionInfoIsDecoded := by
  unfold Obligations.TransactionInfoIsDecoded
  intro s p chk ca m r hwf h0 h1 op H u n code bad t
  have ht : (0#8 :: t.all).Nodup := config_wf_txCodes hwf
  have hdecoded : ¬bad → txInfo p chk ca m s = txInfoResult t chk code ca m u := fun hgood =>
    txInfo_decoded h0 h1 hgood p ca m
  refine ⟨fun hbad => txInfo_badCrc h0 h1 hbad p ca m, fun hgood hcode => ?success, fun hgood hcode hchk => ?failed,
    fun hgood x hx => ?listed, fun hgood hcode hchk => ?unchecked, fun hgood hzero hcode => ?unknown⟩
  case success => rw [hdecoded hgood, hcode, txInfoResult_zero, cmd_pure]
  case failed => rw [hdecoded hgood, hcode, hchk, txInfoResult_crcFailed ht]; rfl
  case listed => rw [hdecoded hgood, txInfoResult_protocolError ht chk ca m hx]; rfl
  case unchecked => rw [hdecoded hgood, hcode, hchk, txInfoResult_crcFailed ht]; rfl
  case unknown => rw [hdecoded hgood, txInfoResult_unknown hzero hcode]; rfl

end Sys2Proof.Machine
end

section
/-! PROOF. The exchange of Universal-over-CAN: the base check before it, and the polls of the response slot that end
it. -/

namespace Sys2Proof.Machine

/-! ### The base check -/

theorem orInvalidate_ok {α : Type} {c : Slot} {m : Cmd α} {s t : State} {a : α} (h : m s = .ok a t) :
    orInvalidate c m s = .ok a t := catchErr_ok h _

/-- An error invalidates the base cache and goes on (R63). -/
theorem orInvalidate_err {α : Type} {c : Slot} {m : Cmd α} {s t : State} {e : Err} (h : m s = .error (.err e) t) :
    orInvalidate c m s = .error (.err e) (t.setBase c none) := catchErr_err h _

/-- The value a SetBaseAddress frame carries for an address (R129). -/
def baseValue (g : Config) (a : Word) : Word :=
  match g.canBaseValue with
  | .full => a
  | .masked => pageOf a

theorem baseValue_eq (g : Config) (a : Word) :
    baseValue g a = if g.canBaseValue = .full then a else a &&& 0xFFFF0000#32 := by
  rw [baseValue]
  cases g.canBaseValue <;> rfl

/-- The SetBaseAddress frame of R81 has its value in the argument bytes 2 to 5. -/
theorem canuSetBaseFrame_eq (cmd : Byte) (v : Word) : canuSetBaseFrame cmd v = frameOf cmd 0#8
    [0#8, 0#8, v.extractLsb' 0 8, v.extractLsb' 8 8, v.extractLsb' 16 8, v.extractLsb' 24 8] := rfl

section
variable {s u : State} {c : Slot} {a : Word}

theorem baseCheck_cached (h : (s.conn c).baseCache = some (pageOf a)) : baseCheck c a s = .ok () s := by
  rw [baseCheck, cmd_bind_ok (cmd_get s), if_pos h, cmd_pure]

theorem baseCheck_other (h : (s.conn c).baseCache ≠ some (pageOf a)) : baseCheck c a s =
    (do let _ ← orInvalidate c (canuExchange c (canuSetBaseFrame s.cfg.canuCmdSetbase (baseValue s.cfg a)))
        modify (fun s => s.setBase c (some (pageOf a))) : Cmd Unit) s := by
  rw [baseCheck, cmd_bind_ok (cmd_get s), if_neg h]
  rfl

theorem baseCheck_sent (h : (s.conn c).baseCache ≠ some (pageOf a)) {r : Bytes}
    (hx : canuExchange c (canuSetBaseFrame s.cfg.canuCmdSetbase (baseValue s.cfg a)) s = .ok r u) :
    baseCheck c a s = .ok () (u.setBase c (some (pageOf a))) := by
  rw [baseCheck_other h, cmd_bind_ok (orInvalidate_ok hx), cmd_modify]

theorem baseCheck_failed (h : (s.conn c).baseCache ≠ some (pageOf a)) {e : Err}
    (hx : canuExchange c (canuSetBaseFrame s.cfg.canuCmdSetbase (baseValue s.cfg a)) s = .error (.err e) u) :
    baseCheck c a s = .error (.err e) (u.setBase c none) := by
  rw [baseCheck_other h, cmd_bind_error (orInvalidate_err hx)]

end

/-- Settles O49: by whether the page is cached, then by how the SetBaseAddress exchange ends. -/
theorem baseAddressIsSentWhenThePageChanges : Obligations.BaseAddressIsSentWhenThePageChanges := by
  unfold Obligations.BaseAddressIsSentWhenThePageChanges
  intro s c ca hi V F cached
  have hF : canuSetBaseFrame s.cfg.canuCmdSetbase (baseValue s.cfg ca) = F := by
    rw [canuSetBaseFrame_eq, baseValue_eq]
  refine ⟨baseCheck_cached, fun hother => ⟨fun A u hx => ?sent, fun e u hx => ?failed⟩⟩
  case sent => exact baseCheck_sent hother (by rw [hF]; exact hx)
  case failed => exact baseCheck_failed hother (by rw [hF]; exact hx)

/-! ### The polls of the response slot -/

theorem mreadBytes_of_slotHolds {s : State} {c : Slot} {b : Bytes} (h : slotHolds s c b) :
    mreadBytes (s.conn c).outbuf.mem 0 8 = some b :=
  mreadBytes_eq_some.2 ⟨h.1, fun i hi => by rw [Nat.zero_add]; exact h.2 i hi⟩

section
variable {s t : State} {c : Slot}

theorem slotPolls_filled {b : Bytes} (h : slotHolds s c b) (hb : b ≠ zeros 8) (n : Nat) :
    slotPolls c (n + 1) s = .ok b s := by
  rw [slotPolls, cmd_bind_ok (cmd_get s), mreadBytes_of_slotHolds h]
  simp only [if_pos hb, cmd_pure]

/-- With the slot all zero a poll is a routed read and 1 ms of sleep (R128). -/
theorem slotPolls_empty (h : slotHolds s c (zeros 8)) (n : Nat) : slotPolls c (n + 1) s =
    (do let _ ← routeRead c
        sleep 1
        slotPolls c n : Cmd Bytes) s := by
  rw [slotPolls, cmd_bind_ok (cmd_get s), mreadBytes_of_slotHolds h]
  rfl

theorem slotPolls_polled {r : Bool × Word} (h : slotHolds s c (zeros 8)) (hr : routeRead c s = .ok r t) (n : Nat) :
    slotPolls c (n + 1) s = slotPolls c n (t.afterEvents [.sleep 1]) := by
  rw [slotPolls_empty h, cmd_bind_ok hr, cmd_bind_ok (sleep_run 1 t)]

theorem slotPolls_error {x : Stop} (h : slotHolds s c (zeros 8)) (hr : routeRead c s = .error x t) (n : Nat) :
    slotPolls c (n + 1) s = .error x t := by
  rw [slotPolls_empty h, cmd_bind_error hr]

theorem slotPolls_spent (c : Slot) (s : State) :
    slotPolls c 0 s = .error (.err (.timeoutResponseSlot (Config.freeFlag s.draws))) s := rfl

/-- After `k` polls that find the slot all zero the polls go on where poll `k` starts. -/
theorem slotPolls_after_empty {us vs : Nat → State} {hits : Nat → Bool × Word} {k : Nat}
    (hempty : ∀ j, j < k → slotHolds (us j) c (zeros 8) ∧ routeRead c (us j) = .ok (hits j) (vs j)
      ∧ us (j + 1) = (vs j).afterEvents [.sleep 1])
    (n : Nat) : slotPolls c (n + k) (us 0) = slotPolls c n (us k) := by
  induction k generalizing n with
  | zero => rfl
  | succ k ih =>
    obtain ⟨hslot, hread, hnext⟩ := hempty k (Nat.lt_succ_self k)
    calc slotPolls c (n + (k + 1)) (us 0)
        = slotPolls c (n + 1 + k) (us 0) := by rw [show n + (k + 1) = n + 1 + k by omega]
      _ = slotPolls c (n + 1) (us k) := ih (fun j hj => hempty j (Nat.lt_succ_of_lt hj)) (n + 1)
      _ = slotPolls c n (us (k + 1)) := by rw [slotPolls_polled hslot hread, hnext]

/-- The polls end as `slotEnds` says. -/
theorem slotPolls_ends {o : EStateM.Result Stop State Bytes} (h : slotEnds c s o) : slotPolls c 100 s = o := by
  obtain ⟨k, us, vs, hits, hk, rfl, hempty, hend⟩ := h
  have hrun : slotPolls c 100 (us 0) = slotPolls c (100 - k) (us k) := by
    rw [← slotPolls_after_empty hempty, Nat.sub_add_cancel hk]
  rcases hend with ⟨hlt, b, hslot, hb, rfl⟩ | ⟨hlt, hslot, x, t, hread, rfl⟩ | ⟨rfl, rfl⟩
  · obtain ⟨n, hn⟩ : ∃ n, 100 - k = n + 1 := ⟨100 - k - 1, by omega⟩
    rw [hrun, hn, slotPolls_filled hslot hb]
  · obtain ⟨n, hn⟩ : ∃ n, 100 - k = n + 1 := ⟨100 - k - 1, by omega⟩
    rw [hrun, hn, slotPolls_error hslot hread]
  · rw [hrun, slotPolls_spent]

end

/-! ### The exchange -/

/-- The state after `outbuf` of a connection gets bytes at its response slot (R127, R128). -/
def State.slotted (s : State) (c : Slot) (b : Bytes) : State :=
  s.modConn c fun k => { k with outbuf := bufWrite k.outbuf 0 b }

section
variable {s u : State} {c : Slot} {F : Frame}

theorem canuExchange_eq (s : State) (c : Slot) (F : Frame) : canuExchange c F s =
    (do writeAndWait c F
        slotPolls c 100 : Cmd Bytes) (s.slotted c (zeros 8)) := rfl

theorem canuExchange_notAnswered {x : Stop} (h : writeAndWait c F (s.slotted c (zeros 8)) = .error x u) :
    canuExchange c F s = .error x u := by
  rw [canuExchange_eq, cmd_bind_error h]

theorem canuExchange_answered (h : writeAndWait c F (s.slotted c (zeros 8)) = .ok () u) :
    canuExchange c F s = slotPolls c 100 u := by
  rw [canuExchange_eq, cmd_bind_ok h]

end

end Sys2Proof.Machine
end

section
/-! PROOF. The reads of Universal-over-CAN: their chunks, a frame routed to its connection, and RDREG of one chunk
answered by the first frame read. -/

namespace Sys2Proof.Machine

/-! ### A chunk of a read -/

/-- One chunk of a Universal-over-CAN read: the ready guard, the base check of the register opcode, the exchange
(R130). -/
def canuReadChunk (guard : Cmd Unit) (c : Slot) (op : Opc) (a : Word) (off m : Nat) : Cmd Bytes := do
  guard
  let s ← get
  baseCheckIf (op == s.cfg.opcRegmapRead) c (chunkAddr a off)
  let r ← canuExchange c (canuReadFrame op (chunkAddr a off) m)
  pure ((r.drop 4).take m)

theorem canuTRead_eq (guard : Cmd Unit) (c : Slot) (op : Opc) (a : Word) (n : Nat) :
    canuTRead guard c op a n = overChunks (canuReadChunk guard c op a) (chunks 4 n) := rfl

theorem tReadWith_can {s : State} {c : Slot} (h : (s.conn c).kind = .can) (guard : Cmd Unit) (op : Opc) (a : Word)
    (n N : Nat) : tReadWith guard c op a n N s = canuTRead guard c op a n s := by
  rw [tReadWith, cmd_bind_ok (cmd_get s)]; simp only [h]

/-- The low 16 bits of an address, low byte first (R11). -/
theorem le16_setWidth (a : Word) : le16 (a.setWidth 16) = [a.extractLsb' 0 8, a.extractLsb' 8 8] := by
  simp [le16, byteOf, BitVec.extractLsb'_setWidth_of_le]

/-- The read frame of R81 has the low 16 bits of its address in the argument bytes 0 and 1. -/
theorem canuReadFrame_eq (op : Opc) (a : Word) (m : Nat) :
    canuReadFrame op a m = frameOf op.canu (BitVec.ofNat 8 m) [a.extractLsb' 0 8, a.extractLsb' 8 8] := by
  rw [canuReadFrame, le16_setWidth]
  rfl

section
variable {guard : Cmd Unit} {t g h u : State} {c : Slot} {op : Opc} {a : Word} {off m : Nat} {x : Stop}

theorem canuReadChunk_guarded (hg : guard t = .ok () g) (hop : g.cfg.opcRegmapRead = op) :
    canuReadChunk guard c op a off m t = (do
      baseCheck c (chunkAddr a off)
      let r ← canuExchange c (canuReadFrame op (chunkAddr a off) m)
      pure ((r.drop 4).take m) : Cmd Bytes) g := by
  subst hop
  rw [canuReadChunk, cmd_bind_ok hg, cmd_bind_ok (cmd_get g), beq_self_eq_true]
  rfl

theorem canuReadChunk_baseError (hg : guard t = .ok () g) (hop : g.cfg.opcRegmapRead = op)
    (hb : baseCheck c (chunkAddr a off) g = .error x u) : canuReadChunk guard c op a off m t = .error x u := by
  rw [canuReadChunk_guarded hg hop, cmd_bind_error hb]

theorem canuReadChunk_exchangeError (hg : guard t = .ok () g) (hop : g.cfg.opcRegmapRead = op)
    (hb : baseCheck c (chunkAddr a off) g = .ok () h)
    (hx : canuExchange c (canuReadFrame op (chunkAddr a off) m) h = .error x u) :
    canuReadChunk guard c op a off m t = .error x u := by
  rw [canuReadChunk_guarded hg hop, cmd_bind_ok hb, cmd_bind_error hx]

theorem canuReadChunk_good {r : Bytes} (hg : guard t = .ok () g) (hop : g.cfg.opcRegmapRead = op)
    (hb : baseCheck c (chunkAddr a off) g = .ok () h)
    (hx : canuExchange c (canuReadFrame op (chunkAddr a off) m) h = .ok r u) :
    canuReadChunk guard c op a off m t = .ok ((r.drop 4).take m) u := by
  rw [canuReadChunk_guarded hg hop, cmd_bind_ok hb, cmd_bind_ok hx, cmd_pure]

/-- What a chunk of a read does is quiet. -/
theorem quiet_readChunk (hq : Keeps Quiet guard) (hg : guard t = .ok () g) {ca : Word}
    (hb : baseCheck c ca g = .ok () h) {f : Frame} {r : Bytes} (hx : canuExchange c f h = .ok r u) : Quiet t u :=
  Quiet.steps.trans (hq.ok hg) (Quiet.steps.trans ((quiet_baseCheck _ _).ok hb) ((quiet_canuExchange _ _).ok hx))

end

/-! ### A routed read of a frame -/

theorem inTxRange_iff_inRange {g : Config} {tx id : Word} : inTxRange g tx id = true ↔ inRange g tx id.toNat := by
  simp [inTxRange, inRange]

/-- A frame goes to the first entry whose Tx range has its ID (R139). -/
theorem routeOf_first {g : Config} {table l r : List RouteEntry} {e : RouteEntry} {id : Word} (ht : table = l ++ e :: r)
    (hfirst : ∀ y ∈ l, ¬inRange g y.txId id.toNat) (he : inRange g e.txId id.toNat) : routeOf g table id = some e := by
  rw [routeOf, ht]
  exact List.find?_eq_some_iff_append.2 ⟨inTxRange_iff_inRange.2 he, l, r, rfl,
    fun y hy => by
    rw [Bool.not_eq_true', ← Bool.not_eq_true, inTxRange_iff_inRange]; exact hfirst y hy⟩

section
variable {s t : State} {c : Slot} {d : Draw} {x : CanRx} {e : RouteEntry}

/-- A routed read of a frame that is no event, has an ID and a route is the delivery of the frame (R141). -/
theorem routeRead_delivers (hd : s.returns 0 d) (hx : d.frame = some x) (hev : x.ev = 0#32) (hid : x.id ≠ 0#32)
    (hroute : routeOf s.cfg (s.domain (s.descOf c).port).table x.id = some e)
    (hdeliver : deliver e.slot x.id x.data (s.afterEvents [.port (.canRead (s.descOf c).port) (.frame (some x))]) =
      .ok () t) : routeRead c s = .ok (decide (e.slot = c), x.id) t := by
  have hread : canRead (s.descOf c).port s =
      .ok (some x) (s.afterEvents [.port (.canRead (s.descOf c).port) (.frame (some x))]) := by
    rw [← hx]; exact portCall_returns hd _ _ _
  have hforward : forward (s.descOf c).port x.id x.data
      (s.afterEvents [.port (.canRead (s.descOf c).port) (.frame (some x))]) = .ok e.slot t := by
    rw [forward, cmd_bind_ok (cmd_get _), afterEvents_cfg, afterEvents_domain, hroute]
    simp only [cmd_bind_ok hdeliver, cmd_pure]
  rw [routeRead, cmd_bind_ok (cmd_get s), cmd_bind_ok hread]
  simp only [hev, ne_eq, not_true, if_false, hid, cmd_bind_ok hforward, cmd_pure]

/-- A frame for a Universal connection goes to its response slot (R140). -/
theorem deliver_universal (h : (s.descOf c).can.proto = .universal) (id : Word) (F : Frame) :
    deliver c id F s = .ok () (s.slotted c F.bytes) := by
  rw [deliver, h]; rfl

/-- A routed read of a frame for a Universal connection. -/
theorem routeRead_slotted (hd : s.returns 0 d) (hx : d.frame = some x) (hfor : frameFor s c x)
    (hproto : (s.descOf c).can.proto = .universal) : routeRead c s = .ok (true, x.id)
      ((s.afterEvents [.port (.canRead (s.descOf c).port) (.frame (some x))]).slotted c x.data.bytes) := by
  obtain ⟨hev, hid, l, e, r, ht, rfl, he, hfirst⟩ := hfor
  rw [routeRead_delivers hd hx hev hid (routeOf_first ht hfirst he)
    (deliver_universal (by rw [afterEvents_descOf]; exact hproto) _ _), decide_eq_true rfl]

/-! ### Write-and-wait answered by the first frame -/

theorem sendFrame_goes (h : goesThrough s 0) (F : Frame) : sendFrame c F s =
    .ok () (s.afterEvents [.port (.canWrite (s.descOf c).port (s.descOf c).can.baseIdRx F) .done]) := by
  obtain ⟨d, hd⟩ := h
  rw [sendFrame, cmd_bind_ok (cmd_get s)]
  exact portCall_returns hd _ _ _

theorem awaitFrame_hit {id : Word} (h : routeRead c s = .ok (true, id) t) (n : Nat) :
    awaitFrame c (n + 1) s = .ok () t := by
  rw [awaitFrame, cmd_bind_ok h]; rfl

/-- Write-and-wait whose first read finds a frame for the connection (R143). -/
theorem writeAndWait_hit {u : State} {F : Frame} {id : Word} (hsent : sendFrame c F s = .ok () u)
    (hread : routeRead c u = .ok (true, id) t) : writeAndWait c F s = .ok () t := by
  have hwait : awaitFrame c wawPolls u = .ok () t := awaitFrame_hit hread 999
  rw [writeAndWait, wawEventAttempts, writeAttempts, cmd_bind_ok hsent, catchErr_ok hwait]

end

/-! ### RDREG of one chunk -/

/-- Where a transfer's chunks are and how long, their offsets as multiples of the chunk size (R53). -/
theorem chunks_eq_mul {p : Nat} (hp : 0 < p) (n : Nat) :
    chunks p n = (List.range ((n + p - 1) / p)).map fun j => (p * j, min p (n - p * j)) := by
  simp only [chunks_eq_map hp, Nat.mul_comm]

/-- A Universal-over-CAN connection is one that suits the register commands (R71). -/
theorem universal_of_suitsRegister {k : Conn} {d : Desc} (h : suitsRegister k d = true) (hk : k.kind = .can) :
    d.can.proto = .universal := by
  simpa [suitsRegister, hk] using h

section
variable {s : State} {c : Slot} {b : Bytes}

theorem sameLink_slotted (h : s.conn? c = some (s.conn c)) (b : Bytes) : SameLink c s (s.slotted c b) :=
  sameLink_modConn h rfl rfl

/-- Filling the response slot and events on the trace do not touch each other. -/
theorem slotted_afterEvents (s : State) (c : Slot) (b : Bytes) (es : List Event) :
    (s.slotted c b).afterEvents es = (s.afterEvents es).slotted c b := afterEvents_modConn s es c _

theorem slotted_outLen (h : s.conn? c = some (s.conn c)) (b : Bytes) :
    ((s.slotted c b).conn c).outbuf.len = (s.conn c).outbuf.len := by
  rw [State.slotted, conn_modConn_same h]; rfl

theorem slotted_used (h : s.conn? c = some (s.conn c)) (b : Bytes) :
    (s.slotted c b).conn? c = some ((s.slotted c b).conn c) := by
  rw [State.slotted, State.conn?_modConn, if_pos rfl, h, conn_modConn_same h]; rfl

/-- Eight bytes written to the response slot stand there where `outbuf` has room (R127). -/
theorem slotHolds_slotted (h : s.conn? c = some (s.conn c)) (hlen : 8 ≤ (s.conn c).outbuf.len) (hb : b.length = 8) :
    slotHolds (s.slotted c b) c b :=
  ⟨hb, fun i hi => by
    rw [State.slotted, conn_modConn_same h, bufWrite_read, if_pos (by omega), if_pos (by omega), Nat.sub_zero]⟩

/-- A CAN connection has room for the response slot (R31). -/
theorem responseSlot_fits (h : s.conn? c = some (s.conn c)) (hm : s.MemoryLegal) (hk : (s.conn c).kind = .can) :
    8 ≤ (s.conn c).outbuf.len := by
  have hmin := (hm.conns _ _ h).outbuf.atLeast
  rwa [hk] at hmin

/-- The exchange of a Universal frame whose answer is the first frame read: the frame out, the answer in, the slot
zeroed and filled (R127, R128). -/
theorem canuExchange_first {d : Draw} {x : CanRx} {F : Frame} (hused : s.conn? c = some (s.conn c))
    (hproto : (s.descOf c).can.proto = .universal) (hlen : 8 ≤ (s.conn c).outbuf.len) (h0 : goesThrough s 0)
    (h1 : s.returns 1 d) (hx : d.frame = some x) (hfor : frameFor s c x) (hb : x.data.bytes ≠ zeros 8) :
    canuExchange c F s = .ok x.data.bytes (((s.slotted c (zeros 8)).slotted c x.data.bytes).afterEvents
      [.port (.canWrite (s.descOf c).port (s.descOf c).can.baseIdRx F) .done,
        .port (.canRead (s.descOf c).port) (.frame (some x))]) := by
  let q := (s.descOf c).port
  let z := s.slotted c (zeros 8)
  let sent := z.afterEvents [.port (.canWrite q (s.descOf c).can.baseIdRx F) .done]
  let read := z.afterEvents
    [.port (.canWrite q (s.descOf c).can.baseIdRx F) .done, .port (.canRead q) (.frame (some x))]
  have hz : SameLink c s z := sameLink_slotted hused _
  have hdesc : sent.descOf c = s.descOf c := (afterEvents_descOf _ _ _).trans hz.descOf
  have hsent : sendFrame c F z = .ok () sent := by rw [sendFrame_goes (s := z) h0, hz.descOf]
  have hanswer : sent.returns 0 d := by rw [State.returns, draw_afterEvents]; exact h1
  have hrouted : frameFor sent c x := by rw [frameFor, hdesc, afterEvents_domain, afterEvents_cfg]; exact hfor
  have hread : routeRead c sent = .ok (true, x.id) (read.slotted c x.data.bytes) := by
    rw [routeRead_slotted hanswer hx hrouted (by rw [hdesc]; exact hproto), hdesc]; rfl
  have hconn : read.conn c = z.conn c := afterEvents_conn _ _ _
  have hreadUsed : read.conn? c = some (read.conn c) := by
    rw [hconn, afterEvents_conn?]; exact slotted_used hused _
  have hroom : 8 ≤ (read.conn c).outbuf.len := by rw [hconn, slotted_outLen hused]; exact hlen
  have hslot : slotHolds (read.slotted c x.data.bytes) c x.data.bytes := slotHolds_slotted hreadUsed hroom rfl
  rw [canuExchange_answered (writeAndWait_hit hsent hread), slotPolls_filled hslot hb, slotted_afterEvents]

/-- What RDREG on Universal-over-CAN delivers goes to HBUF only (R111). -/
theorem delivered_can (h : (s.conn c).kind = .can) (data : Bytes) : delivered s c data = s.setHbuf data := by
  rw [delivered, if_pos h]

end

/-- Settles O51: the exchange by how its wait and its polls end, the read by the chunk that is next, and RDREG of one
chunk by `canuExchange_first`. -/
theorem universalCanReadsPollTheirSlot : Obligations.UniversalCanReadsPollTheirSlot := by
  unfold Obligations.UniversalCanReadsPollTheirSlot
  refine ⟨?exchange, ?chunks, ?one⟩
  case exchange =>
    intro s c F z
    exact ⟨fun e u hwait => canuExchange_notAnswered hwait,
      fun u o hwait hends => (canuExchange_answered hwait).trans (slotPolls_ends hends)⟩
  case chunks =>
    rintro s c a n N T k x g h r op K len addr F read hk rfl hkK hchunks
    let guard := readyGuard c T N
    have hguard : Keeps Quiet guard := quiet_readyGuard c T N
    have hchain := quiet_chain (x := x) (k := k) fun j hj => by
      obtain ⟨hg, hb, hx⟩ := hchunks j hj
      exact quiet_readChunk hguard hg hb hx
    have hop : ∀ j, j ≤ k → guard (x j) = .ok () (g j) → (g j).cfg.opcRegmapRead = op := fun j hj hg => by
      rw [(Quiet.steps.trans (hchain j hj) (hguard.ok hg)).cfg]
    have hframe : ∀ j, canuReadFrame op (chunkAddr a (4 * j)) (len j) = F j := fun j => canuReadFrame_eq _ _ _
    have hchunk : ∀ j, j < k → canuReadChunk guard c op a (4 * j) (len j) (x j) =
        .ok (((r j).drop 4).take (len j)) (x (j + 1)) := fun j hj => by
      obtain ⟨hg, hb, hx⟩ := hchunks j hj
      exact canuReadChunk_good hg (hop j (Nat.le_of_lt hj) hg) hb (by rw [hframe]; exact hx)
    have hread : read = overChunks (canuReadChunk guard c op a)
        ((List.range K).map fun j => (4 * j, min 4 (n - 4 * j))) (x 0) := by
      simp only [read]
      rw [tRead, tReadWith_can hk, canuTRead_eq, chunks_eq_mul (by decide)]
      rfl
    rw [hread]
    refine ⟨fun hall => ?_, fun hlt => ⟨fun e u hg => ?_, fun hg => ⟨fun e u hb => ?_, fun hb e u hx => ?_⟩⟩⟩
    · subst hall
      exact overChunks_all hchunk
    · exact overChunks_stops hlt hchunk (cmd_bind_error hg)
    · exact overChunks_stops hlt hchunk (canuReadChunk_baseError hg (hop k le_rfl hg) hb)
    · exact overChunks_stops hlt hchunk
        (canuReadChunk_exchangeError hg (hop k le_rfl hg) hb (by rw [hframe]; exact hx))
  case one =>
    intro s c d x n q F slot hs hk hm hacc hn hT hcache h0 h1 hx hfor hb
    have hused := conn?_of_admits hs
    have hproto : (s.descOf c).can.proto = .universal := by
      obtain ⟨-, -, hsuits, -⟩ := hs
      exact universal_of_suitsRegister hsuits hk
    let u := ((s.slotted c (zeros 8)).slotted c x.data.bytes).afterEvents
      [.port (.canWrite q (s.descOf c).can.baseIdRx F) .done, .port (.canRead q) (.frame (some x))]
    have hexchange : canuExchange c F s = .ok x.data.bytes u :=
      canuExchange_first hused hproto (responseSlot_fits hused hm hk) h0 h1 hx hfor hb
    have hguard : readyGuard c s.arg3.toNat s.arg2.toNat s = .ok () s := by rw [hT]; rfl
    have hbase : baseCheck c (chunkAddr s.arg0 0) s = .ok () s := by
      rw [chunkAddr_zero]; exact baseCheck_cached hcache
    have hread : tRead c s.cfg.opcRegmapRead s.arg0 n s.arg2.toNat s.arg3.toNat s =
        .ok ((x.data.bytes.drop 4).take n) u := by
      rw [tRead, tReadWith_can hk, canuTRead_eq, chunks_single (accessError_ne_zero hacc) hn]
      refine overChunks_single (canuReadChunk_good hguard rfl hbase ?_)
      rw [chunkAddr_zero, canuReadFrame_eq]
      exact hexchange
    have hkind : (u.conn c).kind = .can := by
      rw [← hk, (quiet_conn ((quiet_canuExchange c F).ok hexchange) c).kind]
    rw [exec, execRdreg_ok hs hacc hread, delivered_can hkind]
    rfl

end Sys2Proof.Machine
end

section
/-! PROOF. The CAN routing commands: CANRD by how its routed read ends, write-and-wait by its attempts, CANSEND and
CANSENDW by the frame in HBUF. -/

namespace Sys2Proof.Machine

/-! ### The classification of a Direct-CAN frame -/

theorem allFf_iff_allOnes {F : Frame} : allFf F = true ↔ allOnes F := by
  simp [allFf, allOnes, Frame.bytes, List.replicate]

theorem isConfigFrame_iff_configAnswer {D : CanDesc} {x : CanRx} :
    isConfigFrame D x.id x.data = true ↔ configAnswer D x := by
  simp [isConfigFrame, configAnswer, and_assoc]

section
variable {v : State} {t : Slot} {x : CanRx}

theorem classify_sensorFailure (h : allOnes x.data) :
    classify t x.id x.data v = .error (.err (.sensorFailureFf x.id)) v := by
  rw [classify, if_pos (allFf_iff_allOnes.2 h)]

/-- A frame that is no failure goes to the configuration FIFO or to the detection FIFO (R147). -/
theorem classify_sorted (h : ¬allOnes x.data) : classify t x.id x.data v =
    if isConfigFrame (v.descOf t).can x.id x.data then
      if v.cfg.fifoDepth ≤ (v.conn t).cfgFifo.length then .error (.err (.fifoOverflow x.id)) v
      else .ok () (v.modConn t fun k => { k with cfgFifo := k.cfgFifo ++ [(x.id, x.data)] })
    else if v.cfg.fifoDepth ≤ (v.conn t).detFifo.length then .error (.err (.fifoOverflow x.id)) v
    else .ok () (v.modConn t fun k => { k with detFifo := k.detFifo ++ [(x.id, x.data)] }) := by
  rw [classify, if_neg (mt allFf_iff_allOnes.1 h)]

theorem classify_config (h : ¬allOnes x.data) (hx : configAnswer (v.descOf t).can x) : classify t x.id x.data v =
    if v.cfg.fifoDepth ≤ (v.conn t).cfgFifo.length then .error (.err (.fifoOverflow x.id)) v
    else .ok () (v.modConn t fun k => { k with cfgFifo := k.cfgFifo ++ [(x.id, x.data)] }) := by
  rw [classify_sorted h, if_pos (isConfigFrame_iff_configAnswer.2 hx)]

theorem classify_detection (h : ¬allOnes x.data) (hx : ¬configAnswer (v.descOf t).can x) : classify t x.id x.data v =
    if v.cfg.fifoDepth ≤ (v.conn t).detFifo.length then .error (.err (.fifoOverflow x.id)) v
    else .ok () (v.modConn t fun k => { k with detFifo := k.detFifo ++ [(x.id, x.data)] }) := by
  rw [classify_sorted h, if_neg (mt isConfigFrame_iff_configAnswer.1 hx)]

theorem deliver_direct (h : (v.descOf t).can.proto = .direct) (id : Word) (F : Frame) :
    deliver t id F v = classify t id F v := by
  rw [deliver, h]

end

/-! ### How a routed read ends -/

section
variable {s u v : State} {c : Slot} {d : Draw} {x : CanRx} {e : RouteEntry}

theorem routeRead_callFails {b : Err} (hd : s.draw 0 = some d) (he : driverErr d.fate = some b) :
    routeRead c s = .error (.err b) (s.note (.canRead (s.descOf c).port) d.shows) := by
  rw [routeRead, cmd_bind_ok (cmd_get s)]
  exact cmd_bind_error (portCall_fails hd he _ _ _)

/-- What a routed read does with what the bus gave it (R141). -/
def routeAnswer (c : Slot) (q : Byte) : Option CanRx → Cmd (Bool × Word)
  | none => pure (false, 0#32)
  | some x =>
    if x.ev ≠ 0#32 then raise .busEvent
    else if x.id = 0#32 then pure (false, 0#32)
    else do
      let t ← forward q x.id x.data
      pure (decide (t = c), x.id)

theorem routeRead_returns (hd : s.returns 0 d) : routeRead c s =
    routeAnswer c (s.descOf c).port d.frame (s.note (.canRead (s.descOf c).port) (.frame d.frame)) := by
  have hread : canRead (s.descOf c).port s = .ok d.frame (s.note (.canRead (s.descOf c).port) (.frame d.frame)) :=
    portCall_returns hd _ _ _
  rw [routeRead, cmd_bind_ok (cmd_get s), cmd_bind_ok hread]
  cases d.frame <;> rfl

theorem routeAnswer_event (h : x.ev ≠ 0#32) (q : Byte) :
    routeAnswer c q (some x) u = .error (.err .busEvent) u := by
  rw [routeAnswer, if_pos h]; rfl

theorem routeAnswer_idZero (h : x.ev = 0#32) (hid : x.id = 0#32) (q : Byte) :
    routeAnswer c q (some x) u = .ok (false, 0#32) u := by
  rw [routeAnswer, if_neg (not_not.2 h), if_pos hid]; rfl

/-- A frame that is no event and has an ID is forwarded (R141). -/
theorem routeAnswer_frame (h : x.ev = 0#32) (hid : x.id ≠ 0#32) (q : Byte) : routeAnswer c q (some x) u =
    (do let t ← forward q x.id x.data
        pure (decide (t = c), x.id) : Cmd (Bool × Word)) u := by
  rw [routeAnswer, if_neg (not_not.2 h), if_neg hid]

theorem forward_unknown {q : Byte} {id : Word} (h : ∀ y ∈ (u.domain q).table, ¬inRange u.cfg y.txId id.toNat)
    (F : Frame) : forward q id F u = .error (.err (.unknownCanId id)) u := by
  have hnone : routeOf u.cfg (u.domain q).table id = none :=
    List.find?_eq_none.2 fun y hy => mt inTxRange_iff_inRange.1 (h y hy)
  rw [forward, cmd_bind_ok (cmd_get u), hnone]
  rfl

/-- A frame with a route is delivered to the slot of its entry (R139). -/
theorem forward_routed {q : Byte} {id : Word} (h : routeOf u.cfg (u.domain q).table id = some e) (F : Frame) :
    forward q id F u = (do
      deliver e.slot id F
      pure e.slot : Cmd Slot) u := by
  rw [forward, cmd_bind_ok (cmd_get u), h]

/-- A routed frame whose delivery fails ends the read with that error (R144). -/
theorem routeAnswer_undelivered (h : x.ev = 0#32) (hid : x.id ≠ 0#32) {q : Byte} {b : Stop}
    (hroute : routeOf u.cfg (u.domain q).table x.id = some e) (hdeliver : deliver e.slot x.id x.data u = .error b v) :
    routeAnswer c q (some x) u = .error b v := by
  rw [routeAnswer_frame h hid, cmd_bind_error ((forward_routed hroute _).trans (cmd_bind_error hdeliver))]

/-! ### CANRD -/

theorem execCanrd_ok {hit : Bool} {id : Word} (hs : s.admits c suitsCan true) (h : routeRead c s = .ok (hit, id) u) :
    execCanrd c s = .next ({ u with result0 := id }.endOk hit) :=
  (endCmd_enter_none (commandError_of_admits hs)).trans (endCmd_ok (cmd_bind_ok h))

theorem execCanrd_error {b : Err} (hs : s.admits c suitsCan true) (h : routeRead c s = .error (.err b) u) :
    execCanrd c s = .next (u.endErr b) :=
  (endCmd_enter_none (commandError_of_admits hs)).trans (endCmd_err (cmd_bind_error h))

end

/-- Settles O52: by how the call ends, what the bus gave, and how the delivery to the first route ends. -/
theorem canrdRoutesOneFrame : Obligations.CanrdRoutesOneFrame := by
  unfold Obligations.CanrdRoutesOneFrame
  intro s c d hs hd q failed u answers fails
  have hread : d.fate = .returns → routeRead c s = routeAnswer c q d.frame u := fun hf => routeRead_returns ⟨hd, hf⟩
  refine ⟨decode_commandWord (by decide) rfl rfl, fun e he => execCanrd_error hs (routeRead_callFails hd he),
    fun hf hnone => ?nothing, fun x hf hx => ?frame⟩
  case nothing => exact execCanrd_ok hs (by rw [hread hf, hnone]; rfl)
  case frame =>
    rw [hx] at hread
    have hfails : ∀ {b}, routeAnswer c q (some x) u = .error (.err b) u → fails b :=
      fun h => execCanrd_error hs ((hread hf).trans h)
    refine ⟨fun hev => hfails (routeAnswer_event hev q),
      fun hev hid => execCanrd_ok hs ((hread hf).trans (routeAnswer_idZero hev hid q)),
      fun hev hid hunknown => hfails ?unknown, fun l e r hev hid htable he hfirst => ?routed⟩
    case unknown =>
      rw [routeAnswer_frame hev hid]
      exact cmd_bind_error (forward_unknown (u := u) hunknown x.data)
    case routed =>
      intro t D k
      have hroute : routeOf u.cfg (u.domain q).table x.id = some e := routeOf_first htable hfirst he
      have hdelivered : ∀ {v}, deliver t x.id x.data u = .ok () v → answers v x.id (t == c) :=
        fun h => execCanrd_ok hs (routeRead_delivers ⟨hd, hf⟩ hx hev hid hroute (by rw [← hx]; exact h))
      have hundelivered : ∀ {b}, deliver t x.id x.data u = .error (.err b) u → fails b :=
        fun h => hfails (routeAnswer_undelivered hev hid hroute h)
      have hdirect : D.proto = .direct → deliver t x.id x.data u = classify t x.id x.data u :=
        fun hp => deliver_direct (v := u) hp _ _
      refine ⟨fun hp => hdelivered (deliver_universal (s := u) hp _ _),
        fun hp hones => hundelivered ((hdirect hp).trans (classify_sensorFailure hones)),
        fun hp hones hconfig => ?config, fun hp hones hdetect => ?detection⟩
      case config =>
        have hrun := (hdirect hp).trans (classify_config (v := u) hones hconfig)
        exact ⟨fun hfull => hundelivered (hrun.trans (if_pos hfull)),
          fun hroom => hdelivered (hrun.trans (if_neg (Nat.not_le.2 hroom)))⟩
      case detection =>
        have hrun := (hdirect hp).trans (classify_detection (v := u) hones hdetect)
        exact ⟨fun hfull => hundelivered (hrun.trans (if_pos hfull)),
          fun hroom => hdelivered (hrun.trans (if_neg (Nat.not_le.2 hroom)))⟩

/-! ### The read loop of write-and-wait -/

section
variable {s t u : State} {c : Slot} {F : Frame}

theorem awaitFrame_missed {id : Word} (h : routeRead c s = .ok (false, id) t) (n : Nat) :
    awaitFrame c (n + 1) s = awaitFrame c n (t.afterEvents [.sleep 1]) := by
  rw [awaitFrame, cmd_bind_ok h]; rfl

theorem awaitFrame_error {x : Stop} (h : routeRead c s = .error x t) (n : Nat) :
    awaitFrame c (n + 1) s = .error x t := by
  rw [awaitFrame, cmd_bind_error h]

theorem awaitFrame_spent (c : Slot) (s : State) :
    awaitFrame c 0 s = .error (.err (.timeoutAnswerWait (Config.freeFlag s.draws))) s := rfl

/-- After `k` reads without a frame for the connection the loop goes on where read `k` starts. -/
theorem awaitFrame_after_misses {us vs : Nat → State} {ids : Nat → Word} {k : Nat}
    (hmiss : ∀ j, j < k → routeRead c (us j) = .ok (false, ids j) (vs j) ∧ us (j + 1) = (vs j).afterEvents [.sleep 1])
    (n : Nat) : awaitFrame c (n + k) (us 0) = awaitFrame c n (us k) := by
  induction k generalizing n with
  | zero => rfl
  | succ k ih =>
    obtain ⟨hread, hnext⟩ := hmiss k (Nat.lt_succ_self k)
    calc awaitFrame c (n + (k + 1)) (us 0)
        = awaitFrame c (n + 1 + k) (us 0) := by rw [show n + (k + 1) = n + 1 + k by omega]
      _ = awaitFrame c (n + 1) (us k) := ih (fun j hj => hmiss j (Nat.lt_succ_of_lt hj)) (n + 1)
      _ = awaitFrame c n (us (k + 1)) := by rw [awaitFrame_missed hread, hnext]

/-- The read loop ends as `waitEnds` says. -/
theorem awaitFrame_ends {o : EStateM.Result Stop State Unit} (h : waitEnds c s o) : awaitFrame c wawPolls s = o := by
  obtain ⟨k, us, vs, ids, hk, rfl, hmiss, hend⟩ := h
  have hrun : awaitFrame c wawPolls (us 0) = awaitFrame c (1000 - k) (us k) := by
    rw [← awaitFrame_after_misses hmiss, Nat.sub_add_cancel hk]; rfl
  rcases hend with ⟨hlt, id, t, hread, rfl⟩ | ⟨hlt, x, t, hread, rfl⟩ | ⟨rfl, rfl⟩
  · obtain ⟨n, hn⟩ : ∃ n, 1000 - k = n + 1 := ⟨1000 - k - 1, by omega⟩
    rw [hrun, hn, awaitFrame_hit hread]
  · obtain ⟨n, hn⟩ : ∃ n, 1000 - k = n + 1 := ⟨1000 - k - 1, by omega⟩
    rw [hrun, hn, awaitFrame_error hread]
  · rw [hrun, awaitFrame_spent]

/-! ### The attempts of write-and-wait -/

theorem writeAttempts_notSent {x : Stop} (h : sendFrame c F s = .error x t) (n : Nat) :
    writeAttempts c F (n + 1) s = .error x t := by
  rw [writeAttempts, cmd_bind_error h]

theorem writeAttempts_sent (h : sendFrame c F s = .ok () u) (n : Nat) : writeAttempts c F (n + 1) s =
    catchErr (awaitFrame c wawPolls)
      (fun e => if e = .busEvent ∧ n ≠ 0 then writeAttempts c F n else raise e) u := by
  rw [writeAttempts, cmd_bind_ok h]

/-- A bus event in the wait sends the frame again while an attempt is left (R143). -/
theorem writeAttempts_resends (h : sendFrame c F s = .ok () u)
    (hwait : awaitFrame c wawPolls u = .error (.err .busEvent) t) (n : Nat) :
    writeAttempts c F (n + 2) s = writeAttempts c F (n + 1) t := by
  rw [writeAttempts_sent h, catchErr_err hwait, if_pos ⟨rfl, Nat.succ_ne_zero n⟩]

/-- Any other end of the wait, and any end of the last one, is the end of write-and-wait (R143). -/
theorem writeAttempts_ends {o : EStateM.Result Stop State Unit} {n : Nat} (h : sendFrame c F s = .ok () u)
    (hwait : awaitFrame c wawPolls u = o) (hlast : n = 0 ∨ ∀ t, o ≠ .error (.err .busEvent) t) :
    writeAttempts c F (n + 1) s = o := by
  rw [writeAttempts_sent h, catchErr, hwait]
  cases o with
  | ok a t => rfl
  | error x t =>
    cases x with
    | fault f => rfl
    | stuck => rfl
    | err e =>
      refine congrFun (if_neg ?_) t
      rintro ⟨rfl, hn⟩
      exact hlast.elim hn fun hother => hother t rfl

/-- After `n` attempts that end in a bus event the attempts go on where attempt `n` starts. -/
theorem writeAttempts_after_events {a w : Nat → State} {n : Nat}
    (hevents : ∀ j, j < n → sendFrame c F (a j) = .ok () (w j)
      ∧ awaitFrame c wawPolls (w j) = .error (.err .busEvent) (a (j + 1)))
    (m : Nat) : writeAttempts c F (m + 1 + n) (a 0) = writeAttempts c F (m + 1) (a n) := by
  induction n generalizing m with
  | zero => rfl
  | succ n ih =>
    obtain ⟨hsent, hwait⟩ := hevents n (Nat.lt_succ_self n)
    calc writeAttempts c F (m + 1 + (n + 1)) (a 0)
        = writeAttempts c F (m + 1 + 1 + n) (a 0) := by rw [show m + 1 + (n + 1) = m + 1 + 1 + n by omega]
      _ = writeAttempts c F (m + 2) (a n) := ih (fun j hj => hevents j (Nat.lt_succ_of_lt hj)) (m + 1)
      _ = writeAttempts c F (m + 1) (a (n + 1)) := writeAttempts_resends hsent hwait m

end

/-- Settles O53: the attempts before attempt `n` send the frame again, and attempt `n` ends as its write or its wait. -/
theorem writeAndWaitResendsOnBusEvents : Obligations.WriteAndWaitResendsOnBusEvents := by
  unfold Obligations.WriteAndWaitResendsOnBusEvents
  intro c F n a w hn hevents
  obtain ⟨m, hm⟩ : ∃ m, 3 = m + 1 + n := ⟨2 - n, by omega⟩
  have hrun : writeAndWait c F (a 0) = writeAttempts c F (m + 1) (a n) := by
    rw [writeAndWait, wawEventAttempts, hm]
    exact writeAttempts_after_events (fun j hj => (hevents j hj).imp_right awaitFrame_ends) m
  refine ⟨fun x t h => ?notSent, fun o hsent hwait hlast => ?waited⟩
  case notSent => rw [hrun, writeAttempts_notSent h]
  case waited =>
    rw [hrun]
    exact writeAttempts_ends hsent (awaitFrame_ends hwait) (hlast.imp_left fun h => by omega)

/-! ### CANSEND -/

section
variable {s u : State} {c : Slot} {F : Frame}

theorem hbufData_of_hbufHolds (h : hbufHolds s F) : hbufData 8 s = .ok F.bytes s :=
  hbufData_ok (mreadBytes_eq_some.2 ⟨rfl, fun i hi => by rw [Nat.zero_add]; exact h i hi⟩)

theorem execCansend_eq (hs : s.admits c suitsCan true) (h : hbufHolds s F) :
    execCansend c s = endCmd (do
      sendFrame c F
      pure false) s := by
  refine (endCmd_enter_none (commandError_of_admits hs)).trans ?_
  rw [endCmd, cmd_bind_ok (hbufData_of_hbufHolds h)]
  rfl

end

/-- Settles O54: by whether a byte is `undef`, then as the write of the frame ends. -/
theorem cansendWritesOneFrame : Obligations.CansendWritesOneFrame := by
  unfold Obligations.CansendWritesOneFrame
  intro s c hs
  refine ⟨decode_commandWord (by decide) rfl rfl, fun ⟨i, hi, hundef⟩ => ?undef, fun F d hF hd => ?sent⟩
  case undef =>
    exact (endCmd_enter_none (commandError_of_admits hs)).trans (endCmd_fault (cmd_bind_error (hbufData_undef hi hundef)))
  case sent =>
    intro u
    have hrun : exec (.cansend c) s = _ := execCansend_eq hs hF
    refine ⟨fun hf => ?returned, fun e he => ?failed⟩
    case returned =>
      have hsent : sendFrame c F s = .ok () u := by
        simp only [u, Draw.shows, hf]
        exact portCall_returns ⟨hd, hf⟩ _ _ _
      exact hrun.trans (endCmd_ok (cmd_bind_ok hsent))
    case failed =>
      have hfailed : sendFrame c F s = .error (.err e) u := portCall_fails hd he _ _ _
      exact hrun.trans (endCmd_err (cmd_bind_error hfailed))

/-! ### CANSENDW -/

section
variable {s u : State} {c : Slot} {F : Frame}

theorem execCansendw_eq (hs : s.admits c suitsCan true) (h : hbufHolds s F) :
    execCansendw c s = endCmd (do
      writeAndWait c F
      pure false) s := by
  refine (endCmd_enter_none (commandError_of_admits hs)).trans ?_
  rw [endCmd, cmd_bind_ok (hbufData_of_hbufHolds h)]
  rfl

/-- Write-and-wait answered by the first frame read: the frame out, the answer in its response slot (R140, R143). -/
theorem writeAndWait_first {d : Draw} {x : CanRx} (hproto : (s.descOf c).can.proto = .universal)
    (h0 : goesThrough s 0) (h1 : s.returns 1 d) (hx : d.frame = some x) (hfor : frameFor s c x) :
    writeAndWait c F s = .ok () ((s.slotted c x.data.bytes).afterEvents
      [.port (.canWrite (s.descOf c).port (s.descOf c).can.baseIdRx F) .done,
        .port (.canRead (s.descOf c).port) (.frame (some x))]) := by
  rw [slotted_afterEvents]
  exact writeAndWait_hit (sendFrame_goes h0 F) (routeRead_slotted (s := s.note _ _) (by
    rw [State.returns, draw_note]; exact h1) hx hfor hproto)

end

/-- Settles O55: as its write-and-wait ends, here the one whose first frame read is for the connection. -/
theorem cansendwWaitsForItsFrame : Obligations.CansendwWaitsForItsFrame := by
  unfold Obligations.CansendwWaitsForItsFrame
  intro s c F hs hF
  have hrun : exec (.cansendw c) s = _ := execCansendw_eq hs hF
  have hok : ∀ u, writeAndWait c F s = .ok () u → exec (.cansendw c) s = .next (u.endOk false) :=
    fun u h => hrun.trans (endCmd_ok (cmd_bind_ok h))
  exact ⟨hok, fun e u h => hrun.trans (endCmd_err (cmd_bind_error h)),
    fun d x hproto h0 h1 hx hfor => hok _ (writeAndWait_first hproto h0 h1 hx hfor)⟩

end Sys2Proof.Machine
end

section
/-! PROOF. CLOSE of a Master whose domain goes on: the first remaining entry's connection becomes its Master. -/

namespace Sys2Proof.Machine

/-! ### What re-election leaves as it was -/

theorem pointTo_eq (n : Slot) (l : List RouteEntry) (s : State) :
    s.pointTo n l = { s with conns := (s.pointTo n l).conns } := by
  induction l generalizing s with
  | nil => rfl
  | cons e es ih => rw [State.pointTo, ih]; rfl

/-- Re-election writes connections and domains only: it calls no port (R138). -/
theorem reelect_eq (s : State) (q : Byte) (old : Slot) :
    s.reelect q old = { s with conns := (s.reelect q old).conns, domains := (s.reelect q old).domains } := by
  unfold State.reelect
  split
  · rfl
  · dsimp only
    rw [pointTo_eq]
    rfl

/-- The connection of a slot after re-election, by whether the slot is elected, follows, or is of another domain. -/
theorem map_electedConn (o : Option Conn) (e : RouteEntry) (es : List RouteEntry) (up : Bool) (x : Slot) :
    o.map (electedConn e es up x) =
      if x = e.slot then o.map fun k => { k with role := .master, master := noSlot, connected := k.connected && up }
      else if x ∈ es.map RouteEntry.slot then o.map fun k => { k with master := e.slot }
      else o := by
  unfold electedConn
  split_ifs
  · rfl
  · rfl
  · exact Option.map_id'

/-! ### The parts of CLOSE that elect -/

section
variable {s u : State} {c : Slot} {q : Byte}

/-- Where entries remain, the destruction of a Master is a re-election (R137). -/
theorem destroyCan_elects (hr : (s.conn c).role = .master) (h : unregisterConnection q c c s = .ok () u)
    (hrest : (u.domain q).table ≠ []) : destroyCan q c s = .ok () (u.reelect q c) := by
  have hslave : (s.conn c).role ≠ .slave := by rw [hr]; decide
  unfold destroyCan
  rw [cmd_bind_ok (cmd_get s), if_neg hslave, cmd_bind_ok h, cmd_bind_ok (cmd_get u), if_neg hrest, cmd_modify]

theorem execClose_elects (hl : s.LinksLegal) (hs : s.RoutingLegal) (ha : s.admits c suitsAny false)
    (hr : (s.conn c).role = .master) (hrest : without s (s.descOf c).port c ≠ []) : execClose c s =
      .next ((released ((s.unregistered (s.descOf c).port c).reelect (s.descOf c).port c) c (s.conn c)).endOk false) := by
  have hrole : (s.conn c).role ≠ .none := by rw [hr]; decide
  refine execClose_ok ha ?_
  rw [closeTransport_can (kind_of_role hl ha hrole)]
  exact destroyCan_elects hr (unregisterConnection_ok hr (exists_entry_of_role hl hs ha hrole))
    (by rw [table_unregistered]; exact hrest)

/-- The slots that remain in a domain have one entry each (R36 (d)). -/
theorem without_nodup (hs : s.RoutingLegal) (q : Byte) (c : Slot) :
    ((without s q c).map RouteEntry.slot).Nodup := by
  obtain ⟨-, hentered⟩ := (routingLegal_iff s).1 hs
  rw [without_eq_filter]
  exact (hentered.closed c).nodup q

theorem released_conn? (s : State) (c x : Slot) (k : Conn) :
    (released s c k).conn? x = if x = c then none else s.conn? x := State.conn?_closed s c x k

theorem released_domain (s : State) (c : Slot) (k : Conn) (q : Byte) : (released s c k).domain q = s.domain q := by
  rw [State.domain, State.domain, show (released s c k).domains = s.domains from State.closed_domains s c k]

/-- Releasing a slot changes its connection and, for an owner, its descriptor (R91). -/
theorem released_eq (s : State) (c : Slot) (k : Conn) : released s c k = { s with
    conns := (released s c k).conns
    descs := if k.owner then s.descs.modify k.desc.toNat fun d => { d with valid := false } else s.descs } := by
  unfold released
  cases k.owner <;> rfl

end

/-- Settles O25: CLOSE takes the Master's entry out, re-elects, and releases the slot. -/
theorem closeOfAMasterElectsTheFirstEntry : Obligations.CloseOfAMasterElectsTheFirstEntry := by
  unfold Obligations.CloseOfAMasterElectsTheFirstEntry
  intro s c n es hl hs ha hr hrest q
  have htable : ((s.unregistered q c).domain q).table = n :: es := by rw [table_unregistered, hrest]
  have hnodup := without_nodup hs q c
  rw [hrest, List.map_cons, List.nodup_cons] at hnodup
  obtain ⟨hfirst, -⟩ := hnodup
  obtain ⟨hconn, hdomain⟩ := reelect_cons htable hfirst c
  let u := (s.unregistered q c).reelect q c
  refine ⟨released u c (s.conn c), execClose_elects hl hs ha hr (by rw [hrest]; simp), ?elected, fun q' hq' => ?others,
    fun x => ?conns, ?frame⟩
  case elected => rw [released_domain, hdomain, if_pos rfl]
  case others => rw [released_domain, hdomain, if_neg hq'.symm, domain_unregistered, if_neg hq'.symm]
  case conns => rw [released_conn?, hconn, map_electedConn]; rfl
  case frame =>
    have hu : u = { s with conns := u.conns, domains := u.domains } := reelect_eq (s.unregistered q c) q c
    rw [released_eq, hu]

end Sys2Proof.Machine
end

section
/-! PROOF. The Direct-CAN commands: GETVAL and SETVAL by their write-and-wait and the front of the configuration FIFO,
STREAM by its attempts, and the FIFO commands by whether their FIFO is empty. -/

namespace Sys2Proof.Machine

/-! ### The FIFOs of a connection -/

/-- Two changes of a connection are one if they agree on the connection in the slot, used or not. -/
theorem modConn_congr_conn {s : State} {c : Slot} {f g : Conn → Conn} (h : f (s.conn c) = g (s.conn c)) :
    s.modConn c f = s.modConn c g := by
  cases hk : s.conn? c with
  | some k => exact modConn_congr hk (State.conn_of_some hk ▸ h)
  | none =>
    have hk : tget s.conns c.toNat = none := hk
    simp only [State.modConn, tmodify, hk]

section
variable {s : State} {c : Slot} {e : Word × Frame} {rest : List (Word × Frame)}

theorem modConn_popCfg (h : (s.conn c).cfgFifo = e :: rest) :
    s.modConn c popCfg = s.modConn c fun k => { k with cfgFifo := rest } :=
  modConn_congr_conn (by rw [popCfg, h, List.tail_cons])

theorem modConn_popDet (h : (s.conn c).detFifo = e :: rest) :
    s.modConn c popDet = s.modConn c fun k => { k with detFifo := rest } :=
  modConn_congr_conn (by rw [popDet, h, List.tail_cons])

end

/-! ### A request and its answer -/

section
variable {s t u : State} {c : Slot} {F A : Frame} {id : Word} {rest : List (Word × Frame)}

theorem echoes_congr (h : SameLink c s t) : echoes t c F A ↔ echoes s c F A := by
  rw [echoes, echoes, h.descOf]

/-- The condition of the model's echo check (R148). -/
theorem not_echoes_iff : ¬echoes s c F A ↔ A.cmd ≠ F.cmd + (s.descOf c).can.answerOffset ∨ A.sub ≠ F.sub := by
  rw [echoes, not_and_or]

theorem requestAnswer_waitError {x : Stop} (h : writeAndWait c F s = .error x u) :
    requestAnswer c F s = .error x u := by
  rw [requestAnswer, cmd_bind_error h]

theorem requestAnswer_empty (h : writeAndWait c F s = .ok () u) (hfifo : (u.conn c).cfgFifo = []) :
    requestAnswer c F s = .error (.err .noConfigAnswer) u := by
  rw [requestAnswer, cmd_bind_ok h, cmd_bind_ok (cmd_get u), hfifo]
  rfl

/-- Where the configuration FIFO has a front after the wait, it is popped and checked (R148). -/
theorem requestAnswer_front (h : writeAndWait c F s = .ok () u) (hfifo : (u.conn c).cfgFifo = (id, A) :: rest) :
    requestAnswer c F s =
      (if A.cmd ≠ F.cmd + (u.descOf c).can.answerOffset ∨ A.sub ≠ F.sub then raise (.echoMismatch id)
        else modify fun v => v.showFrame (id, A) : Cmd Unit) (u.modConn c fun k => { k with cfgFifo := rest }) := by
  rw [requestAnswer, cmd_bind_ok h, cmd_bind_ok (cmd_get u), ← modConn_popCfg hfifo, hfifo]
  exact cmd_bind_ok (cmd_modify _ u)

theorem requestAnswer_wrongEcho (h : writeAndWait c F s = .ok () u) (hfifo : (u.conn c).cfgFifo = (id, A) :: rest)
    (hecho : ¬echoes s c F A) : requestAnswer c F s =
      .error (.err (.echoMismatch id)) (u.modConn c fun k => { k with cfgFifo := rest }) := by
  have hlink : SameLink c s u := sameLink_of_quiet ((quiet_writeAndWait c F).ok h) c
  rw [requestAnswer_front h hfifo, if_pos (not_echoes_iff.1 (mt (echoes_congr hlink).1 hecho))]
  rfl

theorem requestAnswer_rightEcho (h : writeAndWait c F s = .ok () u) (hfifo : (u.conn c).cfgFifo = (id, A) :: rest)
    (hecho : echoes s c F A) : requestAnswer c F s =
      .ok () ((u.modConn c fun k => { k with cfgFifo := rest }).showFrame (id, A)) := by
  have hlink : SameLink c s u := sameLink_of_quiet ((quiet_writeAndWait c F).ok h) c
  rw [requestAnswer_front h hfifo, if_neg (mt not_echoes_iff.2 (not_not.2 ((echoes_congr hlink).2 hecho)))]
  rfl

/-! ### GETVAL and SETVAL -/

/-- Behind their checks GETVAL and SETVAL are the request of their frame (R148, R149). -/
theorem exec_request {i : Instr} (hs : s.admits c suitsDirect true) (h : requests s c i F) :
    exec i s = endCmd (do
      requestAnswer c F
      pure false) s := by
  have hcheck : s.commandError true c suitsDirect true = none := commandError_of_admits hs
  rcases h with ⟨rfl, hcmd, harg, rfl⟩ | ⟨rfl, hF⟩
  · have hfits : (fits8 s.arg0 && fits8 s.arg1) = true := by
      rw [(fits8_iff s.arg0).2 hcmd, (fits8_iff s.arg1).2 harg]; rfl
    rw [exec, execGetval, hfits]
    exact endCmd_enter_none hcheck
  · refine (endCmd_enter_none hcheck).trans ?_
    rw [endCmd, cmd_bind_ok (hbufData_of_hbufHolds hF)]
    rfl

theorem exec_request_ok {i : Instr} (hs : s.admits c suitsDirect true) (h : requests s c i F)
    (hrun : requestAnswer c F s = .ok () u) : exec i s = .next (u.endOk false) :=
  (exec_request hs h).trans (endCmd_ok (cmd_bind_ok hrun))

theorem exec_request_error {i : Instr} {x : Err} (hs : s.admits c suitsDirect true) (h : requests s c i F)
    (hrun : requestAnswer c F s = .error (.err x) u) : exec i s = .next (u.endErr x) :=
  (exec_request hs h).trans (endCmd_err (cmd_bind_error hrun))

end

/-- Settles O56: as the wait ends, then by the front of the configuration FIFO and its echo. -/
theorem requestsPopOneConfigAnswer : Obligations.RequestsPopOneConfigAnswer := by
  unfold Obligations.RequestsPopOneConfigAnswer
  intro s c i F hs hreq
  refine ⟨fun e u hwait => exec_request_error hs hreq (requestAnswer_waitError hwait), fun u hwait =>
    ⟨fun hempty => exec_request_error hs hreq (requestAnswer_empty hwait hempty), fun id A rest hfifo => ?front⟩⟩
  case front =>
    exact ⟨fun hecho => exec_request_error hs hreq (requestAnswer_wrongEcho hwait hfifo hecho),
      fun hecho => exec_request_ok hs hreq (requestAnswer_rightEcho hwait hfifo hecho)⟩

/-! ### A request answered by the first frame read -/

/-- A Direct-CAN connection is one that suits the Direct-CAN commands (R71). -/
theorem direct_of_suitsDirect {k : Conn} {d : Desc} (h : suitsDirect k d = true) : d.can.proto = .direct := by
  rw [suitsDirect, Bool.and_eq_true] at h
  exact beq_iff_eq.1 h.2

section
variable {s : State} {c : Slot} {F : Frame} {d : Draw} {x : CanRx}

/-- The state with a frame at the end of the configuration FIFO of a connection (R147). -/
def State.queuedCfg (s : State) (c : Slot) (x : CanRx) : State :=
  s.modConn c fun k => { k with cfgFifo := k.cfgFifo ++ [(x.id, x.data)] }

/-- A configuration answer for a Direct-CAN connection goes to its configuration FIFO where that has room (R147). -/
theorem deliver_queuedCfg (hproto : (s.descOf c).can.proto = .direct) (hones : ¬allOnes x.data)
    (hconfig : configAnswer (s.descOf c).can x) (hroom : (s.conn c).cfgFifo.length < s.cfg.fifoDepth) :
    deliver c x.id x.data s = .ok () (s.queuedCfg c x) := by
  rw [deliver_direct hproto, classify_config hones hconfig, if_neg (Nat.not_le.2 hroom)]
  rfl

/-- A routed read of a configuration answer for the connection. -/
theorem routeRead_queuedCfg (hd : s.returns 0 d) (hx : d.frame = some x) (hfor : frameFor s c x)
    (hproto : (s.descOf c).can.proto = .direct) (hones : ¬allOnes x.data)
    (hconfig : configAnswer (s.descOf c).can x) (hroom : (s.conn c).cfgFifo.length < s.cfg.fifoDepth) :
    routeRead c s = .ok (true, x.id)
      ((s.afterEvents [.port (.canRead (s.descOf c).port) (.frame (some x))]).queuedCfg c x) := by
  obtain ⟨hev, hid, l, e, r, ht, rfl, he, hfirst⟩ := hfor
  rw [routeRead_delivers hd hx hev hid (routeOf_first ht hfirst he), decide_eq_true rfl]
  exact deliver_queuedCfg (by rwa [afterEvents_descOf]) hones (by rwa [afterEvents_descOf])
    (by rwa [afterEvents_conn, afterEvents_cfg])

/-- Write-and-wait whose first frame read is a configuration answer for the connection (R143, R147). -/
theorem writeAndWait_queuedCfg (h0 : goesThrough s 0) (h1 : s.returns 1 d) (hx : d.frame = some x)
    (hfor : frameFor s c x) (hproto : (s.descOf c).can.proto = .direct) (hones : ¬allOnes x.data)
    (hconfig : configAnswer (s.descOf c).can x) (hroom : (s.conn c).cfgFifo.length < s.cfg.fifoDepth) :
    writeAndWait c F s = .ok () ((s.afterEvents
      [.port (.canWrite (s.descOf c).port (s.descOf c).can.baseIdRx F) .done,
        .port (.canRead (s.descOf c).port) (.frame (some x))]).queuedCfg c x) :=
  writeAndWait_hit (sendFrame_goes h0 F) (routeRead_queuedCfg (s := s.note _ _)
    (by rw [State.returns, draw_note]; exact h1) hx hfor hproto hones hconfig hroom)

end

/-- Settles O57: the wait appends the first frame read to the FIFO, and the front of the FIFO is popped and shown. -/
theorem requestsShowTheirAnswer : Obligations.RequestsShowTheirAnswer := by
  unfold Obligations.RequestsShowTheirAnswer
  intro s c i F d x id A rest hs hreq h0 h1 hx hfor hones hconfig hroom hfront hecho
  have hproto : (s.descOf c).can.proto = .direct := by
    obtain ⟨-, -, hsuits, -⟩ := hs
    exact direct_of_suitsDirect hsuits
  let read := s.afterEvents [.port (.canWrite (s.descOf c).port (s.descOf c).can.baseIdRx F) .done,
    .port (.canRead (s.descOf c).port) (.frame (some x))]
  have hread : read.conn? c = some (read.conn c) := by
    rw [afterEvents_conn?, afterEvents_conn]; exact conn?_of_admits hs
  have hwait : writeAndWait c F s = .ok () (read.queuedCfg c x) :=
    writeAndWait_queuedCfg h0 h1 hx hfor hproto hones hconfig hroom
  have hfifo : ((read.queuedCfg c x).conn c).cfgFifo = (id, A) :: rest := by
    rw [State.queuedCfg, conn_modConn_same hread, afterEvents_conn]; exact hfront
  refine ⟨_, exec_request_ok hs hreq (requestAnswer_rightEcho hwait hfifo hecho), rfl, fun y => ?conns⟩
  case conns =>
    have hconns : ((read.queuedCfg c x).modConn c fun k => { k with cfgFifo := rest }).conn? y =
        (read.modConn c fun k => { k with cfgFifo := rest }).conn? y := by
      rw [State.queuedCfg, modConn_modConn]
    refine hconns.trans ?_
    rw [State.conn?_modConn, hread, afterEvents_conn, afterEvents_conn?]
    exact if_congr eq_comm rfl rfl

/-! ### The attempts of STREAM -/

theorem isAnswerWait_eq_false {x : Err} (h : ∀ g, x ≠ .timeoutAnswerWait g) : isAnswerWait x = false := by
  cases x with
  | timeoutAnswerWait g => exact absurd rfl (h g)
  | _ => rfl

section
variable {s t : State} {c : Slot} {F : Frame}

theorem streamAttempts_acknowledged (h : writeAndWait c F s = .ok () t) (n : Nat) :
    streamAttempts c F (n + 1) s = .ok () t := by
  rw [streamAttempts, catchErr_ok h]

/-- An answer-wait Timeout makes the next attempt while one is left (R150). -/
theorem streamAttempts_retries {g : Bool} (h : writeAndWait c F s = .error (.err (.timeoutAnswerWait g)) t) (n : Nat) :
    streamAttempts c F (n + 2) s = streamAttempts c F (n + 1) t := by
  rw [streamAttempts, catchErr_err h]; rfl

theorem streamAttempts_spent {g : Bool} (h : writeAndWait c F s = .error (.err (.timeoutAnswerWait g)) t) :
    streamAttempts c F 1 s = .error (.err .timeoutStreamAck) t := by
  rw [streamAttempts, catchErr_err h]; rfl

/-- Any other error is that of the attempts, a driver's Timeout too (R150; log 14). -/
theorem streamAttempts_error {x : Err} (h : writeAndWait c F s = .error (.err x) t)
    (hx : ∀ g, x ≠ .timeoutAnswerWait g) (n : Nat) : streamAttempts c F (n + 1) s = .error (.err x) t := by
  rw [streamAttempts, catchErr_err h, isAnswerWait_eq_false hx]; rfl

/-- After `n` attempts that end in an answer-wait Timeout the attempts go on where attempt `n` starts. -/
theorem streamAttempts_after_timeouts {a : Nat → State} {f : Nat → Bool} {n : Nat}
    (htimeouts : ∀ j, j < n → writeAndWait c F (a j) = .error (.err (.timeoutAnswerWait (f j))) (a (j + 1)))
    (m : Nat) : streamAttempts c F (m + 1 + n) (a 0) = streamAttempts c F (m + 1) (a n) := by
  induction n generalizing m with
  | zero => rfl
  | succ n ih =>
    calc streamAttempts c F (m + 1 + (n + 1)) (a 0)
        = streamAttempts c F (m + 1 + 1 + n) (a 0) := by rw [show m + 1 + (n + 1) = m + 1 + 1 + n by omega]
      _ = streamAttempts c F (m + 2) (a n) := ih (fun j hj => htimeouts j (Nat.lt_succ_of_lt hj)) (m + 1)
      _ = streamAttempts c F (m + 1) (a (n + 1)) := streamAttempts_retries (htimeouts n (Nat.lt_succ_self n)) m

end

/-! ### STREAM -/

/-- The request of STREAM by the family of the connection's device: acknowledged, or only sent (R150). -/
def streamRequest (c : Slot) (F : Frame) : Family → Cmd Unit
  | .a => do
    streamAttempts c F streamAckAttempts
    modify (fun s => s.modConn c popCfg)
  | .b => sendFrame c F

/-- The state after the settling time of STREAM, with the Direct-CAN state it sets (R150, R151). -/
def State.settled (s : State) (c : Slot) (e : Bool) : State :=
  (s.afterEvents [.sleep 10]).modConn c fun k => { k with dstate := if e then .streaming else .idle }

/-- The streaming frame of R82 has its flag, low byte first, in the argument bytes 0 to 3. -/
theorem dcanStreamFrame_eq (g : Config) (e : Bool) (v : Word) : dcanStreamFrame g e v =
    frameOf g.dcanStreamCmd (if e then g.dcanStreamSubOn else g.dcanStreamSubOff)
      [v.extractLsb' 0 8, v.extractLsb' 8 8, v.extractLsb' 16 8, v.extractLsb' 24 8] := rfl

section
variable {s u : State} {c : Slot} {e : Bool}

theorem execStream_eq (hs : s.admits c suitsDirect true) : execStream c e s = endCmd (do
    streamRequest c (dcanStreamFrame s.cfg e s.arg0) (s.descOf c).can.family
    sleep streamSettleMs
    modify (fun s => s.modConn c (fun k => { k with dstate := if e then .streaming else .idle }))
    pure false) s := by
  refine (endCmd_enter_none (commandError_of_admits hs)).trans ?_
  cases (s.descOf c).can.family with
  | a => simp only [streamRequest, bind_assoc]
  | b => rfl

theorem execStream_ok (hs : s.admits c suitsDirect true)
    (h : streamRequest c (dcanStreamFrame s.cfg e s.arg0) (s.descOf c).can.family s = .ok () u) :
    execStream c e s = .next ((u.settled c e).endOk false) :=
  (execStream_eq hs).trans (endCmd_ok (cmd_bind_ok h))

theorem execStream_error {x : Err} (hs : s.admits c suitsDirect true)
    (h : streamRequest c (dcanStreamFrame s.cfg e s.arg0) (s.descOf c).can.family s = .error (.err x) u) :
    execStream c e s = .next (u.endErr x) :=
  (execStream_eq hs).trans (endCmd_err (cmd_bind_error h))

end

/-- Settles O58: family B as the write of its frame ends, family A as the attempt after the last answer-wait Timeout. -/
theorem streamSettlesAndSetsTheState : Obligations.StreamSettlesAndSetsTheState := by
  unfold Obligations.StreamSettlesAndSetsTheState
  intro s c e hs D v F settled
  refine ⟨decode_commandWord (by decide) rfl rfl, fun hfamily d hd => ?familyB,
    fun hfamily n a f ha hn htimeouts => ?familyA⟩
  case familyB =>
    intro u
    have hrequest : streamRequest c (dcanStreamFrame s.cfg e v) D.family = sendFrame c F := by
      rw [hfamily, dcanStreamFrame_eq]; rfl
    refine ⟨fun hf => execStream_ok hs ((congrFun hrequest s).trans ?returned),
      fun x hx => execStream_error hs ((congrFun hrequest s).trans (portCall_fails hd hx _ _ _))⟩
    case returned =>
      simp only [u, Draw.shows, hf]
      exact portCall_returns ⟨hd, hf⟩ _ _ _
  case familyA =>
    obtain ⟨m, hm⟩ : ∃ m, 5 = m + 1 + n := ⟨4 - n, by omega⟩
    have hattempts : streamAttempts c F streamAckAttempts s = streamAttempts c F (m + 1) (a n) := by
      rw [streamAckAttempts, hm, ← ha]
      exact streamAttempts_after_timeouts htimeouts m
    have hrequest : streamRequest c (dcanStreamFrame s.cfg e v) D.family = (do
        streamAttempts c F streamAckAttempts
        modify (fun s => s.modConn c popCfg) : Cmd Unit) := by rw [hfamily, dcanStreamFrame_eq]; rfl
    have herror : ∀ {x u}, streamAttempts c F (m + 1) (a n) = .error (.err x) u →
        exec (.stream c e) s = .next (u.endErr x) := fun h =>
      execStream_error hs ((congrFun hrequest s).trans (cmd_bind_error (hattempts.trans h)))
    refine ⟨fun u h => ?acknowledged, fun g u h hlast => herror ?spent,
      fun x u h hx => herror (streamAttempts_error h hx m)⟩
    case acknowledged =>
      exact execStream_ok hs ((congrFun hrequest s).trans
        (cmd_bind_ok (hattempts.trans (streamAttempts_acknowledged h m))))
    case spent =>
      obtain rfl : m = 0 := by omega
      exact streamAttempts_spent h

/-! ### The FIFO commands -/

/-- What RDCFG and RDDET do with their FIFO behind their checks (R152, R153). -/
def fifoRead (fifo : Conn → List (Word × Frame)) (c : Slot) (s : State) : Cmd Bool := do
  if fifo (s.conn c) = [] then
    let _ ← routeRead c
  let s ← get
  pure (fifo (s.conn c) != [])

/-- What POPCFG and POPDET do with their FIFO behind their checks (R154, R155). -/
def fifoPop (fifo : Conn → List (Word × Frame)) (pop : Conn → Conn) (c : Slot) (s : State) : Local Bool :=
  match fifo (s.conn c) with
  | [] => raiseLocal .fifoEmpty
  | e :: _ => do
    modify (fun s => (s.modConn c pop).showFrame e)
    pure false

section
variable {fifo : Conn → List (Word × Frame)} {pop : Conn → Conn} {s u : State} {c : Slot}

/-- A non-empty FIFO is answered with no read. -/
theorem fifoRead_held (h : fifo (s.conn c) ≠ []) : fifoRead fifo c s s = .ok true s := by
  have hres : (fifo (s.conn c) != []) = true := bne_iff_ne.2 h
  rw [← hres, fifoRead, if_neg h]
  rfl

/-- An empty FIFO is answered after one routed read. -/
theorem fifoRead_read {r : Bool × Word} (h : fifo (s.conn c) = []) (hread : routeRead c s = .ok r u) :
    fifoRead fifo c s s = .ok (decide (fifo (u.conn c) ≠ [])) u := by
  have hres : (fifo (u.conn c) != []) = decide (fifo (u.conn c) ≠ []) :=
    Bool.eq_iff_iff.2 (bne_iff_ne.trans decide_eq_true_iff.symm)
  rw [← hres, fifoRead, if_pos h]
  exact cmd_bind_ok hread

theorem fifoRead_error {x : Stop} (h : fifo (s.conn c) = []) (hread : routeRead c s = .error x u) :
    fifoRead fifo c s s = .error x u := by
  rw [fifoRead, if_pos h]
  exact cmd_bind_error hread

theorem fifoPop_empty (h : fifo (s.conn c) = []) : endLocal (fifoPop fifo pop c s) s = .next (s.endErr .fifoEmpty) := by
  rw [fifoPop, h]; rfl

theorem fifoPop_front {e : Word × Frame} {rest : List (Word × Frame)} (h : fifo (s.conn c) = e :: rest) :
    endLocal (fifoPop fifo pop c s) s = .next (((s.modConn c pop).showFrame e).endOk false) := by
  rw [fifoPop, h]; rfl

theorem execRdcfg_eq (hs : s.admits c suitsDirect true) : execRdcfg c s = endCmd (fifoRead Conn.cfgFifo c s) s :=
  endCmd_enter_none (commandError_of_admits hs)

theorem execRddet_eq (hs : s.admits c suitsDirect true) : execRddet c s = endCmd (fifoRead Conn.detFifo c s) s :=
  endCmd_enter_none (commandError_of_admits hs)

theorem execPopcfg_eq (hs : s.admits c suitsDirect false) :
    execPopcfg c s = endLocal (fifoPop Conn.cfgFifo popCfg c s) s :=
  endLocal_enter_none (commandError_of_admits hs)

theorem execPopdet_eq (hs : s.admits c suitsDirect false) :
    execPopdet c s = endLocal (fifoPop Conn.detFifo popDet c s) s :=
  endLocal_enter_none (commandError_of_admits hs)

end

/-- Settles O59: the four commands are `fifoRead` and `fifoPop` of their FIFO, by whether it is empty. -/
theorem fifoCommands : Obligations.FifoCommands := by
  unfold Obligations.FifoCommands
  intro s c r u x
  refine ⟨decode_commandWord (by decide) rfl rfl, decode_commandWord (by decide) rfl rfl,
    decode_commandWord (by decide) rfl rfl, decode_commandWord (by decide) rfl rfl, fun hs => ?read, fun hs => ?pop⟩
  case read =>
    rw [exec, exec, execRdcfg_eq hs, execRddet_eq hs]
    exact ⟨fun h => endCmd_ok (fifoRead_held h), fun h hread => endCmd_ok (fifoRead_read h hread),
      fun h hread => endCmd_err (fifoRead_error h hread), fun h => endCmd_ok (fifoRead_held h),
      fun h hread => endCmd_ok (fifoRead_read h hread), fun h hread => endCmd_err (fifoRead_error h hread)⟩
  case pop =>
    rw [exec, exec, execPopcfg_eq hs, execPopdet_eq hs]
    refine ⟨fifoPop_empty, fun id A rest h => ?config, fifoPop_empty, fun id A rest h => ?detection⟩
    case config => rw [fifoPop_front h, modConn_popCfg h]; rfl
    case detection => rw [fifoPop_front h, modConn_popDet h]; rfl

end Sys2Proof.Machine
end

section
/-! PROOF. The faults of the host window and of commands over `undef` bytes: a host access that has no move, and a byte
of HBUF that is used or read while it is `undef`. -/

namespace Sys2Proof.Machine

/-! ### Host accesses that have no move -/

section

variable {s : State}

/-- The host performs its access in the step that finds it: an eager one at any time, a waiting one while no command
runs. -/
theorem step_access {a : HostAccess} {r : List HostItem}
    (h : s.hostq = .eager a :: r ∨ (s.busy = false ∧ s.hostq = .waiting a :: r)) :
    step s = hostAccess a { s with hostq := r } := by
  rcases h with hq | ⟨hb, hq⟩
  · rw [step, hq, State.nextHostItem, hq, List.tail_cons]
    exact ite_self _
  · exact step_waiting hb hq

theorem hostWrite32_busy (h : s.busy = true) (off : Nat) (v : Word) : hostWrite32 off v s = .fault .hostNoMove :=
  if_pos h

theorem hostWrite8_busy (h : s.busy = true) (off : Nat) (v : Byte) : hostWrite8 off v s = .fault .hostNoMove :=
  if_pos h

theorem hostWrite32_unlisted {off : Nat} (h : off ∉ registerOffsets) (v : Word) :
    hostWrite32 off v s = .fault .hostNoMove := by
  simp only [registerOffsets, List.mem_cons, not_or] at h
  simp only [hostWrite32, h, if_false, ite_self]

/-- The two kinds of readable registers are all of R18's list. -/
theorem hostRead32_unlisted {off : Nat} (h : off ∉ registerOffsets) : hostRead32 off s = .fault .hostNoMove := by
  simp only [registerOffsets, List.mem_cons, not_or] at h
  have hopen : s.openReg off = none := by simp only [State.openReg, h, if_false]
  have hresult : s.resultReg off = none := by simp only [State.resultReg, h, if_false]
  simp only [hostRead32, hopen, hresult, ite_self]

theorem not_inside_hbuf {off n : Nat} (h : off < 0x100 ∨ 0x100 + n ≤ off) :
    ¬(hbufBase ≤ off ∧ off < hbufBase + n) := by
  unfold hbufBase
  omega

theorem hostWrite8_outside {off : Nat} (h : off < 0x100 ∨ 0x100 + s.cfg.hbufSize ≤ off) (v : Byte) :
    hostWrite8 off v s = .fault .hostNoMove := by
  rw [hostWrite8, if_neg (not_inside_hbuf h), ite_self]

theorem hostRead8_outside {off : Nat} (h : off < 0x100 ∨ 0x100 + s.cfg.hbufSize ≤ off) :
    hostRead8 off s = .fault .hostNoMove := by
  rw [hostRead8, if_neg (not_inside_hbuf h), ite_self]

end

/-- Settles O10: the step is the access, and each access the interface does not allow is a branch with no move. -/
theorem forbiddenHostAccessHasNoMove : Obligations.ForbiddenHostAccessHasNoMove := by
  unfold Obligations.ForbiddenHostAccessHasNoMove
  intro s r a hq hforbidden
  rw [step_access hq]
  rcases hforbidden with ⟨hb, ⟨off, v, rfl⟩ | ⟨off, v, rfl⟩⟩ | ⟨off, rfl⟩ | ⟨off, v, rfl, hoff⟩ | ⟨off, rfl, hoff⟩
    | ⟨off, hoff, ⟨v, rfl⟩ | rfl⟩
  · exact hostWrite32_busy (s := { s with hostq := r }) hb off v
  · exact hostWrite8_busy (s := { s with hostq := r }) hb off v
  · rfl
  · exact hostWrite32_unlisted hoff v
  · exact hostRead32_unlisted hoff
  · exact hostWrite8_outside (s := { s with hostq := r }) hoff v
  · exact hostRead8_outside (s := { s with hostq := r }) hoff

/-! ### Bytes that are `undef` -/

section

variable {s : State} {i : Nat}

theorem hostRead8_undef (hb : s.busy = false) (hi : i < s.cfg.hbufSize) (hm : mread s.hbuf i = none) :
    hostRead8 (0x100 + i) s = .fault .undefRead := by
  obtain ⟨hin, hoff⟩ := hbufBase_offset hi
  rw [hostRead8, if_neg (by simp [hb]), if_pos hin, hoff, hm]

theorem crcData_undef {l : Word} (hi : i < l.toNat) (hl : l.toNat ≤ s.cfg.hbufSize) (hm : mread s.hbuf i = none) :
    crcData l s = .error (.fault .undefRead) s :=
  (crcData_fits (Nat.not_lt.2 hl)).trans (hbufData_undef hi hm)

/-- Behind the common checks, a command that starts with a read of an `undef` byte of HBUF faults. -/
theorem endCmd_enter_undef {c : Slot} {f : Conn → Desc → Bool} {n : Nat} {g : Bytes → Cmd Bool}
    (hs : s.admits c f true) (hi : i < n) (hm : mread s.hbuf i = none) :
    endCmd (do enter true c f true; hbufData n >>= g) s = .fault .undefRead :=
  (endCmd_enter_none (commandError_of_admits hs)).trans (endCmd_fault (cmd_bind_error (hbufData_undef hi hm)))

/-- The data of WRREG is read behind the checks of the access, too. -/
theorem execWrreg_undef {c : Slot} (hs : s.admits c suitsRegister true)
    (hacc : s.accessError c true s.arg0 s.arg1.toNat = none) (hi : i < s.arg1.toNat) (hm : mread s.hbuf i = none) :
    execWrreg c s = .fault .undefRead := by
  refine (endCmd_enter_none (commandError_of_admits hs)).trans (endCmd_fault (u := s) ?_)
  rw [cmd_bind_ok (checkAccess_none hacc)]
  exact cmd_bind_error (hbufData_undef hi hm)

end

/-- A command that calls no port and uses no byte as data ends in every state. -/
theorem endLocal_answers (m : Local Bool) (s : State) : ∃ t, endLocal m s = .next t := ⟨finishLocal m s, rfl⟩

/-- Settles O9: each use of the byte is a read of `hbufData` or of the host; BUFPEEK and RESIZE are local commands. -/
theorem undefinedBytesFaultWhereTheyAreUsed : Obligations.UndefinedBytesFaultWhereTheyAreUsed := by
  unfold Obligations.UndefinedBytesFaultWhereTheyAreUsed
  refine ⟨fun s r i hb hi hm hq => ?host, fun s i hm => ⟨fun hi hl => ?crc16, fun hi hl hw => ?crcchk, fun c =>
    ⟨fun hi hs hacc => ?wrreg, fun hi hs => ?cansend, fun hi hs => ?cansendw, fun hi hs => ?setval⟩⟩,
    fun s c e => ⟨?bufpeek, ?resize⟩⟩
  case host => exact (step_waiting hb hq).trans (hostRead8_undef (s := { s with hostq := r }) hb hi hm)
  case crc16 => exact endCmd_fault (cmd_bind_error (crcData_undef hi hl hm))
  case crcchk =>
    exact (execCrcchk_narrow (eq_of_beq hw)).trans (endCmd_fault (cmd_bind_error (crcData_undef hi hl hm)))
  case wrreg => exact execWrreg_undef hs hacc hi hm
  case cansend => exact endCmd_enter_undef hs hi hm
  case cansendw => exact endCmd_enter_undef hs hi hm
  case setval => exact endCmd_enter_undef hs hi hm
  case bufpeek => exact endLocal_answers _ s
  case resize => exact endLocal_answers _ s

end Sys2Proof.Machine
end

section
/-! PROOF. The ends of a command: the completion without error, the error completion and its reports (R156, R157, R160,
R161), or neither for a command that is stuck. -/

namespace Sys2Proof.Machine

/-! ### The two completions -/

/-- Settles O12: the work of a command leaves STATUS and the error registers, and `Ended` has the three ways. -/
theorem everyCommandEndsInOneOfTwoWays : Obligations.EveryCommandEndsInOneOfTwoWays := by
  unfold Obligations.EveryCommandEndsInOneOfTwoWays
  intro i s t h
  obtain ⟨u, ⟨hu, -⟩, he⟩ := exec_written h
  rw [hu] at he
  rcases he with ⟨res, rfl⟩ | ⟨e, rfl⟩ | rfl
  · exact .inl ⟨res, rfl, rfl, rfl, rfl⟩
  · exact .inr (.inl ⟨e, rfl, rfl, rfl, rfl⟩)
  · exact .inr (.inr ⟨rfl, rfl, rfl, rfl, rfl⟩)

/-! ### The error reports -/

/-- STATUS after an error as a number: ERRSUB and ERRCODE above the flags DONE and ERR (R21, R160). -/
theorem statusError_eq_ofNat (e : Err) :
    statusError e = BitVec.ofNat 32 (2 ^ 16 * e.sub.toNat + 2 ^ 8 * e.code.toNat + 0b0110) := by
  have hsub := e.sub.isLt
  have hcode := e.code.isLt
  apply BitVec.eq_of_toNat_eq
  simp only [statusError, statusWord, toNat_append_eq_add, BitVec.toNat_ofNat, BitVec.toNat_ofBool, Bool.toNat_true,
    Bool.toNat_false]
  omega

theorem errInfoWord_eq_ite (e : Err) : errInfoWord e = if e.flag then 1#32 else 0#32 := by
  rw [errInfoWord]
  cases e.flag <;> rfl

/-- A row of the tables of R157 (error, ERRCODE, ERRSUB, ERRADDR, ERRSIZE, ERRINFO) agrees with the model's functions of
its error. -/
structure RowMatches (r : Err × Nat × Nat × Word × Word × Bool) : Prop where
  code : r.1.code.toNat = r.2.1
  sub : r.1.sub.toNat = r.2.2.1
  addr : r.1.addr = r.2.2.2.1
  size : r.1.size = r.2.2.2.2.1
  flag : r.1.flag = r.2.2.2.2.2

theorem reportTable_matches (a n : Word) (f : Bool) (slot : Slot) : ∀ r ∈ reportTable a n f slot, RowMatches r := by
  have hslot : 0#24 ++ slot = slot.setWidth 32 := (BitVec.setWidth_eq_append (by decide)).symm
  rw [reportTable, hslot]
  simp only [List.forall_mem_append, List.forall_mem_cons, List.not_mem_nil, false_imp_iff, implies_true, and_true]
  and_intros <;> exact ⟨rfl, rfl, rfl, rfl, rfl⟩

theorem endErr_of_rowMatches {r : Err × Nat × Nat × Word × Word × Bool} (h : RowMatches r) (s : State) :
    s.endErr r.1 = { s with
      status := BitVec.ofNat 32 (2 ^ 16 * r.2.2.1 + 2 ^ 8 * r.2.1 + 0b0110)
      errAddr := r.2.2.2.1, errSize := r.2.2.2.2.1, errInfo := if r.2.2.2.2.2 then 1#32 else 0#32 } := by
  obtain ⟨hcode, hsub, haddr, hsize, hflag⟩ := h
  rw [State.endErr, statusError_eq_ofNat, errInfoWord_eq_ite, hcode, hsub, haddr, hsize, hflag]

/-- The row of an error is that of its own context; the slot of an overlap is the low byte of ERRSIZE (R157). -/
theorem mem_reportTable (e : Err) : e ∈ (reportTable e.addr e.size e.flag (e.size.setWidth 8)).map Prod.fst := by
  cases e <;> simp [reportTable, Err.addr, Err.size, Err.flag]

/-- Settles O35: the completion writes what the error's row says, and every error has its row. -/
theorem errorReportsAreThoseOfTheTables : Obligations.ErrorReportsAreThoseOfTheTables := by
  unfold Obligations.ErrorReportsAreThoseOfTheTables
  exact ⟨fun s a n f slot r hr => endErr_of_rowMatches (reportTable_matches a n f slot r hr) s,
    fun e => ⟨_, _, _, _, mem_reportTable e⟩⟩

end Sys2Proof.Machine
end

section
/-! PROOF. A reset while a command runs (R172): the events made so far stay on the trace, whatever the command would have
come to. -/

namespace Sys2Proof.Machine

/-- The first `k` events of a run whose events are `es`, newest first. -/
def firstEvents (k : Nat) (es : List Event) : List Event := es.drop (es.length - k)

theorem firstEvents_length {k : Nat} {es : List Event} (h : k ≤ es.length) : (firstEvents k es).length = k := by
  rw [firstEvents, List.length_drop]
  omega

/-- The block right after a reset of `s`, with some more events made. -/
def State.resetAfter (s : State) (es : List Event) : State :=
  { s.blockReset with
    oracle := s.oracle.drop (portEvents es), draws := s.draws + portEvents es, trace := es ++ s.trace }

theorem resetAfter_nil (s : State) : s.resetAfter [] = s.blockReset := rfl

theorem abortedAfter_eq_resetAfter {s t : State} {es : List Event} (h : t.trace = es ++ s.trace) (k : Nat) :
    abortedAfter k s t = s.resetAfter (firstEvents k es) := by
  have hkept : es.length - min k es.length = es.length - k := by omega
  simp only [abortedAfter, State.resetAfter, firstEvents, h, List.length_append, Nat.add_sub_cancel, List.take_left, hkept]

/-- A run without events is aborted without events. -/
theorem abortedAfter_noEvents {s t : State} (h : t.trace = s.trace) (k : Nat) : abortedAfter k s t = s.blockReset := by
  rw [abortedAfter_eq_resetAfter (es := []) h, firstEvents, List.drop_nil, resetAfter_nil]

section

variable {s : State} {n : Nat}

theorem step_resetWhileBusy {r : List HostItem} (hb : s.busy = true) (hq : s.hostq = .reset n :: r) :
    step s = runAborted n { s with hostq := r } := by
  rw [step, if_pos hb, hq, State.nextHostItem, hq, List.tail_cons]

theorem runCommand_decoded {i : Instr} (hs : s.stuck = false) (hd : decode s.code = .ok i) :
    runCommand s = exec i s.fetched := by
  rw [runCommand, hs, hd]
  rfl

theorem runCommand_rejected {x : Reject} (hs : s.stuck = false) (hd : decode s.code = .error x) :
    runCommand s = .next (s.fetched.endErr (rejectErr x)) := by
  rw [runCommand, hs, hd]
  rfl

theorem runAborted_next_eq {t : State} (h : runCommand s = .next t) : runAborted n s = .next (abortedAfter n s t) := by
  rw [runAborted, h]

theorem runAborted_fault {f : Fault} (h : runCommand s = .fault f) : runAborted n s = .next s.blockReset := by
  rw [runAborted, h]

theorem runAborted_noEvents {t : State} (h : runCommand s = .next t) (ht : t.trace = s.trace) :
    runAborted n s = .next s.blockReset := by
  rw [runAborted_next_eq h, abortedAfter_noEvents ht]

end

/-- Settles O22: the events of a command that runs are those of `eventsAreAppendedInOrder`, and the others make none. -/
theorem resetAbortsTheRunningCommand : Obligations.ResetAbortsTheRunningCommand := by
  unfold Obligations.ResetAbortsTheRunningCommand
  intro s n r hb hq
  rw [step_resetWhileBusy hb hq]
  refine ⟨fun hs i u hd hu => ?runs, fun hs i hd hf => ?faults, fun hs x hd => ?rejected, fun hs => ?stuck⟩
  case runs =>
    obtain ⟨es, htrace, -, -⟩ := eventsAreAppendedInOrder i _ u hu
    have hrun := (runCommand_decoded (s := { s with hostq := r }) hs hd).trans hu
    refine ⟨firstEvents n es, es.take (es.length - n), ?_, ?_, ?_, ?_⟩
    · exact (runAborted_next_eq hrun).trans (congrArg _ (abortedAfter_eq_resetAfter htrace n))
    · rw [firstEvents, List.take_append_drop]
      exact htrace
    · rw [firstEvents, List.take_append_drop]
      exact firstEvents_length
    · rw [firstEvents, List.take_append_drop]
      intro hfew
      rw [Nat.sub_eq_zero_of_le hfew.le, List.take_zero]
  case faults => exact runAborted_fault ((runCommand_decoded (s := { s with hostq := r }) hs hd).trans hf)
  case rejected => exact runAborted_noEvents (runCommand_rejected (s := { s with hostq := r }) hs hd) rfl
  case stuck => exact runAborted_noEvents (s := { s with hostq := r }) (if_pos hs) rfl

end Sys2Proof.Machine
end

section
/-! PROOF. Every command ends if the ports return (R187): the judgement `Ends`, carried through every operation. -/

namespace Sys2Proof.Machine

variable {α β : Type}

/-! ### Runs that end -/

/-- Every run of `m` from a state of `P` ends with a value or an error, neither faulted nor stuck, in a state of `P`. -/
def Ends (P : State → Prop) (m : Cmd α) : Prop := Triple P m (fun _ => P) fun x t => (∃ e, x = .err e) ∧ P t

section

variable {P : State → Prop}

theorem ends_pure (a : α) : Ends P (pure a : Cmd α) := triple_pure fun _ hs => hs

theorem ends_raise (e : Err) : Ends P (raise e : Cmd α) := triple_raise fun _ hs => ⟨⟨e, rfl⟩, hs⟩

theorem ends_modify {f : State → State} (h : ∀ s, P s → P (f s)) : Ends P (modify f : Cmd PUnit) := triple_modify h

theorem ends_bind {m : Cmd α} {f : α → Cmd β} (hm : Ends P m) (hf : ∀ a, Ends P (f a)) : Ends P (m >>= f) :=
  triple_bind hm hf

theorem ends_get_bind {f : State → Cmd β} (h : ∀ s, P s → Ends P (f s)) : Ends P (get >>= f) :=
  triple_get_bind fun s hs => h s hs s hs

theorem ends_ite {p : Prop} [Decidable p] {m m' : Cmd α} (h : Ends P m) (h' : Ends P m') :
    Ends P (if p then m else m') := by
  split
  · exact h
  · exact h'

theorem ends_likelyDisconnected : Ends P likelyDisconnected := fun _ hs => hs

theorem ends_check (o : Option Err) : Ends P (check o) := by
  cases o with
  | none => exact ends_pure ()
  | some e => exact ends_raise e

theorem ends_checkAccess (c : Slot) (w : Bool) (a : Word) (n : Nat) : Ends P (checkAccess c w a n) :=
  fun s => ends_check (s.accessError c w a n) s

theorem ends_catchErr {m : Cmd α} {h : Err → Cmd α} (hm : Ends P m) (hh : ∀ e, Ends P (h e)) :
    Ends P (catchErr m h) :=
  triple_catchErr hm (fun e => (hh e).weaken (fun _ hs => hs.2) (fun _ _ ht => ht) fun _ _ ht => ht)
    (fun _ _ ht => ht) fun _ ht => ht

theorem ends_attempt {m : Cmd α} (hm : Ends P m) : Ends P (attempt m) := by
  intro s hs
  have hrun := hm s hs
  unfold attempt
  cases hms : m s with
  | ok a t => rw [hms] at hrun; exact hrun
  | error x t =>
    rw [hms] at hrun
    obtain ⟨⟨e, rfl⟩, ht⟩ := hrun
    exact ht

theorem ends_overChunks {f : Nat → Nat → Cmd Bytes} {l : List (Nat × Nat)} (h : ∀ e ∈ l, Ends P (f e.1 e.2)) :
    Ends P (overChunks f l) := by
  induction l with
  | nil => exact ends_pure _
  | cons e r ih =>
    exact ends_bind (h e List.mem_cons_self) fun _ =>
      ends_bind (ih fun x hx => h x (List.mem_cons_of_mem e hx)) fun _ => ends_pure _

theorem ends_txInfoResult (t : TxCodes) (chk : Bool) (code : Byte) (ca : Word) (m : Nat) :
    Ends P (txInfoResult t chk code ca m) := by
  unfold txInfoResult
  split_ifs
  · exact ends_pure _
  · exact ends_pure _
  all_goals exact ends_raise _

theorem ends_mbCheckAnswer (dev fc : Byte) (mlen : Nat) (ca : Word) (m : Nat) (chk : Bool) (a : Bytes) :
    Ends P (mbCheckAnswer dev fc mlen ca m chk a) :=
  ends_ite (ends_ite (ends_pure _) (ends_raise _)) (ends_ite (ends_pure _) (ends_ite (ends_raise _) (ends_pure _)))

end

/-! ### The operations that use no `undef` byte -/

/-- What every quiet operation keeps, with ports that return. -/
structure Serving (P : State → Prop) : Prop where
  returns : ∀ {s}, P s → s.portsReturn
  quiet : ∀ {s t}, P s → Quiet s t → P t

theorem portsReturn_of_traffic {s t : State} (h : s.portsReturn) (ht : Traffic s t) : t.portsReturn := by
  obtain ⟨es, -, -, horacle⟩ := ht
  intro hmem
  rw [horacle] at hmem
  exact h (List.mem_of_mem_drop hmem)

theorem serving_portsReturn : Serving State.portsReturn := ⟨fun h => h, fun h q => portsReturn_of_traffic h q.traffic⟩

theorem draw_of_portsReturn {s : State} (h : s.portsReturn) (i : Nat) : ∃ d, s.draw i = some d := by
  rw [State.draw, List.getD_eq_getElem?_getD]
  cases ho : s.oracle[i]? with
  | none => exact ⟨_, rfl⟩
  | some o =>
    cases o with
    | none => exact absurd (List.mem_of_getElem? ho) h
    | some d => exact ⟨d, rfl⟩

/-- A port call whose answer comes stops by a driver error only. -/
theorem portCall_error {call : PortCall} {ans : Draw → PortAnswer} {val : Draw → α} {s t : State} {x : Stop}
    (h : s.portsReturn) (hx : portCall call ans val s = .error x t) : ∃ e, x = .err e := by
  obtain ⟨d, hd⟩ := draw_of_portsReturn h 0
  rw [portCall_run hd] at hx
  cases hf : d.fate with
  | returns => rw [hf] at hx; cases hx
  | notConnected => rw [hf] at hx; cases hx; exact ⟨_, rfl⟩
  | timeout f => rw [hf] at hx; cases hx; exact ⟨_, rfl⟩

/-- A delivery stops by an error of the Direct-CAN classification only (R140, R147). -/
theorem deliver_error {c : Slot} {id : Word} {f : Frame} {s t : State} {x : Stop}
    (hx : deliver c id f s = .error x t) : ∃ e, x = .err e := by
  unfold deliver at hx
  split at hx
  · cases hx
  · simp only [classify] at hx
    split_ifs at hx <;> cases hx <;> exact ⟨_, rfl⟩

section

variable {P : State → Prop} (hP : Serving P)

include hP

theorem ends_quiet {m : Cmd α} (hm : Keeps Quiet m)
    (hx : ∀ {s x t}, s.portsReturn → m s = .error x t → ∃ e, x = .err e) : Ends P m := by
  intro s hs
  cases hrun : m s with
  | ok a t => exact hP.quiet hs (hm.ok hrun)
  | error x t => exact ⟨hx (hP.returns hs) hrun, hP.quiet hs (hm.error hrun)⟩

theorem ends_portCall (call : PortCall) (ans : Draw → PortAnswer) (val : Draw → α) : Ends P (portCall call ans val) :=
  ends_quiet hP (quiet_port _ _ _) portCall_error

theorem ends_spiRead (p : Byte) (n : Nat) (e : Bool) : Ends P (spiRead p n e) := fun s => ends_portCall hP _ _ _ s

theorem ends_sleep (ms : Nat) : Ends P (sleep ms) := ends_quiet hP (quiet_sleep ms) fun _ hx => by cases hx

theorem ends_orInvalidate (c : Slot) {m : Cmd α} (hm : Ends P m) : Ends P (orInvalidate c m) :=
  ends_catchErr hm fun e => ends_bind (ends_modify fun s hs => hP.quiet hs (quiet_setBase s c none (by simp))) fun _ =>
    ends_raise e

theorem ends_forward (q : Byte) (id : Word) (f : Frame) : Ends P (forward q id f) := by
  refine ends_get_bind fun s _ => ?_
  split
  · exact ends_raise _
  · exact ends_bind (ends_quiet hP (quiet_deliver _ _ _) fun _ => deliver_error) fun _ => ends_pure _

theorem ends_routeRead (c : Slot) : Ends P (routeRead c) := by
  refine ends_get_bind fun s _ => ends_bind (ends_portCall hP _ _ _) fun r => ?_
  split
  · exact ends_pure _
  · exact ends_ite (ends_raise _) (ends_ite (ends_pure _) (ends_bind (ends_forward hP _ _ _) fun _ => ends_pure _))

theorem ends_sendFrame (c : Slot) (f : Frame) : Ends P (sendFrame c f) :=
  ends_get_bind fun _ _ => ends_portCall hP _ _ _

theorem ends_awaitFrame (c : Slot) (n : Nat) : Ends P (awaitFrame c n) := by
  induction n with
  | zero => exact ends_bind ends_likelyDisconnected fun _ => ends_raise _
  | succ n ih =>
    exact ends_bind (ends_routeRead hP c) fun _ => ends_ite (ends_pure _) (ends_bind (ends_sleep hP _) fun _ => ih)

theorem ends_writeAttempts (c : Slot) (f : Frame) (n : Nat) : Ends P (writeAttempts c f n) := by
  induction n with
  | zero => exact ends_raise _
  | succ n ih =>
    exact ends_bind (ends_sendFrame hP c f) fun _ => ends_catchErr (ends_awaitFrame hP c _) fun _ =>
      ends_ite ih (ends_raise _)

theorem ends_writeAndWait (c : Slot) (f : Frame) : Ends P (writeAndWait c f) := ends_writeAttempts hP c f _

theorem ends_streamAttempts (c : Slot) (f : Frame) (n : Nat) : Ends P (streamAttempts c f n) := by
  induction n with
  | zero => exact ends_raise _
  | succ n ih =>
    exact ends_catchErr (ends_writeAndWait hP c f) fun _ => ends_ite (ends_ite (ends_raise _) ih) (ends_raise _)

theorem ends_crcLoop {att : Cmd (Except Err α)} (h : Ends P att) (spent : Err) (n : Nat) :
    Ends P (crcLoop att spent n) := by
  induction n with
  | zero => exact ends_raise _
  | succ n ih =>
    refine ends_bind h fun r => ?_
    cases r with
    | ok v => exact ends_pure _
    | error e => exact ends_ite (ends_raise _) (ends_bind (ends_sleep hP _) fun _ => ih)

theorem ends_withCrcRetry (n : Nat) {att : Bool → Cmd (Except Err α)} (h : ∀ chk, Ends P (att chk)) (spent : Err) :
    Ends P (withCrcRetry n att spent) := by
  refine ends_ite (ends_bind (h _) fun r => ?_) (ends_crcLoop hP (h _) spent n)
  cases r with
  | ok v => exact ends_pure _
  | error e => exact ends_raise _

theorem ends_spiReadAttempt (p op : Byte) (a : Word) (n : Nat) (chk : Bool) : Ends P (spiReadAttempt p op a n chk) :=
  ends_get_bind fun _ _ => ends_bind (ends_portCall hP _ _ _) fun _ => ends_bind (ends_spiRead hP _ _ _) fun _ =>
    ends_ite (ends_pure _) (ends_pure _)

theorem ends_txInfo (p : Byte) (chk : Bool) (ca : Word) (m : Nat) : Ends P (txInfo p chk ca m) :=
  ends_get_bind fun _ _ => ends_bind (ends_portCall hP _ _ _) fun _ => ends_bind (ends_spiRead hP _ _ _) fun _ =>
    ends_ite (ends_pure _) (ends_txInfoResult _ _ _ _ _)

theorem ends_mbAttempt (p dev fc : Byte) (q : Bytes) (mlen : Nat) (ca : Word) (m : Nat) (chk : Bool) :
    Ends P (mbAttempt p dev fc q mlen ca m chk) := by
  have hround : Ends P (mbRound p q (mlen + 4)) :=
    ends_bind (ends_portCall hP _ _ _) fun _ => ends_portCall hP _ _ _
  refine ends_bind (ends_attempt hround) fun r => ?_
  cases r with
  | error e => exact ends_ite (ends_pure _) (ends_raise _)
  | ok a => exact ends_mbCheckAnswer _ _ _ _ _ _ _

theorem ends_mbExchange (p dev fc : Byte) (q : Bytes) (mlen b : Nat) (ca : Word) (m : Nat) :
    Ends P (mbExchange p dev fc q mlen b ca m) :=
  ends_withCrcRetry hP _ (ends_mbAttempt hP _ _ _ _ _ _ _) _

theorem ends_spiTRead {guard : Cmd Unit} (hg : Ends P guard) (p : Byte) (op : Opc) (a : Word) (n b : Nat) :
    Ends P (spiTRead guard p op a n b) :=
  ends_bind hg fun _ => ends_withCrcRetry hP _ (ends_spiReadAttempt hP _ _ _ _) _

theorem ends_mbTRead {guard : Cmd Unit} (hg : Ends P guard) (d : Desc) (op : Opc) (a : Word) (n b : Nat) :
    Ends P (mbTRead guard d op a n b) :=
  ends_overChunks fun _ _ => ends_bind hg fun _ => ends_mbExchange hP _ _ _ _ _ _ _ _

theorem ends_mbTOpcode (d : Desc) (op : Opc) (b : Nat) : Ends P (mbTOpcode d op b) :=
  ends_bind (ends_mbExchange hP _ _ _ _ _ _ _ _) fun _ => ends_pure _

end

/-! ### The connection a command works on -/

/-- A fact about a connection that its quiet changes keep. -/
def Lasts (R : Conn → Prop) : Prop := ∀ g k k', ConnQuiet g k k' → k.Legal g → R k → R k'

/-- The ports return, and the connection in slot `c` is legal and as `R` says. -/
structure Live (c : Slot) (R : Conn → Prop) (s : State) : Prop where
  returns : s.portsReturn
  conn : ∃ k, s.conn? c = some k ∧ k.Legal s.cfg ∧ R k

/-- The 8 bytes of the response slot of a CAN connection are defined (R128). -/
def SlotDefined (k : Conn) : Prop := k.kind = .can ∧ ∀ x, x < 8 → mread k.outbuf.mem x ≠ none

/-- The first `n` bytes of `inbuf` are defined. -/
def Filled (n : Nat) (k : Conn) : Prop := ∀ x, x < n → mread k.inbuf.mem x ≠ none

theorem outbuf_holds_slot {g : Config} {k : Conn} (h : k.Legal g) (hk : k.kind = .can) : 8 ≤ k.outbuf.len := by
  have hmin := h.outbuf.atLeast
  rw [hk] at hmin
  exact hmin

theorem lasts_true : Lasts fun _ => True := fun _ _ _ _ _ _ => trivial

theorem lasts_isCan : Lasts fun k => k.kind = .can := fun _ _ _ q _ hk => q.kind.trans hk

theorem lasts_slotDefined : Lasts SlotDefined := fun _ _ _ q hl ⟨hk, hslot⟩ =>
  ⟨q.kind.trans hk, fun x hx => q.outDefined x (Nat.lt_of_lt_of_le hx (outbuf_holds_slot hl hk)) (hslot x hx)⟩

theorem lasts_filled (n : Nat) : Lasts (Filled n) := fun _ _ _ q _ h => by
  rw [Filled, q.inbuf]
  exact h

theorem lasts_inbufLen (n : Nat) : Lasts fun k => n ≤ k.inbuf.len := fun _ _ _ q _ h =>
  h.trans_eq (congrArg Buf.len q.inbuf.symm)

theorem Lasts.and {R R' : Conn → Prop} (h : Lasts R) (h' : Lasts R') : Lasts fun k => R k ∧ R' k :=
  fun _ _ _ q hl ⟨hk, hk'⟩ => ⟨h _ _ _ q hl hk, h' _ _ _ q hl hk'⟩

theorem Lasts.serving {R : Conn → Prop} (hR : Lasts R) (c : Slot) : Serving (Live c R) where
  returns h := h.returns
  quiet := by
    rintro s t ⟨hret, k, hk, hl, hr⟩ q
    obtain ⟨k', hk', hq⟩ := q.used c.toNat k hk
    exact ⟨portsReturn_of_traffic hret q.traffic, k', hk', by rw [q.cfg]; exact hq.legal hl, hR _ _ _ hq hl hr⟩

section

variable {c : Slot} {R R' : Conn → Prop} {s : State}

theorem Live.weaken (h : Live c R s) (hr : ∀ k, R k → R' k) : Live c R' s :=
  ⟨h.returns, h.conn.imp fun k ⟨hk, hl, hRk⟩ => ⟨hk, hl, hr k hRk⟩⟩

theorem Live.conn_holds (h : Live c R s) : R (s.conn c) := by
  obtain ⟨k, hk, -, hr⟩ := h.conn
  rw [State.conn_of_some hk]
  exact hr

theorem Live.with_holds (h : Live c R s) (hr : R' (s.conn c)) : Live c (fun k => R k ∧ R' k) s := by
  obtain ⟨k, hk, hl, hRk⟩ := h.conn
  rw [State.conn_of_some hk] at hr
  exact ⟨h.returns, k, hk, hl, hRk, hr⟩

theorem Live.modConn (h : Live c R s) {f : Conn → Conn} (hl : ∀ g k, k.Legal g → (f k).Legal g)
    (hr : ∀ k, k.Legal s.cfg → R k → R' (f k)) : Live c R' (s.modConn c f) := by
  obtain ⟨k, hk, hleg, hRk⟩ := h.conn
  refine ⟨h.returns, f k, ?_, hl _ k hleg, hr k hleg hRk⟩
  rw [State.conn?_modConn, if_pos rfl, hk]
  rfl

/-- A run that ends under a stronger fact ends under a weaker one. -/
theorem Ends.weaken {m : Cmd α} (h : Ends (Live c R') m) (hr : ∀ k, R' k → R k) :
    Triple (Live c R') m (fun _ => Live c R) fun x t => (∃ e, x = .err e) ∧ Live c R t :=
  Triple.weaken h (fun _ hs => hs) (fun _ _ ht => ht.weaken hr) fun _ _ ⟨he, ht⟩ => ⟨he, ht.weaken hr⟩

end

theorem mreadBytes_of_defined {m : Memory} {a n : Nat} (h : ∀ i, i < n → mread m (a + i) ≠ none) :
    ∃ bs, mreadBytes m a n = some bs := by
  induction n generalizing a with
  | zero => exact ⟨[], rfl⟩
  | succ n ih =>
    obtain ⟨b, hb⟩ := Option.ne_none_iff_exists'.1 (h 0 (Nat.succ_pos n))
    obtain ⟨bs, hbs⟩ := ih (a := a + 1) fun i hi => by
      rw [show a + 1 + i = a + (i + 1) by omega]
      exact h (i + 1) (by omega)
    exact ⟨b :: bs, by rw [mreadBytes, hbs, show mread m a = some b from hb]⟩

theorem bufWrite_defined {b : Buf} {bs : Bytes} {x : Nat} (hx : x < bs.length) (hl : bs.length ≤ b.len) :
    mread (bufWrite b 0 bs).mem x ≠ none := by
  rw [bufWrite_read, if_pos (by omega), if_pos (by omega), List.getElem?_eq_getElem (by omega)]
  exact Option.some_ne_none _

/-! ### The operations that use a byte of a buffer -/

section

variable {c : Slot} {R : Conn → Prop} (hR : Lasts R)

theorem ends_inbufData {off m n : Nat} (hf : ∀ k, R k → Filled n k) (hm : off + m ≤ n) :
    Ends (Live c R) (inbufData c off m) := by
  intro s hs
  obtain ⟨bs, hbs⟩ := mreadBytes_of_defined (m := (s.conn c).inbuf.mem) (a := off) (n := m) fun i hi =>
    hf _ hs.conn_holds (off + i) (by omega)
  rw [inbufData, hbs]
  exact hs

include hR

theorem ends_slotPolls (hslot : ∀ k, R k → SlotDefined k) (n : Nat) : Ends (Live c R) (slotPolls c n) := by
  induction n with
  | zero => exact ends_bind ends_likelyDisconnected fun _ => ends_raise _
  | succ n ih =>
    refine ends_get_bind fun s hs => ?_
    obtain ⟨bs, hbs⟩ := mreadBytes_of_defined (m := (s.conn c).outbuf.mem) (a := 0) (n := 8) fun i hi => by
      rw [Nat.zero_add]
      exact (hslot _ hs.conn_holds).2 i hi
    rw [hbs]
    exact ends_ite (ends_pure _) (ends_bind (ends_routeRead (hR.serving c) c) fun _ =>
      ends_bind (ends_sleep (hR.serving c) _) fun _ => ih)

/-- The exchange of R128 defines the response slot before it is polled. -/
theorem ends_canuExchange (hcan : ∀ k, R k → k.kind = .can) (f : Frame) : Ends (Live c R) (canuExchange c f) := by
  have hR' : Lasts fun k => R k ∧ SlotDefined k := hR.and lasts_slotDefined
  have hwait : Ends (Live c fun k => R k ∧ SlotDefined k) (do writeAndWait c f; slotPolls c canSlotPolls) :=
    ends_bind (ends_writeAndWait (hR'.serving c) c f) fun _ => ends_slotPolls hR' (fun _ hk => hk.2) _
  refine triple_bind (triple_modify fun s hs => ?_) fun _ => hwait.weaken fun _ hk => hk.1
  have hzeros : (zeros 8).length = 8 := rfl
  have hquiet : ∀ g k, ConnQuiet g k (outbufWrite 0 (zeros 8) k) := fun g k => connQuiet_slot g k _ hzeros.le
  refine hs.modConn (fun g k => (hquiet g k).legal) fun k hl hk =>
    ⟨hR _ _ _ (hquiet _ k) hl hk, hcan k hk, fun x hx => ?_⟩
  exact bufWrite_defined (hx.trans_eq hzeros.symm) (hzeros.trans_le (outbuf_holds_slot hl (hcan k hk)))

theorem ends_baseCheckIf (hcan : ∀ k, R k → k.kind = .can) (b : Bool) (ca : Word) :
    Ends (Live c R) (baseCheckIf b c ca) := by
  have hset : ∀ s, Live c R s → Live c R (s.setBase c (some (pageOf ca))) := fun s hs =>
    (hR.serving c).quiet hs (quiet_setBase s c _ (by rintro v ⟨⟩; exact pageOf_low ca))
  refine ends_ite (ends_get_bind fun s _ => ends_ite (ends_pure _) ?_) (ends_pure _)
  exact ends_bind (ends_orInvalidate (hR.serving c) c (ends_canuExchange hR hcan _)) fun _ => ends_modify hset

theorem ends_canuTRead (hcan : ∀ k, R k → k.kind = .can) {guard : Cmd Unit} (hg : Ends (Live c R) guard) (op : Opc)
    (a : Word) (n : Nat) : Ends (Live c R) (canuTRead guard c op a n) :=
  ends_overChunks fun _ _ => ends_bind hg fun _ => ends_get_bind fun _ _ =>
    ends_bind (ends_baseCheckIf hR hcan _ _) fun _ => ends_bind (ends_canuExchange hR hcan _) fun _ => ends_pure _

theorem ends_spiTWrite {n : Nat} (hf : ∀ k, R k → Filled n k) {guard : Cmd Unit} (hg : Ends (Live c R) guard) (p : Byte)
    (op : Opc) (a : Word) (b : Nat) : Ends (Live c R) (spiTWrite guard c p op a n b) := by
  refine ends_bind (ends_overChunks fun e he => ends_bind hg fun _ => ?_) fun _ => ends_pure _
  refine ends_bind (ends_inbufData hf (chunks_inside he).1) fun data =>
    ends_withCrcRetry (hR.serving c) _ (fun chk => ?_) _
  exact ends_bind (ends_portCall (hR.serving c) _ _ _) fun _ => ends_bind hg fun _ => ends_txInfo (hR.serving c) _ _ _ _

theorem ends_mbTWrite {n : Nat} (hf : ∀ k, R k → Filled n k) {guard : Cmd Unit} (hg : Ends (Live c R) guard) (d : Desc)
    (op : Opc) (a : Word) (b : Nat) : Ends (Live c R) (mbTWrite guard c d op a n b) :=
  ends_bind hg fun _ => ends_bind (ends_inbufData hf (Nat.zero_add n).le) fun _ =>
    ends_bind (ends_mbExchange (hR.serving c) _ _ _ _ _ _ _ _) fun _ => hg

theorem ends_canuTWrite (hcan : ∀ k, R k → k.kind = .can) {n : Nat} (hf : ∀ k, R k → Filled n k) {guard : Cmd Unit}
    (hg : Ends (Live c R) guard) (op : Opc) (a : Word) : Ends (Live c R) (canuTWrite guard c op a n) := by
  refine ends_bind (ends_overChunks fun e he => ends_bind hg fun _ => ends_get_bind fun _ _ => ?_) fun _ => ends_pure _
  exact ends_bind (ends_baseCheckIf hR hcan _ _) fun _ => ends_bind (ends_inbufData hf (chunks_inside he).1) fun _ =>
    ends_bind (ends_canuExchange hR hcan _) fun _ => ends_bind hg fun _ => ends_pure _

end

/-! ### The register engine -/

section

variable {c : Slot} {R : Conn → Prop} (hR : Lasts R)

include hR

theorem ends_tReadWith {guard : Cmd Unit} (hg : ∀ {R'}, Lasts R' → Ends (Live c R') guard) (op : Opc) (a : Word)
    (n b : Nat) : Ends (Live c R) (tReadWith guard c op a n b) := by
  refine triple_get_bind fun s hs => ?_
  cases hk : (s.conn c).kind with
  | spi => exact ends_spiTRead (hR.serving c) (hg hR) _ _ _ _ _ s hs
  | modbus => exact ends_mbTRead (hR.serving c) (hg hR) _ _ _ _ _ s hs
  | can =>
    have hR' := hR.and lasts_isCan
    exact Ends.weaken (ends_canuTRead hR' (fun _ h => h.2) (hg hR') _ _ _)
      (fun _ h => h.1) s (hs.with_holds hk)

theorem ends_getStatus (b : Nat) : Ends (Live c R) (getStatus c b) :=
  ends_get_bind fun _ _ => ends_bind (ends_tReadWith hR (fun _ => ends_pure _) _ _ _ _) fun _ => ends_pure _

theorem ends_readyPoll (t b : Nat) : Ends (Live c R) (readyPoll c t b) := by
  unfold readyPoll
  induction readySleeps t with
  | zero => exact ends_bind (ends_getStatus hR b) fun _ => ends_pure _
  | succ n ih =>
    exact ends_bind (ends_getStatus hR b) fun _ => ends_ite (ends_pure _)
      (ends_bind (ends_sleep (hR.serving c) _) fun _ => ih)

theorem ends_readyGuard (t b : Nat) : Ends (Live c R) (readyGuard c t b) :=
  ends_ite (ends_pure _) (ends_bind (ends_readyPoll hR t b) fun _ => ends_ite (ends_pure _) (ends_raise _))

theorem ends_tRead (op : Opc) (a : Word) (n b t : Nat) : Ends (Live c R) (tRead c op a n b t) :=
  ends_tReadWith hR (fun h => ends_readyGuard h t b) op a n b

theorem ends_tOpcode (op : Opc) (b : Nat) : Ends (Live c R) (tOpcode c op b) := by
  refine triple_get_bind fun s hs => ?_
  cases hk : (s.conn c).kind with
  | spi => exact ends_portCall (hR.serving c) _ _ _ s hs
  | modbus => exact ends_mbTOpcode (hR.serving c) _ _ _ s hs
  | can =>
    have hR' := hR.and lasts_isCan
    exact Ends.weaken (ends_bind (ends_canuExchange hR' (fun _ h => h.2) _) fun _ => ends_pure _)
      (fun _ h => h.1) s (hs.with_holds hk)

theorem ends_tWrite {n : Nat} (hf : ∀ k, R k → Filled n k) (op : Opc) (a : Word) (b t : Nat) :
    Ends (Live c R) (tWrite c op a n b t) := by
  refine triple_get_bind fun s hs => ?_
  cases hk : (s.conn c).kind with
  | spi => exact ends_spiTWrite hR hf (ends_readyGuard hR t b) _ _ _ _ s hs
  | modbus => exact ends_mbTWrite hR hf (ends_readyGuard hR t b) _ _ _ _ s hs
  | can =>
    have hR' := hR.and lasts_isCan
    exact Ends.weaken (ends_canuTWrite hR' (fun _ h => h.2) (fun k h => hf k h.1) (ends_readyGuard hR' t b) _ _)
      (fun _ h => h.1) s (hs.with_holds hk)

theorem ends_setWriteEnable (e : Bool) (b : Nat) : Ends (Live c R) (setWriteEnable c e b) :=
  ends_get_bind fun _ _ => ends_bind (ends_tOpcode hR _ _) fun _ => ends_bind (ends_getStatus hR _) fun _ =>
    ends_ite (ends_pure _) (ends_raise _)

end

/-- The write sequence fills `inbuf` with the data before it sends it (R109). -/
theorem ends_writeSeq {c : Slot} (a : Word) (data : Bytes) (b t : Nat) :
    Ends (Live c fun k => data.length ≤ k.inbuf.len) (writeSeq c a data b t) := by
  have hlen := lasts_inbufLen data.length
  have hfilled := hlen.and (lasts_filled data.length)
  have hsend : Ends (Live c fun k => data.length ≤ k.inbuf.len ∧ Filled data.length k) (do
      let s ← get
      catchErr (tWrite c s.cfg.opcRegmapWrite a data.length b t) (fun e => do
        setWriteEnable c false b
        raise e)
      setWriteEnable c false b) :=
    ends_get_bind fun _ _ => ends_bind (ends_catchErr (ends_tWrite hfilled (fun _ hk => hk.2) _ _ _ _) fun e =>
      ends_bind (ends_setWriteEnable hfilled false b) fun _ => ends_raise e) fun _ =>
        ends_setWriteEnable hfilled false b
  refine ends_bind (ends_setWriteEnable hlen true b) fun _ => triple_bind (triple_modify fun s hs => ?_) fun _ =>
    hsend.weaken fun _ hk => hk.1
  exact hs.modConn (fun g k => (connWork_inbuf g k 0 data).legal) fun k _ hk => ⟨hk, fun x hx => bufWrite_defined hx hk⟩

/-- The checks of an Init write leave only data that `inbuf` holds (R52). -/
theorem ends_initWrite {c : Slot} (g : Gen) (w : InitWrite) (b : Nat) :
    Ends (Live c fun _ => True) (initWrite c g w b) := by
  intro s hs
  cases hacc : s.accessError c true (w.addr g) w.data.length with
  | some e =>
    rw [initWrite_checked rfl hacc]
    exact ⟨⟨e, rfl⟩, hs⟩
  | none =>
    rw [initWrite_sequence rfl hacc]
    exact (ends_writeSeq _ _ _ _).weaken (fun _ _ => trivial) s
      ((hs.with_holds (accessError_inbuf hacc)).weaken fun _ hk => hk.2)

/-! ### Direct CAN -/

/-- A request pops its answer and shows it to the host (R148, R149). -/
theorem ends_requestAnswer {c : Slot} {R : Conn → Prop} (hR : Lasts R) (f : Frame) :
    Ends (Live c R) (requestAnswer c f) := by
  refine ends_bind (ends_writeAndWait (hR.serving c) c f) fun _ => ends_get_bind fun s _ => ?_
  split
  · exact ends_raise _
  · refine ends_bind (ends_modify fun s hs => (hR.serving c).quiet hs (quiet_popCfg s c)) fun _ => ?_
    exact ends_ite (ends_raise _) (ends_modify fun s hs => ⟨hs.returns, hs.conn⟩)

/-! ### CLOSE -/

/-- CLOSE calls the port to disconnect it, the driver's errors discarded (R91, R137). -/
theorem ends_discardedDisconnect (k : Kind) (p : Byte) :
    Ends State.portsReturn (catchErr (portDisconnect k p) fun _ => pure ()) :=
  ends_catchErr (ends_portCall serving_portsReturn _ _ _) fun _ => ends_pure ()

theorem ends_unregisterConnection (q : Byte) (m c : Slot) : Ends State.portsReturn (unregisterConnection q m c) := by
  intro s hs
  rw [unregisterConnection_run]
  split_ifs
  · exact ⟨⟨_, rfl⟩, hs⟩
  · exact ⟨⟨_, rfl⟩, hs⟩
  · exact hs

theorem ends_destroyCan (q : Byte) (c : Slot) : Ends State.portsReturn (destroyCan q c) := by
  have hclear : Ends State.portsReturn (modify fun s => s.setDomain q { s.domain q with dmaster := noSlot }) :=
    ends_modify fun _ hs => hs
  refine ends_get_bind fun s _ => ends_ite (ends_unregisterConnection _ _ _) ?_
  refine ends_bind (ends_unregisterConnection _ _ _) fun _ => ends_get_bind fun s _ => ends_ite ?_ ?_
  · exact ends_ite (ends_bind (ends_discardedDisconnect _ _) fun _ => hclear) hclear
  · exact ends_modify fun s hs => portsReturn_of_traffic hs (kept_reelect s q c).traffic

end Sys2Proof.Machine
end

section
/-! PROOF. Every command ends by R160 or R161 if the ports return (R187); one whose port call never returns does not. -/

namespace Sys2Proof.Machine

variable {α : Type}

/-! ### Commands that end -/

/-- A command ended, with BUSY 0 and DONE 1 (R160, R161). -/
def Finishes (o : Outcome) : Prop := ∃ t, o = .next t ∧ t.busy = false ∧ stDone t.status = true

theorem finishes_endOk (s : State) (r : Bool) : Finishes (.next (s.endOk r)) :=
  ⟨_, rfl, (statusOk_flags r).1, (statusOk_flags r).2.1⟩

theorem finishes_endErr (s : State) (e : Err) : Finishes (.next (s.endErr e)) :=
  ⟨_, rfl, (statusError_flags e).1, (statusError_flags e).2.1⟩

theorem finishes_local (m : Local Bool) (s : State) : Finishes (endLocal m s) := by
  unfold endLocal finishLocal
  split
  · exact finishes_endOk _ _
  · exact finishes_endErr _ _

section

variable {s t : State} {f : α → Cmd Bool}

theorem finishes_value {m : Cmd Bool} {r : Bool} (h : m s = .ok r t) : Finishes (endCmd m s) := by
  rw [endCmd_ok h]
  exact finishes_endOk t r

theorem finishes_run {m : Cmd α} {a : α} (h : m s = .ok a t) (hf : Finishes (endCmd (f a) t)) :
    Finishes (endCmd (m >>= f) s) := by
  unfold endCmd
  rw [cmd_bind_ok h]
  exact hf

theorem finishes_raised {m : Cmd α} {e : Err} (h : m s = .error (.err e) t) : Finishes (endCmd (m >>= f) s) := by
  rw [endCmd_err (cmd_bind_error h)]
  exact finishes_endErr t e

theorem finishes_bind {P : State → Prop} {m : Cmd α} (hs : P s) (hm : Ends P m)
    (hf : ∀ a t, P t → Finishes (endCmd (f a) t)) : Finishes (endCmd (m >>= f) s) := by
  cases h : m s with
  | ok a t => exact finishes_run h (hf a t (hm.ok hs h))
  | error x t =>
    obtain ⟨⟨e, rfl⟩, -⟩ := hm.error hs h
    exact finishes_raised h

end

theorem finishes_ite {p : Prop} [Decidable p] {s : State} {m m' : Cmd Bool} (h : Finishes (endCmd m s))
    (h' : Finishes (endCmd m' s)) : Finishes (endCmd (if p then m else m') s) := by
  split
  · exact h
  · exact h'

theorem finishes_last {P : State → Prop} {s : State} {m : Cmd Bool} (hs : P s) (hm : Ends P m) :
    Finishes (endCmd m s) := by
  rw [← bind_pure m]
  exact finishes_bind hs hm fun _ _ _ => finishes_value rfl

/-- What a register access may take from HBUF (R52). -/
theorem accessError_hbuf {s : State} {c : Slot} {w : Bool} {a : Word} {n : Nat} (h : s.accessError c w a n = none) :
    n ≤ s.cfg.hbufSize := by
  by_contra hlt
  have hlarge : s.tooLarge (s.conn c) (s.descOf c) w n = true := tooLarge_iff.2 (.inl (.inl (Nat.lt_of_not_le hlt)))
  rw [accessError_tooLarge (Nat.pos_iff_ne_zero.1 (accessError_ne_zero h)) hlarge] at h
  cases h

theorem finishes_check {s : State} {o : Option Err} {f : Unit → Cmd Bool}
    (h : o = none → Finishes (endCmd (f ()) s)) : Finishes (endCmd (check o >>= f) s) := by
  cases o with
  | none => exact finishes_run (check_none s) (h rfl)
  | some e => exact finishes_raised (check_some e s)

/-- RDCFG and RDDET make at most one routed read (R152, R153). -/
theorem finishes_fifoRead {s : State} {c : Slot} {p : Prop} [Decidable p] {f : Cmd Bool}
    (hl : Live c (fun _ => True) s) (hf : ∀ t, Finishes (endCmd f t)) :
    Finishes (endCmd (if p then routeRead c >>= fun _ => f else f) s) :=
  finishes_ite (finishes_bind hl (ends_routeRead (lasts_true.serving c) c) fun _ t _ => hf t) (hf s)

/-- A state all of whose commands end: legal, with every byte of HBUF written and ports that return (R187). -/
structure Prepared (s : State) : Prop where
  wf : s.cfg.wf = true
  legal : s.MemoryLegal
  returns : s.portsReturn
  written : ∀ x, x < s.cfg.hbufSize → mread s.hbuf x ≠ none

section

variable {s : State} (hs : Prepared s)

include hs

theorem finishes_enter {w : Bool} {c : Slot} {g : Conn → Desc → Bool} {tr : Bool} {f : Unit → Cmd Bool}
    (h : Live c (fun _ => True) s → Finishes (endCmd (f ()) s)) : Finishes (endCmd (enter w c g tr >>= f) s) :=
  finishes_check fun hc => by
    obtain ⟨k, hk, -⟩ := commandError_none hc
    exact h ⟨hs.returns, k, hk, hs.legal.conns _ _ hk, trivial⟩

theorem hbufData_written {n : Nat} (hn : n ≤ s.cfg.hbufSize) :
    ∃ bs : Bytes, bs.length = n ∧ hbufData n s = .ok bs s := by
  obtain ⟨bs, hbs⟩ := mreadBytes_of_defined (m := s.hbuf) (a := 0) (n := n) fun i hi => by
    rw [Nat.zero_add]
    exact hs.written i (hi.trans_le hn)
  exact ⟨bs, (mreadBytes_eq_some.1 hbs).1, hbufData_ok hbs⟩

theorem finishes_crcData {l : Word} {f : Bytes → Cmd Bool} (hf : ∀ bs, Finishes (endCmd (f bs) s)) :
    Finishes (endCmd (crcData l >>= f) s) := by
  by_cases hl : s.cfg.hbufSize < l.toNat
  · exact finishes_raised (crcData_tooLong hl)
  · obtain ⟨bs, -, hbs⟩ := hbufData_written hs (Nat.le_of_not_lt hl)
    exact finishes_run ((crcData_fits hl).trans hbs) (hf bs)

/-- A request whose frame is the first 8 bytes of HBUF. -/
theorem finishes_hbufFrame {f : Bytes → Cmd Bool} (hf : ∀ bs, Finishes (endCmd (f bs) s)) :
    Finishes (endCmd (hbufData 8 >>= f) s) := by
  obtain ⟨bs, -, hbs⟩ := hbufData_written hs (config_wf_hbuf hs.wf)
  exact finishes_run hbs (hf bs)

theorem finishes_wireExchange {pre : Slot → Cmd Unit} (hp : ∀ c, Ends (Live c fun _ => True) (pre c)) (dev fc : Byte)
    (body : Bytes) (mlen : Nat) (a : Word) (n : Nat) : Finishes (wireExchange pre dev fc body mlen a n s) :=
  finishes_enter hs fun hl => finishes_bind hl (hp _) fun _ _ hl =>
    finishes_bind hl (ends_mbExchange (lasts_true.serving _) _ _ _ _ _ _ _ _) fun _ _ _ => finishes_value rfl

theorem finishes_close (c : Slot) : Finishes (execClose c s) := by
  refine finishes_enter hs fun hl => ?_
  have hrelease : ∀ t, Finishes (endCmd (do
      if (s.conn c).owner then modify (fun s' => s'.modDesc (s.conn c).desc (fun d => { d with valid := false }))
      modify (fun s => s.dropConn c)
      pure false) t) := fun t =>
    finishes_ite (finishes_value rfl) (finishes_value rfl)
  refine finishes_ite ?_ (finishes_ite ?_ (hrelease s))
  · exact finishes_bind hl.returns (ends_destroyCan _ _) fun _ t _ => hrelease t
  · exact finishes_bind hl.returns (ends_discardedDisconnect _ _) fun _ t _ => hrelease t

theorem finishes_connect (c : Slot) : Finishes (execConnect c s) :=
  finishes_enter hs fun hl => finishes_bind hl
    (ends_orInvalidate (lasts_true.serving c) c (ends_ite (ends_check _) (ends_portCall (lasts_true.serving c) _ _ _)))
    fun _ _ _ => finishes_value rfl

theorem finishes_disconnect (c : Slot) : Finishes (execDisconnect c s) := by
  refine finishes_enter hs fun hl => finishes_run (cmd_modify _ s) (finishes_ite ?_ (finishes_value rfl))
  exact finishes_bind (P := State.portsReturn) hl.returns (ends_portCall serving_portsReturn _ _ _) fun _ _ _ =>
    finishes_value rfl

theorem finishes_init (c : Slot) : Finishes (execInit c s) := by
  refine finishes_enter hs fun hl => finishes_bind hl (ends_checkAccess _ _ _ _) fun _ _ hl =>
    finishes_bind hl (ends_tRead lasts_true _ _ _ _ _) fun v u hl => finishes_run (cmd_modify _ u) ?_
  have hl : Live c (fun _ => True) _ :=
    hl.modConn (f := fun k => { k with devType := some (BitVec.ofNat 32 (leValue v)) })
      (fun _ _ h => ⟨h.inbuf, h.outbuf, h.base, h.cfgDepth, h.detDepth⟩) fun _ _ _ => trivial
  refine finishes_bind (P := Live c fun _ => True) ⟨hl.returns, hl.conn⟩ (ends_initWrite _ _ _) fun _ _ hl => ?_
  exact finishes_bind hl (ends_initWrite _ _ _) fun _ _ hl =>
    finishes_bind hl (ends_initWrite _ _ _) fun _ _ _ => finishes_value rfl

theorem finishes_rdreg (c : Slot) : Finishes (execRdreg c s) :=
  finishes_enter hs fun hl => finishes_bind hl (ends_checkAccess _ _ _ _) fun _ _ hl =>
    finishes_bind hl (ends_tRead lasts_true _ _ _ _ _) fun _ _ _ => finishes_value rfl

/-- The checks of WRREG leave only data that HBUF and `inbuf` hold (R52). -/
theorem finishes_wrreg (c : Slot) : Finishes (execWrreg c s) := by
  refine finishes_enter hs fun hl => finishes_check fun hacc => ?_
  obtain ⟨bs, hlen, hbs⟩ := hbufData_written hs (accessError_hbuf hacc)
  have hroom : bs.length ≤ (s.conn c).inbuf.len := hlen.trans_le (accessError_inbuf hacc)
  exact finishes_run hbs (finishes_bind ((hl.with_holds hroom).weaken fun _ hk => hk.2) (ends_writeSeq _ _ _ _)
    fun _ _ _ => finishes_value rfl)

theorem finishes_reset (c : Slot) (b : Bool) : Finishes (execReset c b s) := by
  refine finishes_enter hs fun hl => finishes_bind hl (ends_orInvalidate (lasts_true.serving c) c ?_) fun _ _ _ =>
    finishes_value rfl
  refine ends_get_bind fun s _ => ?_
  split
  · exact ends_raise _
  · exact ends_tOpcode lasts_true _ _

theorem finishes_stream (c : Slot) (e : Bool) : Finishes (execStream c e s) := by
  refine finishes_enter hs fun hl => ?_
  have hserve := lasts_true.serving c
  have hsettle : ∀ t, Live c (fun _ => True) t → Finishes (endCmd (do
      sleep streamSettleMs
      modify (fun s => s.modConn c (fun k => { k with dstate := if e then .streaming else .idle }))
      pure false) t) := fun t hl => finishes_bind hl (ends_sleep hserve _) fun _ _ _ => finishes_value rfl
  cases (s.descOf c).can.family with
  | a =>
    exact finishes_bind hl (ends_streamAttempts hserve _ _ _) fun _ _ hl =>
      finishes_bind hl (ends_modify fun s hs => hserve.quiet hs (quiet_popCfg s c)) fun _ => hsettle
  | b => exact finishes_bind hl (ends_sendFrame hserve _ _) fun _ => hsettle

/-- Every command ends: by the instruction. -/
theorem exec_finishes (i : Instr) : Finishes (exec i s) := by
  have hserve := fun c => lasts_true.serving c
  cases i with
  | openConn c e => exact finishes_local _ s
  | closeConn c => exact finishes_close hs c
  | connect c => exact finishes_connect hs c
  | disconnect c => exact finishes_disconnect hs c
  | isconn c => exact finishes_local _ s
  | resize c e => exact finishes_local _ s
  | setaddr c => exact finishes_local _ s
  | getdt c => exact finishes_local _ s
  | setdt c => exact finishes_local _ s
  | bufpeek c e => exact finishes_local _ s
  | init c => exact finishes_init hs c
  | rdreg c => exact finishes_rdreg hs c
  | wrreg c => exact finishes_wrreg hs c
  | isready c => exact finishes_enter hs fun hl => finishes_last hl (ends_readyPoll lasts_true _ _)
  | setwe c e =>
    exact finishes_enter hs fun hl => finishes_bind hl (ends_setWriteEnable lasts_true e _) fun _ _ _ =>
      finishes_value rfl
  | getsr c =>
    exact finishes_enter hs fun hl => finishes_bind hl (ends_getStatus lasts_true _) fun _ _ _ => finishes_value rfl
  | reset c b => exact finishes_reset hs c b
  | crc16 => exact finishes_crcData hs fun _ => finishes_value rfl
  | crcchk => exact finishes_check fun _ => finishes_crcData hs fun _ => finishes_value rfl
  | canrd c =>
    exact finishes_enter hs fun hl => finishes_bind hl (ends_routeRead (hserve c) c) fun _ _ _ => finishes_value rfl
  | cansend c =>
    exact finishes_enter hs fun hl => finishes_hbufFrame hs fun _ =>
      finishes_bind hl (ends_sendFrame (hserve c) c _) fun _ _ _ => finishes_value rfl
  | cansendw c =>
    exact finishes_enter hs fun hl => finishes_hbufFrame hs fun _ =>
      finishes_bind hl (ends_writeAndWait (hserve c) c _) fun _ _ _ => finishes_value rfl
  | getval c =>
    exact finishes_enter hs fun hl => finishes_bind hl (ends_requestAnswer lasts_true _) fun _ _ _ => finishes_value rfl
  | setval c =>
    exact finishes_enter hs fun hl => finishes_hbufFrame hs fun _ =>
      finishes_bind hl (ends_requestAnswer lasts_true _) fun _ _ _ => finishes_value rfl
  | stream c e => exact finishes_stream hs c e
  | rdcfg c => exact finishes_enter hs fun hl => finishes_fifoRead hl fun _ => finishes_value rfl
  | rddet c => exact finishes_enter hs fun hl => finishes_fifoRead hl fun _ => finishes_value rfl
  | popcfg c => exact finishes_local _ s
  | popdet c => exact finishes_local _ s
  | mbReadData dev op addr size => exact finishes_wireExchange hs (fun c => ends_checkAccess c _ _ _) _ _ _ _ _ _
  | mbWriteData dev op addr payload => exact finishes_wireExchange hs (fun c => ends_checkAccess c _ _ _) _ _ _ _ _ _
  | mbSendOpcode dev op => exact finishes_wireExchange hs (fun _ => ends_pure ()) _ _ _ _ _ _

end

/-- CANRD is stuck in its read when no answer comes (R187). -/
theorem execCanrd_stuck {s : State} {c : Slot} (hs : s.admits c suitsCan true) (hd : s.draw 0 = none) :
    execCanrd c s = .next (s.note (.canRead (s.descOf c).port) .pending).hang := by
  have hread : canRead (s.descOf c).port s = .error .stuck (s.note (.canRead (s.descOf c).port) .pending) := by
    rw [canRead, portCall, nextDraw_eq_draw, hd]
  have hroute : routeRead c s = .error .stuck (s.note (.canRead (s.descOf c).port) .pending) :=
    (cmd_bind_ok (cmd_get s)).trans (cmd_bind_error hread)
  exact (endCmd_enter_none (commandError_of_admits hs)).trans (endCmd_stuck (cmd_bind_error hroute))

/-- Settles O13: by `exec_finishes`; a read that never returns, a stuck command and a read of STATUS are a step each. -/
theorem everyCommandEndsWhenPortsReturn : Obligations.EveryCommandEndsWhenPortsReturn := by
  unfold Obligations.EveryCommandEndsWhenPortsReturn
  refine ⟨fun i s hwf hlegal hret hwritten => exec_finishes ⟨hwf, hlegal, hret, hwritten⟩ i,
    fun s c hs hd => execCanrd_stuck hs hd, fun s hb => ⟨fun hstuck hw => ?stays, fun r hq => ?statusRead⟩⟩
  case stays => rw [step_of_hostWaits hb hw, runCommand, if_pos hstuck]
  case statusRead => exact step_access (.inl hq)

end Sys2Proof.Machine
end
